-- ==== Sys2Proof/Word.lean ====
section
/-! DEFINITION. The word types of HUFCORE: the 32-bit register word, the byte, the symbol and the node handle. -/

namespace Sys2Proof

/-- A register of the host window, a frequency counter, `LEN` and a node weight: 32 bits, unsigned (R4, R5, R11). -/
abbrev Word := BitVec 32

/-- An input or output byte (R3). -/
abbrev Byte := BitVec 8

/-- A symbol: the byte values 0 to 255 and the sentinel 256 (R3).
It is carried in 9 bits on a channel; the values 257 to 511 name no symbol (R78). -/
abbrev Symbol := Fin 257

/-- A node handle: an index into the arena of `NODE_CAP` = 513 entries (R7, R31). -/
abbrev Handle := Fin 513

end Sys2Proof
end

