-- ==== Sys2Proof/Config.lean ====
section
/-! DEFINITION. The parameters of R4, and the values the spec leaves open: the OPEN parameters and the free values.
Each `opaque` constant has no body, so no proof can see what it is. -/

namespace Sys2Proof.Config

/-- `CNT_W`, the width of every counter and weight (R4, D11). -/
def cntW : Nat := 32

/-- `NODE_CAP`, the number of entries of the node arena (R4, D15). -/
def nodeCap : Nat := 513

/-- `EOF`, the end-of-stream sentinel (R3, R4). -/
def eof : Symbol := 256

/-- `LEN_MAX` = 2^CNT_W − 2, the longest input COMPRESS accepts (R4, D11). -/
def lenMax : Word := 4294967294#32

/-- `MAX_CODE_LEN` = 256 bits (R4, R107). -/
def maxCodeLen : Nat := 256

/-- `MAGIC`, OPEN: any 32-bit value, fixed per instance of the hardware (R4, D8, I6; log entry 1). -/
opaque magic : Word

/-- `HUF_BASE`, OPEN: the platform's base address of the register window (R67; log entry 2).
No rule reads it: every access rule speaks of offsets from it. -/
opaque hufBase : Nat

/-- FREE VALUE: the value of the pad bit that draw number `n` gives (R57, D19, I2; log entry 3). -/
opaque freePadBit : Nat → Bool

/-- FREE VALUE: how far draw number `n` moves the input position on a `NoData` answer (R68, D21, I4; log entry 4).
The channel takes it modulo the number of bits that remained plus one. -/
opaque freeConsumed : Nat → Nat

/-- `HWCFG`: `CNT_W` in bits 7:0, `NODE_CAP` in bits 17:8, bits 31:18 read 0 (R22). -/
def hwcfg : Word := 0#14 ++ BitVec.ofNat 10 nodeCap ++ BitVec.ofNat 8 cntW

end Sys2Proof.Config
end

