-- ==== Sys2Proof/Syntax.lean ====
section
/-! DEFINITION. The instructions of HUFCORE: one constructor per row of the opcode table. -/

namespace Sys2Proof

/-- The four encoded forms the hardware decodes (`opcode_table.json`, R70 to R78). -/
inductive Instr where
  /-- `CMD` word 0x00000001 (R71, R140). -/
  | compress
  /-- `CMD` word 0x00000002 (R71, R160). -/
  | decompress
  /-- Tree record `0`; the records of two subtrees follow (R76, R111). -/
  | treeInternal
  /-- Tree record `1 s[8:0]`; `sym` is the 9-bit unsigned field, 257 to 511 included (R77, R78, R112). -/
  | treeLeaf (sym : Nat)
deriving DecidableEq, Repr

end Sys2Proof
end

