-- ==== Sys2Proof/Machine/State.lean ====
section
/-! DEFINITION. The state of HUFCORE: the register window's contents, the internal tables, the place inside a phase,
the channel pair, and the host's accesses still to come; the faults, the refusals and the state after reset. -/

namespace Sys2Proof.Machine

/-- `STATUS.PHASE` (R14). Codes 14 and 15 are reserved and never held, so they have no constructor. -/
inductive Phase where
  | idle | cCount | cBuild | cMagic | cTree | cCodes | cEmit | cTerm | cFlush
  | dMagic | dTree | dWalk | dDone | eFlush
deriving DecidableEq, Repr

/-- `STATUS.ERR_CODE` (R180). Codes 7 to 15 are reserved and never written, so they have no constructor. -/
inductive ErrCode where
  | none | invalidFormat | malformedStream | inconsistentTree | channelError | inputTooLong | inconsistentInput
deriving DecidableEq, Repr

/-- The `kind` bit of an arena entry: 0 Internal, 1 Leaf (R31). -/
inductive NodeKind where
  | internal | leaf
deriving DecidableEq, Repr

/-- One entry of the node arena (R7, R31). `sym` has a meaning for a Leaf, `left` and `right` for an Internal. -/
structure Node where
  kind : NodeKind
  sym : Symbol
  weight : Word
  left : Handle
  right : Handle
deriving DecidableEq, Repr

/-- One entry `(weight, seq, handle)` of the priority structure (R32). -/
structure PqEntry where
  weight : Word
  seq : BitVec 10
  handle : Handle
deriving DecidableEq, Repr

/-- Which child of an open Internal node is being parsed (R111, read semantics). -/
inductive Side where
  | left | right
deriving DecidableEq, Repr

/-- One entry of the traversal stack (R35): a handle, for C_CODES the path so far, for D_TREE the child being parsed.
In C_TREE and C_CODES an entry is a node still to be visited; in D_TREE it is an open Internal node. -/
structure Frame where
  handle : Handle
  path : List Bool := []
  side : Side := .left
deriving DecidableEq, Repr

/-- Where inside the phase's pseudocode the next step starts (the model's own bookkeeping, log entry 5).
R8 puts at most one transaction into a step, so a phase with several statements stops between them. -/
inductive Place where
  /-- The phase's first statement, or the head of its loop or traversal. -/
  | top
  /-- C_COUNT: the first pass has ended and `InRewind` is due (R90). -/
  | rewind
  /-- C_BUILD: the leaves are in and merging goes on (R102). -/
  | merge
  /-- C_TREE and D_TREE: a leaf record's tag has been written or read, and its 9-bit symbol is due (R112). -/
  | symbol
  /-- D_WALK: `CUR` has reached a byte's leaf and its `OutWrite(8)` is due (R163, R164). -/
  | byte
  /-- C_EMIT and C_TERM: the bits of the current code that are still to be written (R144, R145). -/
  | bits (rest : List Bool)
deriving DecidableEq, Repr

/-- How a channel answers its next transaction: an environment draw (R66, R207; log entry 6). -/
inductive Answer where
  /-- The transaction is carried out (R54, R55). -/
  | ok
  /-- The channel reports an I/O error (R66). -/
  | ioError
  /-- The channel never answers: the core stays blocked at this transaction (R60, R207). -/
  | silent
deriving DecidableEq, Repr

/-- The input channel: the bit sequence `IN`, the position `p`, and what the environment will do (R53, R54). -/
structure InChannel where
  /-- `IN`. -/
  bits : List Bool
  /-- `p`. -/
  pos : Nat
  /-- Whether the channel supports `rewind()` (R205); one that does not answers `IoError` to it (I15, log entry 7). -/
  rewindable : Bool
  /-- What the host presents after the rewind, where it differs from `bits` (R93, R206; log entry 8). -/
  replay : Option (List Bool)
  /-- The answers to the transactions to come; `ok` where the list has ended (log entry 6). -/
  answers : List Answer
deriving DecidableEq, Repr

/-- The output channel: the bit sequence `OUT` and the flag `closed`, and what the environment will do (R53, R55). -/
structure OutChannel where
  /-- `OUT`. -/
  bits : List Bool
  /-- `closed`. -/
  closed : Bool
  /-- The answers to the transactions to come; `ok` where the list has ended (log entry 6). -/
  answers : List Answer
deriving DecidableEq, Repr

/-- What happens between core steps: the accesses and other actions of the host (R8, R84, R209; log entry 9). -/
inductive HostMove where
  /-- No host action: the core takes its next step. -/
  | core
  /-- `WR`: a write access of `width` bytes at `offset` (R51, R84). -/
  | write (offset width : Nat) (data : Word)
  /-- `RD`: a read access of `width` bytes at `offset` (R51, R84). -/
  | read (offset width : Nat)
  /-- `POLL`: 32-bit reads at `offset` until bits `hi` to `lo` equal `value`, a core step after each that does not (R84). -/
  | poll (offset hi lo value : Nat)
  /-- `CHAN IN`: an input channel is presented at position 0 (R84, R205). -/
  | chanIn (c : InChannel)
  /-- `CHAN OUT`: a fresh, empty, open output channel is presented (R84, R205). -/
  | chanOut (answers : List Answer)
  /-- The platform asserts the reset input (R200, R209). -/
  | reset
deriving DecidableEq, Repr

/-- Why the machine stops with a fault. All three are safe: the model stops where the spec gives no meaning. -/
inductive Fault where
  /-- Raised by `outWrite` and `outFlushClose` on a closed output channel, which R55 and R205 give no meaning (log entry 10).
  Safe: only a command launched against the premises of R205 gets here. -/
  | outputClosed
  /-- Raised by C_BUILD when the arena has no free entry, an entry that R31 says does not exist (log entry 11).
  Safe: BUILD allocates at most 513 nodes (R104), so no operation gets here. -/
  | arenaFull
  /-- Raised by C_BUILD when `removeMin` finds `PQ` empty, which R102 gives no meaning (log entry 11).
  Safe: R101 inserts at least two leaves, so no operation gets here. -/
  | emptyQueue
deriving DecidableEq, Repr

/-- Why an action has no meaning. All are safe: the model stops. -/
inductive Refusal where
  /-- Raised by an arm of `exec` that has no meaning yet (no arm does). Safe. -/
  | notModelled (mnemonic : String)
  /-- Raised by a register access of another width, misaligned, or at offset 0x20 or beyond: "the model *refuses*" it (R51, I8).
  Safe. -/
  | hostAccess
  /-- Raised by a host that replaces a channel while an operation owns it, which R205 and R209 forbid (I12).
  Safe. -/
  | channelOwned
  /-- Raised by a tree record executed where the traversal has no such record due (log entry 12).
  Safe: no step does this, and R111 and R112 give a record no other operand. -/
  | recordNotDue
deriving DecidableEq, Repr

/-- Everything the spec gives the machine (10_state.md, 20_memory.md), with the model's own bookkeeping. -/
structure State where
  /-- `STATUS.BUSY` (R15). -/
  busy : Bool
  /-- `STATUS.DONE` (R16). -/
  done : Bool
  /-- `STATUS.ERROR` (R16). -/
  error : Bool
  /-- `STATUS.REJ` (R17). -/
  rej : Bool
  /-- `STATUS.PHASE` (R14). -/
  phase : Phase
  /-- `STATUS.ERR_CODE` (R18, R180). -/
  errCode : ErrCode
  /-- `STATUS.ERR_DETAIL` (R18, R181). -/
  errDetail : BitVec 4
  /-- `STATUS.LAST_OP` (R13). -/
  lastOp : BitVec 2
  /-- `IN_BITS` (R19). -/
  inBits : BitVec 64
  /-- `OUT_BITS` (R20). -/
  outBits : BitVec 64
  /-- `FREQ[0..255]` (R30). -/
  freq : Vector Word 256
  /-- `LEN` (R30). -/
  len : Word
  /-- `NODE[0..512]` (R31). -/
  node : Vector Node 513
  /-- `NCOUNT`, 0 to 513 (R31). -/
  ncount : Fin 514
  /-- `ROOT` (R31). -/
  root : Handle
  /-- `PQ`, held with the entry that comes first at the head (R32, R100). -/
  pq : List PqEntry
  /-- `SEQ` (R32). -/
  seq : BitVec 10
  /-- `CODE[0..256].CBITS`; `CLEN` is the length of the sequence (R33). -/
  code : Vector (List Bool) 257
  /-- `CUR` (R34). -/
  cur : Handle
  /-- The traversal stack (R35). -/
  stack : List Frame
  /-- The place inside the phase (the model's own). -/
  place : Place
  /-- The input channel of the pair (R53). -/
  input : InChannel
  /-- The output channel of the pair (R53). -/
  output : OutChannel
  /-- How many free values have been drawn (the model's own; log entries 3 and 4). -/
  draws : Nat
  /-- The host's moves still to come, next one first (the model's own; log entry 9). -/
  host : List HostMove
  /-- What the host's last register read returned (the model's own; R84). -/
  hostData : Word
deriving DecidableEq, Repr

/-- An arena entry at reset: unspecified by R37, so the model's choice (log entry 13). -/
def Node.reset : Node :=
  { kind := .internal, sym := 0, weight := 0, left := 0, right := 0 }

/-- The state right after reset (R37, R200).
`STATUS` and the counters are the spec's 0; the internal tables, which R37 leaves unspecified, and the model's own
fields take the values of log entry 13. -/
def State.reset : State where
  busy := false
  done := false
  error := false
  rej := false
  phase := .idle
  errCode := .none
  errDetail := 0
  lastOp := 0b00
  inBits := 0
  outBits := 0
  freq := Vector.replicate 256 0
  len := 0
  node := Vector.replicate 513 Node.reset
  ncount := 0
  root := 0
  pq := []
  seq := 0
  code := Vector.replicate 257 []
  cur := 0
  stack := []
  place := .top
  input := { bits := [], pos := 0, rewindable := true, replay := none, answers := [] }
  output := { bits := [], closed := false, answers := [] }
  draws := 0
  host := []
  hostData := 0

/-- The outcome of a step of this machine. -/
abbrev Result := Host.Outcome State Fault Refusal

end Sys2Proof.Machine
end

