-- ==== Sys2Proof/Machine/Flags.lean ====
section
/-! DEFINITION. `STATUS`: the codes of its fields, the word a read returns, and every rule that sets or clears its flags. -/

namespace Sys2Proof.Machine

/-- The 4-bit code of a phase (R14). -/
def Phase.code : Phase → BitVec 4
  | .idle => 0
  | .cCount => 1
  | .cBuild => 2
  | .cMagic => 3
  | .cTree => 4
  | .cCodes => 5
  | .cEmit => 6
  | .cTerm => 7
  | .cFlush => 8
  | .dMagic => 9
  | .dTree => 10
  | .dWalk => 11
  | .dDone => 12
  | .eFlush => 13

/-- The 4-bit code of an error (R180). -/
def ErrCode.code : ErrCode → BitVec 4
  | .none => 0
  | .invalidFormat => 1
  | .malformedStream => 2
  | .inconsistentTree => 3
  | .channelError => 4
  | .inputTooLong => 5
  | .inconsistentInput => 6

/-- The word a read of `STATUS` returns (R13): bits 31:18 read 0. -/
def State.statusWord (s : State) : Word :=
  0#14 ++ s.lastOp ++ s.errDetail ++ s.errCode.code ++ s.phase.code ++
    BitVec.ofBool s.rej ++ BitVec.ofBool s.error ++ BitVec.ofBool s.done ++ BitVec.ofBool s.busy

/-- A rejected write to `CMD`: `REJ` is set and nothing else changes (R17, R72, R73). -/
def State.reject (s : State) : State := { s with rej := true }

/-- An accepted command: the flags, the error fields and the counters are cleared, `LAST_OP` and `BUSY` are set (R15 to R20, R72). -/
def State.accept (op : BitVec 2) (s : State) : State :=
  { s with
    rej := false, done := false, error := false
    errCode := .none, errDetail := 0, lastOp := op
    inBits := 0, outBits := 0, busy := true }

/-- `complete()`: the operation ends successfully (R189). -/
def State.complete (s : State) : State :=
  { s with phase := .idle, place := .top, busy := false, done := true }

/-- The end of the error sequence (R16, R184). -/
def State.endError (s : State) : State :=
  { s with phase := .idle, place := .top, busy := false, error := true }

/-- The first `raise` of an operation records its code and detail (R18, R184). -/
def State.recordError (e : ErrCode) (d : BitVec 4) (s : State) : State :=
  { s with errCode := e, errDetail := d }

end Sys2Proof.Machine
end

