-- ==== Sys2Proof/WellFormed.lean ====
section
/-! DEFINITION. The checks that make an instruction encodable. -/

namespace Sys2Proof

/-- A leaf record's symbol field has 9 bits (R77, R78); the other three forms have no operand (R70, R77). -/
def Instr.wellFormed : Instr → Bool
  | .compress => true
  | .decompress => true
  | .treeInternal => true
  | .treeLeaf sym => decide (sym < 512)

end Sys2Proof
end

