-- ==== Sys2Proof/Decode.lean ====
section
/-! DEFINITION. Bit sequences, the decoder of command words and tree records, total and rejecting by name, and the encoder. -/

namespace Sys2Proof

/-! ### Bit sequences (R5, R56) -/

/-- `bits_w(v)`: the `w` low bits of `v`, most significant first (R5). -/
def bitsOf : Nat → Nat → List Bool
  | 0, _ => []
  | w + 1, v => v.testBit w :: bitsOf w v

/-- The value of a bit sequence read with its first bit as the most significant one (R54). -/
def natOf (bits : List Bool) : Nat :=
  bits.foldl (fun acc b => 2 * acc + b.toNat) 0

/-- The bit sequence of a byte stream: bit i of the stream is bit 7 − (i mod 8) of byte ⌊i/8⌋ (R53, R56). -/
def bitsOfBytes : List Byte → List Bool
  | [] => []
  | b :: bs => bitsOf 8 b.toNat ++ bitsOfBytes bs

/-! ### Decoding -/

/-- Why a word or a bit sequence is not an instruction. -/
inductive DecodeError where
  /-- `CMD` bits 31:2 are not all 0 (R72 check 2, R73). -/
  | reservedBits
  /-- `OP` is 0b00 or 0b11 (R72 check 3, R73). -/
  | reservedOp
  /-- The bits end before the record does (R77). -/
  | truncatedRecord
  /-- Bits follow the record, so the sequence is not one record (R77). -/
  | trailingBits
deriving DecidableEq, Repr

/-- The decoder of a `CMD` word: `RSV` is checked before `OP` (R70 to R73). -/
def decodeCmd (w : Word) : Except DecodeError Instr :=
  if w.extractLsb' 2 30 ≠ 0#30 then .error .reservedBits
  else if w.extractLsb' 0 2 = 0b01#2 then .ok .compress
  else if w.extractLsb' 0 2 = 0b10#2 then .ok .decompress
  else .error .reservedOp

/-- The decoder of one tree record at the head of a bit sequence, with the bits after it.
The first bit, the tag, fixes the record's length (R76, R77). -/
def decodeRecord : List Bool → Except DecodeError (Instr × List Bool)
  | [] => .error .truncatedRecord
  | false :: rest => .ok (.treeInternal, rest)
  | true :: rest =>
    if 9 ≤ rest.length then .ok (.treeLeaf (natOf (rest.take 9)), rest.drop 9)
    else .error .truncatedRecord

/-- An encoded instruction: a command word, or the bits of a tree record in transmission order (R70, R77). -/
inductive Encoded where
  | cmd (w : Word)
  | record (bits : List Bool)
deriving DecidableEq, Repr

/-- The decoder on either kind: a record must be the whole bit sequence. -/
def decode : Encoded → Except DecodeError Instr
  | .cmd w => decodeCmd w
  | .record bits =>
    match decodeRecord bits with
    | .ok (i, []) => .ok i
    | .ok (_, _ :: _) => .error .trailingBits
    | .error e => .error e

/-! ### Encoding -/

/-- The encoder, from the tables of R71 and R77. -/
def encode : Instr → Encoded
  | .compress => .cmd 0x00000001#32
  | .decompress => .cmd 0x00000002#32
  | .treeInternal => .record [false]
  | .treeLeaf sym => .record (true :: bitsOf 9 sym)

/-! ### The opcode table's numbering -/

/-- The bits of a row of the opcode table, in transmission order.
A record row is 1 bit or 10 bits with the tag as its most significant bit (R77 and the table's notes). -/
def tableRecordBits (nbits w : Nat) : List Bool :=
  if nbits ≤ 8 then bitsOf 1 w else bitsOf 10 w

/-- The instruction the decoder reads from the bits `w` of a row of `nbits` bits in whole bytes:
8 for TREE_INTERNAL, 16 for TREE_LEAF, 32 for the two command words. -/
def decodeTableWord (nbits w : Nat) : Option Instr :=
  let e : Encoded := if nbits ≤ 16 then .record (tableRecordBits nbits w) else .cmd (BitVec.ofNat 32 w)
  match decode e with
  | .ok i => some i
  | .error _ => none

end Sys2Proof
end

