-- ==== Sys2Proof/Machine/Operands.lean ====
section
/-! DEFINITION. The operand forms: the symbol field, bytes as symbols, the fields of a node, a counter, a code. -/

namespace Sys2Proof.Machine

/-- A byte value is the symbol of the same number (R3). -/
def byteSymbol (b : Byte) : Symbol := ⟨b.toNat, by have := b.isLt; omega⟩

/-- The symbol a 9-bit field names; 257 to 511 name none (R78). -/
def symbolOf (v : Nat) : Option Symbol :=
  if h : v < 257 then some ⟨v, h⟩ else none

/-- The `NODE` entry of a handle. -/
def State.nodeAt (s : State) (h : Handle) : Node := s.node[h.val]

/-- `isLeaf(h)` (R7). -/
def State.isLeaf (s : State) (h : Handle) : Bool := decide ((s.nodeAt h).kind = .leaf)

/-- `FREQ[b]` (R30). -/
def State.freqAt (s : State) (b : Byte) : Word := s.freq[b.toNat]

/-- `CODE[x].CBITS` (R33). -/
def State.cbits (s : State) (x : Symbol) : List Bool := s.code[x.val]

/-- `CODE[x].CLEN`, the length of `CBITS` (R33). -/
def State.clen (s : State) (x : Symbol) : Nat := (s.cbits x).length

/-- The child that one bit of a walk selects: left on 0, right on 1 (R79, R163). -/
def State.child (s : State) (h : Handle) (bit : Bool) : Handle :=
  if bit then (s.nodeAt h).right else (s.nodeAt h).left

/-- The record of the node `h` in the tree field (R76, R110): the operand form of a tree record on the write side. -/
def State.recordOf (s : State) (h : Handle) : Instr :=
  if s.isLeaf h then .treeLeaf (s.nodeAt h).sym.val else .treeInternal

end Sys2Proof.Machine
end

