-- ==== Sys2Proof/Machine/Ops.lean ====
section
/-! DEFINITION. The shared operations: phase moves, the error sequence, the channel transactions, the arena, the priority
structure, the register window and reset. -/

namespace Sys2Proof.Machine

/-! ### Phases -/

/-- `phase <- P`: the operation moves to the first statement of phase `p` (R6, R14). -/
def State.goto (p : Phase) (s : State) : State := { s with phase := p, place := .top }

/-- The next step of the same phase starts at `p`. -/
def State.moveTo (p : Place) (s : State) : State := { s with place := p }

/-! ### Taking an error (R184) -/

/-- `raise E(d)`: the error is recorded and the operation enters E_FLUSH, where the output is flushed once.
After a failed `OutFlushClose` (`flushFailed`) there is no second flush and the operation ends at once (R184, D23). -/
def State.raise (e : ErrCode) (d : BitVec 4) (flushFailed : Bool) (s : State) : State :=
  if flushFailed then (s.recordError e d).endError else (s.recordError e d).goto .eFlush

/-! ### Channel transactions (R54, R55) -/

/-- The answer a script of answers gives next: `ok` where it has ended (R66; log entry 6). -/
def nextAnswer : List Answer → Answer
  | [] => .ok
  | a :: _ => a

/-- The state after the input channel has answered. -/
def State.inAnswered (s : State) : State :=
  { s with input := { s.input with answers := s.input.answers.tail } }

/-- The state after the output channel has answered. -/
def State.outAnswered (s : State) : State :=
  { s with output := { s.output with answers := s.output.answers.tail } }

/-- What `InRead` returns, with the state after it. -/
inductive ReadResult where
  /-- The channel does not answer (R207). -/
  | blocked
  | ioError (t : State)
  | noData (t : State)
  | value (v : Nat) (t : State)

/-- What `InRewind` returns, with the state after it. -/
inductive RewindResult where
  /-- The channel does not answer (R207). -/
  | blocked
  | ioError (t : State)
  | ok (t : State)

/-- What `OutWrite` and `OutFlushClose` return, with the state after them. -/
inductive WriteResult where
  /-- The channel does not answer (R207). -/
  | blocked
  /-- The channel is closed: what it does with a transaction is given by no rule (R55). -/
  | closed
  | ioError (t : State)
  | ok (t : State)

/-- The next `n` bits of the input channel. -/
def State.inNext (n : Nat) (s : State) : List Bool := (s.input.bits.drop s.input.pos).take n

/-- The input channel delivers `n` bits: `p` and `IN_BITS` advance by `n` (R19, R54). -/
def State.inAdvance (n : Nat) (s : State) : State :=
  { s with
    input := { s.input with pos := s.input.pos + n }
    inBits := s.inBits + BitVec.ofNat 64 n }

/-- The position after a `NoData` answer: anything from `p` to the end of the input, by a free value (R68; log entry 4). -/
def State.inExhaust (s : State) : State :=
  { s with
    input := { s.input with
      pos := s.input.pos + Config.freeConsumed s.draws % (s.input.bits.length - s.input.pos + 1) }
    draws := s.draws + 1 }

/-- `InRead(n)` (R54). -/
def State.inRead (n : Nat) (s : State) : ReadResult :=
  match nextAnswer s.input.answers with
  | .silent => .blocked
  | .ioError => .ioError s.inAnswered
  | .ok =>
    if s.input.pos + n ≤ s.input.bits.length then .value (natOf (s.inNext n)) (s.inAnswered.inAdvance n)
    else .noData s.inAnswered.inExhaust

/-- `InReadBit()`: the same as `InRead(1)` (R54). -/
def State.inReadBit (s : State) : ReadResult := s.inRead 1

/-- The input channel is rewound: `p <- 0`, and the second pass's data stand where the host presents others (R54, R93). -/
def State.inRewound (s : State) : State :=
  { s with input := { s.input with pos := 0, bits := s.input.replay.getD s.input.bits, replay := none } }

/-- `InRewind()` (R54). A channel that cannot rewind answers `IoError` (I15; log entry 7). -/
def State.inRewind (s : State) : RewindResult :=
  match nextAnswer s.input.answers with
  | .silent => .blocked
  | .ioError => .ioError s.inAnswered
  | .ok => if s.input.rewindable then .ok s.inAnswered.inRewound else .ioError s.inAnswered

/-- The core passes `bits` to the output channel: `OUT` and `OUT_BITS` grow (R20, R55). -/
def State.outAppend (bits : List Bool) (s : State) : State :=
  { s with
    output := { s.output with bits := s.output.bits ++ bits }
    outBits := s.outBits + BitVec.ofNat 64 bits.length }

/-- `OutWrite(n, v)` (R55). -/
def State.outWrite (n v : Nat) (s : State) : WriteResult :=
  if s.output.closed then .closed
  else
    match nextAnswer s.output.answers with
    | .silent => .blocked
    | .ioError => .ioError s.outAnswered
    | .ok => .ok (s.outAnswered.outAppend (bitsOf n v))

/-- How many pad bits complete the last byte of `n` bits: 0 to 7 (R55). -/
def padLength (n : Nat) : Nat := (8 - n % 8) % 8

/-- `k` pad bits of free values, from draw number `d` on (R57; log entry 3). -/
def padBits (d : Nat) : Nat → List Bool
  | 0 => []
  | k + 1 => Config.freePadBit d :: padBits (d + 1) k

/-- The output channel is padded to a whole number of bytes; `OUT_BITS` does not count the pad (R20, R55). -/
def State.outPad (s : State) : State :=
  { s with
    output := { s.output with
      bits := s.output.bits ++ padBits s.draws (padLength s.output.bits.length) }
    draws := s.draws + padLength s.output.bits.length }

/-- `closed <- true` (R55). -/
def State.outClose (s : State) : State := { s with output := { s.output with closed := true } }

/-- `OutFlushClose()` (R55). -/
def State.outFlushClose (s : State) : WriteResult :=
  if s.output.closed then .closed
  else
    match nextAnswer s.output.answers with
    | .silent => .blocked
    | .ioError => .ioError s.outAnswered.outClose
    | .ok => .ok s.outAnswered.outPad.outClose

/-- `if OutWrite(n, v) = IoError: raise ChannelError(3)`, then `k`: the one way every phase writes (R149, R170).
A channel that does not answer leaves the state as it is (R60, R207; log entry 6). -/
def State.writeThen (n v : Nat) (s : State) (k : State → Result) : Result :=
  match s.outWrite n v with
  | .blocked => .next s
  | .closed => .fault .outputClosed
  | .ioError t => .next (t.raise .channelError 3 false)
  | .ok t => k t

/-! ### The node arena (R31) -/

/-- Entry `h` of the arena is written. -/
def State.setNode (h : Handle) (n : Node) (s : State) : State := { s with node := s.node.set h.val n }

/-- `alloc X`: entry `NCOUNT` is written by `write`, its handle is returned and `NCOUNT` is incremented (R31, R101).
`none` where the arena has no entry left. The fields `X` does not give keep what the entry held. -/
def State.alloc (write : Node → Node) (s : State) : Option (Handle × State) :=
  if h : s.ncount.val < 513 then
    let k : Handle := ⟨s.ncount.val, h⟩
    some (k, { s.setNode k (write (s.nodeAt k)) with ncount := ⟨s.ncount.val + 1, by omega⟩ })
  else none

/-- `Leaf(x, w)` (R7). -/
def Node.asLeaf (x : Symbol) (w : Word) (n : Node) : Node := { n with kind := .leaf, sym := x, weight := w }

/-- `Internal(w, l, r)` (R7). -/
def Node.asInternal (w : Word) (l r : Handle) (n : Node) : Node :=
  { n with kind := .internal, weight := w, left := l, right := r }

/-- `Internal(0, -, -)`: the children are filled in after their own parses (R111, R115). -/
def Node.asOpen (n : Node) : Node := { n with kind := .internal, weight := 0 }

/-! ### The priority structure (R100) -/

/-- The priority order: by weight, then first-in first-out by `seq`; both comparisons unsigned (R5, R100). -/
def PqEntry.before (a b : PqEntry) : Bool :=
  decide (a.weight < b.weight) || (decide (a.weight = b.weight) && decide (a.seq < b.seq))

/-- The entry's place in a list held in priority order. -/
def pqInsert (e : PqEntry) : List PqEntry → List PqEntry
  | [] => [e]
  | x :: xs => if e.before x then e :: x :: xs else x :: pqInsert e xs

/-- `insert(h)`: adds `(weight(h), SEQ, h)` and then increments `SEQ` (R100). -/
def State.insert (h : Handle) (s : State) : State :=
  { s with
    pq := pqInsert { weight := (s.nodeAt h).weight, seq := s.seq, handle := h } s.pq
    seq := s.seq + 1 }

/-! ### The register window (R11, R51) -/

/-- The accesses R51 defines: 32 bits wide, at a multiple of 4 within 0x00 to 0x1C. -/
def accessAllowed (offset width : Nat) : Bool :=
  decide (width = 4) && decide (offset % 4 = 0) && decide (offset < 0x20)

/-- What a read at `offset` returns (R11); a read of `CMD` returns 0. It changes nothing (R52). -/
def State.windowRead (offset : Nat) (s : State) : Word :=
  if offset = 0x04 then s.statusWord
  else if offset = 0x08 then s.inBits.extractLsb' 0 32
  else if offset = 0x0C then s.inBits.extractLsb' 32 32
  else if offset = 0x10 then s.outBits.extractLsb' 0 32
  else if offset = 0x14 then s.outBits.extractLsb' 32 32
  else if offset = 0x18 then Config.magic
  else if offset = 0x1C then Config.hwcfg
  else 0

/-- The field of bits `hi` down to `lo` of a register (R5, R84). -/
def fieldOf (hi lo : Nat) (w : Word) : Nat := (w.toNat >>> lo) % 2 ^ (hi + 1 - lo)

/-! ### Reset (R200) -/

/-- A reset of a running instance: every piece of state takes its reset value, the channels are not touched (R200, R202).
The host's moves, the value it last read and the count of draws are outside the instance. -/
def State.resetInstance (s : State) : State :=
  { State.reset with
    input := s.input, output := s.output, draws := s.draws, host := s.host, hostData := s.hostData }

end Sys2Proof.Machine
end

