-- ==== Sys2Proof/Machine/Build.lean ====
section
/-! DEFINITION. Phase C_BUILD, the tree builder (41_tree_build.md). It issues no transaction. -/

namespace Sys2Proof.Machine

/-- `h <- alloc Leaf(x, w); insert(h)` (R101). -/
def State.insertLeaf (x : Symbol) (w : Word) (s : State) : Option State :=
  match s.alloc (Node.asLeaf x w) with
  | none => none
  | some (h, t) => some (t.insert h)

/-- One leaf for each listed byte value with a nonzero count, in the list's order and with no early exit (R101). -/
def insertLeaves : List Byte → State → Option State
  | [], s => some s
  | b :: bs, s =>
    if s.freqAt b = 0 then insertLeaves bs s
    else
      match s.insertLeaf (byteSymbol b) (s.freqAt b) with
      | none => none
      | some t => insertLeaves bs t

/-- The 256 byte values in ascending order. -/
def allBytes : List Byte := (List.range 256).map (BitVec.ofNat 8)

/-- The padding leaf `Leaf(0, 0)`, for the empty input only (R101, D10). -/
def State.insertPadding (s : State) : Option State :=
  if s.len = 0 then s.insertLeaf 0 0 else some s

/-- `PQ <- empty; SEQ <- 0; NCOUNT <- 0` (R101). -/
def State.buildStart (s : State) : State := { s with pq := [], seq := 0, ncount := 0 }

/-- BUILD, part 1: the leaves, the padding leaf if the input is empty, and the sentinel of weight 1 (R101). -/
def State.buildLeaves (s : State) : Option State :=
  match insertLeaves allBytes s.buildStart with
  | none => none
  | some t =>
    match t.insertPadding with
    | none => none
    | some u => u.insertLeaf Config.eof 1

/-- BUILD, part 2, one merge: the first entry removed becomes the left child, the second the right child (R102).
The weights are added as unsigned 32-bit numbers (R103). -/
def State.mergeTwo (a b : PqEntry) (rest : List PqEntry) (s : State) : Option State :=
  match s.alloc (Node.asInternal (a.weight + b.weight) a.handle b.handle) with
  | none => none
  | some (h, t) => some ({ t with pq := rest }.insert h)

/-- The one entry left is the root; the traversal and the magic follow (R102). -/
def State.buildDone (a : PqEntry) (s : State) : State :=
  { s.goto .cMagic with pq := [], root := a.handle }

/-- A step of C_BUILD: part 1 as a whole, then one merge a step, then the end (R101, R102). -/
def buildStep (s : State) : Result :=
  if s.place = .merge then
    match s.pq with
    | [] => .fault .emptyQueue
    | [a] => .next (s.buildDone a)
    | a :: b :: rest =>
      match s.mergeTwo a b rest with
      | none => .fault .arenaFull
      | some t => .next t
  else
    match s.buildLeaves with
    | none => .fault .arenaFull
    | some t => .next (t.moveTo .merge)

end Sys2Proof.Machine
end

