-- ==== Sys2Proof/Machine/Count.lean ====
section
/-! DEFINITION. Phase C_COUNT, the frequency counter (40_frequency.md). -/

namespace Sys2Proof.Machine

/-- One byte of the first pass is counted, unless `LEN_MAX` bytes have been counted already (R90, R91). -/
def State.countByte (b : Byte) (s : State) : State :=
  if s.len = Config.lenMax then s.raise .inputTooLong 0 false
  else { s with freq := s.freq.set b.toNat (s.freqAt b + 1), len := s.len + 1 }

/-- A step of C_COUNT: one `InRead(8)`, or the `InRewind()` that ends the phase (R90). -/
def countStep (s : State) : Result :=
  if s.place = .rewind then
    match s.inRewind with
    | .blocked => .next s
    | .ioError t => .next (t.raise .channelError 2 false)
    | .ok t => .next (t.goto .cBuild)
  else
    match s.inRead 8 with
    | .blocked => .next s
    | .ioError t => .next (t.raise .channelError 1 false)
    | .noData t => .next (t.moveTo .rewind)
    | .value v t => .next (t.countByte (BitVec.ofNat 8 v))

end Sys2Proof.Machine
end

