-- ==== Sys2Proof/Machine/Commands.lean ====
section
/-! DEFINITION. The command words COMPRESS and DECOMPRESS: acceptance and the start of the operation. -/

namespace Sys2Proof.Machine

/-- COMPRESS start: `FREQ`, `LEN` and every `CLEN` are cleared, then `phase <- C_COUNT` (R30, R33, R36, R140). -/
def State.startCompress (s : State) : State :=
  { s.goto .cCount with
    freq := Vector.replicate 256 0
    len := 0
    code := Vector.replicate 257 [] }

/-- DECOMPRESS start: `phase <- D_MAGIC`; `FREQ`, `LEN` and `CODE` are not touched (R36, R160). -/
def State.startDecompress (s : State) : State := s.goto .dMagic

/-- COMPRESS: rejected while an operation runs, else accepted and started (R72, R140).
The phases that follow are the core's steps (Machine/Count.lean to Machine/Emit.lean). -/
def execCompress (s : State) : Result :=
  if s.busy then .next s.reject else .next (s.accept 0b01).startCompress

/-- DECOMPRESS: rejected while an operation runs, else accepted and started (R72, R160).
The phases that follow are the core's steps (Machine/Fetch.lean and Machine/Walk.lean). -/
def execDecompress (s : State) : Result :=
  if s.busy then .next s.reject else .next (s.accept 0b10).startDecompress

end Sys2Proof.Machine
end

