-- ==== Sys2Proof/Machine/Tree.lean ====
section
/-! DEFINITION. The tree records TREE_INTERNAL and TREE_LEAF, written in phase C_TREE and read in phase D_TREE. -/

namespace Sys2Proof.Machine

/-! ### Writing (R110 to R112) -/

/-- The nodes still to be visited after an Internal node: its left child first, then its right child, each with its path.
C_TREE and C_CODES both visit in this order (R110, R130). -/
def State.descend (f : Frame) (rest : List Frame) (s : State) : State :=
  { s with
    stack :=
      { handle := (s.nodeAt f.handle).left, path := f.path ++ [false] } ::
      { handle := (s.nodeAt f.handle).right, path := f.path ++ [true] } :: rest }

/-- The node is done: the traversal goes on with the rest of the stack. -/
def State.visited (rest : List Frame) (s : State) : State := { s with stack := rest, place := .top }

/-- TREE_INTERNAL, write semantics: `OutWrite(1, 0)`, then the left and the right subtree (R111). -/
def writeInternal (s : State) : Result :=
  match s.stack with
  | [] => .refused .recordNotDue
  | f :: rest =>
    if s.place = .top ∧ s.recordOf f.handle = .treeInternal then
      s.writeThen 1 0 fun t => .next (t.descend f rest)
    else .refused .recordNotDue

/-- TREE_LEAF, write semantics: `OutWrite(1, 1)`, and at the next step `OutWrite(9, sym)` (R112). -/
def writeLeaf (sym : Nat) (s : State) : Result :=
  match s.stack with
  | [] => .refused .recordNotDue
  | f :: rest =>
    if s.recordOf f.handle = .treeLeaf sym then
      if s.place = .top then s.writeThen 1 1 fun t => .next (t.moveTo .symbol)
      else if s.place = .symbol then s.writeThen 9 sym fun t => .next (t.visited rest)
      else .refused .recordNotDue
    else .refused .recordNotDue

/-! ### Reading (R111, R112, R115, R116) -/

/-- `ReadNode()` has returned the root: a Leaf root raises `InconsistentTree(1)`, else the walk starts at it (R116, R163). -/
def State.treeRead (root : Handle) (s : State) : State :=
  let t := { s with root := root, stack := [] }
  if t.isLeaf root then t.raise .inconsistentTree 1 false
  else { t.goto .dWalk with cur := root }

/-- `left(h) <- c` or `right(h) <- c` (R115). -/
def State.setChild (h : Handle) (side : Side) (c : Handle) (s : State) : State :=
  match side with
  | .left => s.setNode h { s.nodeAt h with left := c }
  | .right => s.setNode h { s.nodeAt h with right := c }

/-- `ReadNode()` returns `h` to the open nodes of the stack (R115): a left child is followed by the right one, a right
child completes its node, and the node is returned in its turn. -/
def State.returnNode (h : Handle) : List Frame → State → State
  | [], s => s.treeRead h
  | f :: rest, s =>
    match f.side with
    | .left => { s.setChild f.handle .left h with stack := { f with side := .right } :: rest, place := .top }
    | .right => State.returnNode f.handle rest (s.setChild f.handle .right h)

/-- TREE_INTERNAL, read semantics, after the tag: the arena must have room, then the node is opened (R111, R115). -/
def readInternal (s : State) : Result :=
  if s.place = .top then
    if s.ncount.val = 513 then .next (s.raise .inconsistentTree 3 false)
    else
      match s.alloc Node.asOpen with
      | none => .fault .arenaFull
      | some (h, t) => .next { t with stack := { handle := h } :: t.stack }
  else .refused .recordNotDue

/-- TREE_LEAF, read semantics, after the tag and the symbol field: the arena must have room, a field above 256 raises
`InconsistentTree(2)`, else the leaf is allocated and returned (R112, R115). -/
def readLeaf (sym : Nat) (s : State) : Result :=
  if s.place = .symbol then
    if s.ncount.val = 513 then .next (s.raise .inconsistentTree 3 false)
    else
      match symbolOf sym with
      | none => .next (s.raise .inconsistentTree 2 false)
      | some x =>
        match s.alloc (Node.asLeaf x 0) with
        | none => .fault .arenaFull
        | some (h, t) => .next (t.returnNode h t.stack)
  else .refused .recordNotDue

/-! ### The two records -/

/-- TREE_INTERNAL (R111). -/
def execTreeInternal (s : State) : Result :=
  if s.phase = .cTree then writeInternal s
  else if s.phase = .dTree then readInternal s
  else .refused .recordNotDue

/-- TREE_LEAF (R112). -/
def execTreeLeaf (sym : Nat) (s : State) : Result :=
  if s.phase = .cTree then writeLeaf sym s
  else if s.phase = .dTree then readLeaf sym s
  else .refused .recordNotDue

end Sys2Proof.Machine
end

