-- ==== Sys2Proof/Machine/Dispatch.lean ====
section
/-! DEFINITION. One arm per instruction. -/

namespace Sys2Proof.Machine

/-- The meaning of an instruction at a state. -/
def exec (i : Instr) (s : State) : Host.Outcome State Fault Refusal :=
  match i with
  | .compress => Sys2Proof.Machine.execCompress s
  | .decompress => Sys2Proof.Machine.execDecompress s
  | .treeInternal => Sys2Proof.Machine.execTreeInternal s
  | .treeLeaf sym => Sys2Proof.Machine.execTreeLeaf sym s

end Sys2Proof.Machine
end

