-- ==== Sys2Proof/Machine/Codes.lean ====
section
/-! DEFINITION. Phase C_CODES, the code-table generator (43_code_table.md). It issues no transaction. -/

namespace Sys2Proof.Machine

/-- A traversal of the tree starts at `ROOT` with an empty path (R35, R36, R110, R130). -/
def State.startTraversal (p : Phase) (s : State) : State :=
  { s.goto p with stack := [{ handle := s.root }] }

/-- `CODE[x].CLEN <- len(path); CODE[x].CBITS <- path` (R130). -/
def State.bindCode (x : Symbol) (path : List Bool) (s : State) : State :=
  { s with code := s.code.set x.val path }

/-- A step of C_CODES: one node of the depth-first traversal, left before right; the phase ends with the traversal (R130). -/
def codesStep (s : State) : Result :=
  match s.stack with
  | [] => .next (s.goto .cEmit)
  | f :: rest =>
    if s.isLeaf f.handle then .next ((s.bindCode (s.nodeAt f.handle).sym f.path).visited rest)
    else .next (s.descend f rest)

end Sys2Proof.Machine
end

