-- ==== Sys2Proof/Machine/Emit.lean ====
section
/-! DEFINITION. Phases C_MAGIC, C_EMIT, C_TERM and C_FLUSH (44_compress.md), and the error sequence's flush (60_exceptions.md). -/

namespace Sys2Proof.Machine

/-- C_MAGIC: `OutWrite(32, MAGIC)`, then the tree is written from its root (R110, R142). -/
def magicStep (s : State) : Result :=
  s.writeThen 32 Config.magic.toNat fun t => .next (t.startTraversal .cTree)

/-- One `OutWrite(1, ·)` of the code bits still due; after the last one the phase goes on as `last` says (R144, R145). -/
def writeBit (b : Bool) (rest : List Bool) (last : State → State) (s : State) : Result :=
  s.writeThen 1 b.toNat fun t => .next (if rest = [] then last t else t.moveTo (.bits rest))

/-- A second-pass byte selects its code; one with no code raises `InconsistentInput(0)` (R144, D12). -/
def State.emitByte (b : Byte) (s : State) : State :=
  if s.clen (byteSymbol b) = 0 then s.raise .inconsistentInput 0 false
  else s.moveTo (.bits (s.cbits (byteSymbol b)))

/-- A step of C_EMIT: one `InRead(8)`, or one code bit (R144). -/
def emitStep (s : State) : Result :=
  match s.place with
  | .bits (b :: rest) => writeBit b rest (State.moveTo .top) s
  | _ =>
    match s.inRead 8 with
    | .blocked => .next s
    | .ioError t => .next (t.raise .channelError 1 false)
    | .noData t => .next ((t.goto .cTerm).moveTo (.bits (t.cbits Config.eof)))
    | .value v t => .next (t.emitByte (BitVec.ofNat 8 v))

/-- A step of C_TERM: one bit of the sentinel's code; after the last one, `phase <- C_FLUSH` (R145). -/
def termStep (s : State) : Result :=
  match s.place with
  | .bits (b :: rest) => writeBit b rest (State.goto .cFlush) s
  | _ => .next (s.goto .cFlush)

/-- `OutFlushClose()`, then `complete()`; its failure is `ChannelError(4)` with no second flush.
C_FLUSH and D_DONE are this one step (R146, R165, R184). -/
def flushStep (s : State) : Result :=
  match s.outFlushClose with
  | .blocked => .next s
  | .closed => .fault .outputClosed
  | .ioError t => .next (t.raise .channelError 4 true)
  | .ok t => .next t.complete

/-- A step of E_FLUSH: the error sequence's one `OutFlushClose()`, whose answer is ignored (R184, R187). -/
def errorFlushStep (s : State) : Result :=
  match s.outFlushClose with
  | .blocked => .next s
  | .closed => .fault .outputClosed
  | .ioError t => .next t.endError
  | .ok t => .next t.endError

end Sys2Proof.Machine
end

