-- ==== Sys2Proof/Machine/Walk.lean ====
section
/-! DEFINITION. Phases D_MAGIC and D_WALK (45_decompress.md). -/

namespace Sys2Proof.Machine

/-- The tree is read into an empty arena with an empty stack (R36, R115). -/
def State.startTreeRead (s : State) : State :=
  { s.goto .dTree with ncount := 0, stack := [] }

/-- A step of D_MAGIC: `InRead(32)` and the comparison with `MAGIC` (R161). -/
def readMagicStep (s : State) : Result :=
  match s.inRead 32 with
  | .blocked => .next s
  | .ioError t => .next (t.raise .channelError 1 false)
  | .noData t => .next (t.raise .malformedStream 1 false)
  | .value v t =>
    if v = Config.magic.toNat then .next t.startTreeRead
    else .next (t.raise .invalidFormat 0 false)

/-- The cursor moves to `c`: the sentinel's leaf ends the walk, a byte's leaf makes its write due (R163). -/
def State.walkTo (c : Handle) (s : State) : State :=
  let t := { s with cur := c }
  if t.isLeaf c then
    if (t.nodeAt c).sym = Config.eof then t.goto .dDone else t.moveTo .byte
  else t

/-- A step of D_WALK: one `InReadBit()` and one move of the cursor, or the `OutWrite(8)` of a decoded byte (R163, R164). -/
def walkStep (s : State) : Result :=
  if s.place = .byte then
    s.writeThen 8 (s.nodeAt s.cur).sym.val fun t => .next { t.moveTo .top with cur := t.root }
  else
    match s.inReadBit with
    | .blocked => .next s
    | .ioError t => .next (t.raise .channelError 1 false)
    | .noData t => .next (t.raise .malformedStream 3 false)
    | .value v t => .next (t.walkTo (t.child t.cur (v.testBit 0)))

end Sys2Proof.Machine
end

