-- ==== Sys2Proof/Machine/Fetch.lean ====
section
/-! DEFINITION. Where an instruction comes from: the `CMD` register for a command word, the arena or the input channel for
a tree record. Then the step of the core by phase, and the host's moves. -/

namespace Sys2Proof.Machine

/-! ### Tree records -/

/-- A step of C_TREE: the record of the node the traversal is at; the phase ends with the traversal (R110). -/
def writeTreeStep (s : State) : Result :=
  match s.stack with
  | [] => .next (s.startTraversal .cCodes)
  | f :: _ => exec (s.recordOf f.handle) s

/-- A step of D_TREE: the tag bit of the next record, or the 9-bit symbol of a leaf record.
The capacity is checked after the tag and before any symbol read (R115, R186).
A record runs when its last bit has been read. -/
def readTreeStep (s : State) : Result :=
  if s.place = .symbol then
    match s.inRead 9 with
    | .blocked => .next s
    | .ioError t => .next (t.raise .channelError 1 false)
    | .noData t => .next (t.raise .malformedStream 2 false)
    | .value v t => exec (.treeLeaf v) t
  else
    match s.inReadBit with
    | .blocked => .next s
    | .ioError t => .next (t.raise .channelError 1 false)
    | .noData t => .next (t.raise .malformedStream 2 false)
    | .value v t =>
      if t.ncount.val = 513 then .next (t.raise .inconsistentTree 3 false)
      else if v.testBit 0 then .next (t.moveTo .symbol)
      else exec .treeInternal (t.moveTo .top)

/-! ### The core's step -/

/-- One step of the core: at most one transaction of the phase the operation is in (R8, R14).
In IDLE the core waits (R196). -/
def coreStep (s : State) : Result :=
  match s.phase with
  | .idle => .next s
  | .cCount => countStep s
  | .cBuild => buildStep s
  | .cMagic => magicStep s
  | .cTree => writeTreeStep s
  | .cCodes => codesStep s
  | .cEmit => emitStep s
  | .cTerm => termStep s
  | .cFlush => flushStep s
  | .dMagic => readMagicStep s
  | .dTree => readTreeStep s
  | .dWalk => walkStep s
  | .dDone => flushStep s
  | .eFlush => errorFlushStep s

/-! ### The host's moves -/

/-- A write of `w` to `CMD`: a command word runs, any other word is rejected (R72, R73). -/
def cmdWrite (w : Word) (s : State) : Result :=
  match decodeCmd w with
  | .ok i => exec i s
  | .error _ => .next s.reject

/-- A write access: `CMD` decodes its word, a write to any other register has no effect (R11, R51, R52). -/
def hostWrite (offset width : Nat) (data : Word) (s : State) : Result :=
  if accessAllowed offset width then
    if offset = 0 then cmdWrite data s else .next s
  else .refused .hostAccess

/-- A read access (R11, R51, R52). -/
def hostRead (offset width : Nat) (s : State) : Result :=
  if accessAllowed offset width then .next { s with hostData := s.windowRead offset }
  else .refused .hostAccess

/-- One read of a `POLL`; where the field differs, a core step and another read follow (R84). -/
def hostPoll (offset hi lo value : Nat) (s : State) : Result :=
  if accessAllowed offset 4 then
    if fieldOf hi lo (s.windowRead offset) = value then .next { s with hostData := s.windowRead offset }
    else
      .next { s with
        hostData := s.windowRead offset
        host := .core :: .poll offset hi lo value :: s.host }
  else .refused .hostAccess

/-- The host presents an input channel at position 0 (R84, R205); no operation may own the one it replaces (R209). -/
def hostChanIn (c : InChannel) (s : State) : Result :=
  if s.busy then .refused .channelOwned else .next { s with input := { c with pos := 0 } }

/-- The host presents a fresh output channel (R84, R205); no operation may own the one it replaces (R209). -/
def hostChanOut (answers : List Answer) (s : State) : Result :=
  if s.busy then .refused .channelOwned
  else .next { s with output := { bits := [], closed := false, answers := answers } }

/-- What one move of the host does, at a state it has been taken from (R209). -/
def hostMove (m : HostMove) (s : State) : Result :=
  match m with
  | .core => coreStep s
  | .write offset width data => hostWrite offset width data s
  | .read offset width => hostRead offset width s
  | .poll offset hi lo value => hostPoll offset hi lo value s
  | .chanIn c => hostChanIn c s
  | .chanOut answers => hostChanOut answers s
  | .reset => .next s.resetInstance

/-- One step of the machine: the host's next move, or a step of the core where it has none (R8, R61; log entry 9). -/
def machineStep (s : State) : Result :=
  match s.host with
  | [] => coreStep s
  | m :: rest => hostMove m { s with host := rest }

/-! ### Placing an instruction (log entry 14) -/

/-- A command word is the host's next write to `CMD`. -/
def State.withCommand (w : Nat) (s : State) : State :=
  { s with host := .write 0x00 4 (BitVec.ofNat 32 w) :: s.host }

/-- A tree record stands at the input channel's position in phase D_TREE, where the left child of an open root is due, and
the core moves next. A leaf record's tag has been read by the step before. -/
def State.withRecord (bits : List Bool) (s : State) : State :=
  { s with
    busy := true
    phase := .dTree
    place := if bits.length = 10 then .symbol else .top
    ncount := 1
    node := s.node.set 0 (Node.asOpen s.node[0])
    stack := [{ handle := 0 }]
    input := {
      bits := bits ++ List.replicate 32 false
      pos := if bits.length = 10 then 1 else 0
      rewindable := s.input.rewindable
      replay := s.input.replay
      answers := .ok :: s.input.answers }
    host := .core :: s.host }

end Sys2Proof.Machine
end

