-- ==== Sys2Proof/Machine/Step.lean ====
section
/-! DEFINITION. The step of the machine, and the state with an instruction where the next step takes it from. -/

namespace Sys2Proof.Machine

/-- One step (R8). -/
def step (s : State) : Host.Outcome State Fault Refusal := machineStep s

/-- `s` with the instruction of the opcode table's bits `w` where `step` takes its next instruction from (log entry 14). -/
def State.withFetchWord (s : State) (nbits w : Nat) : State :=
  if nbits ≤ 16 then s.withRecord (tableRecordBits nbits w) else s.withCommand w

end Sys2Proof.Machine
end

