-- ==== Sys2Proof/Safety.lean ====
section
/-! DEFINITION. The terms claims are stated in: runs, launch premises, the invariant of a safe run, trees and artifacts. -/

namespace Sys2Proof.Machine

/-! ### Runs -/

/-- `k` steps, stopping at the first fault or refusal. -/
def runSteps : Nat → State → Result
  | 0, s => .next s
  | k + 1, s =>
    match step s with
    | .next t => runSteps k t
    | .fault r => .fault r
    | .refused r => .refused r

/-- Some number of steps leads from `s` to `t`. -/
def Reaches (s t : State) : Prop := ∃ k, runSteps k s = .next t

/-- The outcome with `moves` as the host's moves still to come: what a step answers where only those differ. -/
def Result.withHost (moves : List HostMove) : Result → Result
  | .next t => .next { t with host := moves }
  | .fault r => .fault r
  | .refused r => .refused r

/-! ### Premises -/

/-- Every answer still to come is `ok`: the premise CHANNEL_RELIABLE of R66 for one channel. -/
def allOk (answers : List Answer) : Bool := answers.all (fun a => decide (a = .ok))

/-- CHANNEL_RELIABLE for the channel pair (R66). -/
def State.reliable (s : State) : Bool := allOk s.input.answers && allOk s.output.answers

/-- The next transaction of the input channel is carried out or finds no data. -/
def State.inReady (s : State) : Bool := decide (nextAnswer s.input.answers = .ok)

/-- The output channel is open and its next transaction is carried out. -/
def State.outReady (s : State) : Bool := !s.output.closed && decide (nextAnswer s.output.answers = .ok)

/-- The launch premises of R205 on the channel pair, all but the data and the rewind. -/
def State.launchable (s : State) : Bool :=
  decide (s.input.pos = 0) && decide (s.output.bits = []) && !s.output.closed

/-- No host action is to come: only the core moves. -/
def State.quiet (s : State) : Bool := decide (s.host = [])

/-- No operation is in progress (R15). -/
def State.idle (s : State) : Bool := !s.busy && decide (s.phase = .idle)

/-- `s` with a host write of `w` to `CMD` next, and no host action after it. -/
def State.launch (w : Word) (s : State) : State := { s with host := [.write 0x00 4 w] }

/-! ### The states after one transaction, written out field by field -/

/-- After an `InRead(n)` that returned a value: `p` and `IN_BITS` have advanced by `n`, one answer is used (R19, R54). -/
def State.afterRead (n : Nat) (s : State) : State :=
  { s with
    input := { s.input with pos := s.input.pos + n, answers := s.input.answers.tail }
    inBits := s.inBits + BitVec.ofNat 64 n }

/-- After an input transaction that answered `IoError`: only the answer is used (R54). -/
def State.afterInError (s : State) : State :=
  { s with input := { s.input with answers := s.input.answers.tail } }

/-- After an `OutWrite` of `bits` that answered `Ok`: `OUT` and `OUT_BITS` have grown, one answer is used (R20, R55). -/
def State.afterWrite (bits : List Bool) (s : State) : State :=
  { s with
    output := { s.output with bits := s.output.bits ++ bits, answers := s.output.answers.tail }
    outBits := s.outBits + BitVec.ofNat 64 bits.length }

/-- After an `OutWrite` that answered `IoError`: only the answer is used (R55). -/
def State.afterOutError (s : State) : State :=
  { s with output := { s.output with answers := s.output.answers.tail } }

/-- After `raise E(d)` in a transaction other than the flush: the error is recorded and E_FLUSH entered (R184). -/
def State.afterRaise (e : ErrCode) (d : BitVec 4) (s : State) : State :=
  { s with errCode := e, errDetail := d, phase := .eFlush, place := .top }

/-- The core's next step begins with a transaction on the input channel (R58). -/
def State.waitsOnInput (s : State) : Bool :=
  match s.phase with
  | .cCount | .dMagic | .dTree => true
  | .cEmit => decide (s.place = .top)
  | .dWalk => decide (s.place = .top)
  | .idle | .cBuild | .cMagic | .cTree | .cCodes | .cTerm | .cFlush | .dDone | .eFlush => false

/-- The core's next step begins with a transaction on the output channel (R58). -/
def State.waitsOnOutput (s : State) : Bool :=
  match s.phase with
  | .cMagic | .cFlush | .dDone | .eFlush => true
  | .cTree => decide (s.stack ≠ [])
  | .cEmit => decide (s.place ≠ .top)
  | .cTerm => decide (s.place ≠ .bits [])
  | .dWalk => decide (s.place = .byte)
  | .idle | .cCount | .cBuild | .cCodes | .dMagic | .dTree => false

/-! ### The invariant -/

/-- The phases of COMPRESS (R14, R141). -/
def Phase.ofCompress : Phase → Bool
  | .cCount | .cBuild | .cMagic | .cTree | .cCodes | .cEmit | .cTerm | .cFlush => true
  | .idle | .dMagic | .dTree | .dWalk | .dDone | .eFlush => false

/-- The phases of DECOMPRESS (R14, R166). -/
def Phase.ofDecompress : Phase → Bool
  | .dMagic | .dTree | .dWalk | .dDone => true
  | .idle | .cCount | .cBuild | .cMagic | .cTree | .cCodes | .cEmit | .cTerm | .cFlush | .eFlush => false

/-- The pairs of code and detail of R181, and (0, 0). -/
def ErrCode.hasDetail : ErrCode → BitVec 4 → Bool
  | .none, d => decide (d = 0)
  | .invalidFormat, d => decide (d = 0)
  | .malformedStream, d => decide (d = 1) || decide (d = 2) || decide (d = 3)
  | .inconsistentTree, d => decide (d = 1) || decide (d = 2) || decide (d = 3)
  | .channelError, d => decide (d = 1) || decide (d = 2) || decide (d = 3) || decide (d = 4)
  | .inputTooLong, d => decide (d = 0)
  | .inconsistentInput, d => decide (d = 0)

/-- The errors an operation can raise, by its `OP`: R149 for COMPRESS, R170 for DECOMPRESS. -/
def ErrCode.raisedBy (e : ErrCode) (op : BitVec 2) : Bool :=
  match e with
  | .none => true
  | .channelError => decide (op = 0b01 ∨ op = 0b10)
  | .inputTooLong | .inconsistentInput => decide (op = 0b01)
  | .invalidFormat | .malformedStream | .inconsistentTree => decide (op = 0b10)

/-- `STATUS` is as R13 to R18 say it can be: `BUSY` follows `PHASE`, at most one of `BUSY`, `DONE` and `ERROR` is 1, the
error recorded is one R181 lists and `LAST_OP` can raise (`ChannelError(2)`, the rewind's, only COMPRESS: R149, R170), and it
is there exactly in E_FLUSH and with `ERROR`. -/
def State.statusInv (s : State) : Prop :=
  (s.busy = true ↔ s.phase ≠ .idle) ∧
  ¬ (s.busy = true ∧ s.done = true) ∧ ¬ (s.busy = true ∧ s.error = true) ∧ ¬ (s.done = true ∧ s.error = true) ∧
  (s.errCode ≠ .none ↔ s.phase = .eFlush ∨ s.error = true) ∧
  s.errCode.hasDetail s.errDetail = true ∧
  s.errCode.raisedBy s.lastOp = true ∧
  (s.errCode = .channelError → s.errDetail = 2 → s.lastOp = 0b01) ∧
  (s.phase.ofCompress = true → s.lastOp = 0b01) ∧
  (s.phase.ofDecompress = true → s.lastOp = 0b10) ∧
  (s.phase = .eFlush → s.lastOp ≠ 0b00)

/-- The place inside the phase is one the phase has (log entry 5). -/
def State.placeInv (s : State) : Prop :=
  match s.phase with
  | .cCount => s.place = .top ∨ s.place = .rewind
  | .cBuild => s.place = .top ∨ s.place = .merge
  | .cTree =>
    s.place = .top ∨ (s.place = .symbol ∧ ∃ f rest, s.stack = f :: rest ∧ s.isLeaf f.handle = true)
  | .cEmit => s.place = .top ∨ ∃ b rest, s.place = .bits (b :: rest)
  | .cTerm => ∃ rest, s.place = .bits rest
  | .dTree => s.place = .top ∨ s.place = .symbol
  | .dWalk => s.place = .top ∨ s.place = .byte
  | .idle | .cMagic | .cCodes | .cFlush | .dMagic | .dDone | .eFlush => s.place = .top

/-- The counters add up to `LEN`, which is at most `LEN_MAX` (R91). -/
def State.countInv (s : State) : Prop :=
  (s.freq.toList.map BitVec.toNat).sum = s.len.toNat ∧ s.len.toNat ≤ Config.lenMax.toNat

/-- `PQ` is held in the order of R100: no entry comes before one that stands ahead of it. -/
def PqSorted (pq : List PqEntry) : Prop := pq.Pairwise (fun a b => b.before a = false)

/-- `PQ` is in order, and while BUILD merges it has an entry, and an arena entry for each merge to come (R102, R104). -/
def State.queueInv (s : State) : Prop :=
  PqSorted s.pq ∧
  (s.phase = .cBuild → s.place = .merge → 1 ≤ s.pq.length ∧ s.ncount.val + s.pq.length ≤ 514)

/-- In D_WALK the root is Internal, and so is `CUR` at the head of the loop; a due byte is no sentinel (R116, R163, R164). -/
def State.walkInv (s : State) : Prop :=
  s.phase = .dWalk →
    s.isLeaf s.root = false ∧
    (s.place = .top → s.isLeaf s.cur = false) ∧
    (s.place = .byte → s.isLeaf s.cur = true ∧ (s.nodeAt s.cur).sym ≠ Config.eof)

/-- The input position is within the input (R53). -/
def State.inputInv (s : State) : Prop := s.input.pos ≤ s.input.bits.length

/-- The invariant of the machine: it holds at reset and every step keeps it. -/
def State.inv (s : State) : Prop :=
  s.statusInv ∧ s.placeInv ∧ s.countInv ∧ s.queueInv ∧ s.walkInv ∧ s.inputInv

/-! ### What an operation may not depend on -/

/-- Two states that agree on everything but the internal tables of R30 to R35 and the place inside the phase. -/
def SameOutside (s t : State) : Prop :=
  t = { s with
    freq := t.freq, len := t.len, node := t.node, ncount := t.ncount, root := t.root, pq := t.pq, seq := t.seq
    code := t.code, cur := t.cur, stack := t.stack, place := t.place }

/-- Two outcomes that agree in the same way. -/
def SameOutcome : Result → Result → Prop
  | .next s, .next t => SameOutside s t
  | .fault a, .fault b => a = b
  | .refused a, .refused b => a = b
  | _, _ => False

/-! ### Trees (R7, R76) -/

/-- A Huffman tree without its weights (R7, R76). -/
inductive Tree where
  | leaf (x : Symbol)
  | node (l r : Tree)
deriving DecidableEq, Repr

/-- The tree is Internal at its root (R116). -/
def Tree.isNode : Tree → Bool
  | .leaf _ => false
  | .node _ _ => true

/-- The symbols of the leaves, from left to right. -/
def Tree.leaves : Tree → List Symbol
  | .leaf x => [x]
  | .node l r => l.leaves ++ r.leaves

/-- The number of nodes (R104 item 2). -/
def Tree.size : Tree → Nat
  | .leaf _ => 1
  | .node l r => l.size + r.size + 1

/-- The tree field: the pre-order records (R76, R110). -/
def Tree.bits : Tree → List Bool
  | .leaf x => true :: bitsOf 9 x.val
  | .node l r => false :: (l.bits ++ r.bits)

/-- Each leaf's symbol with its root-to-leaf path: left edge 0, right edge 1 (R79, R130). -/
def Tree.codes : Tree → List (Symbol × List Bool)
  | .leaf x => [(x, [])]
  | .node l r =>
    l.codes.map (fun c => (c.1, false :: c.2)) ++ r.codes.map (fun c => (c.1, true :: c.2))

/-- The code of a symbol in a tree; the empty sequence where the tree has no such leaf (R33). -/
def Tree.code (t : Tree) (x : Symbol) : List Bool := (t.codes.lookup x).getD []

/-- The arena holds the tree `t` at handle `h` (R31). -/
def Tree.heldAt (node : Vector Node 513) : Tree → Handle → Prop
  | .leaf x, h => node[h.val].kind = .leaf ∧ node[h.val].sym = x
  | .node l r, h =>
    node[h.val].kind = .internal ∧ l.heldAt node node[h.val].left ∧ r.heldAt node node[h.val].right

/-! ### Artifacts (R74) -/

/-- The payload field: the codes of the bytes, in order (R79). -/
def Tree.payload (t : Tree) (bs : List Byte) : List Bool := bs.flatMap (fun b => t.code (byteSymbol b))

/-- An artifact without its padding: magic, tree, payload, terminator (R74, R75, R80). -/
def artifactBits (t : Tree) (bs : List Byte) : List Bool :=
  bitsOf 32 Config.magic.toNat ++ t.bits ++ t.payload bs ++ t.code Config.eof

/-- The leaves BUILD gives to the input `bs`: its bytes, the sentinel, and the padding leaf for the empty input (R101, R104). -/
def leafSymbols (bs : List Byte) : List Symbol :=
  (allBytes.filter (fun b => decide (b ∈ bs))).map byteSymbol ++ (if bs = [] then [0] else []) ++ [Config.eof]

/-- `tree` is the tree BUILD gives to the counts of the bytes `bs`: every state at the start of C_BUILD that holds those
counts reaches C_MAGIC with it in the arena (R105, R147). -/
def Tree.builtFrom (bs : List Byte) (tree : Tree) : Prop :=
  ∀ s : State, s.host = [] → s.phase = .cBuild → s.place = .top → s.countInv →
    (∀ b : Byte, (s.freqAt b).toNat = bs.count b) →
    ∃ t, Reaches s t ∧ t.phase = .cMagic ∧ Tree.heldAt t.node tree t.root

end Sys2Proof.Machine
end

