-- ==== Sys2Proof/Certificates/Slice0/Obligations.lean ====
section
/-! DEFINITION. The statements for the provers, one `def Obligations.<Name> : Prop` each. -/

open Sys2Proof Sys2Proof.Machine

/-! ### Encoding -/

/-- R71 and R77, on words written out from their tables: the two commands, the tag `0`, the leaves 0x41, 0x52, 255 and EOF
(the examples of R111 and R112), and the reserved words of R73. -/
def Obligations.WordsOfTheTablesDecode : Prop :=
  decodeCmd 0x00000001#32 = .ok .compress ∧
  decodeCmd 0x00000002#32 = .ok .decompress ∧
  decodeCmd 0x00000000#32 = .error .reservedOp ∧
  decodeCmd 0x00000003#32 = .error .reservedOp ∧
  decodeCmd 0x80000002#32 = .error .reservedBits ∧
  decodeRecord [false, true] = .ok (.treeInternal, [true]) ∧
  decodeRecord [true, false, false, true, false, false, false, false, false, true] = .ok (.treeLeaf 0x41, []) ∧
  decodeRecord [true, false, false, true, false, true, false, false, true, false] = .ok (.treeLeaf 0x52, []) ∧
  decodeRecord [true, false, true, true, true, true, true, true, true, true] = .ok (.treeLeaf 255, []) ∧
  decodeRecord [true, true, false, false, false, false, false, false, false, false] = .ok (.treeLeaf 256, [])

/-- Every well-formed instruction decodes from its encoding, a record also with any bits after it (R70, R71, R76, R77). -/
def Obligations.DecodeOfEncodeIsTheInstruction : Prop :=
  ∀ i : Instr, i.wellFormed = true →
    decode (encode i) = .ok i ∧
    ∀ bits rest, encode i = .record bits → decodeRecord (bits ++ rest) = .ok (i, rest)

/-- Whatever decodes is the encoding of the well-formed instruction it decodes to: no other word or bit sequence is taken
for an instruction (R71, R73, R77). -/
def Obligations.OnlyEncodingsDecode : Prop :=
  ∀ (e : Encoded) (i : Instr), decode e = .ok i → i.wellFormed = true ∧ encode i = e

/-! ### The command words -/

/-- R72: the acceptance of COMPRESS and its start (R36, R140), as the whole next state; with `BUSY` = 1 it is rejected (R17). -/
def Obligations.CompressIsAcceptedOrRejected : Prop :=
  ∀ s : State,
    (s.busy = false →
      exec .compress s = .next { s with
        rej := false, done := false, error := false, errCode := .none, errDetail := 0, lastOp := 0b01
        inBits := 0, outBits := 0, busy := true, phase := .cCount, place := .top
        freq := Vector.replicate 256 0, len := 0, code := Vector.replicate 257 [] }) ∧
    (s.busy = true → exec .compress s = .next { s with rej := true })

/-- R72: the acceptance of DECOMPRESS and its start (R36, R160), as the whole next state: `FREQ`, `LEN` and `CODE` are not
touched; with `BUSY` = 1 it is rejected (R17). -/
def Obligations.DecompressIsAcceptedOrRejected : Prop :=
  ∀ s : State,
    (s.busy = false →
      exec .decompress s = .next { s with
        rej := false, done := false, error := false, errCode := .none, errDetail := 0, lastOp := 0b10
        inBits := 0, outBits := 0, busy := true, phase := .dMagic, place := .top }) ∧
    (s.busy = true → exec .decompress s = .next { s with rej := true })

/-- R17, R73: a write to `CMD` is rejected if an operation runs, or if the word is reserved (`OP` 0b00 or 0b11, or `RSV` not 0):
it sets `REJ` and does nothing else; any other write clears `REJ`. -/
def Obligations.RejectedCommandWriteOnlySetsRej : Prop :=
  ∀ (s : State) (w : Word) (rest : List HostMove),
    (s.busy = true ∨ w.extractLsb' 0 2 = 0b00#2 ∨ w.extractLsb' 0 2 = 0b11#2 ∨ w.extractLsb' 2 30 ≠ 0#30 →
      step { s with host := .write 0x00 4 w :: rest } = .next { s with host := rest, rej := true }) ∧
    (s.busy = false → w.extractLsb' 0 2 ≠ 0b00#2 → w.extractLsb' 0 2 ≠ 0b11#2 → w.extractLsb' 2 30 = 0#30 →
      ∃ t, step { s with host := .write 0x00 4 w :: rest } = .next t ∧ t.rej = false)

/-- A step runs the decoded command word: the host's write to `CMD` is taken from the host's moves, and the instruction its
word decodes to is executed (R12, R72). -/
def Obligations.StepRunsTheCommandWord : Prop :=
  ∀ (s : State) (w : Word) (rest : List HostMove) (i : Instr), decodeCmd w = .ok i →
    step { s with host := .write 0x00 4 w :: rest } = exec i { s with host := rest }

/-! ### The tree records -/

/-- A step runs the decoded tree record.
On the read side (R115) the bits at the input position decode to the record; an Internal record takes one step, a leaf record
one for its tag and one for its symbol (R8).
On the write side (R110) the record is that of the node the traversal is at.
That the core moves when the host has no move to come is the model's choice (log entry 9). -/
def Obligations.StepRunsTheTreeRecord : Prop :=
  (∀ (s : State) (rest : List Bool),
    s.host = [] → s.phase = .dTree → s.place = .top → s.ncount.val < 513 → allOk s.input.answers = true →
    decodeRecord (s.input.bits.drop s.input.pos) = .ok (.treeInternal, rest) →
    step s = exec .treeInternal (s.afterRead 1)) ∧
  (∀ (s : State) (sym : Nat) (rest : List Bool),
    s.host = [] → s.phase = .dTree → s.place = .top → s.ncount.val < 513 → allOk s.input.answers = true →
    decodeRecord (s.input.bits.drop s.input.pos) = .ok (.treeLeaf sym, rest) →
    step s = .next { s.afterRead 1 with place := .symbol } ∧
    step { s.afterRead 1 with place := .symbol } =
      exec (.treeLeaf sym) { (s.afterRead 1).afterRead 9 with place := .symbol }) ∧
  (∀ (s : State) (f : Frame) (rest : List Frame),
    s.host = [] → s.phase = .cTree → s.stack = f :: rest →
    (s.recordOf f.handle).wellFormed = true ∧ step s = exec (s.recordOf f.handle) s)

/-- TREE_INTERNAL, read semantics (R111): the next arena entry becomes an open Internal node of weight 0, and its left child
is parsed next; nothing else changes.
The model's choice: the entry's other fields keep what they held until they are filled in (log entry 15), and the read of the
tag, which advances the input and `IN_BITS`, is the fetch and has been made (log entry 24). -/
def Obligations.TreeInternalReadOpensNode : Prop :=
  ∀ (s : State) (h : s.ncount.val < 513), s.phase = .dTree → s.place = .top →
    exec .treeInternal s = .next { s with
      node := s.node.set s.ncount.val { s.node[s.ncount.val] with kind := .internal, weight := 0 }
      ncount := ⟨s.ncount.val + 1, by omega⟩
      stack := { handle := ⟨s.ncount.val, h⟩ } :: s.stack }

/-- TREE_LEAF, read semantics, as the left child of an open node (R112, R115): the next arena entry becomes the leaf, the
open node gets it as its left child, and the right child is parsed next; nothing else changes.
The model's choice: the leaf entry's children keep what they held (log entry 15), and the reads of the tag and the symbol,
which advance the input and `IN_BITS` (the `IN_BITS` + 9 of R112), are the fetch and have been made (log entry 24). -/
def Obligations.TreeLeafReadAsLeftChild : Prop :=
  ∀ (s : State) (x : Symbol) (p : Handle) (path : List Bool) (rest : List Frame) (h : s.ncount.val < 513),
    s.phase = .dTree → s.place = .symbol → s.stack = { handle := p, path := path, side := .left } :: rest →
    ∀ arena : Vector Node 513,
      arena = s.node.set s.ncount.val { s.node[s.ncount.val] with kind := .leaf, sym := x, weight := 0 } →
      exec (.treeLeaf x.val) s = .next { s with
        node := arena.set p.val { arena[p.val] with left := ⟨s.ncount.val, h⟩ }
        ncount := ⟨s.ncount.val + 1, by omega⟩
        stack := { handle := p, path := path, side := .right } :: rest
        place := .top }

/-- TREE_LEAF, read semantics, on every stack (R112, R115, R116): it answers a next state in which one more entry is
allocated, that entry is the leaf, no entry but that one and those of the open nodes has changed, and no open node has
changed but in a child; the parse goes on with a right child, the walk starts at an Internal root, or a Leaf root raises
`InconsistentTree(1)`.
The model's choice (log entry 24): the reads of its bits are the fetch and have been made. -/
def Obligations.TreeLeafReadReturnsToOpenNodes : Prop :=
  ∀ (s : State) (x : Symbol) (h : s.ncount.val < 513), s.phase = .dTree → s.place = .symbol →
    (∀ f ∈ s.stack, f.handle.val < s.ncount.val) →
    ∃ t, exec (.treeLeaf x.val) s = .next t ∧
      t.ncount.val = s.ncount.val + 1 ∧
      t.node[s.ncount.val].kind = .leaf ∧ t.node[s.ncount.val].sym = x ∧ t.node[s.ncount.val].weight = 0 ∧
      (∀ k : Handle, k.val ≠ s.ncount.val → (∀ f ∈ s.stack, f.handle ≠ k) → t.node[k.val] = s.node[k.val]) ∧
      (∀ k : Handle, k.val ≠ s.ncount.val →
        t.node[k.val] = { s.node[k.val] with left := t.node[k.val].left, right := t.node[k.val].right }) ∧
      ((t.phase = .dTree ∧ t.place = .top ∧ t.errCode = s.errCode ∧
          ∃ f rest, t.stack = f :: rest ∧ f.side = .right) ∨
       (t.phase = .dWalk ∧ t.place = .top ∧ t.errCode = s.errCode ∧ t.stack = [] ∧ t.cur = t.root ∧
          t.isLeaf t.root = false) ∨
       (t.phase = .eFlush ∧ t.errCode = .inconsistentTree ∧ t.errDetail = 1 ∧ t.isLeaf t.root = true))

/-- R78, R112: a leaf symbol of 257 or above raises `InconsistentTree(2)` and allocates nothing.
R115: with the arena full, an Internal record raises `InconsistentTree(3)` at its tag.
The model's choice (log entry 24): the reads of a record's bits are its fetch, so they have been counted when it runs; and a
leaf record run with the arena full, where no step gets because the fetch has checked the capacity at the tag, is checked again
and raises the same error. -/
def Obligations.TreeRecordReadErrors : Prop :=
  (∀ (s : State) (sym : Nat), s.phase = .dTree → s.place = .symbol → s.ncount.val < 513 → 257 ≤ sym →
    exec (.treeLeaf sym) s = .next (s.afterRaise .inconsistentTree 2)) ∧
  (∀ (s : State) (sym : Nat), s.phase = .dTree → s.place = .symbol → s.ncount.val = 513 →
    exec (.treeLeaf sym) s = .next (s.afterRaise .inconsistentTree 3)) ∧
  (∀ s : State, s.phase = .dTree → s.place = .top → s.ncount.val = 513 →
    exec .treeInternal s = .next (s.afterRaise .inconsistentTree 3))

/-- TREE_INTERNAL, write semantics (R111): the bit 0, then the left and the right child are due; nothing else changes. -/
def Obligations.TreeInternalWriteEmitsTag : Prop :=
  ∀ (s : State) (f : Frame) (rest : List Frame),
    s.phase = .cTree → s.place = .top → s.stack = f :: rest → (s.nodeAt f.handle).kind = .internal →
    (s.outReady = true →
      exec .treeInternal s = .next { s.afterWrite [false] with
        stack := { handle := (s.nodeAt f.handle).left, path := f.path ++ [false] } ::
          { handle := (s.nodeAt f.handle).right, path := f.path ++ [true] } :: rest }) ∧
    (s.output.closed = false → nextAnswer s.output.answers = .ioError →
      exec .treeInternal s = .next (s.afterOutError.afterRaise .channelError 3))

/-- TREE_LEAF, write semantics (R112): the bit 1, then at the next step the 9-bit symbol, most significant bit first;
nothing else changes. -/
def Obligations.TreeLeafWriteEmitsTagAndSymbol : Prop :=
  ∀ (s : State) (f : Frame) (rest : List Frame) (x : Symbol),
    s.phase = .cTree → s.stack = f :: rest → (s.nodeAt f.handle).kind = .leaf → (s.nodeAt f.handle).sym = x →
    (s.outReady = true → s.place = .top →
      exec (.treeLeaf x.val) s = .next { s.afterWrite [true] with place := .symbol }) ∧
    (s.outReady = true → s.place = .symbol →
      exec (.treeLeaf x.val) s = .next { s.afterWrite (bitsOf 9 x.val) with stack := rest, place := .top }) ∧
    (s.output.closed = false → nextAnswer s.output.answers = .ioError → s.place = .top ∨ s.place = .symbol →
      exec (.treeLeaf x.val) s = .next (s.afterOutError.afterRaise .channelError 3))

/-- The frame of the two tree records, read and written, whenever they answer a next state (R111, R112).
On the read side no arena entry changes but the one at `NCOUNT` and those of the open nodes, and an open node only in a child.
The model's choice (log entry 24): the reads of a record's bits, which advance the input and `IN_BITS`, are its fetch and
have been made when the record runs, so the record leaves both as they are. -/
def Obligations.TreeRecordFrame : Prop :=
  ∀ (s t : State) (i : Instr), (i = .treeInternal ∨ ∃ sym, i = .treeLeaf sym) → exec i s = .next t →
    t.busy = s.busy ∧ t.done = s.done ∧ t.error = s.error ∧ t.rej = s.rej ∧ t.lastOp = s.lastOp ∧
    t.inBits = s.inBits ∧ t.input = s.input ∧ t.freq = s.freq ∧ t.len = s.len ∧ t.pq = s.pq ∧ t.seq = s.seq ∧
    t.code = s.code ∧ t.draws = s.draws ∧ t.host = s.host ∧ t.hostData = s.hostData ∧
    t.output.closed = s.output.closed ∧ s.output.bits <+: t.output.bits ∧
    (s.phase = .cTree → t.node = s.node ∧ t.ncount = s.ncount ∧ t.root = s.root ∧ t.cur = s.cur) ∧
    (s.phase = .dTree → t.output = s.output ∧ t.outBits = s.outBits ∧ s.ncount.val ≤ t.ncount.val ∧
      (∀ k : Handle, k.val ≠ s.ncount.val → (∀ f ∈ s.stack, f.handle ≠ k) → t.node[k.val] = s.node[k.val]) ∧
      (∀ k : Handle, k.val ≠ s.ncount.val →
        t.node[k.val] = { s.node[k.val] with left := t.node[k.val].left, right := t.node[k.val].right }))

/-! ### Channel transactions -/

/-- R54.
`InRead(n)` where `n` bits remain: the value is the next `n` bits with the first bit as bit n−1, `p` and `IN_BITS` advance by
`n`; where fewer remain the answer is `NoData`, `IN_BITS` stays, and `p` is anywhere from where it was to the end (R68); on an
I/O error nothing has changed.
`InReadBit()` is `InRead(1)`.
`InRewind()` sets `p` to 0, and on an I/O error nothing has changed.
The model's choice: the data the host presents for the second pass, where it presents others, stand in the channel from the
rewind on (log entry 8), a channel that cannot rewind answers `IoError` (log entry 7), and the position after `NoData` is a
free value within the bounds that R68's words leave (log entry 4). -/
def Obligations.InputTransactionsDeliverTheNextBits : Prop :=
  ∀ s : State, s.inputInv →
    (∀ n : Nat,
      (nextAnswer s.input.answers = .ok → s.input.pos + n ≤ s.input.bits.length →
        ∃ v, s.inRead n = .value v (s.afterRead n) ∧ v < 2 ^ n ∧
          bitsOf n v = (s.input.bits.drop s.input.pos).take n) ∧
      (nextAnswer s.input.answers = .ok → s.input.bits.length < s.input.pos + n →
        ∃ p, s.input.pos ≤ p ∧ p ≤ s.input.bits.length ∧
          s.inRead n = .noData { s with
            input := { s.input with pos := p, answers := s.input.answers.tail }, draws := s.draws + 1 }) ∧
      (nextAnswer s.input.answers = .ioError → s.inRead n = .ioError s.afterInError)) ∧
    s.inReadBit = s.inRead 1 ∧
    (nextAnswer s.input.answers = .ok → s.input.rewindable = true →
      s.inRewind = .ok { s with input := { s.input with
        pos := 0, bits := s.input.replay.getD s.input.bits, replay := none, answers := s.input.answers.tail } }) ∧
    (nextAnswer s.input.answers = .ok → s.input.rewindable = false → s.inRewind = .ioError s.afterInError) ∧
    (nextAnswer s.input.answers = .ioError → s.inRewind = .ioError s.afterInError)

/-- R55, `OutWrite(n, v)` on an open channel: the `n` bits of `v` are appended most significant first and `OUT_BITS` grows by
`n`; on an I/O error nothing has changed. -/
def Obligations.OutWriteAppendsMsbFirst : Prop :=
  ∀ (s : State) (n v : Nat), s.output.closed = false →
    (nextAnswer s.output.answers = .ok →
      ∃ bits, s.outWrite n v = .ok (s.afterWrite bits) ∧ bits.length = n ∧
        ∀ i, (h : i < bits.length) → bits[i] = v.testBit (n - 1 - i)) ∧
    (nextAnswer s.output.answers = .ioError → s.outWrite n v = .ioError s.afterOutError)

/-- R55, `OutFlushClose()` on an open channel: 0 to 7 pad bits of any value complete the last byte, `OUT_BITS` does not count
them (R20, R57), and the channel is closed; on an I/O error it is closed with nothing added. -/
def Obligations.FlushPadsToWholeBytes : Prop :=
  ∀ s : State, s.output.closed = false →
    (nextAnswer s.output.answers = .ok →
      ∃ pad : List Bool, pad.length < 8 ∧ (s.output.bits.length + pad.length) % 8 = 0 ∧
        s.outFlushClose = .ok { s with
          output := { bits := s.output.bits ++ pad, closed := true, answers := s.output.answers.tail }
          draws := s.draws + pad.length }) ∧
    (nextAnswer s.output.answers = .ioError →
      s.outFlushClose = .ioError { s with
        output := { s.output with closed := true, answers := s.output.answers.tail } })

/-- R8: a core step issues at most one channel transaction: it uses an answer of at most one of the channels, and at most
one; it never takes back what `OUT` holds.
`coreStep` is what a step is where the core moves (HostMovesBetweenCoreSteps). -/
def Obligations.CoreStepIssuesAtMostOneTransaction : Prop :=
  ∀ s t : State, coreStep s = .next t →
    (t.input = s.input ∨ t.output = s.output) ∧
    (t.input = s.input ∨ t.input.answers = s.input.answers.tail) ∧
    (t.output = s.output ∨ t.output.answers = s.output.answers.tail) ∧
    s.output.bits <+: t.output.bits

/-- R60, R207: a transaction with no response blocks the core: the machine stays as it is.
That a blocked core's step is a step at all is the model's choice (log entry 6). -/
def Obligations.SilentChannelBlocksTheCore : Prop :=
  ∀ s : State, s.inv →
    (s.waitsOnInput = true → nextAnswer s.input.answers = .silent → coreStep s = .next s) ∧
    (s.waitsOnOutput = true → s.output.closed = false → nextAnswer s.output.answers = .silent →
      coreStep s = .next s)

/-! ### The register window and reset -/

/-- R11, R52: a 32-bit read returns the register and changes nothing in the instance; a read of `CMD` returns 0. -/
def Obligations.RegisterReadReturnsTheRegister : Prop :=
  ∀ (s : State) (rest : List HostMove) (offset : Nat) (v : Word),
    (offset = 0x00 ∧ v = 0) ∨ (offset = 0x04 ∧ v = s.statusWord) ∨
    (offset = 0x08 ∧ v = s.inBits.extractLsb' 0 32) ∨ (offset = 0x0C ∧ v = s.inBits.extractLsb' 32 32) ∨
    (offset = 0x10 ∧ v = s.outBits.extractLsb' 0 32) ∨ (offset = 0x14 ∧ v = s.outBits.extractLsb' 32 32) ∨
    (offset = 0x18 ∧ v = Config.magic) ∨ (offset = 0x1C ∧ v = 0x00020120#32) →
    step { s with host := .read offset 4 :: rest } = .next { s with host := rest, hostData := v }

/-- R13: the fields of the word a read of `STATUS` returns; bits 31:18 read 0.
The number of each of the 14 phases is R14's, that of each of the 7 error codes R180's. -/
def Obligations.StatusWordLayout : Prop :=
  ∀ s : State,
    s.statusWord.getLsbD 0 = s.busy ∧ s.statusWord.getLsbD 1 = s.done ∧ s.statusWord.getLsbD 2 = s.error ∧
    s.statusWord.getLsbD 3 = s.rej ∧ s.statusWord.extractLsb' 4 4 = s.phase.code ∧
    s.statusWord.extractLsb' 8 4 = s.errCode.code ∧ s.statusWord.extractLsb' 12 4 = s.errDetail ∧
    s.statusWord.extractLsb' 16 2 = s.lastOp ∧ s.statusWord.extractLsb' 18 14 = 0#14 ∧
    [Phase.idle, .cCount, .cBuild, .cMagic, .cTree, .cCodes, .cEmit, .cTerm, .cFlush,
      .dMagic, .dTree, .dWalk, .dDone, .eFlush].map Phase.code = [0, 1, 2, 3, 4, 5, 6, 7, 8, 9, 10, 11, 12, 13] ∧
    [ErrCode.none, .invalidFormat, .malformedStream, .inconsistentTree, .channelError, .inputTooLong,
      .inconsistentInput].map ErrCode.code = [0, 1, 2, 3, 4, 5, 6]

/-- R11, R52: a write to a read-only register has no effect and does not set `REJ`.
R51: an access of another width, misaligned, or at offset 0x20 or beyond is refused, a write as a read; a 32-bit access at
a multiple of 4 below 0x20 is answered. -/
def Obligations.OtherRegisterAccesses : Prop :=
  (∀ (s : State) (rest : List HostMove) (offset : Nat) (w : Word),
    0 < offset → offset < 0x20 → offset % 4 = 0 →
    step { s with host := .write offset 4 w :: rest } = .next { s with host := rest }) ∧
  (∀ (s : State) (rest : List HostMove) (offset width : Nat) (w : Word),
    width ≠ 4 ∨ offset % 4 ≠ 0 ∨ 0x20 ≤ offset →
    step { s with host := .write offset width w :: rest } = .refused .hostAccess ∧
    step { s with host := .read offset width :: rest } = .refused .hostAccess) ∧
  (∀ (s : State) (rest : List HostMove) (offset : Nat), offset < 0x20 → offset % 4 = 0 →
    ∃ t, step { s with host := .read offset 4 :: rest } = .next t)

/-- R200: a reset at any step leaves `STATUS` and the counters 0 and the instance IDLE, and touches neither channel; R37 gives
the values. The internal tables take the model's choice (log entry 13), of which this states nothing. -/
def Obligations.ResetLeavesIdleAndChannelsAlone : Prop :=
  (State.reset.statusWord = 0 ∧ State.reset.inBits = 0 ∧ State.reset.outBits = 0) ∧
  ∀ (s : State) (rest : List HostMove),
    ∃ t, step { s with host := .reset :: rest } = .next t ∧
      t.busy = false ∧ t.done = false ∧ t.error = false ∧ t.rej = false ∧ t.phase = .idle ∧
      t.errCode = .none ∧ t.errDetail = 0 ∧ t.lastOp = 0b00 ∧ t.inBits = 0 ∧ t.outBits = 0 ∧
      t.statusWord = 0 ∧ t.input = s.input ∧ t.output = s.output ∧ t.host = rest

/-! ### COMPRESS: counting and building -/

/-- R90, the steps of C_COUNT.
In its loop a byte is counted, the byte after `LEN_MAX` of them raises `InputTooLong(0)`, an I/O error raises
`ChannelError(1)`, and the end of the input ends the loop.
Then the rewind leads to C_BUILD, or its I/O error raises `ChannelError(2)`.
Nothing else changes.
The model's choice: what the rewound channel holds (log entry 8) and that one that cannot rewind answers `IoError`
(log entry 7), what the position is after `NoData` (log entry 4), and the cut into steps (log entry 5). -/
def Obligations.CountStepsCountAndRewind : Prop :=
  (∀ s : State, s.host = [] → s.phase = .cCount → s.place = .top →
    (∀ b : Byte, nextAnswer s.input.answers = .ok →
      bitsOf 8 b.toNat <+: s.input.bits.drop s.input.pos →
      (s.len ≠ Config.lenMax →
        step s = .next { s.afterRead 8 with
          freq := s.freq.set b.toNat (s.freqAt b + 1), len := s.len + 1 }) ∧
      (s.len = Config.lenMax → step s = .next ((s.afterRead 8).afterRaise .inputTooLong 0))) ∧
    (nextAnswer s.input.answers = .ok → s.input.bits.length < s.input.pos + 8 →
      ∃ p, step s = .next { s with
        input := { s.input with pos := p, answers := s.input.answers.tail }, draws := s.draws + 1
        place := .rewind }) ∧
    (nextAnswer s.input.answers = .ioError → step s = .next (s.afterInError.afterRaise .channelError 1))) ∧
  (∀ s : State, s.host = [] → s.phase = .cCount → s.place = .rewind →
    (nextAnswer s.input.answers = .ok → s.input.rewindable = true →
      step s = .next { s with
        input := { s.input with
          pos := 0, bits := s.input.replay.getD s.input.bits, replay := none, answers := s.input.answers.tail }
        phase := .cBuild, place := .top }) ∧
    (nextAnswer s.input.answers = .ok → s.input.rewindable = false →
      step s = .next (s.afterInError.afterRaise .channelError 2)) ∧
    (nextAnswer s.input.answers = .ioError → step s = .next (s.afterInError.afterRaise .channelError 2)))

/-- R90: COUNT scans the whole input, counts each byte value and rewinds the input, in L + 2 steps (R211); trailing bits that
make no byte are ignored (R59), and nothing is written to the output.
The model's choice: what the rewound channel holds, where the host presents other data for the second pass (log entry 8). -/
def Obligations.CountPhaseCountsTheInput : Prop :=
  ∀ (s : State) (bs : List Byte) (tail : List Bool),
    s.host = [] → s.phase = .cCount → s.place = .top → s.len = 0 → s.freq = Vector.replicate 256 0 →
    s.reliable = true → s.input.pos = 0 → s.input.rewindable = true →
    s.input.bits = bitsOfBytes bs ++ tail → tail.length < 8 → bs.length ≤ Config.lenMax.toNat →
    ∃ t, runSteps (bs.length + 2) s = .next t ∧
      t.phase = .cBuild ∧ t.place = .top ∧ t.len.toNat = bs.length ∧
      (∀ b : Byte, (t.freqAt b).toNat = bs.count b) ∧
      t.inBits = s.inBits + BitVec.ofNat 64 (8 * bs.length) ∧
      t.input.pos = 0 ∧ t.input.bits = s.input.replay.getD s.input.bits ∧ t.reliable = true ∧
      t.output = s.output ∧ t.outBits = s.outBits ∧ t.errCode = s.errCode ∧ t.busy = s.busy

/-- R100: `insert(h)` adds `(weight(h), SEQ, h)` and then increments `SEQ`; insertion keeps every entry and the order; the entry
at the head, the one `removeMin` takes, has the least weight, and among equal weights the least `seq`. -/
def Obligations.PriorityQueueIsFifoAmongEqualWeights : Prop :=
  (∀ (s : State) (h : Handle), s.insert h = { s with
    pq := pqInsert { weight := (s.nodeAt h).weight, seq := s.seq, handle := h } s.pq, seq := s.seq + 1 }) ∧
  ∀ (e : PqEntry) (pq : List PqEntry), PqSorted pq →
    PqSorted (pqInsert e pq) ∧ (pqInsert e pq).Perm (e :: pq) ∧
    (∀ a rest, pq = a :: rest → ∀ b ∈ rest,
      a.weight < b.weight ∨ (a.weight = b.weight ∧ a.seq ≤ b.seq))

/-- R101, R108: BUILD's first step makes the leaves in ascending symbol order, then the padding leaf for the empty input, then
the sentinel of weight 1; the i-th leaf has handle i and `seq` i, and `PQ` holds one entry for each.
That all of them go in at one step is the model's choice (log entry 5): no rule cuts BUILD into steps. -/
def Obligations.BuildInsertsLeavesInAscendingOrder : Prop :=
  ∀ (s : State) (leaves : List (Symbol × Word)),
    s.host = [] → s.phase = .cBuild → s.place = .top → s.countInv →
    leaves =
      (allBytes.filter (fun b => decide (s.freqAt b ≠ 0))).map (fun b => (byteSymbol b, s.freqAt b)) ++
        (if s.len = 0 then [((0 : Symbol), (0 : Word))] else []) ++ [(Config.eof, 1)] →
    ∃ t, step s = .next t ∧ t.phase = .cBuild ∧ t.place = .merge ∧
      t.ncount.val = leaves.length ∧ t.seq = BitVec.ofNat 10 leaves.length ∧
      (∀ i, (h : i < leaves.length) → (h' : i < 513) →
        t.node[i].kind = .leaf ∧ t.node[i].sym = leaves[i].1 ∧ t.node[i].weight = leaves[i].2) ∧
      (∀ i, (h : i < leaves.length) → (h' : i < 513) →
        { weight := leaves[i].2, seq := BitVec.ofNat 10 i, handle := ⟨i, h'⟩ } ∈ t.pq) ∧
      t.pq.length = leaves.length ∧ t.freq = s.freq ∧ t.len = s.len

/-- R102, one merge: the entry removed first becomes the left child, the second the right child, and the new node of the sum
of their weights is inserted; with one entry left, that is the root and C_MAGIC follows. Nothing else changes.
The model's choice: one merge is one step (log entry 5), and the new entry's symbol keeps what it held (log entry 15). -/
def Obligations.MergeStepJoinsTheTwoLowest : Prop :=
  (∀ (s : State) (a b : PqEntry) (rest : List PqEntry) (h : s.ncount.val < 513),
    s.host = [] → s.phase = .cBuild → s.place = .merge → s.pq = a :: b :: rest →
    step s = .next { s with
      node := s.node.set s.ncount.val
        { s.node[s.ncount.val] with
          kind := .internal, weight := a.weight + b.weight, left := a.handle, right := b.handle }
      ncount := ⟨s.ncount.val + 1, by omega⟩
      pq := pqInsert { weight := a.weight + b.weight, seq := s.seq, handle := ⟨s.ncount.val, h⟩ } rest
      seq := s.seq + 1 }) ∧
  (∀ (s : State) (a : PqEntry),
    s.host = [] → s.phase = .cBuild → s.place = .merge → s.pq = [a] →
    step s = .next { s with pq := [], root := a.handle, phase := .cMagic, place := .top })

/-- R104, R106: from every state at the start of C_BUILD whose counters add up to `LEN`, BUILD ends in C_MAGIC with a tree in
the arena that has an Internal root, exactly the leaves R101 inserts, each once, `2k − 1` nodes, and a root of weight
`LEN + 1`; it issues no transaction. -/
def Obligations.BuildMakesFullTreeOfTheCounts : Prop :=
  ∀ s : State, s.host = [] → s.phase = .cBuild → s.place = .top → s.countInv →
    ∃ t tree, Reaches s t ∧ t.phase = .cMagic ∧ t.place = .top ∧
      Tree.heldAt t.node tree t.root ∧ tree.isNode = true ∧ tree.leaves.Nodup ∧
      tree.leaves.Perm
        ((allBytes.filter (fun b => decide (s.freqAt b ≠ 0))).map byteSymbol ++
          (if s.len = 0 then [(0 : Symbol)] else []) ++ [Config.eof]) ∧
      t.ncount.val = tree.size ∧ tree.size + 1 = 2 * tree.leaves.length ∧
      (t.nodeAt t.root).weight = s.len + 1 ∧
      t.freq = s.freq ∧ t.len = s.len ∧ t.code = s.code ∧ t.input = s.input ∧ t.output = s.output ∧
      t.inBits = s.inBits ∧ t.outBits = s.outBits ∧ t.busy = s.busy ∧ t.errCode = s.errCode ∧ t.host = []

/-- R105: the tree BUILD gives is a function of `FREQ` alone: whatever else two states hold at the start of C_BUILD, equal
counters give equal trees. -/
def Obligations.TreeDependsOnlyOnTheCounts : Prop :=
  ∀ s u : State, s.host = [] → u.host = [] → s.phase = .cBuild → u.phase = .cBuild →
    s.place = .top → u.place = .top → s.countInv → u.countInv → s.freq = u.freq →
    ∃ t v tree, Reaches s t ∧ Reaches u v ∧ t.phase = .cMagic ∧ v.phase = .cMagic ∧
      Tree.heldAt t.node tree t.root ∧ Tree.heldAt v.node tree v.root

/-! ### COMPRESS: the tree field, the codes, the payload -/

/-- R76, R113: the tree field of a tree with k leaves has 11·k − 1 bits, and the tree has 2·k − 1 nodes (R104). -/
def Obligations.TreeFieldLength : Prop :=
  ∀ tree : Tree, tree.bits.length + 1 = 11 * tree.leaves.length ∧ tree.size + 1 = 2 * tree.leaves.length

/-- R110: WRITE_TREE writes the pre-order records of the tree at `ROOT` and nothing else, then C_CODES starts at the root. -/
def Obligations.WriteTreeEmitsThePreorderRecords : Prop :=
  ∀ (s : State) (tree : Tree),
    s.host = [] → s.phase = .cTree → s.place = .top → s.stack = [{ handle := s.root }] →
    Tree.heldAt s.node tree s.root → s.output.closed = false → allOk s.output.answers = true →
    ∃ t, Reaches s t ∧ t.phase = .cCodes ∧ t.place = .top ∧ t.stack = [{ handle := s.root }] ∧
      t.output.bits = s.output.bits ++ tree.bits ∧ t.output.closed = false ∧ allOk t.output.answers = true ∧
      t.outBits = s.outBits + BitVec.ofNat 64 tree.bits.length ∧
      t.node = s.node ∧ t.root = s.root ∧ t.code = s.code ∧ t.input = s.input ∧ t.inBits = s.inBits ∧
      t.busy = s.busy ∧ t.errCode = s.errCode ∧ t.host = []

/-- R130, R133: DERIVE_CODES binds each leaf's symbol to its root-to-leaf path and leaves every other entry as it was, then
C_EMIT starts; it issues no transaction. -/
def Obligations.DeriveCodesBindsThePaths : Prop :=
  ∀ (s : State) (tree : Tree),
    s.host = [] → s.phase = .cCodes → s.place = .top → s.stack = [{ handle := s.root }] →
    Tree.heldAt s.node tree s.root → tree.leaves.Nodup →
    ∃ t, Reaches s t ∧ t.phase = .cEmit ∧ t.place = .top ∧ t.stack = [] ∧
      (∀ x ∈ tree.leaves, t.cbits x = tree.code x) ∧ (∀ x, x ∉ tree.leaves → t.cbits x = s.cbits x) ∧
      t.input = s.input ∧ t.output = s.output ∧ t.inBits = s.inBits ∧ t.outBits = s.outBits ∧
      t.node = s.node ∧ t.root = s.root ∧ t.busy = s.busy ∧ t.errCode = s.errCode ∧ t.host = []

/-- R131, R132: of a tree with an Internal root, every code has at least one bit and at most k − 1 (R107), no code is a
prefix of another leaf's, and the sum of 2^(−CLEN) is 1. -/
def Obligations.CodesArePrefixFreeAndComplete : Prop :=
  ∀ tree : Tree, tree.isNode = true →
    (∀ c ∈ tree.codes, 1 ≤ c.2.length ∧ c.2.length + 1 ≤ tree.leaves.length) ∧
    (∀ c ∈ tree.codes, ∀ d ∈ tree.codes, c.2 <+: d.2 → c = d) ∧
    (tree.codes.map (fun c => (1 / 2 : Rat) ^ c.2.length)).sum = 1

/-- R142: C_MAGIC writes the 32 bits of `MAGIC`, most significant first, then C_TREE starts at the root; an I/O error raises
`ChannelError(3)`.
That this step puts the root on the traversal's stack (R36, R110) is the model's choice (log entry 5). -/
def Obligations.MagicStepWritesTheHeader : Prop :=
  ∀ s : State, s.host = [] → s.phase = .cMagic → s.output.closed = false →
    (nextAnswer s.output.answers = .ok →
      step s = .next { s.afterWrite (bitsOf 32 Config.magic.toNat) with
        phase := .cTree, place := .top, stack := [{ handle := s.root }] }) ∧
    (nextAnswer s.output.answers = .ioError → step s = .next (s.afterOutError.afterRaise .channelError 3))

/-- R144, R145: the second pass writes each byte's code in order, then the sentinel's code, and C_FLUSH follows; trailing bits
that make no byte are ignored (R59). -/
def Obligations.EmitAndTermWriteTheCodes : Prop :=
  ∀ (s : State) (bs : List Byte) (tail : List Bool),
    s.host = [] → s.phase = .cEmit → s.place = .top → s.output.closed = false → s.reliable = true →
    s.input.bits.drop s.input.pos = bitsOfBytes bs ++ tail → tail.length < 8 → s.inputInv →
    (∀ b ∈ bs, s.clen (byteSymbol b) ≠ 0) → s.clen Config.eof ≠ 0 →
    ∃ t code, Reaches s t ∧ t.phase = .cFlush ∧ t.place = .top ∧
      code = bs.flatMap (fun b => s.cbits (byteSymbol b)) ++ s.cbits Config.eof ∧
      t.output.bits = s.output.bits ++ code ∧ t.output.closed = false ∧ t.reliable = true ∧
      t.outBits = s.outBits + BitVec.ofNat 64 code.length ∧
      t.inBits = s.inBits + BitVec.ofNat 64 (8 * bs.length) ∧
      t.freq = s.freq ∧ t.len = s.len ∧ t.code = s.code ∧ t.busy = s.busy ∧ t.errCode = s.errCode ∧ t.host = []

/-- R144, R145, the steps of C_EMIT and C_TERM.
A second-pass byte selects its code, one with no code raises `InconsistentInput(0)` at once, an I/O error raises
`ChannelError(1)`, and the end of the input selects the sentinel's code and enters C_TERM.
Each code bit is one `OutWrite(1)`, whose I/O error raises `ChannelError(3)`; after the last bit of a byte's code the next byte
is due, after the last of the sentinel's C_FLUSH follows.
Nothing else changes.
The model's choice: the cut into steps (log entry 5) and the free position after `NoData` (log entry 4). -/
def Obligations.EmitAndTermStepsWriteCodeBits : Prop :=
  (∀ s : State, s.host = [] → s.phase = .cEmit → s.place = .top →
    (∀ b : Byte, nextAnswer s.input.answers = .ok → bitsOf 8 b.toNat <+: s.input.bits.drop s.input.pos →
      (s.clen (byteSymbol b) = 0 → step s = .next ((s.afterRead 8).afterRaise .inconsistentInput 0)) ∧
      (s.clen (byteSymbol b) ≠ 0 →
        step s = .next { s.afterRead 8 with place := .bits (s.cbits (byteSymbol b)) })) ∧
    (nextAnswer s.input.answers = .ok → s.input.bits.length < s.input.pos + 8 →
      ∃ p, step s = .next { s with
        input := { s.input with pos := p, answers := s.input.answers.tail }, draws := s.draws + 1
        phase := .cTerm, place := .bits (s.cbits Config.eof) }) ∧
    (nextAnswer s.input.answers = .ioError → step s = .next (s.afterInError.afterRaise .channelError 1))) ∧
  (∀ (s : State) (b : Bool) (rest : List Bool), s.host = [] → s.phase = .cEmit ∨ s.phase = .cTerm →
    s.place = .bits (b :: rest) → s.output.closed = false →
    (nextAnswer s.output.answers = .ok → rest ≠ [] →
      step s = .next { s.afterWrite [b] with place := .bits rest }) ∧
    (nextAnswer s.output.answers = .ok → rest = [] →
      step s = .next { s.afterWrite [b] with
        phase := if s.phase = .cTerm then .cFlush else .cEmit, place := .top }) ∧
    (nextAnswer s.output.answers = .ioError → step s = .next (s.afterOutError.afterRaise .channelError 3)))

/-! ### The end of an operation -/

/-- R146, R165, R184, R189: in C_FLUSH and D_DONE the flush completes the operation, or its failure ends it with
`ChannelError(4)` and no second flush. -/
def Obligations.FlushEndsTheOperation : Prop :=
  ∀ s : State, s.host = [] → s.phase = .cFlush ∨ s.phase = .dDone → s.output.closed = false →
    (nextAnswer s.output.answers = .ok →
      ∃ pad : List Bool, pad.length < 8 ∧ (s.output.bits.length + pad.length) % 8 = 0 ∧
        step s = .next { s with
          output := { bits := s.output.bits ++ pad, closed := true, answers := s.output.answers.tail }
          draws := s.draws + pad.length, phase := .idle, place := .top, busy := false, done := true }) ∧
    (nextAnswer s.output.answers = .ioError →
      step s = .next { s with
        output := { s.output with closed := true, answers := s.output.answers.tail }
        errCode := .channelError, errDetail := 4
        phase := .idle, place := .top, busy := false, error := true })

/-- R184, R185, R187: the error sequence's flush ends the operation whatever it answers, with the first error kept and
neither bit counter changed; a failed one adds no pad bits. -/
def Obligations.ErrorFlushKeepsTheFirstError : Prop :=
  ∀ s : State, s.host = [] → s.phase = .eFlush → s.output.closed = false →
    nextAnswer s.output.answers ≠ .silent →
    ∃ pad : List Bool, pad.length < 8 ∧
      (nextAnswer s.output.answers = .ok → (s.output.bits.length + pad.length) % 8 = 0) ∧
      (nextAnswer s.output.answers = .ioError → pad = []) ∧
      step s = .next { s with
        output := { bits := s.output.bits ++ pad, closed := true, answers := s.output.answers.tail }
        draws := s.draws + pad.length, phase := .idle, place := .top, busy := false, error := true }

/-- R149, R170: the phases and the errors a core step can raise in them: no other error is raised by any
core step, and a step that is the host's move raises none: it leaves `ERR_CODE` or clears it. -/
def Obligations.EachPhaseRaisesOnlyItsErrors : Prop :=
  (∀ s t : State, s.errCode = .none → coreStep s = .next t → t.errCode ≠ .none →
    (s.phase, t.errCode, t.errDetail) ∈
      ([(.cCount, .channelError, 1), (.cCount, .inputTooLong, 0), (.cCount, .channelError, 2),
        (.cMagic, .channelError, 3), (.cTree, .channelError, 3), (.cEmit, .channelError, 3),
        (.cTerm, .channelError, 3), (.cEmit, .channelError, 1), (.cEmit, .inconsistentInput, 0),
        (.cFlush, .channelError, 4), (.dMagic, .channelError, 1), (.dMagic, .malformedStream, 1),
        (.dMagic, .invalidFormat, 0), (.dTree, .channelError, 1), (.dTree, .malformedStream, 2),
        (.dTree, .inconsistentTree, 1), (.dTree, .inconsistentTree, 2), (.dTree, .inconsistentTree, 3),
        (.dWalk, .channelError, 1), (.dWalk, .malformedStream, 3), (.dWalk, .channelError, 3),
        (.dDone, .channelError, 4)] : List (Phase × ErrCode × BitVec 4)) ∧
    (if t.errCode = .channelError ∧ t.errDetail = 4 then t.phase = .idle ∧ t.error = true ∧ t.busy = false
      else t.phase = .eFlush ∧ t.busy = s.busy ∧ t.error = s.error)) ∧
  (∀ (s t : State) (m : HostMove) (rest : List HostMove), m ≠ .core → step { s with host := m :: rest } = .next t →
    t.errCode = s.errCode ∨ t.errCode = .none)

/-! ### DECOMPRESS -/

/-- R161: D_MAGIC reads 32 bits and compares them with `MAGIC`; a mismatch raises `InvalidFormat(0)` with the 32 bits counted,
fewer than 32 bits raise `MalformedStream(1)`, an I/O error raises `ChannelError(1)`.
R36, R115: D_TREE starts with `NCOUNT` 0 and an empty stack; that the step of D_MAGIC makes these assignments is the model's
choice (log entry 5), and so is the free position after `NoData` (log entry 4). -/
def Obligations.MagicIsCheckedBeforeTheTree : Prop :=
  ∀ (s : State), s.host = [] → s.phase = .dMagic → s.inputInv →
    (∀ r : Word, nextAnswer s.input.answers = .ok → bitsOf 32 r.toNat <+: s.input.bits.drop s.input.pos →
      (r = Config.magic →
        step s = .next { s.afterRead 32 with phase := .dTree, place := .top, ncount := 0, stack := [] }) ∧
      (r ≠ Config.magic → step s = .next ((s.afterRead 32).afterRaise .invalidFormat 0))) ∧
    (nextAnswer s.input.answers = .ok → s.input.bits.length < s.input.pos + 32 →
      ∃ p, step s = .next (State.afterRaise .malformedStream 1 { s with
        input := { s.input with pos := p, answers := s.input.answers.tail }, draws := s.draws + 1 })) ∧
    (nextAnswer s.input.answers = .ioError → step s = .next (s.afterInError.afterRaise .channelError 1))

/-- R114: READ_TREE inverts WRITE_TREE: from the records of a tree with an Internal root and at most `NODE_CAP` nodes it
rebuilds that tree, consumes exactly those bits (R118), and the walk starts at the root. -/
def Obligations.ReadTreeInvertsWriteTree : Prop :=
  ∀ (s : State) (tree : Tree) (rest : List Bool),
    s.host = [] → s.phase = .dTree → s.place = .top → s.ncount = 0 → s.stack = [] →
    allOk s.input.answers = true → s.input.bits.drop s.input.pos = tree.bits ++ rest → s.inputInv →
    tree.isNode = true → tree.size ≤ 513 →
    ∃ t, Reaches s t ∧ t.phase = .dWalk ∧ t.place = .top ∧ t.cur = t.root ∧
      Tree.heldAt t.node tree t.root ∧ t.ncount.val = tree.size ∧
      t.input.pos = s.input.pos + tree.bits.length ∧ t.input.bits = s.input.bits ∧
      allOk t.input.answers = true ∧ t.inBits = s.inBits + BitVec.ofNat 64 tree.bits.length ∧
      t.output = s.output ∧ t.outBits = s.outBits ∧ t.freq = s.freq ∧ t.len = s.len ∧ t.code = s.code ∧
      t.busy = s.busy ∧ t.errCode = s.errCode ∧ t.host = []

/-- R115, R116, R186, of tree fields that cannot be read.
An input that ends in the tree raises `MalformedStream(2)`, with the bits of the reads carried out counted and those that a
symbol's read met too few of, 8 at most, not counted (R181).
A tree that is one leaf raises `InconsistentTree(1)` after its 10 bits; a tag read with the arena full raises
`InconsistentTree(3)` with that tag counted.
R112, R115, R170, step by step: at a tag as at a symbol the end of the input raises `MalformedStream(2)` and an I/O error
`ChannelError(1)`, and neither changes `IN_BITS`.
The position after `NoData` is a free value (log entry 4). -/
def Obligations.MalformedTreeFieldsRaise : Prop :=
  (∀ (s : State) (tree : Tree) (part : List Bool),
    s.host = [] → s.phase = .dTree → s.place = .top → s.ncount = 0 → s.stack = [] →
    allOk s.input.answers = true → s.inputInv → s.input.bits.drop s.input.pos = part →
    part <+: tree.bits → part ≠ tree.bits → tree.size ≤ 513 →
    ∃ t, Reaches s t ∧ t.phase = .eFlush ∧ t.errCode = .malformedStream ∧ t.errDetail = 2 ∧
      t.output = s.output ∧
      ∃ read rest : List Bool, part = read ++ rest ∧ rest.length < 9 ∧
        t.inBits = s.inBits + BitVec.ofNat 64 read.length) ∧
  (∀ (s : State) (x : Symbol) (rest : List Bool),
    s.host = [] → s.phase = .dTree → s.place = .top → s.ncount = 0 → s.stack = [] →
    allOk s.input.answers = true → s.input.bits.drop s.input.pos = true :: bitsOf 9 x.val ++ rest →
    ∃ t, runSteps 2 s = .next t ∧ t.phase = .eFlush ∧ t.errCode = .inconsistentTree ∧ t.errDetail = 1 ∧
      t.inBits = s.inBits + 10) ∧
  (∀ s : State,
    s.host = [] → s.phase = .dTree → s.place = .top → s.ncount.val = 513 →
    nextAnswer s.input.answers = .ok → s.input.pos < s.input.bits.length →
    step s = .next ((s.afterRead 1).afterRaise .inconsistentTree 3)) ∧
  (∀ (s : State) (n : Nat),
    s.host = [] → s.phase = .dTree → (s.place = .top ∧ n = 1) ∨ (s.place = .symbol ∧ n = 9) →
    (nextAnswer s.input.answers = .ok → s.input.bits.length < s.input.pos + n →
      ∃ p, step s = .next (State.afterRaise .malformedStream 2 { s with
        input := { s.input with pos := p, answers := s.input.answers.tail }, draws := s.draws + 1 })) ∧
    (nextAnswer s.input.answers = .ioError → step s = .next (s.afterInError.afterRaise .channelError 1)))

/-- R163, one bit of the walk: the cursor moves left on 0 and right on 1; the sentinel's leaf ends the walk, a byte's leaf
makes its write due; the end of the input raises `MalformedStream(3)`, an I/O error `ChannelError(1)`. -/
def Obligations.WalkStepMovesTheCursor : Prop :=
  ∀ s : State, s.host = [] → s.phase = .dWalk → s.place = .top → s.inputInv →
    (∀ (b : Bool) (c : Handle), nextAnswer s.input.answers = .ok → [b] <+: s.input.bits.drop s.input.pos →
      c = (if b then (s.nodeAt s.cur).right else (s.nodeAt s.cur).left) →
      ((s.nodeAt c).kind = .internal → step s = .next { s.afterRead 1 with cur := c }) ∧
      ((s.nodeAt c).kind = .leaf → (s.nodeAt c).sym = 256 →
        step s = .next { s.afterRead 1 with cur := c, phase := .dDone, place := .top }) ∧
      ((s.nodeAt c).kind = .leaf → (s.nodeAt c).sym ≠ 256 →
        step s = .next { s.afterRead 1 with cur := c, place := .byte })) ∧
    (nextAnswer s.input.answers = .ok → s.input.pos = s.input.bits.length →
      ∃ p, step s = .next (State.afterRaise .malformedStream 3 { s with
        input := { s.input with pos := p, answers := s.input.answers.tail }, draws := s.draws + 1 })) ∧
    (nextAnswer s.input.answers = .ioError → step s = .next (s.afterInError.afterRaise .channelError 1))

/-- R164, the write of a decoded byte: `OutWrite(8, s)` most significant bit first, then the cursor is back at the root; an
I/O error raises `ChannelError(3)`. -/
def Obligations.WalkWritesTheDecodedByte : Prop :=
  ∀ s : State, s.host = [] → s.phase = .dWalk → s.place = .byte → s.output.closed = false →
    (nextAnswer s.output.answers = .ok →
      step s = .next { s.afterWrite (bitsOf 8 (s.nodeAt s.cur).sym.val) with cur := s.root, place := .top }) ∧
    (nextAnswer s.output.answers = .ioError → step s = .next (s.afterOutError.afterRaise .channelError 3))

/-- R163, R167, R168: from the root, the paths of any leaves of bytes and then of a leaf of the sentinel decode to those
bytes, whether or not a symbol has several leaves; the walk stops right after the sentinel's path and reads nothing more. -/
def Obligations.WalkDecodesConcatenatedCodes : Prop :=
  ∀ (s : State) (tree : Tree) (codes : List (Symbol × List Bool)) (last rest : List Bool),
    s.host = [] → s.phase = .dWalk → s.place = .top → s.cur = s.root → Tree.heldAt s.node tree s.root →
    tree.isNode = true → s.reliable = true → s.output.closed = false → s.inputInv →
    (∀ c ∈ codes, c ∈ tree.codes ∧ c.1 ≠ Config.eof) → (Config.eof, last) ∈ tree.codes →
    s.input.bits.drop s.input.pos = codes.flatMap (fun c => c.2) ++ last ++ rest →
    ∃ t used, Reaches s t ∧ t.phase = .dDone ∧ t.place = .top ∧
      used = (codes.flatMap (fun c => c.2) ++ last).length ∧
      t.output.bits = s.output.bits ++ codes.flatMap (fun c => bitsOf 8 c.1.val) ∧
      t.input.pos = s.input.pos + used ∧ t.inBits = s.inBits + BitVec.ofNat 64 used ∧
      t.outBits = s.outBits + BitVec.ofNat 64 (8 * codes.length) ∧
      t.output.closed = false ∧ t.reliable = true ∧ t.busy = s.busy ∧ t.errCode = s.errCode ∧ t.host = []

/-- R117, R167: a tree with no leaf of the sentinel makes the walk read until the input ends, and then raises
`MalformedStream(3)`. -/
def Obligations.TreeWithoutSentinelEndsInMalformedStream : Prop :=
  ∀ (s : State) (tree : Tree),
    s.host = [] → s.phase = .dWalk → s.place = .top → s.cur = s.root → Tree.heldAt s.node tree s.root →
    tree.isNode = true → Config.eof ∉ tree.leaves → s.reliable = true → s.output.closed = false → s.inputInv →
    ∃ t, Reaches s t ∧ t.phase = .eFlush ∧ t.errCode = .malformedStream ∧ t.errDetail = 3 ∧
      t.inBits = s.inBits + BitVec.ofNat 64 (s.input.bits.length - s.input.pos)

/-! ### Whole operations -/

/-- R74, R141, R147, R148: COMPRESS launched by the host's write of its word, under the premises of R205 and CHANNEL_RELIABLE,
ends with `DONE` and the artifact of its second pass: the magic, the tree BUILD makes of the first pass's counts, the codes of the second
pass's bytes, the sentinel's code and 0 to 7 pad bits, and nothing else.
The second pass is the first one's bytes where the host presents no others. -/
def Obligations.CompressWritesTheArtifact : Prop :=
  ∀ (s : State) (first second : List Byte),
    s.busy = false → s.reliable = true → s.launchable = true → s.input.rewindable = true →
    s.input.bits = bitsOfBytes first → s.input.replay.getD s.input.bits = bitsOfBytes second →
    (∀ b ∈ second, b ∈ first) → first.length ≤ Config.lenMax.toNat →
    ∃ t tree pad, Reaches (s.launch 0x00000001#32) t ∧
      t.busy = false ∧ t.done = true ∧ t.error = false ∧ t.phase = .idle ∧ t.errCode = .none ∧ t.lastOp = 0b01 ∧
      tree.builtFrom first ∧
      tree.isNode = true ∧ tree.leaves.Nodup ∧ tree.leaves.Perm (leafSymbols first) ∧
      t.output.bits = artifactBits tree second ++ pad ∧ t.output.closed = true ∧
      pad.length < 8 ∧ t.output.bits.length % 8 = 0 ∧
      t.outBits = BitVec.ofNat 64 (artifactBits tree second).length ∧
      t.inBits = BitVec.ofNat 64 (8 * first.length + 8 * second.length)

/-- R169, the round trip: COMPRESS of any input of at most `LEN_MAX` bytes, read identically in both passes and with no channel
I/O error, ends with `DONE`; DECOMPRESS of the artifact it wrote, with whatever pad bits, ends with `DONE` and output exactly
that input. The second operation may run on any idle state, whatever its internal tables hold. -/
def Obligations.DecompressOfCompressIsTheInput : Prop :=
  ∀ (s : State) (bs : List Byte),
    s.busy = false → s.reliable = true → s.launchable = true → s.input.rewindable = true →
    s.input.bits = bitsOfBytes bs → s.input.replay = none → bs.length ≤ Config.lenMax.toNat →
    ∃ t, Reaches (s.launch 0x00000001#32) t ∧ t.busy = false ∧ t.done = true ∧
      ∀ u : State, u.busy = false → u.reliable = true → u.launchable = true → u.input.bits = t.output.bits →
        ∃ v, Reaches (u.launch 0x00000002#32) v ∧ v.busy = false ∧ v.done = true ∧ v.error = false ∧
          v.output.bits = bitsOfBytes bs ∧ v.output.closed = true

/-- R171: every proper prefix of an unpadded artifact ends DECOMPRESS with `MalformedStream`: detail 1 within the magic, 2
within the tree, 3 after it. -/
def Obligations.TruncatedArtifactIsMalformed : Prop :=
  ∀ (s : State) (tree : Tree) (bs : List Byte) (part : List Bool),
    s.busy = false → s.reliable = true → s.launchable = true → s.input.bits = part →
    tree.isNode = true → tree.leaves.Nodup → tree.size ≤ 513 →
    (∀ b ∈ bs, byteSymbol b ∈ tree.leaves) → Config.eof ∈ tree.leaves →
    part <+: artifactBits tree bs → part ≠ artifactBits tree bs →
    ∃ t, Reaches (s.launch 0x00000002#32) t ∧
      t.busy = false ∧ t.done = false ∧ t.error = true ∧ t.phase = .idle ∧ t.errCode = .malformedStream ∧
      t.errDetail = (if part.length < 32 then 1 else if part.length < 32 + tree.bits.length then 2 else 3)

/-! ### The whole machine -/

/-- The invariant holds at reset: `STATUS` as R37 gives it; the counters' and `PQ`'s part rests on the model's reset values
(log entry 13). -/
def Obligations.InvariantHoldsAtReset : Prop := State.reset.inv

/-- Every step keeps the invariant, the host's moves included: `STATUS` stays as R13 to R18 say, the counters add up (R91),
`PQ` stays in order (R100), the cursor stays Internal at the head of the walk's loop (R163) and the input position within
the input (R53).
The error recorded is one R181 lists and `LAST_OP` can raise, by R149 and R170.
Where the step is a reset, which sets every piece of the instance's state (log entry 20), the counters' and `PQ`'s part rests
on the model's reset values (log entry 13): R37 leaves these unspecified. -/
def Obligations.StepKeepsTheInvariant : Prop :=
  ∀ s t : State, s.inv → step s = .next t → t.inv

/-- An operation never stops the machine: from every state of the invariant whose running operation's output is open, the
core's step answers a next state, whatever the channels answer and whatever the input holds.
Where a channel never answers, R207 gives the core no step, and that the model's step answers the same state there is its
choice (log entry 6). -/
def Obligations.CoreStepAlwaysAnswers : Prop :=
  ∀ s : State, s.inv → (s.busy = true → s.output.closed = false) → ∃ t, coreStep s = .next t

/-- R141, R166: the phases follow each other in no other way than the spec's: a core step that changes the phase takes one of
these transitions. -/
def Obligations.PhasesFollowInTheSpecsOrder : Prop :=
  ∀ s t : State, coreStep s = .next t → s.phase ≠ t.phase →
    (s.phase, t.phase) ∈
      ([(.cCount, .cBuild), (.cBuild, .cMagic), (.cMagic, .cTree), (.cTree, .cCodes), (.cCodes, .cEmit),
        (.cEmit, .cTerm), (.cTerm, .cFlush), (.cFlush, .idle),
        (.dMagic, .dTree), (.dTree, .dWalk), (.dWalk, .dDone), (.dDone, .idle), (.eFlush, .idle),
        (.cCount, .eFlush), (.cMagic, .eFlush), (.cTree, .eFlush), (.cEmit, .eFlush), (.cTerm, .eFlush),
        (.dMagic, .eFlush), (.dTree, .eFlush), (.dWalk, .eFlush)] : List (Phase × Phase))

/-- R15: `BUSY` rises only with an accepted command, falls only with the end of an operation or a reset, and nothing else
changes it. -/
def Obligations.OnlyCommandsAndEndsChangeBusy : Prop :=
  ∀ s t : State, s.inv → step s = .next t → s.busy ≠ t.busy →
    (s.busy = false ∧ ∃ w rest, s.host = .write 0x00 4 w :: rest ∧
      ((w = 0x00000001#32 ∧ t.phase = .cCount ∧ t.lastOp = 0b01) ∨
       (w = 0x00000002#32 ∧ t.phase = .dMagic ∧ t.lastOp = 0b10)) ∧
      t.rej = false ∧ t.done = false ∧ t.error = false ∧ t.errCode = .none) ∨
    (s.busy = true ∧ t.phase = .idle ∧
      ((∃ rest, s.host = .reset :: rest) ∨ t.done = true ∨ t.error = true))

/-- R55: the one `OutFlushClose()` of an operation is its last output transaction: a core step of an operation whose output is
open closes it exactly when it ends the operation. -/
def Obligations.OperationEndsWithItsFlush : Prop :=
  ∀ s t : State, s.inv → s.busy = true → s.output.closed = false → coreStep s = .next t →
    (t.output.closed = true ↔ t.busy = false)

/-- R30, R33, R92: a core step writes `FREQ` and `LEN` only in C_COUNT, `CODE` only in C_CODES, `PQ` and `SEQ` only in
C_BUILD, the arena and `ROOT` only in C_BUILD and D_TREE, and `CUR` only in D_TREE and D_WALK; but for the start of a command
and a reset nothing else writes them.
`NCOUNT` is written only in C_BUILD and D_TREE and the stack only in C_TREE, C_CODES and D_TREE, and both by the step that
enters the phase: `NCOUNT` 0 and an empty stack on entering D_TREE, the root alone on entering C_TREE and C_CODES.
That the entering step makes these assignments is the model's choice (log entry 5). -/
def Obligations.TablesAreWrittenOnlyInTheirPhases : Prop :=
  ∀ s t : State, coreStep s = .next t →
    (s.phase ≠ .cCount → t.freq = s.freq ∧ t.len = s.len) ∧
    (s.phase ≠ .cCodes → t.code = s.code) ∧
    (s.phase ≠ .cBuild → t.pq = s.pq ∧ t.seq = s.seq) ∧
    (s.phase ≠ .cBuild → s.phase ≠ .dTree → t.node = s.node ∧ t.root = s.root) ∧
    (s.phase ≠ .dTree → s.phase ≠ .dWalk → t.cur = s.cur) ∧
    (s.phase ≠ .cBuild → s.phase ≠ .dTree → t.phase ≠ .dTree → t.ncount = s.ncount) ∧
    (s.phase ≠ .cTree → s.phase ≠ .cCodes → s.phase ≠ .dTree → t.phase ≠ .cTree → t.phase ≠ .dTree →
      t.stack = s.stack) ∧
    (s.phase ≠ .dTree → t.phase = .dTree → t.ncount = 0 ∧ t.stack = []) ∧
    (s.phase ≠ .cTree → t.phase = .cTree → t.stack = [{ handle := s.root }]) ∧
    (s.phase ≠ .cCodes → t.phase = .cCodes → t.stack = [{ handle := s.root }]) ∧
    t.lastOp = s.lastOp ∧ t.rej = s.rej ∧ t.hostData = s.hostData ∧ t.host = s.host

/-- R36, R190: no operation reads state left behind by an earlier one: from two idle states that differ only in the internal
tables, every run shows the same `STATUS`, counters, channels and answers to the host, or stops in the same way. -/
def Obligations.NothingCarriesOverBetweenOperations : Prop :=
  ∀ (s t : State) (k : Nat), s.idle = true → SameOutside s t → SameOutcome (runSteps k s) (runSteps k t)

/-! ### The host's moves -/

/-- R8, R61, R209: a step is the core's where the host has no move to come or lets the core move, and what the core does is the
same whatever moves are to come.
R196, R212: in IDLE the core waits: it issues no transaction and changes nothing, so an ended operation issues none.
That waiting is a step at all is the model's choice (log entry 5).
R84, R205, R209: a presented input channel stands at position 0, a presented output channel is empty and open; both are
refused while an operation owns the channels (I12; the refusal is the model's choice, log entry 21).
R84: a POLL reads as RD does; where the field has the value it is done, else the core moves and it reads again (one core move
between two reads is the model's choice, log entry 19).
That the host is a list of moves in the state is the model's choice (log entry 9). -/
def Obligations.HostMovesBetweenCoreSteps : Prop :=
  (∀ s : State, s.host = [] → step s = coreStep s) ∧
  (∀ (s : State) (rest : List HostMove),
    step { s with host := .core :: rest } = coreStep { s with host := rest }) ∧
  (∀ (s : State) (moves : List HostMove), coreStep { s with host := moves } = (coreStep s).withHost moves) ∧
  (∀ s : State, s.phase = .idle → coreStep s = .next s) ∧
  (∀ (s : State) (rest : List HostMove) (c : InChannel),
    (s.busy = false → step { s with host := .chanIn c :: rest } =
      .next { s with host := rest, input := { c with pos := 0 } }) ∧
    (s.busy = true → step { s with host := .chanIn c :: rest } = .refused .channelOwned)) ∧
  (∀ (s : State) (rest : List HostMove) (answers : List Answer),
    (s.busy = false → step { s with host := .chanOut answers :: rest } =
      .next { s with host := rest, output := { bits := [], closed := false, answers := answers } }) ∧
    (s.busy = true → step { s with host := .chanOut answers :: rest } = .refused .channelOwned)) ∧
  (∀ (s : State) (rest : List HostMove) (offset hi lo value : Nat),
    (∀ v : Word, step { s with host := .read offset 4 :: rest } = .next { s with host := rest, hostData := v } →
      ((v.extractLsb' lo (hi + 1 - lo)).toNat = value →
        step { s with host := .poll offset hi lo value :: rest } = .next { s with host := rest, hostData := v }) ∧
      ((v.extractLsb' lo (hi + 1 - lo)).toNat ≠ value →
        step { s with host := .poll offset hi lo value :: rest } =
          .next { s with host := .core :: .poll offset hi lo value :: rest, hostData := v })) ∧
    (step { s with host := .read offset 4 :: rest } = .refused .hostAccess →
      step { s with host := .poll offset hi lo value :: rest } = .refused .hostAccess))
end

