-- ==== Sys2Proof/Laws/Bits.lean ====
section
/-! SUPPORT. Bit sequences: their lengths, and how `bitsOf` and `natOf` undo each other. -/

namespace Sys2Proof

@[simp] theorem bitsOf_zero (v : Nat) : bitsOf 0 v = [] := rfl

theorem bitsOf_succ (w v : Nat) : bitsOf (w + 1) v = v.testBit w :: bitsOf w v := rfl

@[simp] theorem length_bitsOf (w v : Nat) : (bitsOf w v).length = w := by
  induction w with
  | zero => rfl
  | succ w ih => simp [bitsOf_succ, ih]

/-- The i-th bit of a sequence, from the left, is bit `w − 1 − i` of the value. -/
theorem getElem_bitsOf (w v i : Nat) (h : i < (bitsOf w v).length) :
    (bitsOf w v)[i] = v.testBit (w - 1 - i) := by
  induction w generalizing i with
  | zero => simp at h
  | succ w ih =>
    cases i with
    | zero => simp [bitsOf_succ]
    | succ i =>
      have hi : i < (bitsOf w v).length := by simpa [bitsOf_succ] using h
      simp only [bitsOf_succ, List.getElem_cons_succ, ih i hi]
      congr 1
      omega

@[simp] theorem natOf_nil : natOf [] = 0 := rfl

/-- A fold that starts at `a` is `a` shifted past the sequence, plus the sequence's value. -/
theorem foldl_natOf (bits : List Bool) (a : Nat) :
    bits.foldl (fun acc b => 2 * acc + b.toNat) a = a * 2 ^ bits.length + natOf bits := by
  induction bits generalizing a with
  | nil => simp [natOf]
  | cons b bs ih =>
    have h0 := ih (2 * 0 + b.toNat)
    simp only [natOf, List.foldl_cons, List.length_cons] at *
    rw [ih, h0]
    ring

/-- The first bit is the most significant one. -/
theorem natOf_cons (b : Bool) (bs : List Bool) : natOf (b :: bs) = b.toNat * 2 ^ bs.length + natOf bs := by
  have h := foldl_natOf bs (2 * 0 + b.toNat)
  simpa [natOf] using h

theorem natOf_lt (bits : List Bool) : natOf bits < 2 ^ bits.length := by
  induction bits with
  | nil => simp
  | cons b bs ih =>
    rw [natOf_cons, List.length_cons, pow_succ]
    cases b <;> simp <;> omega

/-- Reading back what was written: the low `w` bits of the value. -/
theorem natOf_bitsOf (w v : Nat) : natOf (bitsOf w v) = v % 2 ^ w := by
  induction w with
  | zero => simp [Nat.mod_one]
  | succ w ih =>
    rw [bitsOf_succ, natOf_cons, ih, length_bitsOf, Nat.mod_pow_succ, Nat.toNat_testBit]
    ring

theorem natOf_bitsOf_of_lt {w v : Nat} (h : v < 2 ^ w) : natOf (bitsOf w v) = v := by
  rw [natOf_bitsOf, Nat.mod_eq_of_lt h]

/-- Only the low `w` bits of a value matter. -/
theorem bitsOf_add_mul (w a k : Nat) : bitsOf w (k * 2 ^ w + a) = bitsOf w a := by
  apply List.ext_getElem (by simp)
  intro i h _
  have hi : w - 1 - i < w := by
    have : i < w := by simpa using h
    omega
  have key : ∀ x : Nat, x.testBit (w - 1 - i) = (x % 2 ^ w).testBit (w - 1 - i) := by
    intro x
    rw [Nat.testBit_mod_two_pow, decide_eq_true hi, Bool.true_and]
  rw [getElem_bitsOf, getElem_bitsOf, key, key a, Nat.mul_comm, Nat.mul_add_mod]

/-- Writing back what was read. -/
theorem bitsOf_natOf (bits : List Bool) : bitsOf bits.length (natOf bits) = bits := by
  induction bits with
  | nil => rfl
  | cons b bs ih =>
    have hb : (natOf (b :: bs)).testBit bs.length = b := by
      rw [natOf_cons, Nat.testBit_eq_decide_div_mod_eq, Nat.add_comm, Nat.add_mul_div_right _ _ (Nat.two_pow_pos _),
        Nat.div_eq_of_lt (natOf_lt bs)]
      cases b <;> simp
    rw [List.length_cons, bitsOf_succ, hb, natOf_cons, bitsOf_add_mul, ih]

@[simp] theorem length_bitsOfBytes (bs : List Byte) : (bitsOfBytes bs).length = 8 * bs.length := by
  induction bs with
  | nil => rfl
  | cons b bs ih => simp [bitsOfBytes, ih]; omega

theorem bitsOfBytes_append (as bs : List Byte) : bitsOfBytes (as ++ bs) = bitsOfBytes as ++ bitsOfBytes bs := by
  induction as with
  | nil => rfl
  | cons a as ih => simp [bitsOfBytes, ih]

end Sys2Proof
end

