-- ==== Sys2Proof/Laws/State.lean ====
section
/-! SUPPORT. One lemma per field per update of the state, true by definition, so that no later proof unfolds an update. -/

namespace Sys2Proof.Machine

/-! ### `reject` -/

@[simp] theorem State.reject_busy (s : State) : (s.reject).busy = s.busy := rfl
@[simp] theorem State.reject_done (s : State) : (s.reject).done = s.done := rfl
@[simp] theorem State.reject_error (s : State) : (s.reject).error = s.error := rfl
@[simp] theorem State.reject_rej (s : State) : (s.reject).rej = true := rfl
@[simp] theorem State.reject_phase (s : State) : (s.reject).phase = s.phase := rfl
@[simp] theorem State.reject_errCode (s : State) : (s.reject).errCode = s.errCode := rfl
@[simp] theorem State.reject_errDetail (s : State) : (s.reject).errDetail = s.errDetail := rfl
@[simp] theorem State.reject_lastOp (s : State) : (s.reject).lastOp = s.lastOp := rfl
@[simp] theorem State.reject_inBits (s : State) : (s.reject).inBits = s.inBits := rfl
@[simp] theorem State.reject_outBits (s : State) : (s.reject).outBits = s.outBits := rfl
@[simp] theorem State.reject_freq (s : State) : (s.reject).freq = s.freq := rfl
@[simp] theorem State.reject_len (s : State) : (s.reject).len = s.len := rfl
@[simp] theorem State.reject_node (s : State) : (s.reject).node = s.node := rfl
@[simp] theorem State.reject_ncount (s : State) : (s.reject).ncount = s.ncount := rfl
@[simp] theorem State.reject_root (s : State) : (s.reject).root = s.root := rfl
@[simp] theorem State.reject_pq (s : State) : (s.reject).pq = s.pq := rfl
@[simp] theorem State.reject_seq (s : State) : (s.reject).seq = s.seq := rfl
@[simp] theorem State.reject_code (s : State) : (s.reject).code = s.code := rfl
@[simp] theorem State.reject_cur (s : State) : (s.reject).cur = s.cur := rfl
@[simp] theorem State.reject_stack (s : State) : (s.reject).stack = s.stack := rfl
@[simp] theorem State.reject_place (s : State) : (s.reject).place = s.place := rfl
@[simp] theorem State.reject_input (s : State) : (s.reject).input = s.input := rfl
@[simp] theorem State.reject_output (s : State) : (s.reject).output = s.output := rfl
@[simp] theorem State.reject_draws (s : State) : (s.reject).draws = s.draws := rfl
@[simp] theorem State.reject_host (s : State) : (s.reject).host = s.host := rfl
@[simp] theorem State.reject_hostData (s : State) : (s.reject).hostData = s.hostData := rfl

/-! ### `accept` -/

@[simp] theorem State.accept_busy (op : BitVec 2) (s : State) : (s.accept op).busy = true := rfl
@[simp] theorem State.accept_done (op : BitVec 2) (s : State) : (s.accept op).done = false := rfl
@[simp] theorem State.accept_error (op : BitVec 2) (s : State) : (s.accept op).error = false := rfl
@[simp] theorem State.accept_rej (op : BitVec 2) (s : State) : (s.accept op).rej = false := rfl
@[simp] theorem State.accept_phase (op : BitVec 2) (s : State) : (s.accept op).phase = s.phase := rfl
@[simp] theorem State.accept_errCode (op : BitVec 2) (s : State) : (s.accept op).errCode = .none := rfl
@[simp] theorem State.accept_errDetail (op : BitVec 2) (s : State) : (s.accept op).errDetail = 0 := rfl
@[simp] theorem State.accept_lastOp (op : BitVec 2) (s : State) : (s.accept op).lastOp = op := rfl
@[simp] theorem State.accept_inBits (op : BitVec 2) (s : State) : (s.accept op).inBits = 0 := rfl
@[simp] theorem State.accept_outBits (op : BitVec 2) (s : State) : (s.accept op).outBits = 0 := rfl
@[simp] theorem State.accept_freq (op : BitVec 2) (s : State) : (s.accept op).freq = s.freq := rfl
@[simp] theorem State.accept_len (op : BitVec 2) (s : State) : (s.accept op).len = s.len := rfl
@[simp] theorem State.accept_node (op : BitVec 2) (s : State) : (s.accept op).node = s.node := rfl
@[simp] theorem State.accept_ncount (op : BitVec 2) (s : State) : (s.accept op).ncount = s.ncount := rfl
@[simp] theorem State.accept_root (op : BitVec 2) (s : State) : (s.accept op).root = s.root := rfl
@[simp] theorem State.accept_pq (op : BitVec 2) (s : State) : (s.accept op).pq = s.pq := rfl
@[simp] theorem State.accept_seq (op : BitVec 2) (s : State) : (s.accept op).seq = s.seq := rfl
@[simp] theorem State.accept_code (op : BitVec 2) (s : State) : (s.accept op).code = s.code := rfl
@[simp] theorem State.accept_cur (op : BitVec 2) (s : State) : (s.accept op).cur = s.cur := rfl
@[simp] theorem State.accept_stack (op : BitVec 2) (s : State) : (s.accept op).stack = s.stack := rfl
@[simp] theorem State.accept_place (op : BitVec 2) (s : State) : (s.accept op).place = s.place := rfl
@[simp] theorem State.accept_input (op : BitVec 2) (s : State) : (s.accept op).input = s.input := rfl
@[simp] theorem State.accept_output (op : BitVec 2) (s : State) : (s.accept op).output = s.output := rfl
@[simp] theorem State.accept_draws (op : BitVec 2) (s : State) : (s.accept op).draws = s.draws := rfl
@[simp] theorem State.accept_host (op : BitVec 2) (s : State) : (s.accept op).host = s.host := rfl
@[simp] theorem State.accept_hostData (op : BitVec 2) (s : State) : (s.accept op).hostData = s.hostData := rfl

/-! ### `complete` -/

@[simp] theorem State.complete_busy (s : State) : (s.complete).busy = false := rfl
@[simp] theorem State.complete_done (s : State) : (s.complete).done = true := rfl
@[simp] theorem State.complete_error (s : State) : (s.complete).error = s.error := rfl
@[simp] theorem State.complete_rej (s : State) : (s.complete).rej = s.rej := rfl
@[simp] theorem State.complete_phase (s : State) : (s.complete).phase = .idle := rfl
@[simp] theorem State.complete_errCode (s : State) : (s.complete).errCode = s.errCode := rfl
@[simp] theorem State.complete_errDetail (s : State) : (s.complete).errDetail = s.errDetail := rfl
@[simp] theorem State.complete_lastOp (s : State) : (s.complete).lastOp = s.lastOp := rfl
@[simp] theorem State.complete_inBits (s : State) : (s.complete).inBits = s.inBits := rfl
@[simp] theorem State.complete_outBits (s : State) : (s.complete).outBits = s.outBits := rfl
@[simp] theorem State.complete_freq (s : State) : (s.complete).freq = s.freq := rfl
@[simp] theorem State.complete_len (s : State) : (s.complete).len = s.len := rfl
@[simp] theorem State.complete_node (s : State) : (s.complete).node = s.node := rfl
@[simp] theorem State.complete_ncount (s : State) : (s.complete).ncount = s.ncount := rfl
@[simp] theorem State.complete_root (s : State) : (s.complete).root = s.root := rfl
@[simp] theorem State.complete_pq (s : State) : (s.complete).pq = s.pq := rfl
@[simp] theorem State.complete_seq (s : State) : (s.complete).seq = s.seq := rfl
@[simp] theorem State.complete_code (s : State) : (s.complete).code = s.code := rfl
@[simp] theorem State.complete_cur (s : State) : (s.complete).cur = s.cur := rfl
@[simp] theorem State.complete_stack (s : State) : (s.complete).stack = s.stack := rfl
@[simp] theorem State.complete_place (s : State) : (s.complete).place = .top := rfl
@[simp] theorem State.complete_input (s : State) : (s.complete).input = s.input := rfl
@[simp] theorem State.complete_output (s : State) : (s.complete).output = s.output := rfl
@[simp] theorem State.complete_draws (s : State) : (s.complete).draws = s.draws := rfl
@[simp] theorem State.complete_host (s : State) : (s.complete).host = s.host := rfl
@[simp] theorem State.complete_hostData (s : State) : (s.complete).hostData = s.hostData := rfl

/-! ### `endError` -/

@[simp] theorem State.endError_busy (s : State) : (s.endError).busy = false := rfl
@[simp] theorem State.endError_done (s : State) : (s.endError).done = s.done := rfl
@[simp] theorem State.endError_error (s : State) : (s.endError).error = true := rfl
@[simp] theorem State.endError_rej (s : State) : (s.endError).rej = s.rej := rfl
@[simp] theorem State.endError_phase (s : State) : (s.endError).phase = .idle := rfl
@[simp] theorem State.endError_errCode (s : State) : (s.endError).errCode = s.errCode := rfl
@[simp] theorem State.endError_errDetail (s : State) : (s.endError).errDetail = s.errDetail := rfl
@[simp] theorem State.endError_lastOp (s : State) : (s.endError).lastOp = s.lastOp := rfl
@[simp] theorem State.endError_inBits (s : State) : (s.endError).inBits = s.inBits := rfl
@[simp] theorem State.endError_outBits (s : State) : (s.endError).outBits = s.outBits := rfl
@[simp] theorem State.endError_freq (s : State) : (s.endError).freq = s.freq := rfl
@[simp] theorem State.endError_len (s : State) : (s.endError).len = s.len := rfl
@[simp] theorem State.endError_node (s : State) : (s.endError).node = s.node := rfl
@[simp] theorem State.endError_ncount (s : State) : (s.endError).ncount = s.ncount := rfl
@[simp] theorem State.endError_root (s : State) : (s.endError).root = s.root := rfl
@[simp] theorem State.endError_pq (s : State) : (s.endError).pq = s.pq := rfl
@[simp] theorem State.endError_seq (s : State) : (s.endError).seq = s.seq := rfl
@[simp] theorem State.endError_code (s : State) : (s.endError).code = s.code := rfl
@[simp] theorem State.endError_cur (s : State) : (s.endError).cur = s.cur := rfl
@[simp] theorem State.endError_stack (s : State) : (s.endError).stack = s.stack := rfl
@[simp] theorem State.endError_place (s : State) : (s.endError).place = .top := rfl
@[simp] theorem State.endError_input (s : State) : (s.endError).input = s.input := rfl
@[simp] theorem State.endError_output (s : State) : (s.endError).output = s.output := rfl
@[simp] theorem State.endError_draws (s : State) : (s.endError).draws = s.draws := rfl
@[simp] theorem State.endError_host (s : State) : (s.endError).host = s.host := rfl
@[simp] theorem State.endError_hostData (s : State) : (s.endError).hostData = s.hostData := rfl

/-! ### `recordError` -/

@[simp] theorem State.recordError_busy (e : ErrCode) (d : BitVec 4) (s : State) : (s.recordError e d).busy = s.busy := rfl
@[simp] theorem State.recordError_done (e : ErrCode) (d : BitVec 4) (s : State) : (s.recordError e d).done = s.done := rfl
@[simp] theorem State.recordError_error (e : ErrCode) (d : BitVec 4) (s : State) : (s.recordError e d).error = s.error := rfl
@[simp] theorem State.recordError_rej (e : ErrCode) (d : BitVec 4) (s : State) : (s.recordError e d).rej = s.rej := rfl
@[simp] theorem State.recordError_phase (e : ErrCode) (d : BitVec 4) (s : State) : (s.recordError e d).phase = s.phase := rfl
@[simp] theorem State.recordError_errCode (e : ErrCode) (d : BitVec 4) (s : State) : (s.recordError e d).errCode = e := rfl
@[simp] theorem State.recordError_errDetail (e : ErrCode) (d : BitVec 4) (s : State) : (s.recordError e d).errDetail = d := rfl
@[simp] theorem State.recordError_lastOp (e : ErrCode) (d : BitVec 4) (s : State) : (s.recordError e d).lastOp = s.lastOp := rfl
@[simp] theorem State.recordError_inBits (e : ErrCode) (d : BitVec 4) (s : State) : (s.recordError e d).inBits = s.inBits := rfl
@[simp] theorem State.recordError_outBits (e : ErrCode) (d : BitVec 4) (s : State) : (s.recordError e d).outBits = s.outBits := rfl
@[simp] theorem State.recordError_freq (e : ErrCode) (d : BitVec 4) (s : State) : (s.recordError e d).freq = s.freq := rfl
@[simp] theorem State.recordError_len (e : ErrCode) (d : BitVec 4) (s : State) : (s.recordError e d).len = s.len := rfl
@[simp] theorem State.recordError_node (e : ErrCode) (d : BitVec 4) (s : State) : (s.recordError e d).node = s.node := rfl
@[simp] theorem State.recordError_ncount (e : ErrCode) (d : BitVec 4) (s : State) : (s.recordError e d).ncount = s.ncount := rfl
@[simp] theorem State.recordError_root (e : ErrCode) (d : BitVec 4) (s : State) : (s.recordError e d).root = s.root := rfl
@[simp] theorem State.recordError_pq (e : ErrCode) (d : BitVec 4) (s : State) : (s.recordError e d).pq = s.pq := rfl
@[simp] theorem State.recordError_seq (e : ErrCode) (d : BitVec 4) (s : State) : (s.recordError e d).seq = s.seq := rfl
@[simp] theorem State.recordError_code (e : ErrCode) (d : BitVec 4) (s : State) : (s.recordError e d).code = s.code := rfl
@[simp] theorem State.recordError_cur (e : ErrCode) (d : BitVec 4) (s : State) : (s.recordError e d).cur = s.cur := rfl
@[simp] theorem State.recordError_stack (e : ErrCode) (d : BitVec 4) (s : State) : (s.recordError e d).stack = s.stack := rfl
@[simp] theorem State.recordError_place (e : ErrCode) (d : BitVec 4) (s : State) : (s.recordError e d).place = s.place := rfl
@[simp] theorem State.recordError_input (e : ErrCode) (d : BitVec 4) (s : State) : (s.recordError e d).input = s.input := rfl
@[simp] theorem State.recordError_output (e : ErrCode) (d : BitVec 4) (s : State) : (s.recordError e d).output = s.output := rfl
@[simp] theorem State.recordError_draws (e : ErrCode) (d : BitVec 4) (s : State) : (s.recordError e d).draws = s.draws := rfl
@[simp] theorem State.recordError_host (e : ErrCode) (d : BitVec 4) (s : State) : (s.recordError e d).host = s.host := rfl
@[simp] theorem State.recordError_hostData (e : ErrCode) (d : BitVec 4) (s : State) : (s.recordError e d).hostData = s.hostData := rfl

/-! ### `goto` -/

@[simp] theorem State.goto_busy (p : Phase) (s : State) : (s.goto p).busy = s.busy := rfl
@[simp] theorem State.goto_done (p : Phase) (s : State) : (s.goto p).done = s.done := rfl
@[simp] theorem State.goto_error (p : Phase) (s : State) : (s.goto p).error = s.error := rfl
@[simp] theorem State.goto_rej (p : Phase) (s : State) : (s.goto p).rej = s.rej := rfl
@[simp] theorem State.goto_phase (p : Phase) (s : State) : (s.goto p).phase = p := rfl
@[simp] theorem State.goto_errCode (p : Phase) (s : State) : (s.goto p).errCode = s.errCode := rfl
@[simp] theorem State.goto_errDetail (p : Phase) (s : State) : (s.goto p).errDetail = s.errDetail := rfl
@[simp] theorem State.goto_lastOp (p : Phase) (s : State) : (s.goto p).lastOp = s.lastOp := rfl
@[simp] theorem State.goto_inBits (p : Phase) (s : State) : (s.goto p).inBits = s.inBits := rfl
@[simp] theorem State.goto_outBits (p : Phase) (s : State) : (s.goto p).outBits = s.outBits := rfl
@[simp] theorem State.goto_freq (p : Phase) (s : State) : (s.goto p).freq = s.freq := rfl
@[simp] theorem State.goto_len (p : Phase) (s : State) : (s.goto p).len = s.len := rfl
@[simp] theorem State.goto_node (p : Phase) (s : State) : (s.goto p).node = s.node := rfl
@[simp] theorem State.goto_ncount (p : Phase) (s : State) : (s.goto p).ncount = s.ncount := rfl
@[simp] theorem State.goto_root (p : Phase) (s : State) : (s.goto p).root = s.root := rfl
@[simp] theorem State.goto_pq (p : Phase) (s : State) : (s.goto p).pq = s.pq := rfl
@[simp] theorem State.goto_seq (p : Phase) (s : State) : (s.goto p).seq = s.seq := rfl
@[simp] theorem State.goto_code (p : Phase) (s : State) : (s.goto p).code = s.code := rfl
@[simp] theorem State.goto_cur (p : Phase) (s : State) : (s.goto p).cur = s.cur := rfl
@[simp] theorem State.goto_stack (p : Phase) (s : State) : (s.goto p).stack = s.stack := rfl
@[simp] theorem State.goto_place (p : Phase) (s : State) : (s.goto p).place = .top := rfl
@[simp] theorem State.goto_input (p : Phase) (s : State) : (s.goto p).input = s.input := rfl
@[simp] theorem State.goto_output (p : Phase) (s : State) : (s.goto p).output = s.output := rfl
@[simp] theorem State.goto_draws (p : Phase) (s : State) : (s.goto p).draws = s.draws := rfl
@[simp] theorem State.goto_host (p : Phase) (s : State) : (s.goto p).host = s.host := rfl
@[simp] theorem State.goto_hostData (p : Phase) (s : State) : (s.goto p).hostData = s.hostData := rfl

/-! ### `moveTo` -/

@[simp] theorem State.moveTo_busy (p : Place) (s : State) : (s.moveTo p).busy = s.busy := rfl
@[simp] theorem State.moveTo_done (p : Place) (s : State) : (s.moveTo p).done = s.done := rfl
@[simp] theorem State.moveTo_error (p : Place) (s : State) : (s.moveTo p).error = s.error := rfl
@[simp] theorem State.moveTo_rej (p : Place) (s : State) : (s.moveTo p).rej = s.rej := rfl
@[simp] theorem State.moveTo_phase (p : Place) (s : State) : (s.moveTo p).phase = s.phase := rfl
@[simp] theorem State.moveTo_errCode (p : Place) (s : State) : (s.moveTo p).errCode = s.errCode := rfl
@[simp] theorem State.moveTo_errDetail (p : Place) (s : State) : (s.moveTo p).errDetail = s.errDetail := rfl
@[simp] theorem State.moveTo_lastOp (p : Place) (s : State) : (s.moveTo p).lastOp = s.lastOp := rfl
@[simp] theorem State.moveTo_inBits (p : Place) (s : State) : (s.moveTo p).inBits = s.inBits := rfl
@[simp] theorem State.moveTo_outBits (p : Place) (s : State) : (s.moveTo p).outBits = s.outBits := rfl
@[simp] theorem State.moveTo_freq (p : Place) (s : State) : (s.moveTo p).freq = s.freq := rfl
@[simp] theorem State.moveTo_len (p : Place) (s : State) : (s.moveTo p).len = s.len := rfl
@[simp] theorem State.moveTo_node (p : Place) (s : State) : (s.moveTo p).node = s.node := rfl
@[simp] theorem State.moveTo_ncount (p : Place) (s : State) : (s.moveTo p).ncount = s.ncount := rfl
@[simp] theorem State.moveTo_root (p : Place) (s : State) : (s.moveTo p).root = s.root := rfl
@[simp] theorem State.moveTo_pq (p : Place) (s : State) : (s.moveTo p).pq = s.pq := rfl
@[simp] theorem State.moveTo_seq (p : Place) (s : State) : (s.moveTo p).seq = s.seq := rfl
@[simp] theorem State.moveTo_code (p : Place) (s : State) : (s.moveTo p).code = s.code := rfl
@[simp] theorem State.moveTo_cur (p : Place) (s : State) : (s.moveTo p).cur = s.cur := rfl
@[simp] theorem State.moveTo_stack (p : Place) (s : State) : (s.moveTo p).stack = s.stack := rfl
@[simp] theorem State.moveTo_place (p : Place) (s : State) : (s.moveTo p).place = p := rfl
@[simp] theorem State.moveTo_input (p : Place) (s : State) : (s.moveTo p).input = s.input := rfl
@[simp] theorem State.moveTo_output (p : Place) (s : State) : (s.moveTo p).output = s.output := rfl
@[simp] theorem State.moveTo_draws (p : Place) (s : State) : (s.moveTo p).draws = s.draws := rfl
@[simp] theorem State.moveTo_host (p : Place) (s : State) : (s.moveTo p).host = s.host := rfl
@[simp] theorem State.moveTo_hostData (p : Place) (s : State) : (s.moveTo p).hostData = s.hostData := rfl

/-! ### `inAnswered` -/

@[simp] theorem State.inAnswered_busy (s : State) : (s.inAnswered).busy = s.busy := rfl
@[simp] theorem State.inAnswered_done (s : State) : (s.inAnswered).done = s.done := rfl
@[simp] theorem State.inAnswered_error (s : State) : (s.inAnswered).error = s.error := rfl
@[simp] theorem State.inAnswered_rej (s : State) : (s.inAnswered).rej = s.rej := rfl
@[simp] theorem State.inAnswered_phase (s : State) : (s.inAnswered).phase = s.phase := rfl
@[simp] theorem State.inAnswered_errCode (s : State) : (s.inAnswered).errCode = s.errCode := rfl
@[simp] theorem State.inAnswered_errDetail (s : State) : (s.inAnswered).errDetail = s.errDetail := rfl
@[simp] theorem State.inAnswered_lastOp (s : State) : (s.inAnswered).lastOp = s.lastOp := rfl
@[simp] theorem State.inAnswered_inBits (s : State) : (s.inAnswered).inBits = s.inBits := rfl
@[simp] theorem State.inAnswered_outBits (s : State) : (s.inAnswered).outBits = s.outBits := rfl
@[simp] theorem State.inAnswered_freq (s : State) : (s.inAnswered).freq = s.freq := rfl
@[simp] theorem State.inAnswered_len (s : State) : (s.inAnswered).len = s.len := rfl
@[simp] theorem State.inAnswered_node (s : State) : (s.inAnswered).node = s.node := rfl
@[simp] theorem State.inAnswered_ncount (s : State) : (s.inAnswered).ncount = s.ncount := rfl
@[simp] theorem State.inAnswered_root (s : State) : (s.inAnswered).root = s.root := rfl
@[simp] theorem State.inAnswered_pq (s : State) : (s.inAnswered).pq = s.pq := rfl
@[simp] theorem State.inAnswered_seq (s : State) : (s.inAnswered).seq = s.seq := rfl
@[simp] theorem State.inAnswered_code (s : State) : (s.inAnswered).code = s.code := rfl
@[simp] theorem State.inAnswered_cur (s : State) : (s.inAnswered).cur = s.cur := rfl
@[simp] theorem State.inAnswered_stack (s : State) : (s.inAnswered).stack = s.stack := rfl
@[simp] theorem State.inAnswered_place (s : State) : (s.inAnswered).place = s.place := rfl
@[simp] theorem State.inAnswered_input (s : State) : (s.inAnswered).input = { s.input with answers := s.input.answers.tail } := rfl
@[simp] theorem State.inAnswered_output (s : State) : (s.inAnswered).output = s.output := rfl
@[simp] theorem State.inAnswered_draws (s : State) : (s.inAnswered).draws = s.draws := rfl
@[simp] theorem State.inAnswered_host (s : State) : (s.inAnswered).host = s.host := rfl
@[simp] theorem State.inAnswered_hostData (s : State) : (s.inAnswered).hostData = s.hostData := rfl

/-! ### `outAnswered` -/

@[simp] theorem State.outAnswered_busy (s : State) : (s.outAnswered).busy = s.busy := rfl
@[simp] theorem State.outAnswered_done (s : State) : (s.outAnswered).done = s.done := rfl
@[simp] theorem State.outAnswered_error (s : State) : (s.outAnswered).error = s.error := rfl
@[simp] theorem State.outAnswered_rej (s : State) : (s.outAnswered).rej = s.rej := rfl
@[simp] theorem State.outAnswered_phase (s : State) : (s.outAnswered).phase = s.phase := rfl
@[simp] theorem State.outAnswered_errCode (s : State) : (s.outAnswered).errCode = s.errCode := rfl
@[simp] theorem State.outAnswered_errDetail (s : State) : (s.outAnswered).errDetail = s.errDetail := rfl
@[simp] theorem State.outAnswered_lastOp (s : State) : (s.outAnswered).lastOp = s.lastOp := rfl
@[simp] theorem State.outAnswered_inBits (s : State) : (s.outAnswered).inBits = s.inBits := rfl
@[simp] theorem State.outAnswered_outBits (s : State) : (s.outAnswered).outBits = s.outBits := rfl
@[simp] theorem State.outAnswered_freq (s : State) : (s.outAnswered).freq = s.freq := rfl
@[simp] theorem State.outAnswered_len (s : State) : (s.outAnswered).len = s.len := rfl
@[simp] theorem State.outAnswered_node (s : State) : (s.outAnswered).node = s.node := rfl
@[simp] theorem State.outAnswered_ncount (s : State) : (s.outAnswered).ncount = s.ncount := rfl
@[simp] theorem State.outAnswered_root (s : State) : (s.outAnswered).root = s.root := rfl
@[simp] theorem State.outAnswered_pq (s : State) : (s.outAnswered).pq = s.pq := rfl
@[simp] theorem State.outAnswered_seq (s : State) : (s.outAnswered).seq = s.seq := rfl
@[simp] theorem State.outAnswered_code (s : State) : (s.outAnswered).code = s.code := rfl
@[simp] theorem State.outAnswered_cur (s : State) : (s.outAnswered).cur = s.cur := rfl
@[simp] theorem State.outAnswered_stack (s : State) : (s.outAnswered).stack = s.stack := rfl
@[simp] theorem State.outAnswered_place (s : State) : (s.outAnswered).place = s.place := rfl
@[simp] theorem State.outAnswered_input (s : State) : (s.outAnswered).input = s.input := rfl
@[simp] theorem State.outAnswered_output (s : State) : (s.outAnswered).output = { s.output with answers := s.output.answers.tail } := rfl
@[simp] theorem State.outAnswered_draws (s : State) : (s.outAnswered).draws = s.draws := rfl
@[simp] theorem State.outAnswered_host (s : State) : (s.outAnswered).host = s.host := rfl
@[simp] theorem State.outAnswered_hostData (s : State) : (s.outAnswered).hostData = s.hostData := rfl

/-! ### `inAdvance` -/

@[simp] theorem State.inAdvance_busy (n : Nat) (s : State) : (s.inAdvance n).busy = s.busy := rfl
@[simp] theorem State.inAdvance_done (n : Nat) (s : State) : (s.inAdvance n).done = s.done := rfl
@[simp] theorem State.inAdvance_error (n : Nat) (s : State) : (s.inAdvance n).error = s.error := rfl
@[simp] theorem State.inAdvance_rej (n : Nat) (s : State) : (s.inAdvance n).rej = s.rej := rfl
@[simp] theorem State.inAdvance_phase (n : Nat) (s : State) : (s.inAdvance n).phase = s.phase := rfl
@[simp] theorem State.inAdvance_errCode (n : Nat) (s : State) : (s.inAdvance n).errCode = s.errCode := rfl
@[simp] theorem State.inAdvance_errDetail (n : Nat) (s : State) : (s.inAdvance n).errDetail = s.errDetail := rfl
@[simp] theorem State.inAdvance_lastOp (n : Nat) (s : State) : (s.inAdvance n).lastOp = s.lastOp := rfl
@[simp] theorem State.inAdvance_inBits (n : Nat) (s : State) : (s.inAdvance n).inBits = s.inBits + BitVec.ofNat 64 n := rfl
@[simp] theorem State.inAdvance_outBits (n : Nat) (s : State) : (s.inAdvance n).outBits = s.outBits := rfl
@[simp] theorem State.inAdvance_freq (n : Nat) (s : State) : (s.inAdvance n).freq = s.freq := rfl
@[simp] theorem State.inAdvance_len (n : Nat) (s : State) : (s.inAdvance n).len = s.len := rfl
@[simp] theorem State.inAdvance_node (n : Nat) (s : State) : (s.inAdvance n).node = s.node := rfl
@[simp] theorem State.inAdvance_ncount (n : Nat) (s : State) : (s.inAdvance n).ncount = s.ncount := rfl
@[simp] theorem State.inAdvance_root (n : Nat) (s : State) : (s.inAdvance n).root = s.root := rfl
@[simp] theorem State.inAdvance_pq (n : Nat) (s : State) : (s.inAdvance n).pq = s.pq := rfl
@[simp] theorem State.inAdvance_seq (n : Nat) (s : State) : (s.inAdvance n).seq = s.seq := rfl
@[simp] theorem State.inAdvance_code (n : Nat) (s : State) : (s.inAdvance n).code = s.code := rfl
@[simp] theorem State.inAdvance_cur (n : Nat) (s : State) : (s.inAdvance n).cur = s.cur := rfl
@[simp] theorem State.inAdvance_stack (n : Nat) (s : State) : (s.inAdvance n).stack = s.stack := rfl
@[simp] theorem State.inAdvance_place (n : Nat) (s : State) : (s.inAdvance n).place = s.place := rfl
@[simp] theorem State.inAdvance_input (n : Nat) (s : State) : (s.inAdvance n).input = { s.input with pos := s.input.pos + n } := rfl
@[simp] theorem State.inAdvance_output (n : Nat) (s : State) : (s.inAdvance n).output = s.output := rfl
@[simp] theorem State.inAdvance_draws (n : Nat) (s : State) : (s.inAdvance n).draws = s.draws := rfl
@[simp] theorem State.inAdvance_host (n : Nat) (s : State) : (s.inAdvance n).host = s.host := rfl
@[simp] theorem State.inAdvance_hostData (n : Nat) (s : State) : (s.inAdvance n).hostData = s.hostData := rfl

/-! ### `inExhaust` -/

@[simp] theorem State.inExhaust_busy (s : State) : (s.inExhaust).busy = s.busy := rfl
@[simp] theorem State.inExhaust_done (s : State) : (s.inExhaust).done = s.done := rfl
@[simp] theorem State.inExhaust_error (s : State) : (s.inExhaust).error = s.error := rfl
@[simp] theorem State.inExhaust_rej (s : State) : (s.inExhaust).rej = s.rej := rfl
@[simp] theorem State.inExhaust_phase (s : State) : (s.inExhaust).phase = s.phase := rfl
@[simp] theorem State.inExhaust_errCode (s : State) : (s.inExhaust).errCode = s.errCode := rfl
@[simp] theorem State.inExhaust_errDetail (s : State) : (s.inExhaust).errDetail = s.errDetail := rfl
@[simp] theorem State.inExhaust_lastOp (s : State) : (s.inExhaust).lastOp = s.lastOp := rfl
@[simp] theorem State.inExhaust_inBits (s : State) : (s.inExhaust).inBits = s.inBits := rfl
@[simp] theorem State.inExhaust_outBits (s : State) : (s.inExhaust).outBits = s.outBits := rfl
@[simp] theorem State.inExhaust_freq (s : State) : (s.inExhaust).freq = s.freq := rfl
@[simp] theorem State.inExhaust_len (s : State) : (s.inExhaust).len = s.len := rfl
@[simp] theorem State.inExhaust_node (s : State) : (s.inExhaust).node = s.node := rfl
@[simp] theorem State.inExhaust_ncount (s : State) : (s.inExhaust).ncount = s.ncount := rfl
@[simp] theorem State.inExhaust_root (s : State) : (s.inExhaust).root = s.root := rfl
@[simp] theorem State.inExhaust_pq (s : State) : (s.inExhaust).pq = s.pq := rfl
@[simp] theorem State.inExhaust_seq (s : State) : (s.inExhaust).seq = s.seq := rfl
@[simp] theorem State.inExhaust_code (s : State) : (s.inExhaust).code = s.code := rfl
@[simp] theorem State.inExhaust_cur (s : State) : (s.inExhaust).cur = s.cur := rfl
@[simp] theorem State.inExhaust_stack (s : State) : (s.inExhaust).stack = s.stack := rfl
@[simp] theorem State.inExhaust_place (s : State) : (s.inExhaust).place = s.place := rfl
@[simp] theorem State.inExhaust_input (s : State) : (s.inExhaust).input = { s.input with pos := s.input.pos + Config.freeConsumed s.draws % (s.input.bits.length - s.input.pos + 1) } := rfl
@[simp] theorem State.inExhaust_output (s : State) : (s.inExhaust).output = s.output := rfl
@[simp] theorem State.inExhaust_draws (s : State) : (s.inExhaust).draws = s.draws + 1 := rfl
@[simp] theorem State.inExhaust_host (s : State) : (s.inExhaust).host = s.host := rfl
@[simp] theorem State.inExhaust_hostData (s : State) : (s.inExhaust).hostData = s.hostData := rfl

/-! ### `inRewound` -/

@[simp] theorem State.inRewound_busy (s : State) : (s.inRewound).busy = s.busy := rfl
@[simp] theorem State.inRewound_done (s : State) : (s.inRewound).done = s.done := rfl
@[simp] theorem State.inRewound_error (s : State) : (s.inRewound).error = s.error := rfl
@[simp] theorem State.inRewound_rej (s : State) : (s.inRewound).rej = s.rej := rfl
@[simp] theorem State.inRewound_phase (s : State) : (s.inRewound).phase = s.phase := rfl
@[simp] theorem State.inRewound_errCode (s : State) : (s.inRewound).errCode = s.errCode := rfl
@[simp] theorem State.inRewound_errDetail (s : State) : (s.inRewound).errDetail = s.errDetail := rfl
@[simp] theorem State.inRewound_lastOp (s : State) : (s.inRewound).lastOp = s.lastOp := rfl
@[simp] theorem State.inRewound_inBits (s : State) : (s.inRewound).inBits = s.inBits := rfl
@[simp] theorem State.inRewound_outBits (s : State) : (s.inRewound).outBits = s.outBits := rfl
@[simp] theorem State.inRewound_freq (s : State) : (s.inRewound).freq = s.freq := rfl
@[simp] theorem State.inRewound_len (s : State) : (s.inRewound).len = s.len := rfl
@[simp] theorem State.inRewound_node (s : State) : (s.inRewound).node = s.node := rfl
@[simp] theorem State.inRewound_ncount (s : State) : (s.inRewound).ncount = s.ncount := rfl
@[simp] theorem State.inRewound_root (s : State) : (s.inRewound).root = s.root := rfl
@[simp] theorem State.inRewound_pq (s : State) : (s.inRewound).pq = s.pq := rfl
@[simp] theorem State.inRewound_seq (s : State) : (s.inRewound).seq = s.seq := rfl
@[simp] theorem State.inRewound_code (s : State) : (s.inRewound).code = s.code := rfl
@[simp] theorem State.inRewound_cur (s : State) : (s.inRewound).cur = s.cur := rfl
@[simp] theorem State.inRewound_stack (s : State) : (s.inRewound).stack = s.stack := rfl
@[simp] theorem State.inRewound_place (s : State) : (s.inRewound).place = s.place := rfl
@[simp] theorem State.inRewound_input (s : State) : (s.inRewound).input = { s.input with pos := 0, bits := s.input.replay.getD s.input.bits, replay := none } := rfl
@[simp] theorem State.inRewound_output (s : State) : (s.inRewound).output = s.output := rfl
@[simp] theorem State.inRewound_draws (s : State) : (s.inRewound).draws = s.draws := rfl
@[simp] theorem State.inRewound_host (s : State) : (s.inRewound).host = s.host := rfl
@[simp] theorem State.inRewound_hostData (s : State) : (s.inRewound).hostData = s.hostData := rfl

/-! ### `outAppend` -/

@[simp] theorem State.outAppend_busy (bits : List Bool) (s : State) : (s.outAppend bits).busy = s.busy := rfl
@[simp] theorem State.outAppend_done (bits : List Bool) (s : State) : (s.outAppend bits).done = s.done := rfl
@[simp] theorem State.outAppend_error (bits : List Bool) (s : State) : (s.outAppend bits).error = s.error := rfl
@[simp] theorem State.outAppend_rej (bits : List Bool) (s : State) : (s.outAppend bits).rej = s.rej := rfl
@[simp] theorem State.outAppend_phase (bits : List Bool) (s : State) : (s.outAppend bits).phase = s.phase := rfl
@[simp] theorem State.outAppend_errCode (bits : List Bool) (s : State) : (s.outAppend bits).errCode = s.errCode := rfl
@[simp] theorem State.outAppend_errDetail (bits : List Bool) (s : State) : (s.outAppend bits).errDetail = s.errDetail := rfl
@[simp] theorem State.outAppend_lastOp (bits : List Bool) (s : State) : (s.outAppend bits).lastOp = s.lastOp := rfl
@[simp] theorem State.outAppend_inBits (bits : List Bool) (s : State) : (s.outAppend bits).inBits = s.inBits := rfl
@[simp] theorem State.outAppend_outBits (bits : List Bool) (s : State) : (s.outAppend bits).outBits = s.outBits + BitVec.ofNat 64 bits.length := rfl
@[simp] theorem State.outAppend_freq (bits : List Bool) (s : State) : (s.outAppend bits).freq = s.freq := rfl
@[simp] theorem State.outAppend_len (bits : List Bool) (s : State) : (s.outAppend bits).len = s.len := rfl
@[simp] theorem State.outAppend_node (bits : List Bool) (s : State) : (s.outAppend bits).node = s.node := rfl
@[simp] theorem State.outAppend_ncount (bits : List Bool) (s : State) : (s.outAppend bits).ncount = s.ncount := rfl
@[simp] theorem State.outAppend_root (bits : List Bool) (s : State) : (s.outAppend bits).root = s.root := rfl
@[simp] theorem State.outAppend_pq (bits : List Bool) (s : State) : (s.outAppend bits).pq = s.pq := rfl
@[simp] theorem State.outAppend_seq (bits : List Bool) (s : State) : (s.outAppend bits).seq = s.seq := rfl
@[simp] theorem State.outAppend_code (bits : List Bool) (s : State) : (s.outAppend bits).code = s.code := rfl
@[simp] theorem State.outAppend_cur (bits : List Bool) (s : State) : (s.outAppend bits).cur = s.cur := rfl
@[simp] theorem State.outAppend_stack (bits : List Bool) (s : State) : (s.outAppend bits).stack = s.stack := rfl
@[simp] theorem State.outAppend_place (bits : List Bool) (s : State) : (s.outAppend bits).place = s.place := rfl
@[simp] theorem State.outAppend_input (bits : List Bool) (s : State) : (s.outAppend bits).input = s.input := rfl
@[simp] theorem State.outAppend_output (bits : List Bool) (s : State) : (s.outAppend bits).output = { s.output with bits := s.output.bits ++ bits } := rfl
@[simp] theorem State.outAppend_draws (bits : List Bool) (s : State) : (s.outAppend bits).draws = s.draws := rfl
@[simp] theorem State.outAppend_host (bits : List Bool) (s : State) : (s.outAppend bits).host = s.host := rfl
@[simp] theorem State.outAppend_hostData (bits : List Bool) (s : State) : (s.outAppend bits).hostData = s.hostData := rfl

/-! ### `outPad` -/

@[simp] theorem State.outPad_busy (s : State) : (s.outPad).busy = s.busy := rfl
@[simp] theorem State.outPad_done (s : State) : (s.outPad).done = s.done := rfl
@[simp] theorem State.outPad_error (s : State) : (s.outPad).error = s.error := rfl
@[simp] theorem State.outPad_rej (s : State) : (s.outPad).rej = s.rej := rfl
@[simp] theorem State.outPad_phase (s : State) : (s.outPad).phase = s.phase := rfl
@[simp] theorem State.outPad_errCode (s : State) : (s.outPad).errCode = s.errCode := rfl
@[simp] theorem State.outPad_errDetail (s : State) : (s.outPad).errDetail = s.errDetail := rfl
@[simp] theorem State.outPad_lastOp (s : State) : (s.outPad).lastOp = s.lastOp := rfl
@[simp] theorem State.outPad_inBits (s : State) : (s.outPad).inBits = s.inBits := rfl
@[simp] theorem State.outPad_outBits (s : State) : (s.outPad).outBits = s.outBits := rfl
@[simp] theorem State.outPad_freq (s : State) : (s.outPad).freq = s.freq := rfl
@[simp] theorem State.outPad_len (s : State) : (s.outPad).len = s.len := rfl
@[simp] theorem State.outPad_node (s : State) : (s.outPad).node = s.node := rfl
@[simp] theorem State.outPad_ncount (s : State) : (s.outPad).ncount = s.ncount := rfl
@[simp] theorem State.outPad_root (s : State) : (s.outPad).root = s.root := rfl
@[simp] theorem State.outPad_pq (s : State) : (s.outPad).pq = s.pq := rfl
@[simp] theorem State.outPad_seq (s : State) : (s.outPad).seq = s.seq := rfl
@[simp] theorem State.outPad_code (s : State) : (s.outPad).code = s.code := rfl
@[simp] theorem State.outPad_cur (s : State) : (s.outPad).cur = s.cur := rfl
@[simp] theorem State.outPad_stack (s : State) : (s.outPad).stack = s.stack := rfl
@[simp] theorem State.outPad_place (s : State) : (s.outPad).place = s.place := rfl
@[simp] theorem State.outPad_input (s : State) : (s.outPad).input = s.input := rfl
@[simp] theorem State.outPad_output (s : State) : (s.outPad).output = { s.output with bits := s.output.bits ++ padBits s.draws (padLength s.output.bits.length) } := rfl
@[simp] theorem State.outPad_draws (s : State) : (s.outPad).draws = s.draws + padLength s.output.bits.length := rfl
@[simp] theorem State.outPad_host (s : State) : (s.outPad).host = s.host := rfl
@[simp] theorem State.outPad_hostData (s : State) : (s.outPad).hostData = s.hostData := rfl

/-! ### `outClose` -/

@[simp] theorem State.outClose_busy (s : State) : (s.outClose).busy = s.busy := rfl
@[simp] theorem State.outClose_done (s : State) : (s.outClose).done = s.done := rfl
@[simp] theorem State.outClose_error (s : State) : (s.outClose).error = s.error := rfl
@[simp] theorem State.outClose_rej (s : State) : (s.outClose).rej = s.rej := rfl
@[simp] theorem State.outClose_phase (s : State) : (s.outClose).phase = s.phase := rfl
@[simp] theorem State.outClose_errCode (s : State) : (s.outClose).errCode = s.errCode := rfl
@[simp] theorem State.outClose_errDetail (s : State) : (s.outClose).errDetail = s.errDetail := rfl
@[simp] theorem State.outClose_lastOp (s : State) : (s.outClose).lastOp = s.lastOp := rfl
@[simp] theorem State.outClose_inBits (s : State) : (s.outClose).inBits = s.inBits := rfl
@[simp] theorem State.outClose_outBits (s : State) : (s.outClose).outBits = s.outBits := rfl
@[simp] theorem State.outClose_freq (s : State) : (s.outClose).freq = s.freq := rfl
@[simp] theorem State.outClose_len (s : State) : (s.outClose).len = s.len := rfl
@[simp] theorem State.outClose_node (s : State) : (s.outClose).node = s.node := rfl
@[simp] theorem State.outClose_ncount (s : State) : (s.outClose).ncount = s.ncount := rfl
@[simp] theorem State.outClose_root (s : State) : (s.outClose).root = s.root := rfl
@[simp] theorem State.outClose_pq (s : State) : (s.outClose).pq = s.pq := rfl
@[simp] theorem State.outClose_seq (s : State) : (s.outClose).seq = s.seq := rfl
@[simp] theorem State.outClose_code (s : State) : (s.outClose).code = s.code := rfl
@[simp] theorem State.outClose_cur (s : State) : (s.outClose).cur = s.cur := rfl
@[simp] theorem State.outClose_stack (s : State) : (s.outClose).stack = s.stack := rfl
@[simp] theorem State.outClose_place (s : State) : (s.outClose).place = s.place := rfl
@[simp] theorem State.outClose_input (s : State) : (s.outClose).input = s.input := rfl
@[simp] theorem State.outClose_output (s : State) : (s.outClose).output = { s.output with closed := true } := rfl
@[simp] theorem State.outClose_draws (s : State) : (s.outClose).draws = s.draws := rfl
@[simp] theorem State.outClose_host (s : State) : (s.outClose).host = s.host := rfl
@[simp] theorem State.outClose_hostData (s : State) : (s.outClose).hostData = s.hostData := rfl

/-! ### `setNode` -/

@[simp] theorem State.setNode_busy (h : Handle) (n : Node) (s : State) : (s.setNode h n).busy = s.busy := rfl
@[simp] theorem State.setNode_done (h : Handle) (n : Node) (s : State) : (s.setNode h n).done = s.done := rfl
@[simp] theorem State.setNode_error (h : Handle) (n : Node) (s : State) : (s.setNode h n).error = s.error := rfl
@[simp] theorem State.setNode_rej (h : Handle) (n : Node) (s : State) : (s.setNode h n).rej = s.rej := rfl
@[simp] theorem State.setNode_phase (h : Handle) (n : Node) (s : State) : (s.setNode h n).phase = s.phase := rfl
@[simp] theorem State.setNode_errCode (h : Handle) (n : Node) (s : State) : (s.setNode h n).errCode = s.errCode := rfl
@[simp] theorem State.setNode_errDetail (h : Handle) (n : Node) (s : State) : (s.setNode h n).errDetail = s.errDetail := rfl
@[simp] theorem State.setNode_lastOp (h : Handle) (n : Node) (s : State) : (s.setNode h n).lastOp = s.lastOp := rfl
@[simp] theorem State.setNode_inBits (h : Handle) (n : Node) (s : State) : (s.setNode h n).inBits = s.inBits := rfl
@[simp] theorem State.setNode_outBits (h : Handle) (n : Node) (s : State) : (s.setNode h n).outBits = s.outBits := rfl
@[simp] theorem State.setNode_freq (h : Handle) (n : Node) (s : State) : (s.setNode h n).freq = s.freq := rfl
@[simp] theorem State.setNode_len (h : Handle) (n : Node) (s : State) : (s.setNode h n).len = s.len := rfl
@[simp] theorem State.setNode_node (h : Handle) (n : Node) (s : State) : (s.setNode h n).node = s.node.set h.val n := rfl
@[simp] theorem State.setNode_ncount (h : Handle) (n : Node) (s : State) : (s.setNode h n).ncount = s.ncount := rfl
@[simp] theorem State.setNode_root (h : Handle) (n : Node) (s : State) : (s.setNode h n).root = s.root := rfl
@[simp] theorem State.setNode_pq (h : Handle) (n : Node) (s : State) : (s.setNode h n).pq = s.pq := rfl
@[simp] theorem State.setNode_seq (h : Handle) (n : Node) (s : State) : (s.setNode h n).seq = s.seq := rfl
@[simp] theorem State.setNode_code (h : Handle) (n : Node) (s : State) : (s.setNode h n).code = s.code := rfl
@[simp] theorem State.setNode_cur (h : Handle) (n : Node) (s : State) : (s.setNode h n).cur = s.cur := rfl
@[simp] theorem State.setNode_stack (h : Handle) (n : Node) (s : State) : (s.setNode h n).stack = s.stack := rfl
@[simp] theorem State.setNode_place (h : Handle) (n : Node) (s : State) : (s.setNode h n).place = s.place := rfl
@[simp] theorem State.setNode_input (h : Handle) (n : Node) (s : State) : (s.setNode h n).input = s.input := rfl
@[simp] theorem State.setNode_output (h : Handle) (n : Node) (s : State) : (s.setNode h n).output = s.output := rfl
@[simp] theorem State.setNode_draws (h : Handle) (n : Node) (s : State) : (s.setNode h n).draws = s.draws := rfl
@[simp] theorem State.setNode_host (h : Handle) (n : Node) (s : State) : (s.setNode h n).host = s.host := rfl
@[simp] theorem State.setNode_hostData (h : Handle) (n : Node) (s : State) : (s.setNode h n).hostData = s.hostData := rfl

/-! ### `insert` -/

@[simp] theorem State.insert_busy (h : Handle) (s : State) : (s.insert h).busy = s.busy := rfl
@[simp] theorem State.insert_done (h : Handle) (s : State) : (s.insert h).done = s.done := rfl
@[simp] theorem State.insert_error (h : Handle) (s : State) : (s.insert h).error = s.error := rfl
@[simp] theorem State.insert_rej (h : Handle) (s : State) : (s.insert h).rej = s.rej := rfl
@[simp] theorem State.insert_phase (h : Handle) (s : State) : (s.insert h).phase = s.phase := rfl
@[simp] theorem State.insert_errCode (h : Handle) (s : State) : (s.insert h).errCode = s.errCode := rfl
@[simp] theorem State.insert_errDetail (h : Handle) (s : State) : (s.insert h).errDetail = s.errDetail := rfl
@[simp] theorem State.insert_lastOp (h : Handle) (s : State) : (s.insert h).lastOp = s.lastOp := rfl
@[simp] theorem State.insert_inBits (h : Handle) (s : State) : (s.insert h).inBits = s.inBits := rfl
@[simp] theorem State.insert_outBits (h : Handle) (s : State) : (s.insert h).outBits = s.outBits := rfl
@[simp] theorem State.insert_freq (h : Handle) (s : State) : (s.insert h).freq = s.freq := rfl
@[simp] theorem State.insert_len (h : Handle) (s : State) : (s.insert h).len = s.len := rfl
@[simp] theorem State.insert_node (h : Handle) (s : State) : (s.insert h).node = s.node := rfl
@[simp] theorem State.insert_ncount (h : Handle) (s : State) : (s.insert h).ncount = s.ncount := rfl
@[simp] theorem State.insert_root (h : Handle) (s : State) : (s.insert h).root = s.root := rfl
@[simp] theorem State.insert_pq (h : Handle) (s : State) : (s.insert h).pq = pqInsert { weight := (s.nodeAt h).weight, seq := s.seq, handle := h } s.pq := rfl
@[simp] theorem State.insert_seq (h : Handle) (s : State) : (s.insert h).seq = s.seq + 1 := rfl
@[simp] theorem State.insert_code (h : Handle) (s : State) : (s.insert h).code = s.code := rfl
@[simp] theorem State.insert_cur (h : Handle) (s : State) : (s.insert h).cur = s.cur := rfl
@[simp] theorem State.insert_stack (h : Handle) (s : State) : (s.insert h).stack = s.stack := rfl
@[simp] theorem State.insert_place (h : Handle) (s : State) : (s.insert h).place = s.place := rfl
@[simp] theorem State.insert_input (h : Handle) (s : State) : (s.insert h).input = s.input := rfl
@[simp] theorem State.insert_output (h : Handle) (s : State) : (s.insert h).output = s.output := rfl
@[simp] theorem State.insert_draws (h : Handle) (s : State) : (s.insert h).draws = s.draws := rfl
@[simp] theorem State.insert_host (h : Handle) (s : State) : (s.insert h).host = s.host := rfl
@[simp] theorem State.insert_hostData (h : Handle) (s : State) : (s.insert h).hostData = s.hostData := rfl

/-! ### `startCompress` -/

@[simp] theorem State.startCompress_busy (s : State) : (s.startCompress).busy = s.busy := rfl
@[simp] theorem State.startCompress_done (s : State) : (s.startCompress).done = s.done := rfl
@[simp] theorem State.startCompress_error (s : State) : (s.startCompress).error = s.error := rfl
@[simp] theorem State.startCompress_rej (s : State) : (s.startCompress).rej = s.rej := rfl
@[simp] theorem State.startCompress_phase (s : State) : (s.startCompress).phase = .cCount := rfl
@[simp] theorem State.startCompress_errCode (s : State) : (s.startCompress).errCode = s.errCode := rfl
@[simp] theorem State.startCompress_errDetail (s : State) : (s.startCompress).errDetail = s.errDetail := rfl
@[simp] theorem State.startCompress_lastOp (s : State) : (s.startCompress).lastOp = s.lastOp := rfl
@[simp] theorem State.startCompress_inBits (s : State) : (s.startCompress).inBits = s.inBits := rfl
@[simp] theorem State.startCompress_outBits (s : State) : (s.startCompress).outBits = s.outBits := rfl
@[simp] theorem State.startCompress_freq (s : State) : (s.startCompress).freq = Vector.replicate 256 0 := rfl
@[simp] theorem State.startCompress_len (s : State) : (s.startCompress).len = 0 := rfl
@[simp] theorem State.startCompress_node (s : State) : (s.startCompress).node = s.node := rfl
@[simp] theorem State.startCompress_ncount (s : State) : (s.startCompress).ncount = s.ncount := rfl
@[simp] theorem State.startCompress_root (s : State) : (s.startCompress).root = s.root := rfl
@[simp] theorem State.startCompress_pq (s : State) : (s.startCompress).pq = s.pq := rfl
@[simp] theorem State.startCompress_seq (s : State) : (s.startCompress).seq = s.seq := rfl
@[simp] theorem State.startCompress_code (s : State) : (s.startCompress).code = Vector.replicate 257 [] := rfl
@[simp] theorem State.startCompress_cur (s : State) : (s.startCompress).cur = s.cur := rfl
@[simp] theorem State.startCompress_stack (s : State) : (s.startCompress).stack = s.stack := rfl
@[simp] theorem State.startCompress_place (s : State) : (s.startCompress).place = .top := rfl
@[simp] theorem State.startCompress_input (s : State) : (s.startCompress).input = s.input := rfl
@[simp] theorem State.startCompress_output (s : State) : (s.startCompress).output = s.output := rfl
@[simp] theorem State.startCompress_draws (s : State) : (s.startCompress).draws = s.draws := rfl
@[simp] theorem State.startCompress_host (s : State) : (s.startCompress).host = s.host := rfl
@[simp] theorem State.startCompress_hostData (s : State) : (s.startCompress).hostData = s.hostData := rfl

/-! ### `startDecompress` -/

@[simp] theorem State.startDecompress_busy (s : State) : (s.startDecompress).busy = s.busy := rfl
@[simp] theorem State.startDecompress_done (s : State) : (s.startDecompress).done = s.done := rfl
@[simp] theorem State.startDecompress_error (s : State) : (s.startDecompress).error = s.error := rfl
@[simp] theorem State.startDecompress_rej (s : State) : (s.startDecompress).rej = s.rej := rfl
@[simp] theorem State.startDecompress_phase (s : State) : (s.startDecompress).phase = .dMagic := rfl
@[simp] theorem State.startDecompress_errCode (s : State) : (s.startDecompress).errCode = s.errCode := rfl
@[simp] theorem State.startDecompress_errDetail (s : State) : (s.startDecompress).errDetail = s.errDetail := rfl
@[simp] theorem State.startDecompress_lastOp (s : State) : (s.startDecompress).lastOp = s.lastOp := rfl
@[simp] theorem State.startDecompress_inBits (s : State) : (s.startDecompress).inBits = s.inBits := rfl
@[simp] theorem State.startDecompress_outBits (s : State) : (s.startDecompress).outBits = s.outBits := rfl
@[simp] theorem State.startDecompress_freq (s : State) : (s.startDecompress).freq = s.freq := rfl
@[simp] theorem State.startDecompress_len (s : State) : (s.startDecompress).len = s.len := rfl
@[simp] theorem State.startDecompress_node (s : State) : (s.startDecompress).node = s.node := rfl
@[simp] theorem State.startDecompress_ncount (s : State) : (s.startDecompress).ncount = s.ncount := rfl
@[simp] theorem State.startDecompress_root (s : State) : (s.startDecompress).root = s.root := rfl
@[simp] theorem State.startDecompress_pq (s : State) : (s.startDecompress).pq = s.pq := rfl
@[simp] theorem State.startDecompress_seq (s : State) : (s.startDecompress).seq = s.seq := rfl
@[simp] theorem State.startDecompress_code (s : State) : (s.startDecompress).code = s.code := rfl
@[simp] theorem State.startDecompress_cur (s : State) : (s.startDecompress).cur = s.cur := rfl
@[simp] theorem State.startDecompress_stack (s : State) : (s.startDecompress).stack = s.stack := rfl
@[simp] theorem State.startDecompress_place (s : State) : (s.startDecompress).place = .top := rfl
@[simp] theorem State.startDecompress_input (s : State) : (s.startDecompress).input = s.input := rfl
@[simp] theorem State.startDecompress_output (s : State) : (s.startDecompress).output = s.output := rfl
@[simp] theorem State.startDecompress_draws (s : State) : (s.startDecompress).draws = s.draws := rfl
@[simp] theorem State.startDecompress_host (s : State) : (s.startDecompress).host = s.host := rfl
@[simp] theorem State.startDecompress_hostData (s : State) : (s.startDecompress).hostData = s.hostData := rfl

/-! ### `buildStart` -/

@[simp] theorem State.buildStart_busy (s : State) : (s.buildStart).busy = s.busy := rfl
@[simp] theorem State.buildStart_done (s : State) : (s.buildStart).done = s.done := rfl
@[simp] theorem State.buildStart_error (s : State) : (s.buildStart).error = s.error := rfl
@[simp] theorem State.buildStart_rej (s : State) : (s.buildStart).rej = s.rej := rfl
@[simp] theorem State.buildStart_phase (s : State) : (s.buildStart).phase = s.phase := rfl
@[simp] theorem State.buildStart_errCode (s : State) : (s.buildStart).errCode = s.errCode := rfl
@[simp] theorem State.buildStart_errDetail (s : State) : (s.buildStart).errDetail = s.errDetail := rfl
@[simp] theorem State.buildStart_lastOp (s : State) : (s.buildStart).lastOp = s.lastOp := rfl
@[simp] theorem State.buildStart_inBits (s : State) : (s.buildStart).inBits = s.inBits := rfl
@[simp] theorem State.buildStart_outBits (s : State) : (s.buildStart).outBits = s.outBits := rfl
@[simp] theorem State.buildStart_freq (s : State) : (s.buildStart).freq = s.freq := rfl
@[simp] theorem State.buildStart_len (s : State) : (s.buildStart).len = s.len := rfl
@[simp] theorem State.buildStart_node (s : State) : (s.buildStart).node = s.node := rfl
@[simp] theorem State.buildStart_ncount (s : State) : (s.buildStart).ncount = 0 := rfl
@[simp] theorem State.buildStart_root (s : State) : (s.buildStart).root = s.root := rfl
@[simp] theorem State.buildStart_pq (s : State) : (s.buildStart).pq = [] := rfl
@[simp] theorem State.buildStart_seq (s : State) : (s.buildStart).seq = 0 := rfl
@[simp] theorem State.buildStart_code (s : State) : (s.buildStart).code = s.code := rfl
@[simp] theorem State.buildStart_cur (s : State) : (s.buildStart).cur = s.cur := rfl
@[simp] theorem State.buildStart_stack (s : State) : (s.buildStart).stack = s.stack := rfl
@[simp] theorem State.buildStart_place (s : State) : (s.buildStart).place = s.place := rfl
@[simp] theorem State.buildStart_input (s : State) : (s.buildStart).input = s.input := rfl
@[simp] theorem State.buildStart_output (s : State) : (s.buildStart).output = s.output := rfl
@[simp] theorem State.buildStart_draws (s : State) : (s.buildStart).draws = s.draws := rfl
@[simp] theorem State.buildStart_host (s : State) : (s.buildStart).host = s.host := rfl
@[simp] theorem State.buildStart_hostData (s : State) : (s.buildStart).hostData = s.hostData := rfl

/-! ### `buildDone` -/

@[simp] theorem State.buildDone_busy (a : PqEntry) (s : State) : (s.buildDone a).busy = s.busy := rfl
@[simp] theorem State.buildDone_done (a : PqEntry) (s : State) : (s.buildDone a).done = s.done := rfl
@[simp] theorem State.buildDone_error (a : PqEntry) (s : State) : (s.buildDone a).error = s.error := rfl
@[simp] theorem State.buildDone_rej (a : PqEntry) (s : State) : (s.buildDone a).rej = s.rej := rfl
@[simp] theorem State.buildDone_phase (a : PqEntry) (s : State) : (s.buildDone a).phase = .cMagic := rfl
@[simp] theorem State.buildDone_errCode (a : PqEntry) (s : State) : (s.buildDone a).errCode = s.errCode := rfl
@[simp] theorem State.buildDone_errDetail (a : PqEntry) (s : State) : (s.buildDone a).errDetail = s.errDetail := rfl
@[simp] theorem State.buildDone_lastOp (a : PqEntry) (s : State) : (s.buildDone a).lastOp = s.lastOp := rfl
@[simp] theorem State.buildDone_inBits (a : PqEntry) (s : State) : (s.buildDone a).inBits = s.inBits := rfl
@[simp] theorem State.buildDone_outBits (a : PqEntry) (s : State) : (s.buildDone a).outBits = s.outBits := rfl
@[simp] theorem State.buildDone_freq (a : PqEntry) (s : State) : (s.buildDone a).freq = s.freq := rfl
@[simp] theorem State.buildDone_len (a : PqEntry) (s : State) : (s.buildDone a).len = s.len := rfl
@[simp] theorem State.buildDone_node (a : PqEntry) (s : State) : (s.buildDone a).node = s.node := rfl
@[simp] theorem State.buildDone_ncount (a : PqEntry) (s : State) : (s.buildDone a).ncount = s.ncount := rfl
@[simp] theorem State.buildDone_root (a : PqEntry) (s : State) : (s.buildDone a).root = a.handle := rfl
@[simp] theorem State.buildDone_pq (a : PqEntry) (s : State) : (s.buildDone a).pq = [] := rfl
@[simp] theorem State.buildDone_seq (a : PqEntry) (s : State) : (s.buildDone a).seq = s.seq := rfl
@[simp] theorem State.buildDone_code (a : PqEntry) (s : State) : (s.buildDone a).code = s.code := rfl
@[simp] theorem State.buildDone_cur (a : PqEntry) (s : State) : (s.buildDone a).cur = s.cur := rfl
@[simp] theorem State.buildDone_stack (a : PqEntry) (s : State) : (s.buildDone a).stack = s.stack := rfl
@[simp] theorem State.buildDone_place (a : PqEntry) (s : State) : (s.buildDone a).place = .top := rfl
@[simp] theorem State.buildDone_input (a : PqEntry) (s : State) : (s.buildDone a).input = s.input := rfl
@[simp] theorem State.buildDone_output (a : PqEntry) (s : State) : (s.buildDone a).output = s.output := rfl
@[simp] theorem State.buildDone_draws (a : PqEntry) (s : State) : (s.buildDone a).draws = s.draws := rfl
@[simp] theorem State.buildDone_host (a : PqEntry) (s : State) : (s.buildDone a).host = s.host := rfl
@[simp] theorem State.buildDone_hostData (a : PqEntry) (s : State) : (s.buildDone a).hostData = s.hostData := rfl

/-! ### `visited` -/

@[simp] theorem State.visited_busy (rest : List Frame) (s : State) : (s.visited rest).busy = s.busy := rfl
@[simp] theorem State.visited_done (rest : List Frame) (s : State) : (s.visited rest).done = s.done := rfl
@[simp] theorem State.visited_error (rest : List Frame) (s : State) : (s.visited rest).error = s.error := rfl
@[simp] theorem State.visited_rej (rest : List Frame) (s : State) : (s.visited rest).rej = s.rej := rfl
@[simp] theorem State.visited_phase (rest : List Frame) (s : State) : (s.visited rest).phase = s.phase := rfl
@[simp] theorem State.visited_errCode (rest : List Frame) (s : State) : (s.visited rest).errCode = s.errCode := rfl
@[simp] theorem State.visited_errDetail (rest : List Frame) (s : State) : (s.visited rest).errDetail = s.errDetail := rfl
@[simp] theorem State.visited_lastOp (rest : List Frame) (s : State) : (s.visited rest).lastOp = s.lastOp := rfl
@[simp] theorem State.visited_inBits (rest : List Frame) (s : State) : (s.visited rest).inBits = s.inBits := rfl
@[simp] theorem State.visited_outBits (rest : List Frame) (s : State) : (s.visited rest).outBits = s.outBits := rfl
@[simp] theorem State.visited_freq (rest : List Frame) (s : State) : (s.visited rest).freq = s.freq := rfl
@[simp] theorem State.visited_len (rest : List Frame) (s : State) : (s.visited rest).len = s.len := rfl
@[simp] theorem State.visited_node (rest : List Frame) (s : State) : (s.visited rest).node = s.node := rfl
@[simp] theorem State.visited_ncount (rest : List Frame) (s : State) : (s.visited rest).ncount = s.ncount := rfl
@[simp] theorem State.visited_root (rest : List Frame) (s : State) : (s.visited rest).root = s.root := rfl
@[simp] theorem State.visited_pq (rest : List Frame) (s : State) : (s.visited rest).pq = s.pq := rfl
@[simp] theorem State.visited_seq (rest : List Frame) (s : State) : (s.visited rest).seq = s.seq := rfl
@[simp] theorem State.visited_code (rest : List Frame) (s : State) : (s.visited rest).code = s.code := rfl
@[simp] theorem State.visited_cur (rest : List Frame) (s : State) : (s.visited rest).cur = s.cur := rfl
@[simp] theorem State.visited_stack (rest : List Frame) (s : State) : (s.visited rest).stack = rest := rfl
@[simp] theorem State.visited_place (rest : List Frame) (s : State) : (s.visited rest).place = .top := rfl
@[simp] theorem State.visited_input (rest : List Frame) (s : State) : (s.visited rest).input = s.input := rfl
@[simp] theorem State.visited_output (rest : List Frame) (s : State) : (s.visited rest).output = s.output := rfl
@[simp] theorem State.visited_draws (rest : List Frame) (s : State) : (s.visited rest).draws = s.draws := rfl
@[simp] theorem State.visited_host (rest : List Frame) (s : State) : (s.visited rest).host = s.host := rfl
@[simp] theorem State.visited_hostData (rest : List Frame) (s : State) : (s.visited rest).hostData = s.hostData := rfl

/-! ### `startTraversal` -/

@[simp] theorem State.startTraversal_busy (p : Phase) (s : State) : (s.startTraversal p).busy = s.busy := rfl
@[simp] theorem State.startTraversal_done (p : Phase) (s : State) : (s.startTraversal p).done = s.done := rfl
@[simp] theorem State.startTraversal_error (p : Phase) (s : State) : (s.startTraversal p).error = s.error := rfl
@[simp] theorem State.startTraversal_rej (p : Phase) (s : State) : (s.startTraversal p).rej = s.rej := rfl
@[simp] theorem State.startTraversal_phase (p : Phase) (s : State) : (s.startTraversal p).phase = p := rfl
@[simp] theorem State.startTraversal_errCode (p : Phase) (s : State) : (s.startTraversal p).errCode = s.errCode := rfl
@[simp] theorem State.startTraversal_errDetail (p : Phase) (s : State) : (s.startTraversal p).errDetail = s.errDetail := rfl
@[simp] theorem State.startTraversal_lastOp (p : Phase) (s : State) : (s.startTraversal p).lastOp = s.lastOp := rfl
@[simp] theorem State.startTraversal_inBits (p : Phase) (s : State) : (s.startTraversal p).inBits = s.inBits := rfl
@[simp] theorem State.startTraversal_outBits (p : Phase) (s : State) : (s.startTraversal p).outBits = s.outBits := rfl
@[simp] theorem State.startTraversal_freq (p : Phase) (s : State) : (s.startTraversal p).freq = s.freq := rfl
@[simp] theorem State.startTraversal_len (p : Phase) (s : State) : (s.startTraversal p).len = s.len := rfl
@[simp] theorem State.startTraversal_node (p : Phase) (s : State) : (s.startTraversal p).node = s.node := rfl
@[simp] theorem State.startTraversal_ncount (p : Phase) (s : State) : (s.startTraversal p).ncount = s.ncount := rfl
@[simp] theorem State.startTraversal_root (p : Phase) (s : State) : (s.startTraversal p).root = s.root := rfl
@[simp] theorem State.startTraversal_pq (p : Phase) (s : State) : (s.startTraversal p).pq = s.pq := rfl
@[simp] theorem State.startTraversal_seq (p : Phase) (s : State) : (s.startTraversal p).seq = s.seq := rfl
@[simp] theorem State.startTraversal_code (p : Phase) (s : State) : (s.startTraversal p).code = s.code := rfl
@[simp] theorem State.startTraversal_cur (p : Phase) (s : State) : (s.startTraversal p).cur = s.cur := rfl
@[simp] theorem State.startTraversal_stack (p : Phase) (s : State) : (s.startTraversal p).stack = [{ handle := s.root }] := rfl
@[simp] theorem State.startTraversal_place (p : Phase) (s : State) : (s.startTraversal p).place = .top := rfl
@[simp] theorem State.startTraversal_input (p : Phase) (s : State) : (s.startTraversal p).input = s.input := rfl
@[simp] theorem State.startTraversal_output (p : Phase) (s : State) : (s.startTraversal p).output = s.output := rfl
@[simp] theorem State.startTraversal_draws (p : Phase) (s : State) : (s.startTraversal p).draws = s.draws := rfl
@[simp] theorem State.startTraversal_host (p : Phase) (s : State) : (s.startTraversal p).host = s.host := rfl
@[simp] theorem State.startTraversal_hostData (p : Phase) (s : State) : (s.startTraversal p).hostData = s.hostData := rfl

/-! ### `bindCode` -/

@[simp] theorem State.bindCode_busy (x : Symbol) (path : List Bool) (s : State) : (s.bindCode x path).busy = s.busy := rfl
@[simp] theorem State.bindCode_done (x : Symbol) (path : List Bool) (s : State) : (s.bindCode x path).done = s.done := rfl
@[simp] theorem State.bindCode_error (x : Symbol) (path : List Bool) (s : State) : (s.bindCode x path).error = s.error := rfl
@[simp] theorem State.bindCode_rej (x : Symbol) (path : List Bool) (s : State) : (s.bindCode x path).rej = s.rej := rfl
@[simp] theorem State.bindCode_phase (x : Symbol) (path : List Bool) (s : State) : (s.bindCode x path).phase = s.phase := rfl
@[simp] theorem State.bindCode_errCode (x : Symbol) (path : List Bool) (s : State) : (s.bindCode x path).errCode = s.errCode := rfl
@[simp] theorem State.bindCode_errDetail (x : Symbol) (path : List Bool) (s : State) : (s.bindCode x path).errDetail = s.errDetail := rfl
@[simp] theorem State.bindCode_lastOp (x : Symbol) (path : List Bool) (s : State) : (s.bindCode x path).lastOp = s.lastOp := rfl
@[simp] theorem State.bindCode_inBits (x : Symbol) (path : List Bool) (s : State) : (s.bindCode x path).inBits = s.inBits := rfl
@[simp] theorem State.bindCode_outBits (x : Symbol) (path : List Bool) (s : State) : (s.bindCode x path).outBits = s.outBits := rfl
@[simp] theorem State.bindCode_freq (x : Symbol) (path : List Bool) (s : State) : (s.bindCode x path).freq = s.freq := rfl
@[simp] theorem State.bindCode_len (x : Symbol) (path : List Bool) (s : State) : (s.bindCode x path).len = s.len := rfl
@[simp] theorem State.bindCode_node (x : Symbol) (path : List Bool) (s : State) : (s.bindCode x path).node = s.node := rfl
@[simp] theorem State.bindCode_ncount (x : Symbol) (path : List Bool) (s : State) : (s.bindCode x path).ncount = s.ncount := rfl
@[simp] theorem State.bindCode_root (x : Symbol) (path : List Bool) (s : State) : (s.bindCode x path).root = s.root := rfl
@[simp] theorem State.bindCode_pq (x : Symbol) (path : List Bool) (s : State) : (s.bindCode x path).pq = s.pq := rfl
@[simp] theorem State.bindCode_seq (x : Symbol) (path : List Bool) (s : State) : (s.bindCode x path).seq = s.seq := rfl
@[simp] theorem State.bindCode_code (x : Symbol) (path : List Bool) (s : State) : (s.bindCode x path).code = s.code.set x.val path := rfl
@[simp] theorem State.bindCode_cur (x : Symbol) (path : List Bool) (s : State) : (s.bindCode x path).cur = s.cur := rfl
@[simp] theorem State.bindCode_stack (x : Symbol) (path : List Bool) (s : State) : (s.bindCode x path).stack = s.stack := rfl
@[simp] theorem State.bindCode_place (x : Symbol) (path : List Bool) (s : State) : (s.bindCode x path).place = s.place := rfl
@[simp] theorem State.bindCode_input (x : Symbol) (path : List Bool) (s : State) : (s.bindCode x path).input = s.input := rfl
@[simp] theorem State.bindCode_output (x : Symbol) (path : List Bool) (s : State) : (s.bindCode x path).output = s.output := rfl
@[simp] theorem State.bindCode_draws (x : Symbol) (path : List Bool) (s : State) : (s.bindCode x path).draws = s.draws := rfl
@[simp] theorem State.bindCode_host (x : Symbol) (path : List Bool) (s : State) : (s.bindCode x path).host = s.host := rfl
@[simp] theorem State.bindCode_hostData (x : Symbol) (path : List Bool) (s : State) : (s.bindCode x path).hostData = s.hostData := rfl

/-! ### `startTreeRead` -/

@[simp] theorem State.startTreeRead_busy (s : State) : (s.startTreeRead).busy = s.busy := rfl
@[simp] theorem State.startTreeRead_done (s : State) : (s.startTreeRead).done = s.done := rfl
@[simp] theorem State.startTreeRead_error (s : State) : (s.startTreeRead).error = s.error := rfl
@[simp] theorem State.startTreeRead_rej (s : State) : (s.startTreeRead).rej = s.rej := rfl
@[simp] theorem State.startTreeRead_phase (s : State) : (s.startTreeRead).phase = .dTree := rfl
@[simp] theorem State.startTreeRead_errCode (s : State) : (s.startTreeRead).errCode = s.errCode := rfl
@[simp] theorem State.startTreeRead_errDetail (s : State) : (s.startTreeRead).errDetail = s.errDetail := rfl
@[simp] theorem State.startTreeRead_lastOp (s : State) : (s.startTreeRead).lastOp = s.lastOp := rfl
@[simp] theorem State.startTreeRead_inBits (s : State) : (s.startTreeRead).inBits = s.inBits := rfl
@[simp] theorem State.startTreeRead_outBits (s : State) : (s.startTreeRead).outBits = s.outBits := rfl
@[simp] theorem State.startTreeRead_freq (s : State) : (s.startTreeRead).freq = s.freq := rfl
@[simp] theorem State.startTreeRead_len (s : State) : (s.startTreeRead).len = s.len := rfl
@[simp] theorem State.startTreeRead_node (s : State) : (s.startTreeRead).node = s.node := rfl
@[simp] theorem State.startTreeRead_ncount (s : State) : (s.startTreeRead).ncount = 0 := rfl
@[simp] theorem State.startTreeRead_root (s : State) : (s.startTreeRead).root = s.root := rfl
@[simp] theorem State.startTreeRead_pq (s : State) : (s.startTreeRead).pq = s.pq := rfl
@[simp] theorem State.startTreeRead_seq (s : State) : (s.startTreeRead).seq = s.seq := rfl
@[simp] theorem State.startTreeRead_code (s : State) : (s.startTreeRead).code = s.code := rfl
@[simp] theorem State.startTreeRead_cur (s : State) : (s.startTreeRead).cur = s.cur := rfl
@[simp] theorem State.startTreeRead_stack (s : State) : (s.startTreeRead).stack = [] := rfl
@[simp] theorem State.startTreeRead_place (s : State) : (s.startTreeRead).place = .top := rfl
@[simp] theorem State.startTreeRead_input (s : State) : (s.startTreeRead).input = s.input := rfl
@[simp] theorem State.startTreeRead_output (s : State) : (s.startTreeRead).output = s.output := rfl
@[simp] theorem State.startTreeRead_draws (s : State) : (s.startTreeRead).draws = s.draws := rfl
@[simp] theorem State.startTreeRead_host (s : State) : (s.startTreeRead).host = s.host := rfl
@[simp] theorem State.startTreeRead_hostData (s : State) : (s.startTreeRead).hostData = s.hostData := rfl

/-! ### `descend` -/

@[simp] theorem State.descend_busy (f : Frame) (rest : List Frame) (s : State) : (s.descend f rest).busy = s.busy := rfl
@[simp] theorem State.descend_done (f : Frame) (rest : List Frame) (s : State) : (s.descend f rest).done = s.done := rfl
@[simp] theorem State.descend_error (f : Frame) (rest : List Frame) (s : State) : (s.descend f rest).error = s.error := rfl
@[simp] theorem State.descend_rej (f : Frame) (rest : List Frame) (s : State) : (s.descend f rest).rej = s.rej := rfl
@[simp] theorem State.descend_phase (f : Frame) (rest : List Frame) (s : State) : (s.descend f rest).phase = s.phase := rfl
@[simp] theorem State.descend_errCode (f : Frame) (rest : List Frame) (s : State) : (s.descend f rest).errCode = s.errCode := rfl
@[simp] theorem State.descend_errDetail (f : Frame) (rest : List Frame) (s : State) : (s.descend f rest).errDetail = s.errDetail := rfl
@[simp] theorem State.descend_lastOp (f : Frame) (rest : List Frame) (s : State) : (s.descend f rest).lastOp = s.lastOp := rfl
@[simp] theorem State.descend_inBits (f : Frame) (rest : List Frame) (s : State) : (s.descend f rest).inBits = s.inBits := rfl
@[simp] theorem State.descend_outBits (f : Frame) (rest : List Frame) (s : State) : (s.descend f rest).outBits = s.outBits := rfl
@[simp] theorem State.descend_freq (f : Frame) (rest : List Frame) (s : State) : (s.descend f rest).freq = s.freq := rfl
@[simp] theorem State.descend_len (f : Frame) (rest : List Frame) (s : State) : (s.descend f rest).len = s.len := rfl
@[simp] theorem State.descend_node (f : Frame) (rest : List Frame) (s : State) : (s.descend f rest).node = s.node := rfl
@[simp] theorem State.descend_ncount (f : Frame) (rest : List Frame) (s : State) : (s.descend f rest).ncount = s.ncount := rfl
@[simp] theorem State.descend_root (f : Frame) (rest : List Frame) (s : State) : (s.descend f rest).root = s.root := rfl
@[simp] theorem State.descend_pq (f : Frame) (rest : List Frame) (s : State) : (s.descend f rest).pq = s.pq := rfl
@[simp] theorem State.descend_seq (f : Frame) (rest : List Frame) (s : State) : (s.descend f rest).seq = s.seq := rfl
@[simp] theorem State.descend_code (f : Frame) (rest : List Frame) (s : State) : (s.descend f rest).code = s.code := rfl
@[simp] theorem State.descend_cur (f : Frame) (rest : List Frame) (s : State) : (s.descend f rest).cur = s.cur := rfl
@[simp] theorem State.descend_stack (f : Frame) (rest : List Frame) (s : State) : (s.descend f rest).stack = { handle := (s.nodeAt f.handle).left, path := f.path ++ [false] } ::
      { handle := (s.nodeAt f.handle).right, path := f.path ++ [true] } :: rest := rfl
@[simp] theorem State.descend_place (f : Frame) (rest : List Frame) (s : State) : (s.descend f rest).place = s.place := rfl
@[simp] theorem State.descend_input (f : Frame) (rest : List Frame) (s : State) : (s.descend f rest).input = s.input := rfl
@[simp] theorem State.descend_output (f : Frame) (rest : List Frame) (s : State) : (s.descend f rest).output = s.output := rfl
@[simp] theorem State.descend_draws (f : Frame) (rest : List Frame) (s : State) : (s.descend f rest).draws = s.draws := rfl
@[simp] theorem State.descend_host (f : Frame) (rest : List Frame) (s : State) : (s.descend f rest).host = s.host := rfl
@[simp] theorem State.descend_hostData (f : Frame) (rest : List Frame) (s : State) : (s.descend f rest).hostData = s.hostData := rfl

/-! ### The error sequence -/

@[simp] theorem State.raise_false (e : ErrCode) (d : BitVec 4) (s : State) :
    s.raise e d false = (s.recordError e d).goto .eFlush := rfl
@[simp] theorem State.raise_true (e : ErrCode) (d : BitVec 4) (s : State) :
    s.raise e d true = (s.recordError e d).endError := rfl

end Sys2Proof.Machine
end

