-- ==== Sys2Proof/Laws/Ops.lean ====
section
/-! SUPPORT. One lemma for each outcome of a shared operation, so that callers cite it instead of unfolding the operation. -/

namespace Sys2Proof.Machine

/-! ### Answers -/

theorem nextAnswer_of_allOk {as : List Answer} (h : allOk as = true) : nextAnswer as = .ok := by
  cases as with
  | nil => rfl
  | cons a as => simpa [allOk, nextAnswer] using (by simpa [allOk] using h : a = .ok ∧ _).1

theorem allOk_tail {as : List Answer} (h : allOk as = true) : allOk as.tail = true := by
  cases as with
  | nil => rfl
  | cons a as => simpa [allOk] using (by simpa [allOk] using h : a = .ok ∧ _).2

/-! ### The input channel (R54) -/

theorem inAnswered_inAdvance (s : State) (n : Nat) : s.inAnswered.inAdvance n = s.afterRead n := rfl

theorem inRead_silent {s : State} {n : Nat} (h : nextAnswer s.input.answers = .silent) :
    s.inRead n = .blocked := by
  simp [State.inRead, h]

theorem inRead_ioError {s : State} {n : Nat} (h : nextAnswer s.input.answers = .ioError) :
    s.inRead n = .ioError s.afterInError := by
  simp [State.inRead, h]; rfl

theorem inRead_value {s : State} {n : Nat} (h : nextAnswer s.input.answers = .ok)
    (hn : s.input.pos + n ≤ s.input.bits.length) :
    s.inRead n = .value (natOf (s.inNext n)) (s.afterRead n) := by
  simp [State.inRead, h, hn]; rfl

theorem inRead_noData {s : State} {n : Nat} (h : nextAnswer s.input.answers = .ok)
    (hn : s.input.bits.length < s.input.pos + n) :
    s.inRead n = .noData s.inAnswered.inExhaust := by
  simp [State.inRead, h, Nat.not_le.mpr hn]

/-- The value read where the next bits are known. -/
theorem inRead_of_drop {s : State} {bits rest : List Bool} (h : nextAnswer s.input.answers = .ok)
    (hd : s.input.bits.drop s.input.pos = bits ++ rest) (h0 : bits ≠ []) :
    s.inRead bits.length = .value (natOf bits) (s.afterRead bits.length) := by
  have hlen := congrArg List.length hd
  have hpos := List.length_pos_iff.mpr h0
  simp only [List.length_drop, List.length_append] at hlen
  rw [inRead_value h (by omega), State.inNext, hd, List.take_left]

/-- A transaction of the input channel in the words of `afterRead` and `afterInError`: everything `InRead` can do. -/
theorem inRead_cases (s : State) (n : Nat) :
    (nextAnswer s.input.answers = .silent ∧ s.inRead n = .blocked) ∨
    (nextAnswer s.input.answers = .ioError ∧ s.inRead n = .ioError s.afterInError) ∨
    (nextAnswer s.input.answers = .ok ∧ s.input.bits.length < s.input.pos + n ∧
      s.inRead n = .noData s.inAnswered.inExhaust) ∨
    (nextAnswer s.input.answers = .ok ∧ s.input.pos + n ≤ s.input.bits.length ∧
      s.inRead n = .value (natOf (s.inNext n)) (s.afterRead n)) := by
  cases h : nextAnswer s.input.answers with
  | silent => exact .inl ⟨rfl, inRead_silent h⟩
  | ioError => exact .inr (.inl ⟨rfl, inRead_ioError h⟩)
  | ok =>
    by_cases hn : s.input.pos + n ≤ s.input.bits.length
    · exact .inr (.inr (.inr ⟨rfl, hn, inRead_value h hn⟩))
    · exact .inr (.inr (.inl ⟨rfl, by omega, inRead_noData h (by omega)⟩))

theorem inRewind_silent {s : State} (h : nextAnswer s.input.answers = .silent) : s.inRewind = .blocked := by
  simp [State.inRewind, h]

theorem inRewind_ioError {s : State} (h : nextAnswer s.input.answers = .ioError) :
    s.inRewind = .ioError s.afterInError := by
  simp [State.inRewind, h]; rfl

theorem inRewind_ok {s : State} (h : nextAnswer s.input.answers = .ok) (hr : s.input.rewindable = true) :
    s.inRewind = .ok s.inAnswered.inRewound := by
  simp [State.inRewind, h, hr]

/-- The free position after `NoData` stays within the input. -/
theorem inExhaust_pos_le (s : State) (h : s.input.pos ≤ s.input.bits.length) :
    s.inExhaust.input.pos ≤ s.inExhaust.input.bits.length := by
  have := Nat.mod_lt (Config.freeConsumed s.draws) (y := s.input.bits.length - s.input.pos + 1) (by omega)
  simp only [State.inExhaust_input]
  omega

/-! ### The output channel (R55) -/

theorem outAnswered_outAppend (s : State) (bits : List Bool) :
    s.outAnswered.outAppend bits = s.afterWrite bits := rfl

theorem outWrite_ok {s : State} (n v : Nat) (hc : s.output.closed = false) (h : nextAnswer s.output.answers = .ok) :
    s.outWrite n v = .ok (s.afterWrite (bitsOf n v)) := by
  simp [State.outWrite, hc, h]; rfl

theorem outWrite_ioError {s : State} (n v : Nat) (hc : s.output.closed = false)
    (h : nextAnswer s.output.answers = .ioError) : s.outWrite n v = .ioError s.afterOutError := by
  simp [State.outWrite, hc, h]; rfl

theorem outWrite_silent {s : State} (n v : Nat) (hc : s.output.closed = false)
    (h : nextAnswer s.output.answers = .silent) : s.outWrite n v = .blocked := by
  simp [State.outWrite, hc, h]

theorem writeThen_ok {s : State} (n v : Nat) (k : State → Result) (hc : s.output.closed = false)
    (h : nextAnswer s.output.answers = .ok) : s.writeThen n v k = k (s.afterWrite (bitsOf n v)) := by
  simp [State.writeThen, outWrite_ok n v hc h]

theorem writeThen_ioError {s : State} (n v : Nat) (k : State → Result) (hc : s.output.closed = false)
    (h : nextAnswer s.output.answers = .ioError) :
    s.writeThen n v k = .next (s.afterOutError.afterRaise .channelError 3) := by
  simp [State.writeThen, outWrite_ioError n v hc h]; rfl

theorem writeThen_silent {s : State} (n v : Nat) (k : State → Result) (hc : s.output.closed = false)
    (h : nextAnswer s.output.answers = .silent) : s.writeThen n v k = .next s := by
  simp [State.writeThen, outWrite_silent n v hc h]

theorem writeThen_closed {s : State} (n v : Nat) (k : State → Result) (hc : s.output.closed = true) :
    s.writeThen n v k = .fault .outputClosed := by
  simp [State.writeThen, State.outWrite, hc]

/-- Everything a write of a phase can do. -/
theorem writeThen_cases (s : State) (n v : Nat) (k : State → Result) :
    (s.output.closed = true ∧ s.writeThen n v k = .fault .outputClosed) ∨
    (s.output.closed = false ∧ nextAnswer s.output.answers = .silent ∧ s.writeThen n v k = .next s) ∨
    (s.output.closed = false ∧ nextAnswer s.output.answers = .ioError ∧
      s.writeThen n v k = .next (s.afterOutError.afterRaise .channelError 3)) ∨
    (s.output.closed = false ∧ nextAnswer s.output.answers = .ok ∧
      s.writeThen n v k = k (s.afterWrite (bitsOf n v))) := by
  cases hc : s.output.closed with
  | true => exact .inl ⟨rfl, writeThen_closed n v k hc⟩
  | false =>
    cases h : nextAnswer s.output.answers with
    | silent => exact .inr (.inl ⟨rfl, rfl, writeThen_silent n v k hc h⟩)
    | ioError => exact .inr (.inr (.inl ⟨rfl, rfl, writeThen_ioError n v k hc h⟩))
    | ok => exact .inr (.inr (.inr ⟨rfl, rfl, writeThen_ok n v k hc h⟩))

@[simp] theorem length_padBits (d k : Nat) : (padBits d k).length = k := by
  induction k generalizing d with
  | zero => rfl
  | succ k ih => simp [padBits, ih]

theorem padLength_lt (n : Nat) : padLength n < 8 := by unfold padLength; omega

theorem padLength_mod (n : Nat) : (n + padLength n) % 8 = 0 := by unfold padLength; omega

theorem padLength_of_mod {n : Nat} (h : n % 8 = 0) : padLength n = 0 := by unfold padLength; omega

theorem outFlushClose_ok {s : State} (hc : s.output.closed = false) (h : nextAnswer s.output.answers = .ok) :
    s.outFlushClose = .ok s.outAnswered.outPad.outClose := by
  simp [State.outFlushClose, hc, h]

theorem outFlushClose_ioError {s : State} (hc : s.output.closed = false)
    (h : nextAnswer s.output.answers = .ioError) : s.outFlushClose = .ioError s.outAnswered.outClose := by
  simp [State.outFlushClose, hc, h]

theorem outFlushClose_silent {s : State} (hc : s.output.closed = false)
    (h : nextAnswer s.output.answers = .silent) : s.outFlushClose = .blocked := by
  simp [State.outFlushClose, hc, h]

/-! ### The arena (R31) -/

theorem nodeAt_setNode_same (s : State) (h : Handle) (n : Node) : (s.setNode h n).nodeAt h = n := by
  simp [State.nodeAt]

theorem nodeAt_setNode_ne (s : State) {h k : Handle} (n : Node) (hk : k ≠ h) :
    (s.setNode h n).nodeAt k = s.nodeAt k := by
  have : h.val ≠ k.val := fun e => hk (Fin.ext e.symm)
  simp [State.nodeAt, Vector.getElem_set_ne, this]

/-- An allocation with room: entry `NCOUNT` is written and `NCOUNT` is incremented. -/
theorem alloc_of_lt (s : State) (write : Node → Node) (h : s.ncount.val < 513) :
    s.alloc write =
      some (⟨s.ncount.val, h⟩,
        { s with
          node := s.node.set s.ncount.val (write s.node[s.ncount.val])
          ncount := ⟨s.ncount.val + 1, by omega⟩ }) := by
  simp [State.alloc, h, State.setNode, State.nodeAt]

theorem alloc_full (s : State) (write : Node → Node) (h : s.ncount.val = 513) : s.alloc write = none := by
  simp [State.alloc, h]

/-! ### The priority structure (R100) -/

@[simp] theorem length_pqInsert (e : PqEntry) (pq : List PqEntry) : (pqInsert e pq).length = pq.length + 1 := by
  induction pq with
  | nil => rfl
  | cons x xs ih => unfold pqInsert; split <;> simp [ih]

/-- Nothing comes before itself. -/
theorem before_irrefl (a : PqEntry) : a.before a = false := by
  simp [PqEntry.before]

/-- Of two entries, at most one comes before the other. -/
theorem before_asymm {a b : PqEntry} (h : a.before b = true) : b.before a = false := by
  simp only [PqEntry.before, Bool.or_eq_true, Bool.and_eq_true, decide_eq_true_eq, Bool.or_eq_false_iff,
    Bool.and_eq_false_iff, decide_eq_false_iff_not, BitVec.lt_def] at *
  rcases h with h | ⟨h, h'⟩
  · exact ⟨by omega, .inl (fun e => by rw [e] at h; omega)⟩
  · exact ⟨by rw [h]; omega, .inr (by omega)⟩

/-- The order is transitive on entries neither of which stands in the wrong place. -/
theorem before_trans_false {a b c : PqEntry} (hab : b.before a = false) (hbc : c.before b = false) :
    c.before a = false := by
  simp only [PqEntry.before, Bool.or_eq_false_iff, Bool.and_eq_false_iff, decide_eq_false_iff_not, BitVec.lt_def,
    ← BitVec.toNat_inj] at *
  omega

end Sys2Proof.Machine
end

