-- ==== Sys2Proof/Laws/Step.lean ====
section
/-! SUPPORT. How a step goes by the host's next move and by the phase, and runs of steps. -/

namespace Sys2Proof.Machine

/-! ### One step -/

/-- With no host action to come, a step is the core's. -/
theorem step_of_host_nil {s : State} (h : s.host = []) : step s = coreStep s := by
  simp [step, machineStep, h]

/-- A host action is taken from the list and done. -/
theorem step_of_host_cons {s : State} {m : HostMove} {rest : List HostMove} (h : s.host = m :: rest) :
    step s = hostMove m { s with host := rest } := by
  simp [step, machineStep, h]

theorem coreStep_idle {s : State} (h : s.phase = .idle) : coreStep s = .next s := by simp [coreStep, h]
theorem coreStep_cCount {s : State} (h : s.phase = .cCount) : coreStep s = countStep s := by simp [coreStep, h]
theorem coreStep_cBuild {s : State} (h : s.phase = .cBuild) : coreStep s = buildStep s := by simp [coreStep, h]
theorem coreStep_cMagic {s : State} (h : s.phase = .cMagic) : coreStep s = magicStep s := by simp [coreStep, h]
theorem coreStep_cTree {s : State} (h : s.phase = .cTree) : coreStep s = writeTreeStep s := by simp [coreStep, h]
theorem coreStep_cCodes {s : State} (h : s.phase = .cCodes) : coreStep s = codesStep s := by simp [coreStep, h]
theorem coreStep_cEmit {s : State} (h : s.phase = .cEmit) : coreStep s = emitStep s := by simp [coreStep, h]
theorem coreStep_cTerm {s : State} (h : s.phase = .cTerm) : coreStep s = termStep s := by simp [coreStep, h]
theorem coreStep_cFlush {s : State} (h : s.phase = .cFlush) : coreStep s = flushStep s := by simp [coreStep, h]
theorem coreStep_dMagic {s : State} (h : s.phase = .dMagic) : coreStep s = readMagicStep s := by simp [coreStep, h]
theorem coreStep_dTree {s : State} (h : s.phase = .dTree) : coreStep s = readTreeStep s := by simp [coreStep, h]
theorem coreStep_dWalk {s : State} (h : s.phase = .dWalk) : coreStep s = walkStep s := by simp [coreStep, h]
theorem coreStep_dDone {s : State} (h : s.phase = .dDone) : coreStep s = flushStep s := by simp [coreStep, h]
theorem coreStep_eFlush {s : State} (h : s.phase = .eFlush) : coreStep s = errorFlushStep s := by simp [coreStep, h]

/-! ### Outcomes with other host moves -/

@[simp] theorem withHost_next (moves : List HostMove) (t : State) :
    Result.withHost moves (.next t) = .next { t with host := moves } := rfl
@[simp] theorem withHost_fault (moves : List HostMove) (r : Fault) :
    Result.withHost moves (.fault r) = .fault r := rfl
@[simp] theorem withHost_refused (moves : List HostMove) (r : Refusal) :
    Result.withHost moves (.refused r) = .refused r := rfl

/-! ### The arms of `exec` -/

theorem exec_compress (s : State) : exec .compress s = execCompress s := rfl
theorem exec_decompress (s : State) : exec .decompress s = execDecompress s := rfl
theorem exec_treeInternal (s : State) : exec .treeInternal s = execTreeInternal s := rfl
theorem exec_treeLeaf (sym : Nat) (s : State) : exec (.treeLeaf sym) s = execTreeLeaf sym s := rfl

/-! ### Runs -/

@[simp] theorem runSteps_zero (s : State) : runSteps 0 s = .next s := rfl

theorem runSteps_succ_of_next {s t : State} (k : Nat) (h : step s = .next t) :
    runSteps (k + 1) s = runSteps k t := by
  simp [runSteps, h]

/-- A run of `j + k` steps is a run of `j` steps and then one of `k`. -/
theorem runSteps_add {s t : State} (j k : Nat) (h : runSteps j s = .next t) :
    runSteps (j + k) s = runSteps k t := by
  induction j generalizing s with
  | zero =>
    obtain rfl : s = t := by simpa using h
    simp
  | succ j ih =>
    rw [Nat.succ_add]
    cases hs : step s with
    | next u => rw [runSteps_succ_of_next _ hs] at h ⊢; exact ih h
    | fault r => simp [runSteps, hs] at h
    | refused r => simp [runSteps, hs] at h

theorem Reaches.refl (s : State) : Reaches s s := ⟨0, rfl⟩

theorem Reaches.of_step {s t : State} (h : step s = .next t) : Reaches s t :=
  ⟨1, by rw [runSteps_succ_of_next 0 h, runSteps_zero]⟩

theorem Reaches.trans {s t u : State} (h : Reaches s t) (h' : Reaches t u) : Reaches s u := by
  obtain ⟨j, hj⟩ := h
  obtain ⟨k, hk⟩ := h'
  exact ⟨j + k, by rw [runSteps_add j k hj, hk]⟩

/-- A step and then a run. -/
theorem Reaches.head {s t u : State} (h : step s = .next t) (h' : Reaches t u) : Reaches s u :=
  (Reaches.of_step h).trans h'

/-- A property of every step is a property of every run (the one induction over runs). -/
theorem Reaches.induction {P : State → Prop} (keep : ∀ s t, P s → step s = .next t → P t) {s t : State}
    (hs : P s) (h : Reaches s t) : P t := by
  obtain ⟨k, hk⟩ := h
  induction k generalizing s with
  | zero =>
    obtain rfl : s = t := by simpa using hk
    exact hs
  | succ k ih =>
    cases hn : step s with
    | next u => exact ih (keep s u hs hn) (by rwa [runSteps_succ_of_next k hn] at hk)
    | fault r => simp [runSteps, hn] at hk
    | refused r => simp [runSteps, hn] at hk

/-- `runSteps` is the host's run of the core. -/
theorem runSteps_eq_run (k : Nat) (s : State) : runSteps k s = Host.Core.run Sys2Proof.core k s := by
  induction k generalizing s with
  | zero => rfl
  | succ k ih =>
    have e := Host.Core.run.eq_2 Sys2Proof.core s k
    cases h : step s with
    | next u =>
      have h' : Sys2Proof.core.step s = .next u := h
      rw [h'] at e
      have l : runSteps (k + 1) s = runSteps k u := by simp [runSteps, h]
      exact l.trans ((ih u).trans e.symm)
    | fault r =>
      have h' : Sys2Proof.core.step s = .fault r := h
      rw [h'] at e
      have l : runSteps (k + 1) s = .fault r := by simp [runSteps, h]
      exact l.trans e.symm
    | refused r =>
      have h' : Sys2Proof.core.step s = .refused r := h
      rw [h'] at e
      have l : runSteps (k + 1) s = .refused r := by simp [runSteps, h]
      exact l.trans e.symm

end Sys2Proof.Machine
end

