-- ==== Sys2Proof/Laws/Inversion.lean ====
section
/-! SUPPORT. What each step of the core can do, said once: if it answers a next state, then one of the listed cases holds. -/

namespace Sys2Proof.Machine

/-- After `NoData`: only the input position has moved, by a free value, and one answer and one draw are used (R54, R68). -/
theorem inExhaust_eq (s : State) :
    s.inAnswered.inExhaust = { s with
      input := { s.input with pos := s.inExhaust.input.pos, answers := s.input.answers.tail }
      draws := s.draws + 1 } := rfl

/-- The state after a `NoData` answer. -/
def State.afterNoData (s : State) : State := s.inAnswered.inExhaust

/-- The state after a flush that answered `Ok`. -/
def State.afterFlush (s : State) : State := s.outAnswered.outPad.outClose

/-- The state after a flush that answered `IoError`. -/
def State.afterFlushError (s : State) : State := s.outAnswered.outClose

theorem writeThen_next {s t : State} {n v : Nat} {k : State → Result} (h : s.writeThen n v k = .next t) :
    s.output.closed = false ∧
    ((nextAnswer s.output.answers = .silent ∧ t = s) ∨
     (nextAnswer s.output.answers = .ioError ∧ t = s.afterOutError.afterRaise .channelError 3) ∨
     (nextAnswer s.output.answers = .ok ∧ k (s.afterWrite (bitsOf n v)) = .next t)) := by
  rcases writeThen_cases s n v k with ⟨hc, e⟩ | ⟨hc, ha, e⟩ | ⟨hc, ha, e⟩ | ⟨hc, ha, e⟩
  · rw [e] at h; cases h
  · rw [e] at h; cases h; exact ⟨hc, .inl ⟨ha, rfl⟩⟩
  · rw [e] at h; cases h; exact ⟨hc, .inr (.inl ⟨ha, rfl⟩)⟩
  · rw [e] at h; exact ⟨hc, .inr (.inr ⟨ha, h⟩)⟩

/-! ### COMPRESS -/

theorem countStep_next {s t : State} (h : countStep s = .next t) :
    t = s ∨
    (s.place = .rewind ∧
      (t = s.afterInError.afterRaise .channelError 2 ∨
       (s.input.rewindable = true ∧ t = s.inAnswered.inRewound.goto .cBuild))) ∨
    (s.place ≠ .rewind ∧
      (t = s.afterInError.afterRaise .channelError 1 ∨ t = s.afterNoData.moveTo .rewind ∨
       ∃ b : Byte, s.input.pos + 8 ≤ s.input.bits.length ∧
        ((s.len = Config.lenMax ∧ t = (s.afterRead 8).afterRaise .inputTooLong 0) ∨
         (s.len ≠ Config.lenMax ∧
          t = { s.afterRead 8 with freq := s.freq.set b.toNat (s.freqAt b + 1), len := s.len + 1 })))) := by
  unfold countStep at h
  split at h
  · rename_i hp
    simp only [State.inRewind] at h
    cases ha : nextAnswer s.input.answers <;> simp only [ha] at h
    · split at h <;> rename_i e <;> split at e <;> cases e
      · cases h; exact .inr (.inl ⟨hp, .inl rfl⟩)
      · cases h; exact .inr (.inl ⟨hp, .inr ⟨by assumption, rfl⟩⟩)
    · cases h; exact .inr (.inl ⟨hp, .inl rfl⟩)
    · cases h; exact .inl rfl
  · rename_i hp
    rcases inRead_cases s 8 with ⟨ha, e⟩ | ⟨ha, e⟩ | ⟨ha, hn, e⟩ | ⟨ha, hn, e⟩ <;> rw [e] at h <;> cases h
    · exact .inl rfl
    · exact .inr (.inr ⟨hp, .inl rfl⟩)
    · exact .inr (.inr ⟨hp, .inr (.inl rfl)⟩)
    · refine .inr (.inr ⟨hp, .inr (.inr ⟨BitVec.ofNat 8 (natOf (s.inNext 8)), hn, ?_⟩)⟩)
      simp only [State.countByte]
      by_cases hl : s.len = Config.lenMax
      · have : (s.afterRead 8).len = Config.lenMax := hl
        exact .inl ⟨hl, by rw [if_pos this]; rfl⟩
      · have : ¬ (s.afterRead 8).len = Config.lenMax := hl
        exact .inr ⟨hl, by rw [if_neg this]; rfl⟩

theorem buildStep_next {s t : State} (h : buildStep s = .next t) :
    (s.place ≠ .merge ∧ ∃ u, s.buildLeaves = some u ∧ t = u.moveTo .merge) ∨
    (s.place = .merge ∧ ∃ a, s.pq = [a] ∧ t = s.buildDone a) ∨
    (s.place = .merge ∧ ∃ a b rest, ∃ hn : s.ncount.val < 513, s.pq = a :: b :: rest ∧
      t = { s with
        node := s.node.set s.ncount.val
          { s.node[s.ncount.val] with
            kind := .internal, weight := a.weight + b.weight, left := a.handle, right := b.handle }
        ncount := ⟨s.ncount.val + 1, by omega⟩
        pq := pqInsert { weight := a.weight + b.weight, seq := s.seq, handle := ⟨s.ncount.val, hn⟩ } rest
        seq := s.seq + 1 }) := by
  unfold buildStep at h
  split at h
  · rename_i hp
    split at h
    · cases h
    · rename_i a e; cases h; exact .inr (.inl ⟨hp, a, e, rfl⟩)
    · rename_i a b rest e
      refine .inr (.inr ⟨hp, a, b, rest, ?_⟩)
      by_cases hn : s.ncount.val < 513
      · refine ⟨hn, e, ?_⟩
        simp only [State.mergeTwo, alloc_of_lt s _ hn] at h
        cases h
        simp [State.insert, Node.asInternal, State.nodeAt]
      · have hf : s.ncount.val = 513 := by have := s.ncount.isLt; omega
        simp only [State.mergeTwo, alloc_full s _ hf] at h
        cases h
  · rename_i hp
    split at h
    · cases h
    · rename_i u e; cases h; exact .inl ⟨hp, u, e, rfl⟩

theorem magicStep_next {s t : State} (h : magicStep s = .next t) :
    t = s ∨ t = s.afterOutError.afterRaise .channelError 3 ∨
    t = (s.afterWrite (bitsOf 32 Config.magic.toNat)).startTraversal .cTree := by
  rcases (writeThen_next h).2 with ⟨_, e⟩ | ⟨_, e⟩ | ⟨_, e⟩
  · exact .inl e
  · exact .inr (.inl e)
  · cases e; exact .inr (.inr rfl)

/-- A record written: blocked, failed, or one of the three writes R111 and R112 give. -/
theorem writeTreeStep_next {s t : State} (hp : s.phase = .cTree) (h : writeTreeStep s = .next t) :
    (s.stack = [] ∧ t = s.startTraversal .cCodes) ∨
    (∃ f rest, s.stack = f :: rest ∧
      (t = s ∨ t = s.afterOutError.afterRaise .channelError 3 ∨
       (s.place = .top ∧ s.isLeaf f.handle = false ∧ t = (s.afterWrite [false]).descend f rest) ∨
       (s.place = .top ∧ s.isLeaf f.handle = true ∧ t = (s.afterWrite [true]).moveTo .symbol) ∨
       (s.place = .symbol ∧ s.isLeaf f.handle = true ∧
        t = (s.afterWrite (bitsOf 9 (s.nodeAt f.handle).sym.val)).visited rest))) := by
  unfold writeTreeStep at h
  split at h
  · rename_i e; cases h; exact .inl ⟨e, rfl⟩
  · rename_i f rest e
    refine .inr ⟨f, rest, e, ?_⟩
    cases hl : s.isLeaf f.handle with
    | false =>
      have hr : s.recordOf f.handle = .treeInternal := by simp [State.recordOf, hl]
      rw [hr, exec_treeInternal, execTreeInternal, if_pos hp, writeInternal, e] at h
      simp only [hr, and_true] at h
      split at h
      · rename_i hpl
        rcases (writeThen_next h).2 with ⟨_, q⟩ | ⟨_, q⟩ | ⟨_, q⟩
        · exact .inl q
        · exact .inr (.inl q)
        · cases q; exact .inr (.inr (.inl ⟨hpl, rfl, rfl⟩))
      · cases h
    | true =>
      have hr : s.recordOf f.handle = .treeLeaf (s.nodeAt f.handle).sym.val := by simp [State.recordOf, hl]
      rw [hr, exec_treeLeaf, execTreeLeaf, if_pos hp, writeLeaf, e] at h
      simp only [hr, if_true] at h
      split at h
      · rename_i hpl
        rcases (writeThen_next h).2 with ⟨_, q⟩ | ⟨_, q⟩ | ⟨_, q⟩
        · exact .inl q
        · exact .inr (.inl q)
        · cases q; exact .inr (.inr (.inr (.inl ⟨hpl, rfl, rfl⟩)))
      · split at h
        · rename_i hpl
          rcases (writeThen_next h).2 with ⟨_, q⟩ | ⟨_, q⟩ | ⟨_, q⟩
          · exact .inl q
          · exact .inr (.inl q)
          · cases q; exact .inr (.inr (.inr (.inr ⟨hpl, rfl, rfl⟩)))
        · cases h

theorem codesStep_next {s t : State} (h : codesStep s = .next t) :
    (s.stack = [] ∧ t = s.goto .cEmit) ∨
    (∃ f rest, s.stack = f :: rest ∧
      ((s.isLeaf f.handle = true ∧ t = (s.bindCode (s.nodeAt f.handle).sym f.path).visited rest) ∨
       (s.isLeaf f.handle = false ∧ t = s.descend f rest))) := by
  unfold codesStep at h
  split at h
  · rename_i e; cases h; exact .inl ⟨e, rfl⟩
  · rename_i f rest e
    split at h
    · rename_i hl; cases h; exact .inr ⟨f, rest, e, .inl ⟨hl, rfl⟩⟩
    · rename_i hl; cases h; exact .inr ⟨f, rest, e, .inr ⟨by simpa using hl, rfl⟩⟩

/-- A code bit written: blocked, failed, the last one, or one with more to come. -/
theorem writeBit_next {s t : State} {b : Bool} {rest : List Bool} {last : State → State}
    (h : writeBit b rest last s = .next t) :
    t = s ∨ t = s.afterOutError.afterRaise .channelError 3 ∨
    (rest = [] ∧ t = last (s.afterWrite [b])) ∨ (rest ≠ [] ∧ t = (s.afterWrite [b]).moveTo (.bits rest)) := by
  have hb : bitsOf 1 b.toNat = [b] := by cases b <;> rfl
  rcases (writeThen_next h).2 with ⟨_, e⟩ | ⟨_, e⟩ | ⟨_, e⟩
  · exact .inl e
  · exact .inr (.inl e)
  · rw [hb] at e
    by_cases hr : rest = []
    · rw [if_pos hr] at e; cases e; exact .inr (.inr (.inl ⟨hr, rfl⟩))
    · rw [if_neg hr] at e; cases e; exact .inr (.inr (.inr ⟨hr, rfl⟩))

theorem emitStep_next {s t : State} (h : emitStep s = .next t) :
    t = s ∨
    (∃ b rest, s.place = .bits (b :: rest) ∧
      (t = s.afterOutError.afterRaise .channelError 3 ∨ (rest = [] ∧ t = (s.afterWrite [b]).moveTo .top) ∨
       (rest ≠ [] ∧ t = (s.afterWrite [b]).moveTo (.bits rest)))) ∨
    ((∀ b rest, s.place ≠ .bits (b :: rest)) ∧
      (t = s.afterInError.afterRaise .channelError 1 ∨
       t = (s.afterNoData.goto .cTerm).moveTo (.bits (s.cbits Config.eof)) ∨
       ∃ b : Byte, s.input.pos + 8 ≤ s.input.bits.length ∧
        ((s.clen (byteSymbol b) = 0 ∧ t = (s.afterRead 8).afterRaise .inconsistentInput 0) ∨
         (s.clen (byteSymbol b) ≠ 0 ∧ t = (s.afterRead 8).moveTo (.bits (s.cbits (byteSymbol b))))))) := by
  unfold emitStep at h
  split at h
  · rename_i b rest e
    rcases writeBit_next h with q | q | q | q
    · exact .inl q
    · exact .inr (.inl ⟨b, rest, e, .inl q⟩)
    · exact .inr (.inl ⟨b, rest, e, .inr (.inl q)⟩)
    · exact .inr (.inl ⟨b, rest, e, .inr (.inr q)⟩)
  · rename_i hp
    have hp' : ∀ b rest, s.place ≠ .bits (b :: rest) := fun b rest e => hp b rest e
    rcases inRead_cases s 8 with ⟨ha, e⟩ | ⟨ha, e⟩ | ⟨ha, hn, e⟩ | ⟨ha, hn, e⟩ <;> rw [e] at h <;> cases h
    · exact .inl rfl
    · exact .inr (.inr ⟨hp', .inl rfl⟩)
    · exact .inr (.inr ⟨hp', .inr (.inl rfl)⟩)
    · refine .inr (.inr ⟨hp', .inr (.inr ⟨BitVec.ofNat 8 (natOf (s.inNext 8)), hn, ?_⟩)⟩)
      simp only [State.emitByte]
      by_cases hl : s.clen (byteSymbol (BitVec.ofNat 8 (natOf (s.inNext 8)))) = 0
      · have : (s.afterRead 8).clen (byteSymbol (BitVec.ofNat 8 (natOf (s.inNext 8)))) = 0 := hl
        exact .inl ⟨hl, by rw [if_pos this]; rfl⟩
      · have : ¬ (s.afterRead 8).clen (byteSymbol (BitVec.ofNat 8 (natOf (s.inNext 8)))) = 0 := hl
        exact .inr ⟨hl, by rw [if_neg this]; rfl⟩

theorem termStep_next {s t : State} (h : termStep s = .next t) :
    t = s ∨
    (∃ b rest, s.place = .bits (b :: rest) ∧
      (t = s.afterOutError.afterRaise .channelError 3 ∨ (rest = [] ∧ t = (s.afterWrite [b]).goto .cFlush) ∨
       (rest ≠ [] ∧ t = (s.afterWrite [b]).moveTo (.bits rest)))) ∨
    ((∀ b rest, s.place ≠ .bits (b :: rest)) ∧ t = s.goto .cFlush) := by
  unfold termStep at h
  split at h
  · rename_i b rest e
    rcases writeBit_next h with q | q | q | q
    · exact .inl q
    · exact .inr (.inl ⟨b, rest, e, .inl q⟩)
    · exact .inr (.inl ⟨b, rest, e, .inr (.inl q)⟩)
    · exact .inr (.inl ⟨b, rest, e, .inr (.inr q)⟩)
  · rename_i hp
    cases h
    exact .inr (.inr ⟨fun b rest e => hp b rest e, rfl⟩)

/-! ### The flushes -/

theorem outFlushClose_cases (s : State) :
    (s.output.closed = true ∧ s.outFlushClose = .closed) ∨
    (s.output.closed = false ∧ nextAnswer s.output.answers = .silent ∧ s.outFlushClose = .blocked) ∨
    (s.output.closed = false ∧ nextAnswer s.output.answers = .ioError ∧
      s.outFlushClose = .ioError s.afterFlushError) ∨
    (s.output.closed = false ∧ nextAnswer s.output.answers = .ok ∧ s.outFlushClose = .ok s.afterFlush) := by
  cases hc : s.output.closed with
  | true => exact .inl ⟨rfl, by simp [State.outFlushClose, hc]⟩
  | false =>
    cases h : nextAnswer s.output.answers with
    | silent => exact .inr (.inl ⟨rfl, rfl, outFlushClose_silent hc h⟩)
    | ioError => exact .inr (.inr (.inl ⟨rfl, rfl, outFlushClose_ioError hc h⟩))
    | ok => exact .inr (.inr (.inr ⟨rfl, rfl, outFlushClose_ok hc h⟩))

theorem flushStep_next {s t : State} (h : flushStep s = .next t) :
    s.output.closed = false ∧
    (t = s ∨ t = s.afterFlushError.raise .channelError 4 true ∨ t = s.afterFlush.complete) := by
  unfold flushStep at h
  rcases outFlushClose_cases s with ⟨hc, e⟩ | ⟨hc, _, e⟩ | ⟨hc, _, e⟩ | ⟨hc, _, e⟩ <;> rw [e] at h <;> cases h
  · exact ⟨hc, .inl rfl⟩
  · exact ⟨hc, .inr (.inl rfl)⟩
  · exact ⟨hc, .inr (.inr rfl)⟩

theorem errorFlushStep_next {s t : State} (h : errorFlushStep s = .next t) :
    s.output.closed = false ∧ (t = s ∨ t = s.afterFlushError.endError ∨ t = s.afterFlush.endError) := by
  unfold errorFlushStep at h
  rcases outFlushClose_cases s with ⟨hc, e⟩ | ⟨hc, _, e⟩ | ⟨hc, _, e⟩ | ⟨hc, _, e⟩ <;> rw [e] at h <;> cases h
  · exact ⟨hc, .inl rfl⟩
  · exact ⟨hc, .inr (.inl rfl)⟩
  · exact ⟨hc, .inr (.inr rfl)⟩

/-! ### DECOMPRESS -/

theorem readMagicStep_next {s t : State} (h : readMagicStep s = .next t) :
    t = s ∨ t = s.afterInError.afterRaise .channelError 1 ∨ t = s.afterNoData.afterRaise .malformedStream 1 ∨
    (s.input.pos + 32 ≤ s.input.bits.length ∧
      (t = (s.afterRead 32).startTreeRead ∨ t = (s.afterRead 32).afterRaise .invalidFormat 0)) := by
  unfold readMagicStep at h
  rcases inRead_cases s 32 with ⟨ha, e⟩ | ⟨ha, e⟩ | ⟨ha, hn, e⟩ | ⟨ha, hn, e⟩ <;> rw [e] at h
  · cases h; exact .inl rfl
  · cases h; exact .inr (.inl rfl)
  · cases h; exact .inr (.inr (.inl rfl))
  · simp only at h
    split at h <;> cases h
    · exact .inr (.inr (.inr ⟨hn, .inl rfl⟩))
    · exact .inr (.inr (.inr ⟨hn, .inr rfl⟩))

theorem setChild_eq (s : State) (h : Handle) (side : Side) (c : Handle) :
    s.setChild h side c = { s with node := (s.setChild h side c).node } := by
  cases side <;> rfl

/-- Where a returned node can lead: to a right child, to the walk at an Internal root, or to the Leaf root's error.
Nothing but the arena, the stack, the root and the cursor has changed. -/
theorem returnNode_cases (h : Handle) (stack : List Frame) (s : State) :
    (∃ node f rest, f.side = .right ∧
      s.returnNode h stack = { s with node := node, stack := f :: rest, place := .top }) ∨
    (∃ node root, node[root.val].kind ≠ .leaf ∧
      s.returnNode h stack =
        { s with node := node, stack := [], root := root, cur := root, phase := .dWalk, place := .top }) ∨
    (∃ node root, node[root.val].kind = .leaf ∧
      s.returnNode h stack =
        State.afterRaise .inconsistentTree 1 { s with node := node, stack := [], root := root }) := by
  induction stack generalizing h s with
  | nil =>
    simp only [State.returnNode, State.treeRead]
    by_cases hl : s.node[h.val].kind = .leaf
    · have : State.isLeaf { s with root := h, stack := [] } h = true := by simp [State.isLeaf, State.nodeAt, hl]
      rw [if_pos this]
      exact .inr (.inr ⟨s.node, h, hl, rfl⟩)
    · have : ¬ State.isLeaf { s with root := h, stack := [] } h = true := by simp [State.isLeaf, State.nodeAt, hl]
      rw [if_neg this]
      exact .inr (.inl ⟨s.node, h, hl, rfl⟩)
  | cons f rest ih =>
    simp only [State.returnNode]
    split
    · refine .inl ⟨(s.setChild f.handle .left h).node, { f with side := .right }, rest, rfl, ?_⟩
      rw [setChild_eq]
    · have e := setChild_eq s f.handle .right h
      rcases ih f.handle (s.setChild f.handle .right h) with ⟨n, g, r, hg, q⟩ | ⟨n, r, hr, q⟩ | ⟨n, r, hr, q⟩
      · exact .inl ⟨n, g, r, hg, by rw [q, e]⟩
      · exact .inr (.inl ⟨n, r, hr, by rw [q, e]⟩)
      · exact .inr (.inr ⟨n, r, hr, by rw [q, e]⟩)

/-- A leaf record read: an error, or a leaf in the next entry, returned. -/
theorem readLeaf_next {s t : State} {sym : Nat} (h : readLeaf sym s = .next t) :
    s.place = .symbol ∧
    ((s.ncount.val = 513 ∧ t = s.afterRaise .inconsistentTree 3) ∨
     (s.ncount.val < 513 ∧ 257 ≤ sym ∧ t = s.afterRaise .inconsistentTree 2) ∨
     (∃ hn : s.ncount.val < 513, ∃ hs : sym < 257,
      t = State.returnNode ⟨s.ncount.val, hn⟩ s.stack { s with
        node := s.node.set s.ncount.val
          { s.node[s.ncount.val] with kind := .leaf, sym := ⟨sym, hs⟩, weight := 0 }
        ncount := ⟨s.ncount.val + 1, by omega⟩ })) := by
  unfold readLeaf at h
  split at h <;> [skip; cases h]
  refine ⟨by assumption, ?_⟩
  split at h
  · rename_i hf; cases h; exact .inl ⟨hf, rfl⟩
  · rename_i hf
    have hn : s.ncount.val < 513 := by have := s.ncount.isLt; omega
    by_cases hs : sym < 257
    · simp only [symbolOf, hs, dite_true, alloc_of_lt s _ hn] at h
      cases h
      exact .inr (.inr ⟨hn, hs, rfl⟩)
    · simp only [symbolOf, hs, dite_false] at h
      cases h
      exact .inr (.inl ⟨hn, by omega, rfl⟩)

/-- An Internal record read: an error, or an open node in the next entry. -/
theorem readInternal_next {s t : State} (h : readInternal s = .next t) :
    s.place = .top ∧
    ((s.ncount.val = 513 ∧ t = s.afterRaise .inconsistentTree 3) ∨
     (∃ hn : s.ncount.val < 513,
      t = { s with
        node := s.node.set s.ncount.val { s.node[s.ncount.val] with kind := .internal, weight := 0 }
        ncount := ⟨s.ncount.val + 1, by omega⟩
        stack := { handle := ⟨s.ncount.val, hn⟩ } :: s.stack })) := by
  unfold readInternal at h
  split at h <;> [skip; cases h]
  refine ⟨by assumption, ?_⟩
  split at h
  · rename_i hf; cases h; exact .inl ⟨hf, rfl⟩
  · rename_i hf
    have hn : s.ncount.val < 513 := by have := s.ncount.isLt; omega
    rw [alloc_of_lt s _ hn] at h
    cases h
    exact .inr ⟨hn, rfl⟩

/-- A step of D_TREE: blocked, an input error, the capacity error, a leaf's tag, or a record of `exec`. -/
theorem readTreeStep_next {s t : State} (hp : s.phase = .dTree) (h : readTreeStep s = .next t) :
    t = s ∨ t = s.afterInError.afterRaise .channelError 1 ∨ t = s.afterNoData.afterRaise .malformedStream 2 ∨
    (s.place = .symbol ∧ s.input.pos + 9 ≤ s.input.bits.length ∧ ∃ v, readLeaf v (s.afterRead 9) = .next t) ∨
    (s.place ≠ .symbol ∧ s.input.pos + 1 ≤ s.input.bits.length ∧
      ((s.ncount.val = 513 ∧ t = (s.afterRead 1).afterRaise .inconsistentTree 3) ∨
       (s.ncount.val < 513 ∧
        (t = (s.afterRead 1).moveTo .symbol ∨ readInternal ((s.afterRead 1).moveTo .top) = .next t)))) := by
  unfold readTreeStep at h
  split at h
  · rename_i hpl
    rcases inRead_cases s 9 with ⟨ha, e⟩ | ⟨ha, e⟩ | ⟨ha, hn, e⟩ | ⟨ha, hn, e⟩ <;> rw [e] at h
    · cases h; exact .inl rfl
    · cases h; exact .inr (.inl rfl)
    · cases h; exact .inr (.inr (.inl rfl))
    · refine .inr (.inr (.inr (.inl ⟨hpl, hn, natOf (s.inNext 9), ?_⟩)))
      have h1 : ¬ (s.afterRead 9).phase = .cTree := by show ¬ s.phase = .cTree; rw [hp]; decide
      have h2 : (s.afterRead 9).phase = .dTree := hp
      change execTreeLeaf _ _ = _ at h
      rwa [execTreeLeaf, if_neg h1, if_pos h2] at h
  · rename_i hpl
    rw [State.inReadBit] at h
    rcases inRead_cases s 1 with ⟨ha, e⟩ | ⟨ha, e⟩ | ⟨ha, hn, e⟩ | ⟨ha, hn, e⟩ <;> rw [e] at h
    · cases h; exact .inl rfl
    · cases h; exact .inr (.inl rfl)
    · cases h; exact .inr (.inr (.inl rfl))
    · refine .inr (.inr (.inr (.inr ⟨hpl, hn, ?_⟩)))
      simp only at h
      split at h
      · rename_i hf; cases h; exact .inl ⟨hf, rfl⟩
      · rename_i hf
        have hf' : ¬ s.ncount.val = 513 := hf
        have hlt : s.ncount.val < 513 := by have := s.ncount.isLt; omega
        split at h
        · cases h; exact .inr ⟨hlt, .inl rfl⟩
        · have h1 : ¬ ((s.afterRead 1).moveTo .top).phase = .cTree := by show ¬ s.phase = .cTree; rw [hp]; decide
          have h2 : ((s.afterRead 1).moveTo .top).phase = .dTree := hp
          change execTreeInternal _ = _ at h
          rw [execTreeInternal, if_neg h1, if_pos h2] at h
          exact .inr ⟨hlt, .inr h⟩

theorem walkStep_next {s t : State} (h : walkStep s = .next t) :
    t = s ∨
    (s.place = .byte ∧
      (t = s.afterOutError.afterRaise .channelError 3 ∨
       t = { s.afterWrite (bitsOf 8 (s.nodeAt s.cur).sym.val) with cur := s.root, place := .top })) ∨
    (s.place ≠ .byte ∧
      (t = s.afterInError.afterRaise .channelError 1 ∨ t = s.afterNoData.afterRaise .malformedStream 3 ∨
       (s.input.pos + 1 ≤ s.input.bits.length ∧ ∃ b, t = (s.afterRead 1).walkTo (s.child s.cur b)))) := by
  unfold walkStep at h
  split at h
  · rename_i hp
    rcases (writeThen_next h).2 with ⟨_, e⟩ | ⟨_, e⟩ | ⟨_, e⟩
    · exact .inl e
    · exact .inr (.inl ⟨hp, .inl e⟩)
    · cases e; exact .inr (.inl ⟨hp, .inr rfl⟩)
  · rename_i hp
    rw [State.inReadBit] at h
    rcases inRead_cases s 1 with ⟨ha, e⟩ | ⟨ha, e⟩ | ⟨ha, hn, e⟩ | ⟨ha, hn, e⟩ <;> rw [e] at h <;> cases h
    · exact .inl rfl
    · exact .inr (.inr ⟨hp, .inl rfl⟩)
    · exact .inr (.inr ⟨hp, .inr (.inl rfl)⟩)
    · exact .inr (.inr ⟨hp, .inr (.inr ⟨hn, (natOf (s.inNext 1)).testBit 0, rfl⟩)⟩)

/-- Where the cursor's move leads (R163). -/
theorem walkTo_cases (s : State) (c : Handle) :
    (s.isLeaf c = false ∧ s.walkTo c = { s with cur := c }) ∨
    (s.isLeaf c = true ∧ (s.nodeAt c).sym = Config.eof ∧
      s.walkTo c = { s with cur := c, phase := .dDone, place := .top }) ∨
    (s.isLeaf c = true ∧ (s.nodeAt c).sym ≠ Config.eof ∧ s.walkTo c = { s with cur := c, place := .byte }) := by
  simp only [State.walkTo]
  cases hl : s.isLeaf c with
  | false =>
    have : ¬ State.isLeaf { s with cur := c } c = true := by rw [show State.isLeaf { s with cur := c } c = s.isLeaf c from rfl, hl]; simp
    exact .inl ⟨rfl, by rw [if_neg this]⟩
  | true =>
    have h1 : State.isLeaf { s with cur := c } c = true := hl
    rw [if_pos h1]
    by_cases he : (s.nodeAt c).sym = Config.eof
    · have h2 : (State.nodeAt { s with cur := c } c).sym = Config.eof := he
      exact .inr (.inl ⟨rfl, he, by rw [if_pos h2]; rfl⟩)
    · have h2 : ¬ (State.nodeAt { s with cur := c } c).sym = Config.eof := he
      exact .inr (.inr ⟨rfl, he, by rw [if_neg h2]; rfl⟩)

end Sys2Proof.Machine
end

