-- ==== Sys2Proof/Laws/PerInstr.lean ====
section
/-! SUPPORT. Statements about every instruction as syntax, one lemma per constructor. -/

namespace Sys2Proof.Laws

/-- The length of an encoding in bits: 32 for a command word, the record's own length for a tree record (R70, R77). -/
def encodedLength : Encoded → Nat
  | .cmd _ => 32
  | .record bits => bits.length

/-- The width of an instruction's row of the opcode table. -/
def rowWidth : Instr → Nat
  | .compress => 32
  | .decompress => 32
  | .treeInternal => 1
  | .treeLeaf _ => 10

/-- Every instruction's encoding has the width of its row. -/
def EncodedWidth.Statement (i : Instr) : Prop := encodedLength (encode i) = rowWidth i

theorem EncodedWidth.compress : EncodedWidth.Statement .compress := rfl

theorem EncodedWidth.decompress : EncodedWidth.Statement .decompress := rfl

theorem EncodedWidth.treeInternal : EncodedWidth.Statement .treeInternal := rfl

theorem EncodedWidth.treeLeaf (sym : Nat) : EncodedWidth.Statement (.treeLeaf sym) := by
  simp [EncodedWidth.Statement, encode, encodedLength, rowWidth]

end Sys2Proof.Laws
end

