-- ==== Sys2Proof/Tests/Slice0.lean ====
section
/-! SUPPORT. The smoke test of `wellFormed`, the words of the spec's tables through the decoder, one-step tests with the
spec's expected results, and for every obligation with hypotheses a theorem `witness_…` that shows them met. -/

open Sys2Proof Sys2Proof.Machine

namespace Sys2Proof.Tests

set_option Elab.async false

/-! ### Small states -/

/-- An operation of opcode `op` in phase `p`, at place `pl`, with `bits` on its input from position 0. -/
def running (op : BitVec 2) (p : Phase) (pl : Place := .top) (bits : List Bool := []) : State :=
  { State.reset with
    busy := true, lastOp := op, phase := p, place := pl
    input := { bits := bits, pos := 0, rewindable := true, replay := none, answers := [] } }

/-- `s` with one answer ready on each channel. -/
def answering (a : Answer) (s : State) : State :=
  { s with input := { s.input with answers := [a] }, output := { s.output with answers := [a] } }

/-- What holds of the next state. -/
def nextHas (r : Result) (p : State → Bool) : Bool :=
  match r with
  | .next t => p t
  | .fault _ => false
  | .refused _ => false

/-- The arena with the tree (65, EOF): the root at handle 0, its leaves at handles 1 and 2 (R114, the tree of V2.7's input). -/
def smallArena : Vector Node 513 :=
  ((Vector.replicate 513 Node.reset).set 0 { Node.reset with left := 1, right := 2 }).set 1
    { Node.reset with kind := .leaf, sym := 65 } |>.set 2 { Node.reset with kind := .leaf, sym := 256 }

/-- The tree of `smallArena`. -/
def smallTree : Tree := .node (.leaf 65) (.leaf 256)

/-- An operation with that tree in its arena. -/
def withTree (op : BitVec 2) (p : Phase) (pl : Place := .top) (bits : List Bool := []) : State :=
  { running op p pl bits with node := smallArena, ncount := 3, root := 0, cur := 0 }

theorem smallTree_held : Tree.heldAt smallArena smallTree 0 := by
  refine ⟨?_, ⟨?_, ?_⟩, ?_, ?_⟩ <;> decide +kernel

/-- C_COUNT after one byte 0x41. -/
def countedOne : State :=
  { running 0b01 .cCount with freq := (Vector.replicate 256 0).set 0x41 1, len := 1 }

/-- C_COUNT at `LEN_MAX` bytes, all of value 0x41. -/
def countedMax : State :=
  { running 0b01 .cCount with
    freq := (Vector.replicate 256 0).set 0x41 Config.lenMax, len := Config.lenMax }

/-! ### Well-formedness and decoding -/

theorem test_leaf_512_is_ill_formed : (Instr.treeLeaf 512).wellFormed = false := by decide
theorem test_leaf_511_is_well_formed : (Instr.treeLeaf 511).wellFormed = true := by decide
theorem test_decode_refuses_what_encode_cuts :
    decode (encode (.treeLeaf 512)) = .ok (.treeLeaf 0) := by decide

/-- R71: `OP` 0b01 with `RSV` 0. -/
theorem test_decode_compress : decodeTableWord 32 0b00000000000000000000000000000001 = some .compress := by decide
/-- R71: `OP` 0b10 with `RSV` 0. -/
theorem test_decode_decompress : decodeTableWord 32 0b00000000000000000000000000000010 = some .decompress := by decide
/-- R77: the one bit `0`. -/
theorem test_decode_treeInternal : decodeTableWord 8 0b0 = some .treeInternal := by decide
/-- R77, R112: `1` and the symbol 0x41 in 9 bits. -/
theorem test_decode_treeLeaf : decodeTableWord 16 0b1001000001 = some (.treeLeaf 0x41) := by decide
/-- R73: the reserved words. -/
theorem test_decode_reserved :
    decodeTableWord 32 0 = none ∧ decodeTableWord 32 3 = none ∧ decodeTableWord 32 0x80000001 = none := by decide
theorem test_decode_truncated : decodeRecord [true, false, false] = .error .truncatedRecord := by decide

/-! ### The four rows as the first instruction after reset -/

theorem test_fetch_compress :
    step (State.reset.withFetchWord 32 1) = exec .compress State.reset := rfl
theorem test_fetch_decompress :
    step (State.reset.withFetchWord 32 2) = exec .decompress State.reset := rfl
/-- The node at handle 1 is opened as the root's left child to be. -/
theorem test_fetch_treeInternal :
    nextHas (step (State.reset.withFetchWord 8 0)) (fun t =>
      decide (t.ncount = 2 ∧ t.stack = [{ handle := 1 }, { handle := 0 }] ∧ t.input.pos = 1)) = true := by
  decide +kernel
/-- The leaf 0x52 is allocated at handle 1 and becomes the root's left child. -/
theorem test_fetch_treeLeaf :
    nextHas (step (State.reset.withFetchWord 16 0b1001010010)) (fun t =>
      decide (t.ncount = 2 ∧ (t.nodeAt 1).kind = .leaf ∧ (t.nodeAt 1).sym = 0x52 ∧ (t.nodeAt 0).left = 1 ∧
        t.stack = [{ handle := 0, side := .right }] ∧ t.input.pos = 10)) = true := by
  decide +kernel

/-! ### One step, by the spec's rules -/

/-- R13, R72: `BUSY`, `PHASE` C_COUNT and `LAST_OP` 0b01. -/
theorem test_compress_status :
    nextHas (exec .compress State.reset) (fun t => decide (t.statusWord = 0x00010011#32)) = true := by
  decide +kernel
/-- R17: rejected while `BUSY`; only bit 3 rises. -/
theorem test_compress_rejected :
    nextHas (exec .compress (running 0b01 .cCount)) (fun t => decide (t.statusWord = 0x00010019#32)) = true := by
  decide +kernel
/-- R13, R72: `BUSY`, `PHASE` D_MAGIC and `LAST_OP` 0b10. -/
theorem test_decompress_status :
    nextHas (exec .decompress State.reset) (fun t => decide (t.statusWord = 0x00020091#32)) = true := by
  decide +kernel
/-- R36, R160: `FREQ` and `LEN` are not touched. -/
theorem test_decompress_keeps_counters :
    nextHas (exec .decompress { countedOne with busy := false, phase := .idle })
      (fun t => decide (t.freqAt 0x41 = 1 ∧ t.len = 1)) = true := by
  decide +kernel
/-- R111: the tag bit 0. -/
theorem test_treeInternal_writes_tag :
    nextHas (exec .treeInternal { withTree 0b01 .cTree with stack := [{ handle := 0 }] }) (fun t =>
      decide (t.output.bits = [false] ∧ t.outBits = 1 ∧ t.stack.map (fun f => f.handle) = [1, 2])) = true := by
  decide +kernel
/-- R186: a tag read with the arena full raises `InconsistentTree(3)`. -/
theorem test_treeInternal_arena_full :
    nextHas (exec .treeInternal { running 0b10 .dTree with ncount := 513 }) (fun t =>
      decide (t.errCode = .inconsistentTree ∧ t.errDetail = 3 ∧ t.phase = .eFlush)) = true := by
  decide +kernel
/-- R112: the symbol 0x41 in 9 bits, most significant first. -/
theorem test_treeLeaf_writes_symbol :
    nextHas (exec (.treeLeaf 0x41) { withTree 0b01 .cTree .symbol with stack := [{ handle := 1 }] }) (fun t =>
      decide (t.output.bits = [false, false, true, false, false, false, false, false, true] ∧ t.outBits = 9)) =
      true := by
  decide +kernel
/-- R78: the first symbol that names none, 257, raises `InconsistentTree(2)` and allocates nothing. -/
theorem test_treeLeaf_257 :
    nextHas (exec (.treeLeaf 257) (running 0b10 .dTree .symbol)) (fun t =>
      decide (t.errCode = .inconsistentTree ∧ t.errDetail = 2 ∧ t.ncount = 0)) = true := by
  decide +kernel

/-- V4.10: where a symbol is due and 6 bits remain, `MalformedStream(2)` is raised and `IN_BITS` counts none of them. -/
theorem test_truncated_symbol :
    nextHas (step (running 0b10 .dTree .symbol (List.replicate 6 false))) (fun t =>
      decide (t.errCode = .malformedStream ∧ t.errDetail = 2 ∧ t.inBits = 0 ∧ t.phase = .eFlush)) = true := by
  decide +kernel

/-! ### Witnesses: encoding and commands -/

theorem witness_DecodeOfEncodeIsTheInstruction :
    (Instr.treeLeaf 511).wellFormed = true ∧
      encode (.treeLeaf 511) = .record (List.replicate 10 true) := by decide

theorem witness_OnlyEncodingsDecode :
    decode (.cmd 2) = .ok .decompress ∧ decode (.record (true :: List.replicate 9 false)) = .ok (.treeLeaf 0) := by
  decide

/-- Of CompressIsAcceptedOrRejected and DecompressIsAcceptedOrRejected. -/
theorem witness_CommandsAreAcceptedOrRejected :
    State.reset.busy = false ∧ (running 0b01 .cCount).busy = true := by decide

/-- Clause 1 by each of its grounds, and clause 2. -/
theorem witness_RejectedCommandWriteOnlySetsRej :
    (running 0b10 .dMagic).busy = true ∧ (0#32).extractLsb' 0 2 = 0b00#2 ∧ (3#32).extractLsb' 0 2 = 0b11#2 ∧
      (4#32).extractLsb' 2 30 ≠ 0#30 ∧ (0x80000001#32).extractLsb' 2 30 ≠ 0#30 ∧
      State.reset.busy = false ∧ (2#32).extractLsb' 0 2 ≠ 0b00#2 ∧ (2#32).extractLsb' 0 2 ≠ 0b11#2 ∧
      (2#32).extractLsb' 2 30 = 0#30 := by decide

theorem witness_StepRunsTheCommandWord : decodeCmd 1 = .ok .compress ∧ decodeCmd 2 = .ok .decompress := by decide

/-! ### Witnesses: tree records -/

/-- The three clauses: the bit 0 and the record of 0x41 to be read, and the root of `smallArena` to be written. -/
theorem witness_StepRunsTheTreeRecord :
    (∃ s : State, s.host = [] ∧ s.phase = .dTree ∧ s.place = .top ∧ s.ncount.val < 513 ∧
      allOk s.input.answers = true ∧ decodeRecord (s.input.bits.drop s.input.pos) = .ok (.treeInternal, [true])) ∧
    (∃ s : State, s.host = [] ∧ s.phase = .dTree ∧ s.place = .top ∧ s.ncount.val < 513 ∧
      allOk s.input.answers = true ∧ decodeRecord (s.input.bits.drop s.input.pos) = .ok (.treeLeaf 511, [])) ∧
    (∃ (s : State) (f : Frame) (rest : List Frame), s.host = [] ∧ s.phase = .cTree ∧ s.stack = f :: rest) :=
  ⟨⟨{ running 0b10 .dTree .top [false, true] with ncount := 512 }, by decide +kernel⟩,
   ⟨running 0b10 .dTree .top (List.replicate 10 true), by decide +kernel⟩,
   ⟨{ withTree 0b01 .cTree with stack := [{ handle := 0 }] }, { handle := 0 }, [], by decide +kernel⟩⟩

theorem witness_TreeInternalReadOpensNode :
    ∃ s : State, s.ncount.val < 513 ∧ s.phase = .dTree ∧ s.place = .top :=
  ⟨{ running 0b10 .dTree with ncount := 512 }, by decide +kernel⟩

theorem witness_TreeLeafReadAsLeftChild :
    ∃ (s : State) (p : Handle) (rest : List Frame), s.ncount.val < 513 ∧ s.phase = .dTree ∧ s.place = .symbol ∧
      s.stack = { handle := p, path := [], side := .left } :: rest :=
  ⟨{ running 0b10 .dTree .symbol with ncount := 1, stack := [{ handle := 0 }] }, 0, [], by decide +kernel⟩

/-- With no open node, and with an open node whose right child is due. -/
theorem witness_TreeLeafReadReturnsToOpenNodes :
    (∃ s : State, s.ncount.val < 513 ∧ s.phase = .dTree ∧ s.place = .symbol ∧
      ∀ f ∈ s.stack, f.handle.val < s.ncount.val) ∧
    (∃ s : State, s.ncount.val < 513 ∧ s.phase = .dTree ∧ s.place = .symbol ∧ s.stack ≠ [] ∧
      ∀ f ∈ s.stack, f.handle.val < s.ncount.val) :=
  ⟨⟨running 0b10 .dTree .symbol, by decide +kernel⟩,
   ⟨{ running 0b10 .dTree .symbol with ncount := 2, stack := [{ handle := 0, side := .right }] },
    by decide +kernel⟩⟩

theorem witness_TreeRecordReadErrors :
    (∃ s : State, s.phase = .dTree ∧ s.place = .symbol ∧ s.ncount.val < 513) ∧
    (∃ s : State, s.phase = .dTree ∧ s.place = .symbol ∧ s.ncount.val = 513) ∧
    (∃ s : State, s.phase = .dTree ∧ s.place = .top ∧ s.ncount.val = 513) :=
  ⟨⟨{ running 0b10 .dTree .symbol with ncount := 512 }, by decide +kernel⟩,
   ⟨{ running 0b10 .dTree .symbol with ncount := 513 }, by decide +kernel⟩,
   ⟨{ running 0b10 .dTree with ncount := 513 }, by decide +kernel⟩⟩

theorem witness_TreeInternalWriteEmitsTag :
    (∃ (s : State) (f : Frame), s.phase = .cTree ∧ s.place = .top ∧ s.stack = [f] ∧
      (s.nodeAt f.handle).kind = .internal ∧ s.outReady = true) ∧
    (∃ (s : State) (f : Frame), s.phase = .cTree ∧ s.place = .top ∧ s.stack = [f] ∧
      (s.nodeAt f.handle).kind = .internal ∧ s.output.closed = false ∧ nextAnswer s.output.answers = .ioError) :=
  ⟨⟨{ withTree 0b01 .cTree with stack := [{ handle := 0 }] }, { handle := 0 }, by decide +kernel⟩,
   ⟨answering .ioError { withTree 0b01 .cTree with stack := [{ handle := 0 }] }, { handle := 0 }, by decide +kernel⟩⟩

theorem witness_TreeLeafWriteEmitsTagAndSymbol :
    (∃ (s : State) (f : Frame), s.phase = .cTree ∧ s.stack = [f] ∧ (s.nodeAt f.handle).kind = .leaf ∧
      (s.nodeAt f.handle).sym = 256 ∧ s.outReady = true ∧ s.place = .top) ∧
    (∃ (s : State) (f : Frame), s.phase = .cTree ∧ s.stack = [f] ∧ (s.nodeAt f.handle).kind = .leaf ∧
      (s.nodeAt f.handle).sym = 256 ∧ s.outReady = true ∧ s.place = .symbol) ∧
    (∃ (s : State) (f : Frame), s.phase = .cTree ∧ s.stack = [f] ∧ (s.nodeAt f.handle).kind = .leaf ∧
      (s.nodeAt f.handle).sym = 256 ∧ s.output.closed = false ∧ nextAnswer s.output.answers = .ioError ∧
      (s.place = .top ∨ s.place = .symbol)) :=
  ⟨⟨{ withTree 0b01 .cTree with stack := [{ handle := 2 }] }, { handle := 2 }, by decide +kernel⟩,
   ⟨{ withTree 0b01 .cTree .symbol with stack := [{ handle := 2 }] }, { handle := 2 }, by decide +kernel⟩,
   ⟨answering .ioError { withTree 0b01 .cTree .symbol with stack := [{ handle := 2 }] }, { handle := 2 },
    by decide +kernel⟩⟩

/-- A record of each kind that answers a next state, written and read. -/
theorem witness_TreeRecordFrame :
    nextHas (exec .treeInternal { withTree 0b01 .cTree with stack := [{ handle := 0 }] }) (fun _ => true) = true ∧
    nextHas (exec (.treeLeaf 0x41) { withTree 0b01 .cTree with stack := [{ handle := 1 }] }) (fun _ => true) = true ∧
    nextHas (exec .treeInternal (running 0b10 .dTree)) (fun _ => true) = true ∧
    nextHas (exec (.treeLeaf 0x41) (running 0b10 .dTree .symbol)) (fun _ => true) = true ∧
    nextHas (exec (.treeLeaf 0x41) { running 0b10 .dTree .symbol with ncount := 1, stack := [{ handle := 0 }] })
      (fun t => decide ((t.nodeAt 0).left = 1)) = true := by decide +kernel

/-! ### Witnesses: channels -/

/-- 8 bits where 8 remain, 9 where 8 remain, a rewind, a channel that cannot rewind, and an I/O error. -/
theorem witness_InputTransactionsDeliverTheNextBits :
    (∃ s : State, s.inputInv ∧ nextAnswer s.input.answers = .ok ∧ s.input.pos + 8 ≤ s.input.bits.length ∧
      s.input.bits.length < s.input.pos + 9 ∧ s.input.rewindable = true) ∧
    (∃ s : State, s.inputInv ∧ nextAnswer s.input.answers = .ok ∧ s.input.rewindable = false) ∧
    (∃ s : State, s.inputInv ∧ nextAnswer s.input.answers = .ioError) :=
  ⟨⟨running 0b01 .cCount .top (bitsOfBytes [0x41]), by unfold State.inputInv; decide +kernel⟩,
   ⟨{ State.reset with input := { State.reset.input with rewindable := false } },
    by unfold State.inputInv; decide +kernel⟩,
   ⟨answering .ioError (running 0b01 .cCount), by unfold State.inputInv; decide +kernel⟩⟩

/-- Of OutWriteAppendsMsbFirst and FlushPadsToWholeBytes. -/
theorem witness_OutputTransactions :
    (∃ s : State, s.output.closed = false ∧ nextAnswer s.output.answers = .ok) ∧
    (∃ s : State, s.output.closed = false ∧ nextAnswer s.output.answers = .ioError) :=
  ⟨⟨State.reset, by decide +kernel⟩, ⟨answering .ioError State.reset, by decide +kernel⟩⟩

/-- A core step that reads, and one that writes. -/
theorem witness_CoreStepIssuesAtMostOneTransaction :
    nextHas (coreStep (running 0b01 .cCount .top (bitsOfBytes [0x41]))) (fun t => decide (t.input.pos = 8)) = true ∧
      nextHas (coreStep (running 0b01 .cMagic)) (fun t => decide (t.output.bits.length = 32)) = true := by
  decide +kernel

/-! ### The invariant in states other than reset -/

theorem countedOne_inv : countedOne.inv := by
  refine ⟨?_, ?_, ?_, ?_, ?_, ?_⟩
  · unfold State.statusInv; decide +kernel
  · exact Or.inl rfl
  · unfold State.countInv; decide +kernel
  · unfold State.queueInv PqSorted; decide +kernel
  · unfold State.walkInv; decide +kernel
  · unfold State.inputInv; decide +kernel

theorem answering_countedOne_inv : (answering .silent countedOne).inv := by
  refine ⟨?_, ?_, ?_, ?_, ?_, ?_⟩
  · unfold State.statusInv; decide +kernel
  · exact Or.inl rfl
  · unfold State.countInv; decide +kernel
  · unfold State.queueInv PqSorted; decide +kernel
  · unfold State.walkInv; decide +kernel
  · unfold State.inputInv; decide +kernel

/-- A D_WALK with a byte's write due. -/
def walking : State := { withTree 0b10 .dWalk .byte with cur := 1 }

theorem walking_inv : (answering .silent walking).inv := by
  refine ⟨?_, ?_, ?_, ?_, ?_, ?_⟩
  · unfold State.statusInv; decide +kernel
  · exact Or.inr rfl
  · unfold State.countInv; decide +kernel
  · unfold State.queueInv PqSorted; decide +kernel
  · unfold State.walkInv; decide +kernel
  · unfold State.inputInv; decide +kernel

/-- D_DONE, about to flush. -/
theorem done_inv : (running 0b10 .dDone).inv := by
  refine ⟨?_, ?_, ?_, ?_, ?_, ?_⟩
  · unfold State.statusInv; decide +kernel
  · exact rfl
  · unfold State.countInv; decide +kernel
  · unfold State.queueInv PqSorted; decide +kernel
  · unfold State.walkInv; decide +kernel
  · unfold State.inputInv; decide +kernel

/-- IDLE after reset, with the host's write of COMPRESS to come. -/
theorem launch_inv : (State.reset.launch 1).inv := by
  refine ⟨?_, ?_, ?_, ?_, ?_, ?_⟩
  · unfold State.statusInv; decide +kernel
  · exact rfl
  · unfold State.countInv; decide +kernel
  · unfold State.queueInv PqSorted; decide +kernel
  · unfold State.walkInv; decide +kernel
  · unfold State.inputInv; decide +kernel

theorem witness_SilentChannelBlocksTheCore :
    (∃ s : State, s.inv ∧ s.waitsOnInput = true ∧ nextAnswer s.input.answers = .silent) ∧
    (∃ s : State, s.inv ∧ s.waitsOnOutput = true ∧ s.output.closed = false ∧
      nextAnswer s.output.answers = .silent) :=
  ⟨⟨answering .silent countedOne, answering_countedOne_inv, by decide +kernel, by decide +kernel⟩,
   ⟨answering .silent walking, walking_inv, by decide +kernel, by decide +kernel, by decide +kernel⟩⟩

/-! ### Witnesses: the register window -/

/-- Each of the eight offsets with its value, at one state. -/
theorem witness_RegisterReadReturnsTheRegister :
    (running 0b01 .cCount).statusWord = 0x00010011#32 ∧ State.reset.inBits.extractLsb' 0 32 = 0#32 ∧
      State.reset.inBits.extractLsb' 32 32 = 0#32 ∧ State.reset.outBits.extractLsb' 0 32 = 0#32 ∧
      State.reset.outBits.extractLsb' 32 32 = 0#32 ∧ Config.hwcfg = 0x00020120#32 := by decide +kernel

theorem witness_OtherRegisterAccesses :
    (0 < 0x04 ∧ 0x04 < 0x20 ∧ 0x04 % 4 = 0) ∧ (0 < 0x1C ∧ 0x1C < 0x20 ∧ 0x1C % 4 = 0) ∧
    (2 ≠ 4 ∨ 0 % 4 ≠ 0 ∨ 0x20 ≤ 0) ∧ (4 ≠ 4 ∨ 0x1E % 4 ≠ 0 ∨ 0x20 ≤ 0x1E) ∧ (4 ≠ 4 ∨ 0x20 % 4 ≠ 0 ∨ 0x20 ≤ 0x20) := by
  decide

/-! ### Witnesses: COMPRESS -/

/-- The loop below and at `LEN_MAX`, the end of the input with 7 bits left, an I/O error; then the rewind, carried out, not
supported, and failing. -/
theorem witness_CountStepsCountAndRewind :
    (∃ s : State, s.host = [] ∧ s.phase = .cCount ∧ s.place = .top ∧ nextAnswer s.input.answers = .ok ∧
      bitsOf 8 (0x41#8).toNat <+: s.input.bits.drop s.input.pos ∧ s.len ≠ Config.lenMax) ∧
    (∃ s : State, s.host = [] ∧ s.phase = .cCount ∧ s.place = .top ∧ nextAnswer s.input.answers = .ok ∧
      bitsOf 8 (0x41#8).toNat <+: s.input.bits.drop s.input.pos ∧ s.len = Config.lenMax) ∧
    (∃ s : State, s.host = [] ∧ s.phase = .cCount ∧ s.place = .top ∧ nextAnswer s.input.answers = .ok ∧
      s.input.bits.length < s.input.pos + 8) ∧
    (∃ s : State, s.host = [] ∧ s.phase = .cCount ∧ s.place = .top ∧ nextAnswer s.input.answers = .ioError) ∧
    (∃ s : State, s.host = [] ∧ s.phase = .cCount ∧ s.place = .rewind ∧ nextAnswer s.input.answers = .ok ∧
      s.input.rewindable = true) ∧
    (∃ s : State, s.host = [] ∧ s.phase = .cCount ∧ s.place = .rewind ∧ nextAnswer s.input.answers = .ok ∧
      s.input.rewindable = false) ∧
    (∃ s : State, s.host = [] ∧ s.phase = .cCount ∧ s.place = .rewind ∧ nextAnswer s.input.answers = .ioError) :=
  ⟨⟨running 0b01 .cCount .top (bitsOfBytes [0x41]), by decide +kernel⟩,
   ⟨{ countedMax with input := (running 0b01 .cCount .top (bitsOfBytes [0x41])).input }, by decide +kernel⟩,
   ⟨running 0b01 .cCount .top (List.replicate 7 true), by decide +kernel⟩,
   ⟨answering .ioError (running 0b01 .cCount), by decide +kernel⟩,
   ⟨running 0b01 .cCount .rewind, by decide +kernel⟩,
   ⟨{ running 0b01 .cCount .rewind with input := { State.reset.input with rewindable := false } }, by decide +kernel⟩,
   ⟨answering .ioError (running 0b01 .cCount .rewind), by decide +kernel⟩⟩

theorem witness_CountPhaseCountsTheInput :
    ∃ (s : State) (bs : List Byte) (tail : List Bool),
      s.host = [] ∧ s.phase = .cCount ∧ s.place = .top ∧ s.len = 0 ∧ s.freq = Vector.replicate 256 0 ∧
      s.reliable = true ∧ s.input.pos = 0 ∧ s.input.rewindable = true ∧
      s.input.bits = bitsOfBytes bs ++ tail ∧ tail.length < 8 ∧ bs.length ≤ Config.lenMax.toNat :=
  ⟨running 0b01 .cCount .top (bitsOfBytes [0x41, 0x41] ++ List.replicate 7 true), [0x41, 0x41],
    List.replicate 7 true, rfl, rfl, rfl, rfl, rfl, by decide +kernel⟩

theorem witness_PriorityQueueIsFifoAmongEqualWeights :
    PqSorted [⟨1, 0, 0⟩, ⟨1, 1, 1⟩, ⟨2, 2, 2⟩] := by
  unfold PqSorted; decide

/-- Of BuildInsertsLeavesInAscendingOrder and BuildMakesFullTreeOfTheCounts: C_BUILD after the count of one byte 0x41, after
the empty input, and at `LEN_MAX`. -/
theorem witness_BuildStart :
    (∃ s : State, s.host = [] ∧ s.phase = .cBuild ∧ s.place = .top ∧ s.countInv ∧ s.len = 1) ∧
    (∃ s : State, s.host = [] ∧ s.phase = .cBuild ∧ s.place = .top ∧ s.countInv ∧ s.len = 0) ∧
    (∃ s : State, s.host = [] ∧ s.phase = .cBuild ∧ s.place = .top ∧ s.countInv ∧ s.len = Config.lenMax) :=
  ⟨⟨{ countedOne with phase := .cBuild }, by unfold State.countInv; decide +kernel⟩,
   ⟨running 0b01 .cBuild, by unfold State.countInv; decide +kernel⟩,
   ⟨{ countedMax with phase := .cBuild }, by unfold State.countInv; decide +kernel⟩⟩

theorem witness_TreeDependsOnlyOnTheCounts :
    ∃ s u : State, s.host = [] ∧ u.host = [] ∧ s.phase = .cBuild ∧ u.phase = .cBuild ∧ s.place = .top ∧
      u.place = .top ∧ s.countInv ∧ u.countInv ∧ s.freq = u.freq ∧ s.ncount ≠ u.ncount :=
  ⟨{ countedOne with phase := .cBuild }, { countedOne with phase := .cBuild, ncount := 513 },
    rfl, rfl, rfl, rfl, rfl, rfl, by unfold State.countInv; decide +kernel, by unfold State.countInv; decide +kernel,
    rfl, by decide +kernel⟩

theorem witness_MergeStepJoinsTheTwoLowest :
    (∃ (s : State) (a b : PqEntry) (rest : List PqEntry), s.ncount.val < 513 ∧ s.host = [] ∧ s.phase = .cBuild ∧
      s.place = .merge ∧ s.pq = a :: b :: rest) ∧
    (∃ (s : State) (a : PqEntry), s.host = [] ∧ s.phase = .cBuild ∧ s.place = .merge ∧ s.pq = [a]) :=
  ⟨⟨{ running 0b01 .cBuild .merge with ncount := 512, pq := [⟨1, 0, 0⟩, ⟨1, 1, 1⟩] }, ⟨1, 0, 0⟩, ⟨1, 1, 1⟩, [],
    by decide +kernel⟩,
   ⟨{ running 0b01 .cBuild .merge with ncount := 513, pq := [⟨2, 2, 512⟩] }, ⟨2, 2, 512⟩, by decide +kernel⟩⟩

theorem witness_WriteTreeEmitsThePreorderRecords :
    ∃ (s : State) (tree : Tree), s.host = [] ∧ s.phase = .cTree ∧ s.place = .top ∧
      s.stack = [{ handle := s.root }] ∧ Tree.heldAt s.node tree s.root ∧ s.output.closed = false ∧
      allOk s.output.answers = true :=
  ⟨{ withTree 0b01 .cTree with stack := [{ handle := 0 }] }, smallTree, by decide +kernel, by decide +kernel,
    by decide +kernel, by decide +kernel, smallTree_held, by decide +kernel, by decide +kernel⟩

theorem witness_DeriveCodesBindsThePaths :
    ∃ (s : State) (tree : Tree), s.host = [] ∧ s.phase = .cCodes ∧ s.place = .top ∧
      s.stack = [{ handle := s.root }] ∧ Tree.heldAt s.node tree s.root ∧ tree.leaves.Nodup :=
  ⟨{ withTree 0b01 .cCodes with stack := [{ handle := 0 }] }, smallTree, by decide +kernel, by decide +kernel,
    by decide +kernel, by decide +kernel, smallTree_held, by decide⟩

theorem witness_CodesArePrefixFreeAndComplete : smallTree.isNode = true := by decide

theorem witness_MagicStepWritesTheHeader :
    (∃ s : State, s.host = [] ∧ s.phase = .cMagic ∧ s.output.closed = false ∧ nextAnswer s.output.answers = .ok) ∧
    (∃ s : State, s.host = [] ∧ s.phase = .cMagic ∧ s.output.closed = false ∧
      nextAnswer s.output.answers = .ioError) :=
  ⟨⟨running 0b01 .cMagic, by decide +kernel⟩, ⟨answering .ioError (running 0b01 .cMagic), by decide +kernel⟩⟩

/-- The codes of `smallTree`. -/
def withCodes (p : Phase) (pl : Place := .top) (bits : List Bool := []) : State :=
  { running 0b01 p pl bits with code := ((Vector.replicate 257 []).set 65 [false]).set 256 [true] }

theorem witness_EmitAndTermWriteTheCodes :
    ∃ (s : State) (bs : List Byte) (tail : List Bool),
      s.host = [] ∧ s.phase = .cEmit ∧ s.place = .top ∧ s.output.closed = false ∧ s.reliable = true ∧
      s.input.bits.drop s.input.pos = bitsOfBytes bs ++ tail ∧ tail.length < 8 ∧
      s.input.pos ≤ s.input.bits.length ∧
      (∀ b ∈ bs, s.clen (byteSymbol b) ≠ 0) ∧ s.clen Config.eof ≠ 0 :=
  ⟨withCodes .cEmit .top (bitsOfBytes [0x41, 0x41] ++ List.replicate 7 false), [0x41, 0x41],
    List.replicate 7 false, by decide +kernel⟩

/-- A byte with no code, a byte with one, the end of the input, an I/O error; then a bit with bits after it, the last bit of a
code in either phase, and an I/O error. -/
theorem witness_EmitAndTermStepsWriteCodeBits :
    (∃ s : State, s.host = [] ∧ s.phase = .cEmit ∧ s.place = .top ∧ nextAnswer s.input.answers = .ok ∧
      bitsOf 8 (0x42#8).toNat <+: s.input.bits.drop s.input.pos ∧ s.clen (byteSymbol 0x42#8) = 0) ∧
    (∃ s : State, s.host = [] ∧ s.phase = .cEmit ∧ s.place = .top ∧ nextAnswer s.input.answers = .ok ∧
      bitsOf 8 (0x41#8).toNat <+: s.input.bits.drop s.input.pos ∧ s.clen (byteSymbol 0x41#8) ≠ 0) ∧
    (∃ s : State, s.host = [] ∧ s.phase = .cEmit ∧ s.place = .top ∧ nextAnswer s.input.answers = .ok ∧
      s.input.bits.length < s.input.pos + 8) ∧
    (∃ s : State, s.host = [] ∧ s.phase = .cEmit ∧ s.place = .top ∧ nextAnswer s.input.answers = .ioError) ∧
    (∃ s : State, s.host = [] ∧ s.phase = .cEmit ∧ s.place = .bits [true, false] ∧ s.output.closed = false ∧
      nextAnswer s.output.answers = .ok) ∧
    (∃ s : State, s.host = [] ∧ s.phase = .cEmit ∧ s.place = .bits [true] ∧ s.output.closed = false ∧
      nextAnswer s.output.answers = .ok) ∧
    (∃ s : State, s.host = [] ∧ s.phase = .cTerm ∧ s.place = .bits [true] ∧ s.output.closed = false ∧
      nextAnswer s.output.answers = .ok) ∧
    (∃ s : State, s.host = [] ∧ s.phase = .cTerm ∧ s.place = .bits [true] ∧ s.output.closed = false ∧
      nextAnswer s.output.answers = .ioError) :=
  ⟨⟨withCodes .cEmit .top (bitsOfBytes [0x42]), by decide +kernel⟩,
   ⟨withCodes .cEmit .top (bitsOfBytes [0x41]), by decide +kernel⟩,
   ⟨withCodes .cEmit .top (List.replicate 7 true), by decide +kernel⟩,
   ⟨answering .ioError (withCodes .cEmit), by decide +kernel⟩,
   ⟨withCodes .cEmit (.bits [true, false]), by decide +kernel⟩,
   ⟨withCodes .cEmit (.bits [true]), by decide +kernel⟩,
   ⟨withCodes .cTerm (.bits [true]), by decide +kernel⟩,
   ⟨answering .ioError (withCodes .cTerm (.bits [true])), by decide +kernel⟩⟩

/-! ### Witnesses: the end of an operation -/

theorem witness_FlushEndsTheOperation :
    (∃ s : State, s.host = [] ∧ s.phase = .cFlush ∧ s.output.closed = false ∧ nextAnswer s.output.answers = .ok) ∧
    (∃ s : State, s.host = [] ∧ s.phase = .dDone ∧ s.output.closed = false ∧
      nextAnswer s.output.answers = .ioError) :=
  ⟨⟨running 0b01 .cFlush, by decide +kernel⟩, ⟨answering .ioError (running 0b10 .dDone), by decide +kernel⟩⟩

theorem witness_ErrorFlushKeepsTheFirstError :
    (∃ s : State, s.host = [] ∧ s.phase = .eFlush ∧ s.output.closed = false ∧ nextAnswer s.output.answers = .ok) ∧
    (∃ s : State, s.host = [] ∧ s.phase = .eFlush ∧ s.output.closed = false ∧
      nextAnswer s.output.answers = .ioError) :=
  ⟨⟨running 0b01 .eFlush, by decide +kernel⟩, ⟨answering .ioError (running 0b01 .eFlush), by decide +kernel⟩⟩

/-- A step that raises, in the error sequence's way and in the failed flush's. -/
theorem witness_EachPhaseRaisesOnlyItsErrors :
    (running 0b10 .dMagic).errCode = .none ∧
      nextHas (coreStep (running 0b10 .dMagic)) (fun t => decide (t.errCode = .malformedStream)) = true ∧
      nextHas (coreStep (answering .ioError (running 0b10 .dDone)))
        (fun t => decide (t.errCode = .channelError ∧ t.errDetail = 4)) = true ∧
      HostMove.reset ≠ .core ∧
      nextHas (step { State.reset with host := [.reset] }) (fun t => decide (t.errCode = .none)) = true := by
  decide +kernel

/-! ### Witnesses: DECOMPRESS -/

/-- 32 bits that are `MAGIC` and 32 bits that are not, 31 bits, and an I/O error. -/
theorem witness_MagicIsCheckedBeforeTheTree :
    (∃ s : State, s.host = [] ∧ s.phase = .dMagic ∧ s.inputInv ∧ nextAnswer s.input.answers = .ok ∧
      bitsOf 32 Config.magic.toNat <+: s.input.bits.drop s.input.pos) ∧
    (∃ (s : State) (r : Word), s.host = [] ∧ s.phase = .dMagic ∧ s.inputInv ∧ nextAnswer s.input.answers = .ok ∧
      bitsOf 32 r.toNat <+: s.input.bits.drop s.input.pos ∧ r ≠ Config.magic) ∧
    (∃ s : State, s.host = [] ∧ s.phase = .dMagic ∧ s.inputInv ∧ nextAnswer s.input.answers = .ok ∧
      s.input.bits.length < s.input.pos + 32) ∧
    (∃ s : State, s.host = [] ∧ s.phase = .dMagic ∧ s.inputInv ∧ nextAnswer s.input.answers = .ioError) :=
  ⟨⟨running 0b10 .dMagic .top (bitsOf 32 Config.magic.toNat), rfl, rfl, Nat.zero_le _, rfl, List.prefix_rfl⟩,
   ⟨running 0b10 .dMagic .top (bitsOf 32 (Config.magic + 1).toNat), Config.magic + 1, rfl, rfl, Nat.zero_le _, rfl,
     List.prefix_rfl, by bv_omega⟩,
   ⟨running 0b10 .dMagic .top (List.replicate 31 true), rfl, rfl, Nat.zero_le _, rfl, by decide +kernel⟩,
   ⟨answering .ioError (running 0b10 .dMagic), rfl, rfl, Nat.zero_le _, rfl⟩⟩

theorem witness_ReadTreeInvertsWriteTree :
    ∃ (s : State) (tree : Tree) (rest : List Bool),
      s.host = [] ∧ s.phase = .dTree ∧ s.place = .top ∧ s.ncount = 0 ∧ s.stack = [] ∧
      allOk s.input.answers = true ∧ s.input.bits.drop s.input.pos = tree.bits ++ rest ∧
      s.input.pos ≤ s.input.bits.length ∧ tree.isNode = true ∧ tree.size ≤ 513 :=
  ⟨running 0b10 .dTree .top (smallTree.bits ++ [false, true, true]), smallTree, [false, true, true],
    by decide +kernel⟩

/-- A field cut after 20 of its 21 bits, a tree that is the sentinel's leaf, a tag with the arena full; then the end of the
input and an I/O error, at a tag and at a symbol of which 8 bits are there. -/
theorem witness_MalformedTreeFieldsRaise :
    (∃ (s : State) (tree : Tree) (part : List Bool),
      s.host = [] ∧ s.phase = .dTree ∧ s.place = .top ∧ s.ncount = 0 ∧ s.stack = [] ∧
      allOk s.input.answers = true ∧ s.input.pos ≤ s.input.bits.length ∧ s.input.bits.drop s.input.pos = part ∧
      part <+: tree.bits ∧ part ≠ tree.bits ∧ tree.size ≤ 513) ∧
    (∃ (s : State) (x : Symbol) (rest : List Bool),
      s.host = [] ∧ s.phase = .dTree ∧ s.place = .top ∧ s.ncount = 0 ∧ s.stack = [] ∧
      allOk s.input.answers = true ∧ s.input.bits.drop s.input.pos = true :: bitsOf 9 x.val ++ rest) ∧
    (∃ s : State, s.host = [] ∧ s.phase = .dTree ∧ s.place = .top ∧ s.ncount.val = 513 ∧
      nextAnswer s.input.answers = .ok ∧ s.input.pos < s.input.bits.length) ∧
    (∃ s : State, s.host = [] ∧ s.phase = .dTree ∧ s.place = .top ∧ nextAnswer s.input.answers = .ok ∧
      s.input.bits.length < s.input.pos + 1) ∧
    (∃ s : State, s.host = [] ∧ s.phase = .dTree ∧ s.place = .top ∧ nextAnswer s.input.answers = .ioError) ∧
    (∃ s : State, s.host = [] ∧ s.phase = .dTree ∧ s.place = .symbol ∧ nextAnswer s.input.answers = .ok ∧
      s.input.bits.length < s.input.pos + 9) ∧
    (∃ s : State, s.host = [] ∧ s.phase = .dTree ∧ s.place = .symbol ∧ nextAnswer s.input.answers = .ioError) :=
  ⟨⟨running 0b10 .dTree .top (smallTree.bits.take 20), smallTree, smallTree.bits.take 20, by decide +kernel⟩,
   ⟨running 0b10 .dTree .top (true :: bitsOf 9 256), 256, [], by decide +kernel⟩,
   ⟨{ running 0b10 .dTree .top [false] with ncount := 513 }, by decide +kernel⟩,
   ⟨running 0b10 .dTree, by decide +kernel⟩,
   ⟨answering .ioError (running 0b10 .dTree .top [false]), by decide +kernel⟩,
   ⟨running 0b10 .dTree .symbol (List.replicate 8 false), by decide +kernel⟩,
   ⟨answering .ioError (running 0b10 .dTree .symbol (List.replicate 9 false)), by decide +kernel⟩⟩

/-- The bit 0 to a byte's leaf, the bit 1 to the sentinel's, a move to an Internal node (a root that is its own left child),
the end of the input, and an I/O error. -/
theorem witness_WalkStepMovesTheCursor :
    (∃ s : State, s.host = [] ∧ s.phase = .dWalk ∧ s.place = .top ∧ nextAnswer s.input.answers = .ok ∧
      [false] <+: s.input.bits.drop s.input.pos ∧ (s.nodeAt (s.nodeAt s.cur).left).kind = .leaf ∧
      (s.nodeAt (s.nodeAt s.cur).left).sym ≠ 256) ∧
    (∃ s : State, s.host = [] ∧ s.phase = .dWalk ∧ s.place = .top ∧ nextAnswer s.input.answers = .ok ∧
      [true] <+: s.input.bits.drop s.input.pos ∧ (s.nodeAt (s.nodeAt s.cur).right).kind = .leaf ∧
      (s.nodeAt (s.nodeAt s.cur).right).sym = 256) ∧
    (∃ s : State, s.host = [] ∧ s.phase = .dWalk ∧ s.place = .top ∧ nextAnswer s.input.answers = .ok ∧
      [false] <+: s.input.bits.drop s.input.pos ∧ (s.nodeAt (s.nodeAt s.cur).left).kind = .internal) ∧
    (∃ s : State, s.host = [] ∧ s.phase = .dWalk ∧ s.place = .top ∧ nextAnswer s.input.answers = .ok ∧
      s.input.pos = s.input.bits.length) ∧
    (∃ s : State, s.host = [] ∧ s.phase = .dWalk ∧ s.place = .top ∧ nextAnswer s.input.answers = .ioError) :=
  ⟨⟨withTree 0b10 .dWalk .top [false], by decide +kernel⟩,
   ⟨withTree 0b10 .dWalk .top [true], by decide +kernel⟩,
   ⟨running 0b10 .dWalk .top [false], by decide +kernel⟩,
   ⟨withTree 0b10 .dWalk, by decide +kernel⟩,
   ⟨answering .ioError (withTree 0b10 .dWalk), by decide +kernel⟩⟩

theorem witness_WalkWritesTheDecodedByte :
    (∃ s : State, s.host = [] ∧ s.phase = .dWalk ∧ s.place = .byte ∧ s.output.closed = false ∧
      nextAnswer s.output.answers = .ok) ∧
    (∃ s : State, s.host = [] ∧ s.phase = .dWalk ∧ s.place = .byte ∧ s.output.closed = false ∧
      nextAnswer s.output.answers = .ioError) :=
  ⟨⟨walking, by decide +kernel⟩, ⟨answering .ioError walking, by decide +kernel⟩⟩

theorem witness_WalkDecodesConcatenatedCodes :
    ∃ (s : State) (tree : Tree) (codes : List (Symbol × List Bool)) (last rest : List Bool),
      Tree.heldAt s.node tree s.root ∧
      (s.host = [] ∧ s.phase = .dWalk ∧ s.place = .top ∧ s.cur = s.root ∧
        tree.isNode = true ∧ s.reliable = true ∧ s.output.closed = false ∧ s.input.pos ≤ s.input.bits.length ∧
        (∀ c ∈ codes, c ∈ tree.codes ∧ c.1 ≠ Config.eof) ∧ (Config.eof, last) ∈ tree.codes ∧
        s.input.bits.drop s.input.pos = codes.flatMap (fun c => c.2) ++ last ++ rest) :=
  ⟨withTree 0b10 .dWalk .top [false, false, true, false], smallTree, [(65, [false]), (65, [false])], [true], [false],
    smallTree_held, by decide +kernel⟩

theorem witness_TreeWithoutSentinelEndsInMalformedStream :
    ∃ (s : State) (tree : Tree), Tree.heldAt s.node tree s.root ∧
      (s.host = [] ∧ s.phase = .dWalk ∧ s.place = .top ∧ s.cur = s.root ∧ tree.isNode = true ∧
        Config.eof ∉ tree.leaves ∧ s.reliable = true ∧ s.output.closed = false ∧
        s.input.pos ≤ s.input.bits.length) :=
  ⟨{ withTree 0b10 .dWalk .top [false, true] with
      node := smallArena.set 2 { Node.reset with kind := .leaf, sym := 66 } },
    .node (.leaf 65) (.leaf 66), by refine ⟨?_, ⟨?_, ?_⟩, ?_, ?_⟩ <;> decide +kernel, by decide +kernel⟩

/-! ### Witnesses: whole operations -/

/-- The idle state with `bits` presented on its input. -/
def presenting (bits : List Bool) (replay : Option (List Bool) := none) : State :=
  { State.reset with
    input := { bits := bits, pos := 0, rewindable := true, replay := replay, answers := [] } }

/-- Two identical passes, passes that differ, and the empty input. -/
theorem witness_CompressWritesTheArtifact :
    (∃ (s : State) (first second : List Byte),
      s.busy = false ∧ s.reliable = true ∧ s.launchable = true ∧ s.input.rewindable = true ∧
      s.input.bits = bitsOfBytes first ∧ s.input.replay.getD s.input.bits = bitsOfBytes second ∧
      (∀ b ∈ second, b ∈ first) ∧ first.length ≤ Config.lenMax.toNat ∧ first ≠ second) ∧
    (∃ (s : State) (first second : List Byte),
      s.busy = false ∧ s.reliable = true ∧ s.launchable = true ∧ s.input.rewindable = true ∧
      s.input.bits = bitsOfBytes first ∧ s.input.replay.getD s.input.bits = bitsOfBytes second ∧
      (∀ b ∈ second, b ∈ first) ∧ first.length ≤ Config.lenMax.toNat ∧ first = []) :=
  ⟨⟨presenting (bitsOfBytes [0x41, 0x42]) (some (bitsOfBytes [0x42])), [0x41, 0x42], [0x42], by decide +kernel⟩,
   ⟨presenting [], [], [], by decide +kernel⟩⟩

/-- A state at the start of C_BUILD with the counts of a first pass, as `Tree.builtFrom` asks for. -/
theorem witness_builtFrom :
    ∃ s : State, s.host = [] ∧ s.phase = .cBuild ∧ s.place = .top ∧ s.countInv ∧
      ∀ b : Byte, (s.freqAt b).toNat = ([0x41#8] : List Byte).count b :=
  ⟨{ countedOne with phase := .cBuild }, rfl, rfl, rfl, by unfold State.countInv; decide +kernel, by decide +kernel⟩

/-- The premises of the first operation, and those of the second with any output in the artifact's place. -/
theorem witness_DecompressOfCompressIsTheInput :
    (∃ (s : State) (bs : List Byte),
      s.busy = false ∧ s.reliable = true ∧ s.launchable = true ∧ s.input.rewindable = true ∧
      s.input.bits = bitsOfBytes bs ∧ s.input.replay = none ∧ bs.length ≤ Config.lenMax.toNat ∧ bs ≠ []) ∧
    (∀ artifact : List Bool, ∃ u : State,
      u.busy = false ∧ u.reliable = true ∧ u.launchable = true ∧ u.input.bits = artifact) :=
  ⟨⟨presenting (bitsOfBytes [0x41]), [0x41], by decide +kernel⟩,
   fun artifact => ⟨presenting artifact, rfl, rfl, rfl, rfl⟩⟩

/-- A prefix that ends in the magic, one that ends in the tree, and one that ends after it. -/
theorem witness_TruncatedArtifactIsMalformed :
    (∃ (s : State) (tree : Tree) (bs : List Byte) (part : List Bool),
      s.busy = false ∧ s.reliable = true ∧ s.launchable = true ∧ s.input.bits = part ∧ tree.isNode = true ∧
      tree.leaves.Nodup ∧ tree.size ≤ 513 ∧ (∀ b ∈ bs, byteSymbol b ∈ tree.leaves) ∧ Config.eof ∈ tree.leaves ∧
      part <+: artifactBits tree bs ∧ part ≠ artifactBits tree bs ∧ part.length < 32) ∧
    (∃ (s : State) (tree : Tree) (bs : List Byte) (part : List Bool),
      s.busy = false ∧ s.reliable = true ∧ s.launchable = true ∧ s.input.bits = part ∧ tree.isNode = true ∧
      tree.leaves.Nodup ∧ tree.size ≤ 513 ∧ (∀ b ∈ bs, byteSymbol b ∈ tree.leaves) ∧ Config.eof ∈ tree.leaves ∧
      part <+: artifactBits tree bs ∧ part ≠ artifactBits tree bs ∧ part.length = 32) ∧
    (∃ (s : State) (tree : Tree) (bs : List Byte) (part : List Bool),
      s.busy = false ∧ s.reliable = true ∧ s.launchable = true ∧ s.input.bits = part ∧ tree.isNode = true ∧
      tree.leaves.Nodup ∧ tree.size ≤ 513 ∧ (∀ b ∈ bs, byteSymbol b ∈ tree.leaves) ∧ Config.eof ∈ tree.leaves ∧
      part <+: artifactBits tree bs ∧ part ≠ artifactBits tree bs ∧ part.length = 32 + tree.bits.length) := by
  have build : ∀ n : Nat, n < (artifactBits smallTree [0x41]).length →
      (presenting ((artifactBits smallTree [0x41]).take n)).input.bits = (artifactBits smallTree [0x41]).take n ∧
      (artifactBits smallTree [0x41]).take n <+: artifactBits smallTree [0x41] ∧
      (artifactBits smallTree [0x41]).take n ≠ artifactBits smallTree [0x41] ∧
      ((artifactBits smallTree [0x41]).take n).length = n := by
    intro n hn
    have hl : ((artifactBits smallTree [0x41]).take n).length = n := by rw [List.length_take]; exact Nat.min_eq_left (Nat.le_of_lt hn)
    exact ⟨rfl, List.take_prefix n _, fun h => by rw [h] at hl; omega, hl⟩
  have len : (artifactBits smallTree [0x41]).length = 55 := rfl
  refine ⟨⟨_, smallTree, [0x41], _, rfl, rfl, rfl, (build 31 (by omega)).1, ?_⟩,
    ⟨_, smallTree, [0x41], _, rfl, rfl, rfl, (build 32 (by omega)).1, ?_⟩,
    ⟨_, smallTree, [0x41], _, rfl, rfl, rfl, (build 53 (by omega)).1, ?_⟩⟩
  · obtain ⟨_, h1, h2, h3⟩ := build 31 (by omega)
    exact ⟨by decide, by decide, by decide, by decide, by decide, h1, h2, by omega⟩
  · obtain ⟨_, h1, h2, h3⟩ := build 32 (by omega)
    exact ⟨by decide, by decide, by decide, by decide, by decide, h1, h2, h3⟩
  · obtain ⟨_, h1, h2, h3⟩ := build 53 (by omega)
    exact ⟨by decide, by decide, by decide, by decide, by decide, h1, h2, h3⟩

/-! ### Witnesses: the whole machine -/

/-- The invariant at a running state, whose step counts one byte more. -/
theorem witness_StepKeepsTheInvariant : ∃ s : State, s.inv ∧ s.busy = true ∧
    nextHas (step s) (fun t => decide (t.place = .rewind)) = true :=
  ⟨countedOne, countedOne_inv, by decide +kernel, by decide +kernel⟩

theorem witness_CoreStepAlwaysAnswers :
    ∃ s : State, s.inv ∧ s.busy = true ∧ s.output.closed = false :=
  ⟨countedOne, countedOne_inv, by decide +kernel, by decide +kernel⟩

theorem witness_PhasesFollowInTheSpecsOrder :
    nextHas (coreStep (running 0b01 .cMagic)) (fun t => decide (t.phase = .cTree)) = true := by decide +kernel

/-- `BUSY` rises with a command, and falls with the flush. -/
theorem witness_OnlyCommandsAndEndsChangeBusy :
    (∃ s : State, s.inv ∧ s.busy = false ∧ nextHas (step s) (fun t => t.busy) = true) ∧
    (∃ s : State, s.inv ∧ s.busy = true ∧ nextHas (step s) (fun t => !t.busy) = true) :=
  ⟨⟨State.reset.launch 1, launch_inv, by decide +kernel, by decide +kernel⟩,
   ⟨running 0b10 .dDone, done_inv, by decide +kernel, rfl⟩⟩

/-- A step that closes the output, and one that does not. -/
theorem witness_OperationEndsWithItsFlush :
    (∃ s : State, s.inv ∧ s.busy = true ∧ s.output.closed = false ∧
      nextHas (coreStep s) (fun t => t.output.closed) = true) ∧
    (∃ s : State, s.inv ∧ s.busy = true ∧ s.output.closed = false ∧
      nextHas (coreStep s) (fun t => !t.output.closed) = true) :=
  ⟨⟨running 0b10 .dDone, done_inv, by decide +kernel, by decide +kernel, rfl⟩,
   ⟨countedOne, countedOne_inv, by decide +kernel, by decide +kernel, by decide +kernel⟩⟩

/-- Core steps in phases of every clause, and the steps that enter C_TREE and C_CODES. -/
theorem witness_TablesAreWrittenOnlyInTheirPhases :
    nextHas (coreStep countedOne) (fun t => decide (countedOne.phase = .cCount ∧ t.phase = .cCount)) = true ∧
    nextHas (coreStep (running 0b01 .cMagic)) (fun t => decide (t.phase = .cTree)) = true ∧
    nextHas (coreStep (running 0b01 .cTree)) (fun t => decide (t.phase = .cCodes)) = true := by decide +kernel

/-- The step of D_MAGIC that enters D_TREE, whatever `MAGIC` is. -/
theorem witness_TablesAreWrittenOnEnteringDTree :
    ∃ s t : State, coreStep s = .next t ∧ s.phase = .dMagic ∧ t.phase = .dTree := by
  let s := running 0b10 .dMagic .top (bitsOf 32 Config.magic.toNat)
  have hr : s.inRead 32 = .value Config.magic.toNat (s.afterRead 32) := by
    have e : natOf (bitsOf 32 Config.magic.toNat) = Config.magic.toNat := natOf_bitsOf_of_lt Config.magic.isLt
    rw [← e]; rfl
  refine ⟨s, (s.afterRead 32).startTreeRead, ?_, rfl, rfl⟩
  rw [coreStep_dMagic rfl, readMagicStep, hr]
  simp

/-- The host's moves: none and a core move, a channel presented while IDLE and while `BUSY`, a POLL that is done at its first
read, one that is not (`BUSY` at bit 0 of `STATUS`), and one at an offset that is refused. -/
theorem witness_HostMovesBetweenCoreSteps :
    State.reset.host = [] ∧ State.reset.phase = .idle ∧ State.reset.busy = false ∧ (running 0b01 .cCount).busy = true ∧
    (State.reset.statusWord.extractLsb' 0 1).toNat = 0 ∧
    ((running 0b01 .cCount).statusWord.extractLsb' 0 1).toNat ≠ 0 ∧
    nextHas (step { running 0b01 .cCount with host := [.read 0x04 4] })
      (fun t => decide (t.hostData = (running 0b01 .cCount).statusWord)) = true ∧
    accessAllowed 0x20 4 = false := by decide +kernel

/-- R84: a POLL of `BUSY` = 0 while an operation runs leaves a core move and the POLL to come. -/
theorem test_poll_waits :
    nextHas (step { running 0b01 .cCount with host := [.poll 0x04 0 0 0] })
      (fun t => decide (t.host = [.core, .poll 0x04 0 0 0] ∧ t.phase = .cCount)) = true := by decide +kernel

/-- Two idle states whose tables differ. -/
theorem witness_NothingCarriesOverBetweenOperations :
    ∃ s t : State, s.idle = true ∧ SameOutside s t ∧ s ≠ t :=
  ⟨State.reset, { State.reset with node := smallArena, ncount := 3, len := 7, cur := 1 }, rfl, rfl,
    fun h => absurd (congrArg State.ncount h) (by decide)⟩

end Sys2Proof.Tests
end

section
/-! PROOFS. The fetch of a tree record, read from the input channel in D_TREE or taken from the arena in C_TREE. -/

namespace Sys2Proof.Machine

/-! ### The decoder of records (R77) -/

/-- Only the tag `0` decodes to TREE_INTERNAL. -/
theorem bits_of_decodeRecord_treeInternal {bits rest : List Bool}
    (h : decodeRecord bits = .ok (.treeInternal, rest)) : bits = false :: rest := by
  match bits, h with
  | false :: _, h => cases h; rfl
  | true :: bs, h => by_cases hl : 9 ≤ bs.length <;> simp [decodeRecord, hl] at h

/-- Only the tag `1` and a 9-bit field decode to TREE_LEAF, with the field's value as its symbol. -/
theorem bits_of_decodeRecord_treeLeaf {bits rest : List Bool} {sym : Nat}
    (h : decodeRecord bits = .ok (.treeLeaf sym, rest)) :
    ∃ field : List Bool, field.length = 9 ∧ natOf field = sym ∧ bits = true :: (field ++ rest) := by
  match bits, h with
  | false :: _, h => cases h
  | true :: bs, h =>
    by_cases hl : 9 ≤ bs.length
    · simp only [decodeRecord, if_pos hl] at h
      cases h
      exact ⟨bs.take 9, by simpa using hl, rfl, by rw [List.take_append_drop]⟩
    · simp [decodeRecord, hl] at h

/-! ### The step of D_TREE (R115) -/

theorem moveTo_self {s : State} {p : Place} (h : s.place = p) : s.moveTo p = s := by subst h; rfl

/-- The bit read where the next one is known. -/
theorem inReadBit_of_drop {s : State} {b : Bool} {rest : List Bool} (h : nextAnswer s.input.answers = .ok)
    (hd : s.input.bits.drop s.input.pos = b :: rest) : s.inReadBit = .value b.toNat (s.afterRead 1) := by
  have hv : natOf [b] = b.toNat := by cases b <;> rfl
  rw [← hv]
  exact inRead_of_drop (bits := [b]) h hd (List.cons_ne_nil _ _)

/-- At a record's start, with room in the arena, the tag `0` runs TREE_INTERNAL. -/
theorem readTreeStep_tag_false {s : State} (hp : s.place = .top) (hn : s.ncount.val < 513)
    (h : s.inReadBit = .value 0 (s.afterRead 1)) : readTreeStep s = exec .treeInternal (s.afterRead 1) := by
  have hfull : ¬ (s.afterRead 1).ncount.val = 513 := Nat.ne_of_lt hn
  have htop : (s.afterRead 1).moveTo .top = s.afterRead 1 := moveTo_self hp
  simp [readTreeStep, hp, h, hfull, htop]

/-- At a record's start, with room in the arena, the tag `1` makes the symbol due. -/
theorem readTreeStep_tag_true {s : State} (hp : s.place = .top) (hn : s.ncount.val < 513)
    (h : s.inReadBit = .value 1 (s.afterRead 1)) : readTreeStep s = .next ((s.afterRead 1).moveTo .symbol) := by
  have hfull : ¬ (s.afterRead 1).ncount.val = 513 := Nat.ne_of_lt hn
  simp [readTreeStep, hp, h, hfull]

/-- The symbol field runs TREE_LEAF. -/
theorem readTreeStep_symbol {s t : State} {v : Nat} (hp : s.place = .symbol) (h : s.inRead 9 = .value v t) :
    readTreeStep s = exec (.treeLeaf v) t := by
  simp [readTreeStep, hp, h]

/-! ### The step of C_TREE (R110) -/

/-- The record of a node is encodable: its symbol is at most 256. -/
theorem recordOf_wellFormed (s : State) (h : Handle) : (s.recordOf h).wellFormed = true := by
  unfold State.recordOf
  split
  · exact decide_eq_true (Nat.lt_trans (s.nodeAt h).sym.isLt (by decide))
  · rfl

theorem writeTreeStep_cons {s : State} {f : Frame} {rest : List Frame} (h : s.stack = f :: rest) :
    writeTreeStep s = exec (s.recordOf f.handle) s := by
  simp [writeTreeStep, h]

/-- Settles O8: the decoded bits are the tag and, for a leaf, the field, so the reads of D_TREE return them. -/
theorem stepRunsTheTreeRecord : Obligations.StepRunsTheTreeRecord := by
  refine ⟨?_, ?_, ?_⟩
  · intro s rest hh hp hpl hn ha hd
    have hbits := bits_of_decodeRecord_treeInternal hd
    rw [step_of_host_nil hh, coreStep_dTree hp]
    exact readTreeStep_tag_false hpl hn (inReadBit_of_drop (nextAnswer_of_allOk ha) hbits)
  · intro s sym rest hh hp hpl hn ha hd
    obtain ⟨field, hlen, rfl, hbits⟩ := bits_of_decodeRecord_treeLeaf hd
    have htag := inReadBit_of_drop (nextAnswer_of_allOk ha) hbits
    have hfield : s.input.bits.drop (s.input.pos + 1) = field ++ rest := by
      rw [← List.drop_drop, hbits]; rfl
    let t : State := { s.afterRead 1 with place := .symbol }
    have hread : t.inRead field.length = .value (natOf field) (t.afterRead field.length) :=
      inRead_of_drop (nextAnswer_of_allOk (allOk_tail ha)) hfield (by rintro rfl; simp at hlen)
    rw [hlen] at hread
    constructor
    · rw [step_of_host_nil hh, coreStep_dTree hp]
      exact readTreeStep_tag_true hpl hn htag
    · rw [step_of_host_nil (s := t) hh, coreStep_dTree (s := t) hp]
      exact readTreeStep_symbol rfl hread
  · intro s f rest hh hp hst
    refine ⟨recordOf_wellFormed s f.handle, ?_⟩
    rw [step_of_host_nil hh, coreStep_cTree hp, writeTreeStep_cons hst]

end Sys2Proof.Machine
end

section
/-! PROOFS. The transactions of a core step: which channel each phase touches, and how. -/

namespace Sys2Proof.Machine

/-! ### What BUILD's leaves may change (R101) -/

/-- `t` differs from `s` in the arena, `NCOUNT`, `PQ` and `SEQ` at most. -/
def BuildFrame (s t : State) : Prop :=
  t = { s with node := t.node, ncount := t.ncount, pq := t.pq, seq := t.seq }

theorem BuildFrame.trans {s t u : State} (h : BuildFrame s t) (h' : BuildFrame t u) : BuildFrame s u := by
  unfold BuildFrame at *
  rw [h', h]

theorem BuildFrame.channels {s t : State} (h : BuildFrame s t) : t.input = s.input ∧ t.output = s.output := by
  unfold BuildFrame at h
  constructor <;> rw [h]

/-- A leaf inserted with room in the arena. -/
theorem insertLeaf_of_lt (s : State) (x : Symbol) (w : Word) (hn : s.ncount.val < 513) :
    s.insertLeaf x w = some { s with
      node := s.node.set s.ncount.val { s.node[s.ncount.val] with kind := .leaf, sym := x, weight := w }
      ncount := ⟨s.ncount.val + 1, by omega⟩
      pq := pqInsert { weight := w, seq := s.seq, handle := ⟨s.ncount.val, hn⟩ } s.pq
      seq := s.seq + 1 } := by
  simp [State.insertLeaf, alloc_of_lt s _ hn, State.insert, State.nodeAt, Node.asLeaf]

theorem insertLeaf_full (s : State) (x : Symbol) (w : Word) (hn : ¬ s.ncount.val < 513) :
    s.insertLeaf x w = none := by
  simp [State.insertLeaf, State.alloc, hn]

theorem insertLeaf_frame {s t : State} {x : Symbol} {w : Word} (h : s.insertLeaf x w = some t) :
    BuildFrame s t := by
  by_cases hn : s.ncount.val < 513
  · rw [insertLeaf_of_lt s x w hn] at h; cases h; rfl
  · rw [insertLeaf_full s x w hn] at h; cases h

theorem insertLeaves_frame {bs : List Byte} {s t : State} (h : insertLeaves bs s = some t) : BuildFrame s t := by
  induction bs generalizing s with
  | nil => cases h; rfl
  | cons b bs ih =>
    unfold insertLeaves at h
    split at h
    · exact ih h
    · split at h
      · cases h
      · rename_i hu; exact (insertLeaf_frame hu).trans (ih h)

theorem insertPadding_frame {s t : State} (h : s.insertPadding = some t) : BuildFrame s t := by
  unfold State.insertPadding at h
  split at h
  · exact insertLeaf_frame h
  · cases h; rfl

theorem buildLeaves_frame {s t : State} (h : s.buildLeaves = some t) : BuildFrame s t := by
  unfold State.buildLeaves at h
  split at h
  · cases h
  · rename_i u hu
    split at h
    · cases h
    · rename_i v hv
      have hstart : BuildFrame s s.buildStart := rfl
      exact ((hstart.trans (insertLeaves_frame hu)).trans (insertPadding_frame hv)).trans (insertLeaf_frame h)

/-! ### The records of D_TREE -/

/-- A returned node touches no channel. -/
theorem returnNode_channels (h : Handle) (stack : List Frame) (s : State) :
    (s.returnNode h stack).input = s.input ∧ (s.returnNode h stack).output = s.output := by
  rcases returnNode_cases h stack s with ⟨_, _, _, _, e⟩ | ⟨_, _, _, e⟩ | ⟨_, _, _, e⟩ <;> rw [e] <;> exact ⟨rfl, rfl⟩

/-- TREE_LEAF read touches no channel: its bits have been read. -/
theorem readLeaf_channels {s t : State} {sym : Nat} (h : readLeaf sym s = .next t) :
    t.input = s.input ∧ t.output = s.output := by
  rcases (readLeaf_next h).2 with ⟨_, rfl⟩ | ⟨_, _, rfl⟩ | ⟨_, _, rfl⟩
  · exact ⟨rfl, rfl⟩
  · exact ⟨rfl, rfl⟩
  · exact returnNode_channels _ _ _

/-- TREE_INTERNAL read touches no channel: its tag has been read. -/
theorem readInternal_channels {s t : State} (h : readInternal s = .next t) :
    t.input = s.input ∧ t.output = s.output := by
  rcases (readInternal_next h).2 with ⟨_, rfl⟩ | ⟨_, rfl⟩ <;> exact ⟨rfl, rfl⟩

/-- The cursor's move touches no channel. -/
theorem walkTo_channels (s : State) (c : Handle) :
    (s.walkTo c).input = s.input ∧ (s.walkTo c).output = s.output := by
  rcases walkTo_cases s c with ⟨_, e⟩ | ⟨_, _, e⟩ | ⟨_, _, e⟩ <;> rw [e] <;> exact ⟨rfl, rfl⟩

/-! ### The transaction of a step (R8) -/

/-- The one transaction a step issues, if it issues one: what it leaves of the channel pair. -/
inductive Transaction (s t : State) : Prop where
  /-- None is issued, or it is not answered. -/
  | none (input : t.input = s.input) (output : t.output = s.output)
  /-- One on the input channel, which uses one of its answers. -/
  | input (answers : t.input.answers = s.input.answers.tail) (output : t.output = s.output)
  /-- One on the output channel, which uses one of its answers and takes no bit back. -/
  | output (input : t.input = s.input) (answers : t.output.answers = s.output.answers.tail)
    (bits : s.output.bits <+: t.output.bits)

theorem Transaction.refl (s : State) : Transaction s s := .none rfl rfl

/-- A transaction that appends `bits`. -/
theorem Transaction.append {s t : State} (bits : List Bool) (hi : t.input = s.input)
    (ha : t.output.answers = s.output.answers.tail) (hb : t.output.bits = s.output.bits ++ bits) :
    Transaction s t :=
  .output hi ha ⟨bits, hb.symm⟩

/-- A transaction on the output that appends nothing. -/
theorem Transaction.outError {s t : State} (hi : t.input = s.input)
    (ha : t.output.answers = s.output.answers.tail) (hb : t.output.bits = s.output.bits) : Transaction s t :=
  .append [] hi ha (by rw [hb, List.append_nil])

theorem countStep_transaction {s t : State} (h : countStep s = .next t) : Transaction s t := by
  rcases countStep_next h with rfl | ⟨_, rfl | ⟨_, rfl⟩⟩ | ⟨_, rfl | rfl | ⟨b, _, ⟨_, rfl⟩ | ⟨_, rfl⟩⟩⟩
  · exact .refl _
  all_goals exact .input rfl rfl

theorem buildStep_transaction {s t : State} (h : buildStep s = .next t) : Transaction s t := by
  rcases buildStep_next h with ⟨_, u, hu, rfl⟩ | ⟨_, a, _, rfl⟩ | ⟨_, a, b, rest, _, _, rfl⟩
  · obtain ⟨hi, ho⟩ := (buildLeaves_frame hu).channels
    exact .none hi ho
  all_goals exact .none rfl rfl

theorem magicStep_transaction {s t : State} (h : magicStep s = .next t) : Transaction s t := by
  rcases magicStep_next h with rfl | rfl | rfl
  · exact .refl _
  · exact .outError rfl rfl rfl
  · exact .append _ rfl rfl rfl

theorem writeTreeStep_transaction {s t : State} (hp : s.phase = .cTree) (h : writeTreeStep s = .next t) :
    Transaction s t := by
  rcases writeTreeStep_next hp h with
    ⟨_, rfl⟩ | ⟨f, rest, _, rfl | rfl | ⟨_, _, rfl⟩ | ⟨_, _, rfl⟩ | ⟨_, _, rfl⟩⟩
  · exact .none rfl rfl
  · exact .refl _
  · exact .outError rfl rfl rfl
  all_goals exact .append _ rfl rfl rfl

theorem codesStep_transaction {s t : State} (h : codesStep s = .next t) : Transaction s t := by
  rcases codesStep_next h with ⟨_, rfl⟩ | ⟨f, rest, _, ⟨_, rfl⟩ | ⟨_, rfl⟩⟩ <;> exact .none rfl rfl

theorem emitStep_transaction {s t : State} (h : emitStep s = .next t) : Transaction s t := by
  rcases emitStep_next h with
    rfl | ⟨b, rest, _, rfl | ⟨_, rfl⟩ | ⟨_, rfl⟩⟩ | ⟨_, rfl | rfl | ⟨b, _, ⟨_, rfl⟩ | ⟨_, rfl⟩⟩⟩
  · exact .refl _
  · exact .outError rfl rfl rfl
  · exact .append _ rfl rfl rfl
  · exact .append _ rfl rfl rfl
  all_goals exact .input rfl rfl

theorem termStep_transaction {s t : State} (h : termStep s = .next t) : Transaction s t := by
  rcases termStep_next h with rfl | ⟨b, rest, _, rfl | ⟨_, rfl⟩ | ⟨_, rfl⟩⟩ | ⟨_, rfl⟩
  · exact .refl _
  · exact .outError rfl rfl rfl
  · exact .append _ rfl rfl rfl
  · exact .append _ rfl rfl rfl
  · exact .none rfl rfl

theorem flushStep_transaction {s t : State} (h : flushStep s = .next t) : Transaction s t := by
  rcases (flushStep_next h).2 with rfl | rfl | rfl
  · exact .refl _
  · exact .outError rfl rfl rfl
  · exact .append _ rfl rfl rfl

theorem errorFlushStep_transaction {s t : State} (h : errorFlushStep s = .next t) : Transaction s t := by
  rcases (errorFlushStep_next h).2 with rfl | rfl | rfl
  · exact .refl _
  · exact .outError rfl rfl rfl
  · exact .append _ rfl rfl rfl

theorem readMagicStep_transaction {s t : State} (h : readMagicStep s = .next t) : Transaction s t := by
  rcases readMagicStep_next h with rfl | rfl | rfl | ⟨_, rfl | rfl⟩
  · exact .refl _
  all_goals exact .input rfl rfl

theorem readTreeStep_transaction {s t : State} (hp : s.phase = .dTree) (h : readTreeStep s = .next t) :
    Transaction s t := by
  rcases readTreeStep_next hp h with
    rfl | rfl | rfl | ⟨_, _, v, hr⟩ | ⟨_, _, ⟨_, rfl⟩ | ⟨_, rfl | hr⟩⟩
  · exact .refl _
  · exact .input rfl rfl
  · exact .input rfl rfl
  · obtain ⟨hi, ho⟩ := readLeaf_channels hr
    exact .input (congrArg InChannel.answers hi) ho
  · exact .input rfl rfl
  · exact .input rfl rfl
  · obtain ⟨hi, ho⟩ := readInternal_channels hr
    exact .input (congrArg InChannel.answers hi) ho

theorem walkStep_transaction {s t : State} (h : walkStep s = .next t) : Transaction s t := by
  rcases walkStep_next h with rfl | ⟨_, rfl | rfl⟩ | ⟨_, rfl | rfl | ⟨_, b, rfl⟩⟩
  · exact .refl _
  · exact .outError rfl rfl rfl
  · exact .append _ rfl rfl rfl
  · exact .input rfl rfl
  · exact .input rfl rfl
  · obtain ⟨hi, ho⟩ := walkTo_channels (s.afterRead 1) (s.child s.cur b)
    exact .input (congrArg InChannel.answers hi) ho

/-- R8: a core step issues at most one transaction. -/
theorem coreStep_transaction {s t : State} (h : coreStep s = .next t) : Transaction s t := by
  cases hp : s.phase with
  | idle => rw [coreStep_idle hp] at h; cases h; exact .refl _
  | cCount => exact countStep_transaction (coreStep_cCount hp ▸ h)
  | cBuild => exact buildStep_transaction (coreStep_cBuild hp ▸ h)
  | cMagic => exact magicStep_transaction (coreStep_cMagic hp ▸ h)
  | cTree => exact writeTreeStep_transaction hp (coreStep_cTree hp ▸ h)
  | cCodes => exact codesStep_transaction (coreStep_cCodes hp ▸ h)
  | cEmit => exact emitStep_transaction (coreStep_cEmit hp ▸ h)
  | cTerm => exact termStep_transaction (coreStep_cTerm hp ▸ h)
  | cFlush => exact flushStep_transaction (coreStep_cFlush hp ▸ h)
  | dMagic => exact readMagicStep_transaction (coreStep_dMagic hp ▸ h)
  | dTree => exact readTreeStep_transaction hp (coreStep_dTree hp ▸ h)
  | dWalk => exact walkStep_transaction (coreStep_dWalk hp ▸ h)
  | dDone => exact flushStep_transaction (coreStep_dDone hp ▸ h)
  | eFlush => exact errorFlushStep_transaction (coreStep_eFlush hp ▸ h)

/-- Settles O19: each kind of transaction leaves one channel whole and uses one answer of the other at most. -/
theorem coreStepIssuesAtMostOneTransaction : Obligations.CoreStepIssuesAtMostOneTransaction := by
  intro s t h
  cases coreStep_transaction h with
  | none hi ho => exact ⟨.inl hi, .inl hi, .inl ho, [], by rw [ho, List.append_nil]⟩
  | input ha ho => exact ⟨.inr ho, .inr ha, .inl ho, [], by rw [ho, List.append_nil]⟩
  | output hi ha hb => exact ⟨.inl hi, .inl hi, .inr ha, hb⟩

end Sys2Proof.Machine
end

section
/-! PROOFS. The core's step does not see the host's moves: every operation it is made of commutes with replacing them. -/

namespace Sys2Proof.Machine

/-- The state with `moves` as the host's moves still to come. -/
def State.setHost (moves : List HostMove) (s : State) : State := { s with host := moves }

/-- The same for a read's outcome. -/
def ReadResult.setHost (moves : List HostMove) : ReadResult → ReadResult
  | .blocked => .blocked
  | .ioError t => .ioError (t.setHost moves)
  | .noData t => .noData (t.setHost moves)
  | .value v t => .value v (t.setHost moves)

/-- The same for a rewind's outcome. -/
def RewindResult.setHost (moves : List HostMove) : RewindResult → RewindResult
  | .blocked => .blocked
  | .ioError t => .ioError (t.setHost moves)
  | .ok t => .ok (t.setHost moves)

/-- The same for a write's or a flush's outcome. -/
def WriteResult.setHost (moves : List HostMove) : WriteResult → WriteResult
  | .blocked => .blocked
  | .closed => .closed
  | .ioError t => .ioError (t.setHost moves)
  | .ok t => .ok (t.setHost moves)

section
variable (moves : List HostMove) (s : State)

@[simp] theorem setHost_phase : (s.setHost moves).phase = s.phase := rfl
@[simp] theorem setHost_stack : (s.setHost moves).stack = s.stack := rfl
@[simp] theorem setHost_place : (s.setHost moves).place = s.place := rfl
@[simp] theorem setHost_pq : (s.setHost moves).pq = s.pq := rfl
@[simp] theorem setHost_freqAt (b : Byte) : (s.setHost moves).freqAt b = s.freqAt b := rfl
@[simp] theorem setHost_input : (s.setHost moves).input = s.input := rfl

variable {moves} in
/-- A choice commutes with the host's moves where both its branches do. -/
theorem ite_withHost {c : Prop} [Decidable c] {a b a' b' : Result} (ha : c → a' = a.withHost moves)
    (hb : ¬ c → b' = b.withHost moves) :
    (if c then a' else b') = Result.withHost moves (if c then a else b) := by
  split
  · exact ha ‹_›
  · exact hb ‹_›

/-! ### The shared operations -/

theorem inRead_setHost (n : Nat) : (s.setHost moves).inRead n = (s.inRead n).setHost moves := by
  rcases inRead_cases s n with ⟨ha, e⟩ | ⟨ha, e⟩ | ⟨ha, hn, e⟩ | ⟨ha, hn, e⟩ <;> rw [e]
  · exact inRead_silent ha
  · exact inRead_ioError ha
  · exact inRead_noData ha hn
  · exact inRead_value ha hn

theorem inReadBit_setHost : (s.setHost moves).inReadBit = s.inReadBit.setHost moves :=
  inRead_setHost moves s 1

theorem inRewind_setHost : (s.setHost moves).inRewind = s.inRewind.setHost moves := by
  simp only [State.inRewind, setHost_input]
  split
  · rfl
  · rfl
  · rw [apply_ite (RewindResult.setHost moves)]; rfl

theorem outFlushClose_setHost : (s.setHost moves).outFlushClose = s.outFlushClose.setHost moves := by
  rcases outFlushClose_cases s with ⟨hc, e⟩ | ⟨hc, ha, e⟩ | ⟨hc, ha, e⟩ | ⟨hc, ha, e⟩ <;> rw [e]
  · exact if_pos hc
  · exact outFlushClose_silent hc ha
  · exact outFlushClose_ioError hc ha
  · exact outFlushClose_ok hc ha

/-- A write commutes with the host's moves where what follows it does. -/
theorem writeThen_setHost (n v : Nat) {k : State → Result}
    (hk : ∀ t : State, k (t.setHost moves) = (k t).withHost moves) :
    (s.setHost moves).writeThen n v k = (s.writeThen n v k).withHost moves := by
  rcases writeThen_cases s n v k with ⟨hc, e⟩ | ⟨hc, ha, e⟩ | ⟨hc, ha, e⟩ | ⟨hc, ha, e⟩ <;> rw [e]
  · exact writeThen_closed n v k hc
  · exact writeThen_silent n v k hc ha
  · exact writeThen_ioError n v k hc ha
  · rw [← hk]; exact writeThen_ok n v k hc ha

theorem alloc_setHost (write : Node → Node) :
    (s.setHost moves).alloc write = (s.alloc write).map (Prod.map id (State.setHost moves)) := by
  by_cases hn : s.ncount.val < 513
  · rw [alloc_of_lt s _ hn, alloc_of_lt (s.setHost moves) _ hn]; rfl
  · have hf : s.ncount.val = 513 := by omega
    rw [alloc_full s _ hf, alloc_full (s.setHost moves) _ hf]; rfl

/-! ### The instructions -/

theorem treeRead_setHost (root : Handle) : (s.setHost moves).treeRead root = (s.treeRead root).setHost moves := by
  unfold State.treeRead
  rw [apply_ite (State.setHost moves)]
  rfl

theorem returnNode_setHost (h : Handle) (stack : List Frame) :
    (s.setHost moves).returnNode h stack = (s.returnNode h stack).setHost moves := by
  induction stack generalizing h s with
  | nil => exact treeRead_setHost moves s h
  | cons f rest ih =>
    cases hs : f.side with
    | left => simp only [State.returnNode, hs]; rfl
    | right => simp only [State.returnNode, hs]; exact ih (s.setChild f.handle .right h) f.handle

theorem execCompress_setHost : execCompress (s.setHost moves) = (execCompress s).withHost moves :=
  ite_withHost (fun _ => rfl) (fun _ => rfl)

theorem execDecompress_setHost : execDecompress (s.setHost moves) = (execDecompress s).withHost moves :=
  ite_withHost (fun _ => rfl) (fun _ => rfl)

theorem writeInternal_setHost : writeInternal (s.setHost moves) = (writeInternal s).withHost moves := by
  simp only [writeInternal, setHost_stack]
  split
  · rfl
  · exact ite_withHost (fun _ => writeThen_setHost moves s 1 0 fun _ => rfl) (fun _ => rfl)

theorem writeLeaf_setHost (sym : Nat) : writeLeaf sym (s.setHost moves) = (writeLeaf sym s).withHost moves := by
  simp only [writeLeaf, setHost_stack]
  split
  · rfl
  · refine ite_withHost (fun _ => ite_withHost (fun _ => ?_) fun _ => ite_withHost (fun _ => ?_) fun _ => rfl)
      (fun _ => rfl)
    · exact writeThen_setHost moves s 1 1 (fun _ => rfl)
    · exact writeThen_setHost moves s 9 sym (fun _ => rfl)

theorem readInternal_setHost : readInternal (s.setHost moves) = (readInternal s).withHost moves := by
  refine ite_withHost (fun _ => ite_withHost (fun _ => rfl) fun _ => ?_) (fun _ => rfl)
  rw [alloc_setHost]
  cases s.alloc Node.asOpen <;> rfl

theorem readLeaf_setHost (sym : Nat) : readLeaf sym (s.setHost moves) = (readLeaf sym s).withHost moves := by
  refine ite_withHost (fun _ => ite_withHost (fun _ => rfl) fun _ => ?_) (fun _ => rfl)
  split
  · rfl
  · rename_i x _
    rw [alloc_setHost]
    cases s.alloc (Node.asLeaf x 0) with
    | none => rfl
    | some p => exact congrArg Host.Outcome.next (returnNode_setHost moves p.2 p.1 p.2.stack)

theorem execTreeInternal_setHost :
    execTreeInternal (s.setHost moves) = (execTreeInternal s).withHost moves :=
  ite_withHost (fun _ => writeInternal_setHost moves s)
    (fun _ => ite_withHost (fun _ => readInternal_setHost moves s) fun _ => rfl)

theorem execTreeLeaf_setHost (sym : Nat) :
    execTreeLeaf sym (s.setHost moves) = (execTreeLeaf sym s).withHost moves :=
  ite_withHost (fun _ => writeLeaf_setHost moves s sym)
    (fun _ => ite_withHost (fun _ => readLeaf_setHost moves s sym) fun _ => rfl)

/-- What an instruction does is the same whatever moves are to come. -/
theorem exec_setHost (i : Instr) : exec i (s.setHost moves) = Result.withHost moves (exec i s) := by
  cases i with
  | compress => exact execCompress_setHost moves s
  | decompress => exact execDecompress_setHost moves s
  | treeInternal => exact execTreeInternal_setHost moves s
  | treeLeaf sym => exact execTreeLeaf_setHost moves s sym

/-! ### The phases of COMPRESS -/

theorem countByte_setHost (b : Byte) : (s.setHost moves).countByte b = (s.countByte b).setHost moves := by
  unfold State.countByte
  rw [apply_ite (State.setHost moves)]
  rfl

theorem countStep_setHost : countStep (s.setHost moves) = (countStep s).withHost moves := by
  refine ite_withHost (fun _ => ?_) (fun _ => ?_)
  · rw [inRewind_setHost]
    cases s.inRewind <;> rfl
  · rw [inRead_setHost]
    cases s.inRead 8 with
    | value v t => exact congrArg Host.Outcome.next (countByte_setHost moves t _)
    | _ => rfl

theorem insertLeaf_setHost (x : Symbol) (w : Word) :
    (s.setHost moves).insertLeaf x w = (s.insertLeaf x w).map (State.setHost moves) := by
  simp only [State.insertLeaf, alloc_setHost]
  cases s.alloc (Node.asLeaf x w) <;> rfl

theorem insertLeaves_setHost (bs : List Byte) :
    insertLeaves bs (s.setHost moves) = (insertLeaves bs s).map (State.setHost moves) := by
  induction bs generalizing s with
  | nil => rfl
  | cons b bs ih =>
    by_cases hb : s.freqAt b = 0
    · simp only [insertLeaves, setHost_freqAt, if_pos hb, ih]
    · simp only [insertLeaves, setHost_freqAt, if_neg hb, insertLeaf_setHost]
      cases s.insertLeaf (byteSymbol b) (s.freqAt b) with
      | none => rfl
      | some t => exact ih t

theorem insertPadding_setHost :
    (s.setHost moves).insertPadding = s.insertPadding.map (State.setHost moves) := by
  unfold State.insertPadding
  rw [apply_ite (Option.map (State.setHost moves)), ← insertLeaf_setHost]
  rfl

theorem buildLeaves_setHost : (s.setHost moves).buildLeaves = s.buildLeaves.map (State.setHost moves) := by
  have hstart : (s.setHost moves).buildStart = s.buildStart.setHost moves := rfl
  simp only [State.buildLeaves, hstart, insertLeaves_setHost]
  cases insertLeaves allBytes s.buildStart with
  | none => rfl
  | some t =>
    simp only [Option.map_some, insertPadding_setHost]
    cases t.insertPadding with
    | none => rfl
    | some u => exact insertLeaf_setHost moves u Config.eof 1

theorem mergeTwo_setHost (a b : PqEntry) (rest : List PqEntry) :
    (s.setHost moves).mergeTwo a b rest = (s.mergeTwo a b rest).map (State.setHost moves) := by
  simp only [State.mergeTwo, alloc_setHost]
  cases s.alloc (Node.asInternal (a.weight + b.weight) a.handle b.handle) <;> rfl

theorem buildStep_setHost : buildStep (s.setHost moves) = (buildStep s).withHost moves := by
  simp only [buildStep, setHost_pq, mergeTwo_setHost, buildLeaves_setHost]
  refine ite_withHost (fun _ => ?_) (fun _ => ?_)
  · split
    · rfl
    · rfl
    · cases s.mergeTwo _ _ _ <;> rfl
  · cases s.buildLeaves <;> rfl

theorem magicStep_setHost : magicStep (s.setHost moves) = (magicStep s).withHost moves :=
  writeThen_setHost moves s 32 Config.magic.toNat (fun _ => rfl)

theorem writeTreeStep_setHost : writeTreeStep (s.setHost moves) = (writeTreeStep s).withHost moves := by
  simp only [writeTreeStep, setHost_stack]
  split
  · rfl
  · exact exec_setHost moves s _

theorem codesStep_setHost : codesStep (s.setHost moves) = (codesStep s).withHost moves := by
  simp only [codesStep, setHost_stack]
  split
  · rfl
  · exact ite_withHost (fun _ => rfl) (fun _ => rfl)

theorem writeBit_setHost (b : Bool) (rest : List Bool) {last : State → State}
    (hl : ∀ t : State, last (t.setHost moves) = (last t).setHost moves) :
    writeBit b rest last (s.setHost moves) = (writeBit b rest last s).withHost moves := by
  refine writeThen_setHost moves s 1 b.toNat fun t => ?_
  split
  · exact congrArg Host.Outcome.next (hl t)
  · rfl

theorem emitByte_setHost (b : Byte) : (s.setHost moves).emitByte b = (s.emitByte b).setHost moves := by
  unfold State.emitByte
  rw [apply_ite (State.setHost moves)]
  rfl

theorem emitStep_setHost : emitStep (s.setHost moves) = (emitStep s).withHost moves := by
  simp only [emitStep, setHost_place]
  split
  · exact writeBit_setHost moves s _ _ (fun _ => rfl)
  · rw [inRead_setHost]
    cases s.inRead 8 with
    | value v t => exact congrArg Host.Outcome.next (emitByte_setHost moves t _)
    | _ => rfl

theorem termStep_setHost : termStep (s.setHost moves) = (termStep s).withHost moves := by
  simp only [termStep, setHost_place]
  split
  · exact writeBit_setHost moves s _ _ (fun _ => rfl)
  · rfl

/-! ### The flushes -/

theorem flushStep_setHost : flushStep (s.setHost moves) = (flushStep s).withHost moves := by
  simp only [flushStep, outFlushClose_setHost]
  cases s.outFlushClose <;> rfl

theorem errorFlushStep_setHost : errorFlushStep (s.setHost moves) = (errorFlushStep s).withHost moves := by
  simp only [errorFlushStep, outFlushClose_setHost]
  cases s.outFlushClose <;> rfl

/-! ### The phases of DECOMPRESS -/

theorem readMagicStep_setHost : readMagicStep (s.setHost moves) = (readMagicStep s).withHost moves := by
  simp only [readMagicStep, inRead_setHost]
  cases s.inRead 32 with
  | value v t => exact ite_withHost (fun _ => rfl) (fun _ => rfl)
  | _ => rfl

theorem readTreeStep_setHost : readTreeStep (s.setHost moves) = (readTreeStep s).withHost moves := by
  refine ite_withHost (fun _ => ?_) (fun _ => ?_)
  · rw [inRead_setHost]
    cases s.inRead 9 with
    | value v t => exact exec_setHost moves t (.treeLeaf v)
    | _ => rfl
  · rw [inReadBit_setHost]
    cases s.inReadBit with
    | value v t =>
      refine ite_withHost (fun _ => rfl) (fun _ => ite_withHost (fun _ => rfl) fun _ => ?_)
      exact exec_setHost moves (t.moveTo .top) .treeInternal
    | _ => rfl

theorem walkTo_setHost (c : Handle) : (s.setHost moves).walkTo c = (s.walkTo c).setHost moves := by
  unfold State.walkTo
  rw [apply_ite (State.setHost moves), apply_ite (State.setHost moves)]
  rfl

theorem walkStep_setHost : walkStep (s.setHost moves) = (walkStep s).withHost moves := by
  refine ite_withHost (fun _ => ?_) (fun _ => ?_)
  · exact writeThen_setHost moves s 8 _ (fun _ => rfl)
  · rw [inReadBit_setHost]
    cases s.inReadBit with
    | value v t => exact congrArg Host.Outcome.next (walkTo_setHost moves t _)
    | _ => rfl

/-- What the core does is the same whatever moves are to come. -/
theorem coreStep_setHost : coreStep (s.setHost moves) = (coreStep s).withHost moves := by
  simp only [coreStep, setHost_phase]
  cases s.phase with
  | idle => rfl
  | cCount => exact countStep_setHost moves s
  | cBuild => exact buildStep_setHost moves s
  | cMagic => exact magicStep_setHost moves s
  | cTree => exact writeTreeStep_setHost moves s
  | cCodes => exact codesStep_setHost moves s
  | cEmit => exact emitStep_setHost moves s
  | cTerm => exact termStep_setHost moves s
  | cFlush => exact flushStep_setHost moves s
  | dMagic => exact readMagicStep_setHost moves s
  | dTree => exact readTreeStep_setHost moves s
  | dWalk => exact walkStep_setHost moves s
  | dDone => exact flushStep_setHost moves s
  | eFlush => exact errorFlushStep_setHost moves s

end

/-! ### The host's moves (R84, R209) -/

/-- The host's next move is taken from the list and done. -/
theorem step_host_cons (s : State) (m : HostMove) (rest : List HostMove) :
    step { s with host := m :: rest } = hostMove m { s with host := rest } :=
  step_of_host_cons (s := { s with host := m :: rest }) rfl

theorem hostChanIn_of_not_busy (s : State) (c : InChannel) (hb : s.busy = false) :
    hostChanIn c s = .next { s with input := { c with pos := 0 } } := by
  simp [hostChanIn, hb]

theorem hostChanIn_of_busy (s : State) (c : InChannel) (hb : s.busy = true) :
    hostChanIn c s = .refused .channelOwned := by
  simp [hostChanIn, hb]

theorem hostChanOut_of_not_busy (s : State) (answers : List Answer) (hb : s.busy = false) :
    hostChanOut answers s = .next { s with output := { bits := [], closed := false, answers := answers } } := by
  simp [hostChanOut, hb]

theorem hostChanOut_of_busy (s : State) (answers : List Answer) (hb : s.busy = true) :
    hostChanOut answers s = .refused .channelOwned := by
  simp [hostChanOut, hb]

/-- `fieldOf` is the bits `hi` to `lo`. -/
theorem fieldOf_eq_extractLsb' (hi lo : Nat) (w : Word) :
    fieldOf hi lo w = (w.extractLsb' lo (hi + 1 - lo)).toNat := by
  rw [fieldOf, BitVec.extractLsb'_toNat]

theorem hostRead_next {s t : State} {offset width : Nat} (h : hostRead offset width s = .next t) :
    accessAllowed offset width = true ∧ t = { s with hostData := s.windowRead offset } := by
  unfold hostRead at h
  split at h <;> cases h
  exact ⟨‹_›, rfl⟩

theorem hostRead_refused {s : State} {offset width : Nat} {r : Refusal}
    (h : hostRead offset width s = .refused r) : ¬ accessAllowed offset width = true := by
  unfold hostRead at h
  split at h <;> cases h
  assumption

/-- R84: a POLL, by what a 32-bit read at its offset answers. -/
theorem hostPoll_of_hostRead {s t : State} {offset : Nat} (hi lo value : Nat)
    (h : hostRead offset 4 s = .next t) :
    hostPoll offset hi lo value s =
      if (t.hostData.extractLsb' lo (hi + 1 - lo)).toNat = value then .next t
      else .next { t with host := .core :: .poll offset hi lo value :: t.host } := by
  obtain ⟨ha, rfl⟩ := hostRead_next h
  simp only [hostPoll, if_pos ha, fieldOf_eq_extractLsb']

theorem hostPoll_of_hostRead_refused {s : State} {offset : Nat} {r : Refusal} (hi lo value : Nat)
    (h : hostRead offset 4 s = .refused r) : hostPoll offset hi lo value s = .refused .hostAccess :=
  if_neg (hostRead_refused h)

/-- Settles O60: each of the host's moves by its own rule, and the core's step by `coreStep_setHost`. -/
theorem hostMovesBetweenCoreSteps : Obligations.HostMovesBetweenCoreSteps := by
  refine ⟨fun s => step_of_host_nil, fun s rest => step_host_cons s .core rest,
    fun s moves => coreStep_setHost moves s, fun s => coreStep_idle, ?_, ?_, ?_⟩
  · intro s rest c
    rw [step_host_cons]
    exact ⟨hostChanIn_of_not_busy { s with host := rest } c, hostChanIn_of_busy { s with host := rest } c⟩
  · intro s rest answers
    rw [step_host_cons]
    exact ⟨hostChanOut_of_not_busy { s with host := rest } answers,
      hostChanOut_of_busy { s with host := rest } answers⟩
  · intro s rest offset hi lo value
    rw [step_host_cons, step_host_cons]
    refine ⟨fun v hread => ?_, hostPoll_of_hostRead_refused hi lo value⟩
    have hpoll := hostPoll_of_hostRead hi lo value hread
    exact ⟨fun hf => hpoll.trans (if_pos hf), fun hf => hpoll.trans (if_neg hf)⟩

end Sys2Proof.Machine
end

section
/-! PROOFS. The command words, the register window and reset: what each access of the host answers. -/

namespace Sys2Proof.Machine

/-! ### The command words (R71 to R73) -/

theorem exec_compress_of_not_busy {s : State} (hb : s.busy = false) :
    exec .compress s = .next (s.accept 0b01).startCompress := by
  simp [exec_compress, execCompress, hb]

theorem exec_compress_of_busy {s : State} (hb : s.busy = true) : exec .compress s = .next s.reject :=
  if_pos hb

theorem exec_decompress_of_not_busy {s : State} (hb : s.busy = false) :
    exec .decompress s = .next (s.accept 0b10).startDecompress := by
  simp [exec_decompress, execDecompress, hb]

theorem exec_decompress_of_busy {s : State} (hb : s.busy = true) : exec .decompress s = .next s.reject :=
  if_pos hb

/-- Settles O4: the state accepted and started, or rejected, written out field by field. -/
theorem compressIsAcceptedOrRejected : Obligations.CompressIsAcceptedOrRejected :=
  fun _ => ⟨exec_compress_of_not_busy, exec_compress_of_busy⟩

/-- Settles O5: the state accepted and started, or rejected, written out field by field. -/
theorem decompressIsAcceptedOrRejected : Obligations.DecompressIsAcceptedOrRejected :=
  fun _ => ⟨exec_decompress_of_not_busy, exec_decompress_of_busy⟩

/-- Every word by what the decoder says of it: one of the two commands, or a reserved word. -/
theorem decodeCmd_cases (w : Word) :
    (w = 0x00000001#32 ∧ decodeCmd w = .ok .compress) ∨
    (w = 0x00000002#32 ∧ decodeCmd w = .ok .decompress) ∨
    ((w.extractLsb' 0 2 = 0b00#2 ∨ w.extractLsb' 0 2 = 0b11#2 ∨ w.extractLsb' 2 30 ≠ 0#30) ∧
      ∃ e, decodeCmd w = .error e) := by
  have hw : w.extractLsb' 2 30 ++ w.extractLsb' 0 2 = w :=
    BitVec.extractLsb'_append_extractLsb' (w := 30) (len := 2)
  by_cases hr : w.extractLsb' 2 30 = 0#30
  · by_cases h1 : w.extractLsb' 0 2 = 0b01#2
    · rw [hr, h1] at hw
      subst hw
      exact .inl ⟨rfl, rfl⟩
    · by_cases h2 : w.extractLsb' 0 2 = 0b10#2
      · rw [hr, h2] at hw
        subst hw
        exact .inr (.inl ⟨rfl, rfl⟩)
      · have hop : ∀ x : BitVec 2, x ≠ 0b01#2 → x ≠ 0b10#2 → x = 0b00#2 ∨ x = 0b11#2 := by decide
        refine .inr (.inr ⟨?_, .reservedOp, by simp [decodeCmd, hr, h1, h2]⟩)
        exact (hop _ h1 h2).imp_right .inl
  · exact .inr (.inr ⟨.inr (.inr hr), .reservedBits, by simp [decodeCmd, hr]⟩)

theorem cmdWrite_of_error {w : Word} {e : DecodeError} (s : State) (h : decodeCmd w = .error e) :
    cmdWrite w s = .next s.reject := by
  simp [cmdWrite, h]

theorem cmdWrite_of_ok {w : Word} {i : Instr} (s : State) (h : decodeCmd w = .ok i) :
    cmdWrite w s = exec i s := by
  simp [cmdWrite, h]

/-- Everything a write to `CMD` can do (R72, R73). -/
theorem cmdWrite_cases (w : Word) (s : State) :
    (s.busy = false ∧ w = 0x00000001#32 ∧ cmdWrite w s = .next (s.accept 0b01).startCompress) ∨
    (s.busy = false ∧ w = 0x00000002#32 ∧ cmdWrite w s = .next (s.accept 0b10).startDecompress) ∨
    ((s.busy = true ∨ w.extractLsb' 0 2 = 0b00#2 ∨ w.extractLsb' 0 2 = 0b11#2 ∨ w.extractLsb' 2 30 ≠ 0#30) ∧
      cmdWrite w s = .next s.reject) := by
  rcases decodeCmd_cases w with ⟨hw, h⟩ | ⟨hw, h⟩ | ⟨hr, e, h⟩
  · rw [cmdWrite_of_ok s h]
    cases hb : s.busy with
    | false => exact .inl ⟨rfl, hw, exec_compress_of_not_busy hb⟩
    | true => exact .inr (.inr ⟨.inl rfl, exec_compress_of_busy hb⟩)
  · rw [cmdWrite_of_ok s h]
    cases hb : s.busy with
    | false => exact .inr (.inl ⟨rfl, hw, exec_decompress_of_not_busy hb⟩)
    | true => exact .inr (.inr ⟨.inl rfl, exec_decompress_of_busy hb⟩)
  · exact .inr (.inr ⟨.inr hr, cmdWrite_of_error s h⟩)

/-- A 32-bit write at offset 0 is a write to `CMD`. -/
theorem hostWrite_cmd (w : Word) (s : State) : hostWrite 0x00 4 w s = cmdWrite w s := rfl

/-- Settles O7: the step takes the write from the host's moves and decodes its word. -/
theorem stepRunsTheCommandWord : Obligations.StepRunsTheCommandWord := by
  intro s w rest i h
  rw [step_host_cons, hostMove, hostWrite_cmd, cmdWrite_of_ok _ h]

/-- Settles O6: of the cases of `cmdWrite_cases` the rejection is the one that sets `REJ`. -/
theorem rejectedCommandWriteOnlySetsRej : Obligations.RejectedCommandWriteOnlySetsRej := by
  intro s w rest
  rw [step_host_cons, hostMove, hostWrite_cmd]
  rcases cmdWrite_cases w { s with host := rest } with ⟨hb, rfl, h⟩ | ⟨hb, rfl, h⟩ | ⟨hr, h⟩ <;> rw [h]
  · exact ⟨fun hr => absurd hr (by simp [show s.busy = false from hb]), fun _ _ _ _ => ⟨_, rfl, rfl⟩⟩
  · exact ⟨fun hr => absurd hr (by simp [show s.busy = false from hb]), fun _ _ _ _ => ⟨_, rfl, rfl⟩⟩
  · refine ⟨fun _ => rfl, fun hb h0 h3 h2 => ?_⟩
    rcases hr with h | h | h | h
    · exact absurd (hb.symm.trans h) (by decide)
    · exact absurd h h0
    · exact absurd h h3
    · exact absurd h2 h

/-! ### The register window (R11, R51) -/

theorem accessAllowed_iff (offset width : Nat) :
    accessAllowed offset width = true ↔ width = 4 ∧ offset % 4 = 0 ∧ offset < 0x20 := by
  simp [accessAllowed, and_assoc]

theorem hostRead_of_allowed {offset width : Nat} (s : State) (h : accessAllowed offset width = true) :
    hostRead offset width s = .next { s with hostData := s.windowRead offset } :=
  if_pos h

theorem hostRead_of_not_allowed {offset width : Nat} (s : State) (h : ¬ accessAllowed offset width = true) :
    hostRead offset width s = .refused .hostAccess :=
  if_neg h

theorem hostWrite_of_not_allowed {offset width : Nat} (w : Word) (s : State)
    (h : ¬ accessAllowed offset width = true) : hostWrite offset width w s = .refused .hostAccess :=
  if_neg h

/-- A write to a read-only register has no effect (R11). -/
theorem hostWrite_readOnly {offset width : Nat} (w : Word) (s : State)
    (h : accessAllowed offset width = true) (h0 : offset ≠ 0) : hostWrite offset width w s = .next s := by
  simp [hostWrite, h, h0]

/-- Settles O21: at each of the eight offsets the window returns that register. -/
theorem registerReadReturnsTheRegister : Obligations.RegisterReadReturnsTheRegister := by
  intro s rest offset v h
  rw [step_host_cons, hostMove]
  rcases h with ⟨rfl, rfl⟩ | ⟨rfl, rfl⟩ | ⟨rfl, rfl⟩ | ⟨rfl, rfl⟩ | ⟨rfl, rfl⟩ | ⟨rfl, rfl⟩ | ⟨rfl, rfl⟩ | ⟨rfl, rfl⟩
  all_goals exact hostRead_of_allowed _ (by decide)

/-- Settles O23: R51's accesses are the allowed ones, and of them only a write to `CMD` has an effect. -/
theorem otherRegisterAccesses : Obligations.OtherRegisterAccesses := by
  refine ⟨fun s rest offset w h0 hlt hal => ?_, fun s rest offset width w hbad => ?_, fun s rest offset hlt hal => ?_⟩
  · rw [step_host_cons, hostMove]
    exact hostWrite_readOnly w _ ((accessAllowed_iff _ _).mpr ⟨rfl, hal, hlt⟩) (by omega)
  · have hna : ¬ accessAllowed offset width = true := by
      rw [accessAllowed_iff]
      omega
    rw [step_host_cons, step_host_cons, hostMove, hostMove]
    exact ⟨hostWrite_of_not_allowed w _ hna, hostRead_of_not_allowed _ hna⟩
  · rw [step_host_cons, hostMove]
    exact ⟨_, hostRead_of_allowed _ ((accessAllowed_iff _ _).mpr ⟨rfl, hal, hlt⟩)⟩

/-! ### The fields of `STATUS` (R13) -/

/-- The slices of a concatenation of the widths of `STATUS`'s fields. -/
theorem slices_of_append {z : BitVec 14} {op : BitVec 2} {d c p : BitVec 4} {rj er dn b : Bool}
    {w : BitVec (14 + 2 + 4 + 4 + 4 + 1 + 1 + 1 + 1)}
    (hw : w = z ++ op ++ d ++ c ++ p ++ BitVec.ofBool rj ++ BitVec.ofBool er ++ BitVec.ofBool dn ++ BitVec.ofBool b) :
    (w.getLsbD 0 = b ∧ w.getLsbD 1 = dn ∧ w.getLsbD 2 = er ∧ w.getLsbD 3 = rj) ∧
    w.extractLsb' 4 4 = p ∧ w.extractLsb' 8 4 = c ∧ w.extractLsb' 12 4 = d ∧ w.extractLsb' 16 2 = op ∧
      w.extractLsb' 18 14 = z := by
  subst hw
  constructor
  · simp [BitVec.getElem_append, -Nat.reduceAdd]
  · simp [BitVec.extractLsb'_append_eq_of_le, BitVec.extractLsb'_append_eq_right, -Nat.reduceAdd]

/-- Settles O22: each field is a slice of the concatenation that makes the word. -/
theorem statusWordLayout : Obligations.StatusWordLayout := by
  intro s
  obtain ⟨⟨hb, hd, he, hr⟩, hp, hc, hdet, ho, hz⟩ := slices_of_append (w := s.statusWord) rfl
  exact ⟨hb, hd, he, hr, hp, hc, hdet, ho, hz, rfl, rfl⟩
/-- With every field 0 the word is 0. -/
theorem statusWord_reset : State.reset.statusWord = 0 := by decide

/-! ### Reset (R200) -/

/-- Settles O24: every field but the channels is the reset state's, and the channels are the running state's. -/
theorem resetLeavesIdleAndChannelsAlone : Obligations.ResetLeavesIdleAndChannelsAlone := by
  refine ⟨⟨statusWord_reset, rfl, rfl⟩, fun s rest => ?_⟩
  refine ⟨State.resetInstance { s with host := rest }, step_host_cons s .reset rest, ?_⟩
  exact ⟨rfl, rfl, rfl, rfl, rfl, rfl, rfl, rfl, rfl, rfl, statusWord_reset, rfl, rfl, rfl⟩

end Sys2Proof.Machine
end

section
/-! PROOFS. The output channel's transactions and the priority structure. -/

namespace Sys2Proof.Machine

/-! ### The output channel (R55) -/

/-- Settles O17: the appended sequence is `bitsOf n v`, whose i-th bit is `getElem_bitsOf`'s. -/
theorem outWriteAppendsMsbFirst : Obligations.OutWriteAppendsMsbFirst := by
  intro s n v hc
  refine ⟨fun ha => ?_, outWrite_ioError n v hc⟩
  exact ⟨bitsOf n v, outWrite_ok n v hc ha, length_bitsOf n v, getElem_bitsOf n v⟩

/-- Settles O18: the pad is `padBits`, of the length `padLength` gives. -/
theorem flushPadsToWholeBytes : Obligations.FlushPadsToWholeBytes := by
  intro s hc
  refine ⟨fun ha => ⟨padBits s.draws (padLength s.output.bits.length), ?_, ?_, ?_⟩, outFlushClose_ioError hc⟩
  · rw [length_padBits]
    exact padLength_lt _
  · rw [length_padBits]
    exact padLength_mod _
  · rw [outFlushClose_ok hc ha, length_padBits]
    rfl

/-! ### The priority structure (R100) -/

/-- Insertion keeps every entry and adds the new one. -/
theorem pqInsert_perm (e : PqEntry) (pq : List PqEntry) : (pqInsert e pq).Perm (e :: pq) := by
  induction pq with
  | nil => exact .refl _
  | cons x xs ih =>
    unfold pqInsert
    split
    · exact .refl _
    · exact (ih.cons x).trans (.swap e x xs)

theorem mem_pqInsert {e a : PqEntry} {pq : List PqEntry} : a ∈ pqInsert e pq ↔ a = e ∨ a ∈ pq := by
  rw [(pqInsert_perm e pq).mem_iff, List.mem_cons]

theorem pqSorted_nil : PqSorted [] := List.Pairwise.nil

theorem PqSorted.tail {a : PqEntry} {pq : List PqEntry} (h : PqSorted (a :: pq)) : PqSorted pq :=
  List.Pairwise.of_cons h

/-- Insertion keeps the order: an entry passed over does not come after the new one, and one behind it not before it. -/
theorem PqSorted.insert {pq : List PqEntry} (h : PqSorted pq) (e : PqEntry) : PqSorted (pqInsert e pq) := by
  induction pq with
  | nil => exact List.pairwise_singleton _ _
  | cons x xs ih =>
    obtain ⟨hx, hxs⟩ := List.pairwise_cons.mp h
    unfold pqInsert
    by_cases hb : e.before x = true
    · rw [if_pos hb]
      have hxe : x.before e = false := before_asymm hb
      refine List.pairwise_cons.mpr ⟨fun y hy => ?_, h⟩
      rcases List.mem_cons.mp hy with rfl | hy
      · exact hxe
      · exact before_trans_false hxe (hx y hy)
    · rw [if_neg hb]
      refine List.pairwise_cons.mpr ⟨fun y hy => ?_, ih hxs⟩
      rcases mem_pqInsert.mp hy with rfl | hy
      · exact Bool.eq_false_iff.mpr hb
      · exact hx y hy

/-- What it means of two entries that the second does not come before the first (R100). -/
theorem before_eq_false_iff (a b : PqEntry) :
    b.before a = false ↔ a.weight < b.weight ∨ (a.weight = b.weight ∧ a.seq ≤ b.seq) := by
  simp only [PqEntry.before, Bool.or_eq_false_iff, Bool.and_eq_false_iff, decide_eq_false_iff_not, BitVec.lt_def,
    BitVec.le_def, ← BitVec.toNat_inj]
  omega

/-- Settles O27: the order as `before_eq_false_iff` says it, kept by insertion. -/
theorem priorityQueueIsFifoAmongEqualWeights : Obligations.PriorityQueueIsFifoAmongEqualWeights := by
  refine ⟨fun s h => rfl, fun e pq hpq => ⟨hpq.insert e, pqInsert_perm e pq, ?_⟩⟩
  rintro a rest rfl b hb
  exact (before_eq_false_iff a b).mp (List.rel_of_pairwise_cons hpq hb)

end Sys2Proof.Machine
end

section
/-! PROOFS. The invariant: that each transaction, each change of phase, each step and each host move keeps it. -/

namespace Sys2Proof.Machine

/-! ### Reset -/

/-- Cleared counters add up to a cleared `LEN`. -/
theorem countInv_of_cleared {s : State} (hf : s.freq = Vector.replicate 256 0) (hl : s.len = 0) : s.countInv := by
  unfold State.countInv
  rw [hf, hl, Vector.toList_replicate, List.map_replicate, List.sum_replicate]
  exact ⟨rfl, Nat.zero_le _⟩

/-- Settles O52: each part of the invariant at the reset state's fields. -/
theorem invariantHoldsAtReset : Obligations.InvariantHoldsAtReset := by
  refine ⟨?_, rfl, countInv_of_cleared rfl rfl, ⟨pqSorted_nil, nofun⟩, nofun, Nat.le_refl 0⟩
  unfold State.statusInv
  decide

/-! ### Transactions and the host's accesses -/

/-- The invariant sees of the channels only the input's position, and nothing of what the host holds. -/
theorem inv_of_channels {s t : State} (hi : s.inv) (hin : t.inputInv)
    (h : t = { s with
      input := t.input, output := t.output, inBits := t.inBits, outBits := t.outBits, draws := t.draws
      rej := t.rej, host := t.host, hostData := t.hostData }) : t.inv := by
  obtain ⟨hst, hpl, hc, hq, hw, _⟩ := hi
  rw [h]
  exact ⟨hst, hpl, hc, hq, hw, hin⟩

theorem State.inv.input {s : State} (hi : s.inv) : s.inputInv := by
  obtain ⟨_, _, _, _, _, hin⟩ := hi
  exact hin

theorem State.inv.status {s : State} (hi : s.inv) : s.statusInv := hi.1

theorem State.inv.place {s : State} (hi : s.inv) : s.placeInv := hi.2.1

theorem State.inv.sorted {s : State} (hi : s.inv) : PqSorted s.pq := by
  obtain ⟨_, _, _, ⟨hs, _⟩, _, _⟩ := hi
  exact hs

theorem inv_afterRead {s : State} {n : Nat} (hi : s.inv) (hn : s.input.pos + n ≤ s.input.bits.length) :
    (s.afterRead n).inv :=
  inv_of_channels hi hn rfl

theorem inv_afterInError {s : State} (hi : s.inv) : s.afterInError.inv := inv_of_channels hi hi.input rfl

theorem inv_afterNoData {s : State} (hi : s.inv) : s.afterNoData.inv :=
  inv_of_channels hi (inExhaust_pos_le s hi.input) rfl

theorem inv_rewound {s : State} (hi : s.inv) : s.inAnswered.inRewound.inv := inv_of_channels hi (Nat.zero_le _) rfl

theorem inv_afterWrite {s : State} (bits : List Bool) (hi : s.inv) : (s.afterWrite bits).inv :=
  inv_of_channels hi hi.input rfl

theorem inv_afterOutError {s : State} (hi : s.inv) : s.afterOutError.inv := inv_of_channels hi hi.input rfl

theorem inv_afterFlush {s : State} (hi : s.inv) : s.afterFlush.inv := inv_of_channels hi hi.input rfl

theorem inv_afterFlushError {s : State} (hi : s.inv) : s.afterFlushError.inv := inv_of_channels hi hi.input rfl

/-! ### `STATUS` by the phase -/

/-- The `OP` of the operation a phase belongs to; 0 for IDLE and E_FLUSH (R14, R141, R166). -/
def Phase.op (p : Phase) : BitVec 2 := if p.ofCompress then 0b01 else if p.ofDecompress then 0b10 else 0b00

/-- The errors the operation of a phase lists, with their details (R149, R170, R181). -/
def Phase.raises (p : Phase) (e : ErrCode) (d : BitVec 4) : Bool :=
  decide (e ≠ .none) && e.hasDetail d && e.raisedBy p.op && decide (e = .channelError → d = 2 → p.op = 0b01)

/-- `STATUS` while the operation `op` runs and has raised nothing. -/
structure State.Running (op : BitVec 2) (s : State) : Prop where
  busy : s.busy = true
  done : s.done = false
  error : s.error = false
  errCode : s.errCode = .none
  errDetail : s.errDetail = 0
  lastOp : s.lastOp = op

/-- In the phases of an operation the invariant of `STATUS` says that it runs and has raised nothing. -/
theorem statusInv_iff_running {s : State} (hp : s.phase.op ≠ 0) : s.statusInv ↔ s.Running s.phase.op := by
  have h0 : ∀ d, ErrCode.none.hasDetail d = true ↔ d = 0 := fun d => decide_eq_true_iff
  constructor
  · rintro ⟨hb, hbd, hbe, -, herr, hd, -, -, hc, hdc, -⟩
    have hidle : s.phase ≠ .idle := fun e => hp (by rw [e]; rfl)
    have hflush : s.phase ≠ .eFlush := fun e => hp (by rw [e]; rfl)
    have hbusy := hb.mpr hidle
    have herror : s.error = false := by simpa [hbusy] using hbe
    have hnone : s.errCode = .none := by simpa [hflush, herror] using herr
    refine ⟨hbusy, by simpa [hbusy] using hbd, herror, hnone, (h0 _).mp (hnone ▸ hd), ?_⟩
    unfold Phase.op at hp ⊢
    split
    · exact hc ‹_›
    · split
      · exact hdc ‹_›
      · simp_all
  · rintro ⟨hb, hd, he, hnone, hdet, hop⟩
    unfold State.statusInv
    rw [hb, hd, he, hnone, hdet, hop]
    cases h : s.phase <;>
      simp_all [Phase.op, Phase.ofCompress, Phase.ofDecompress, ErrCode.hasDetail, ErrCode.raisedBy]

/-- The phases of one operation follow each other with `STATUS` as it was. -/
theorem statusInv_goto {s : State} {p : Phase} (h : s.statusInv) (h0 : s.phase.op ≠ 0) (hop : p.op = s.phase.op) :
    (s.goto p).statusInv := by
  obtain ⟨hb, hd, he, hnone, hdet, hl⟩ := (statusInv_iff_running h0).mp h
  have hp : (s.goto p).phase.op ≠ 0 := fun e => h0 (hop.symm.trans e)
  exact (statusInv_iff_running hp).mpr ⟨hb, hd, he, hnone, hdet, hl.trans hop.symm⟩

/-- What `raises` says of the phase, the error and the detail. -/
theorem raises_iff (p : Phase) (e : ErrCode) (d : BitVec 4) :
    p.raises e d = true ↔
      e ≠ .none ∧ e.hasDetail d = true ∧ e.raisedBy p.op = true ∧ (e = .channelError → d = 2 → p.op = 0b01) := by
  simp only [Phase.raises, Bool.and_eq_true, decide_eq_true_iff, and_assoc]

theorem statusInv_afterRaise {s : State} {e : ErrCode} {d : BitVec 4} (h : s.statusInv) (h0 : s.phase.op ≠ 0)
    (hr : s.phase.raises e d = true) : (s.afterRaise e d).statusInv := by
  obtain ⟨hb, hd, he, -, -, hl⟩ := (statusInv_iff_running h0).mp h
  obtain ⟨hne, hdet, hby, hrw⟩ := (raises_iff _ _ _).mp hr
  unfold State.statusInv
  simp only [State.afterRaise, Phase.ofCompress, Phase.ofDecompress, hb, hd, he, hl, hdet, hby]
  exact ⟨by simp, nofun, nofun, nofun, by simp [hne], trivial, trivial, hrw, nofun, nofun, fun _ => h0⟩

/-- An operation ends with `DONE` (R189). -/
theorem statusInv_complete {s : State} (h : s.statusInv) (h0 : s.phase.op ≠ 0) : s.complete.statusInv := by
  obtain ⟨-, -, he, hnone, hdet, -⟩ := (statusInv_iff_running h0).mp h
  unfold State.statusInv
  simp [Phase.ofCompress, Phase.ofDecompress, ErrCode.hasDetail, ErrCode.raisedBy, *]

/-- The error sequence ends with `ERROR` (R16, R184). -/
theorem statusInv_endError {s : State} (h : s.statusInv) (hp : s.phase = .eFlush) : s.endError.statusInv := by
  obtain ⟨hb, hbd, -, -, herr, hd, hby, hrw, -, -, -⟩ := h
  unfold State.statusInv
  simp_all [Phase.ofCompress, Phase.ofDecompress]

/-! ### The place by the phase -/

theorem placeInv_cCount {s : State} (hp : s.phase = .cCount) :
    s.placeInv ↔ s.place = .top ∨ s.place = .rewind := by
  simp [State.placeInv, hp]

theorem placeInv_cTree {s : State} (hp : s.phase = .cTree) :
    s.placeInv ↔ s.place = .top ∨ (s.place = .symbol ∧ ∃ f rest, s.stack = f :: rest ∧ s.isLeaf f.handle = true) := by
  simp [State.placeInv, hp]

theorem placeInv_cEmit {s : State} (hp : s.phase = .cEmit) :
    s.placeInv ↔ s.place = .top ∨ ∃ b rest, s.place = .bits (b :: rest) := by
  simp [State.placeInv, hp]

theorem placeInv_cTerm {s : State} (hp : s.phase = .cTerm) : s.placeInv ↔ ∃ rest, s.place = .bits rest := by
  simp [State.placeInv, hp]

theorem placeInv_dTree {s : State} (hp : s.phase = .dTree) :
    s.placeInv ↔ s.place = .top ∨ s.place = .symbol := by
  simp [State.placeInv, hp]

theorem placeInv_dWalk {s : State} (hp : s.phase = .dWalk) :
    s.placeInv ↔ s.place = .top ∨ s.place = .byte := by
  simp [State.placeInv, hp]

/-- Every phase but C_TERM may stand at its first statement. -/
theorem placeInv_of_top {s : State} (ht : s.place = .top) (hp : s.phase ≠ .cTerm) : s.placeInv := by
  cases h : s.phase <;> simp_all [State.placeInv]

/-! ### Changes of the phase and of the place -/

/-- Outside BUILD's merging and D_WALK, the invariant is that of `STATUS`, the place, the counters, `PQ`'s order and the
input. -/
theorem inv_of_plain {s t : State} (hi : s.inv) (hf : t.freq = s.freq) (hl : t.len = s.len) (hq : PqSorted t.pq)
    (hin : t.input = s.input) (hst : t.statusInv) (hpl : t.placeInv)
    (hb : t.phase = .cBuild → t.place ≠ .merge) (hw : t.phase ≠ .dWalk) : t.inv := by
  obtain ⟨-, -, hc, -, -, hi⟩ := hi
  refine ⟨hst, hpl, ?_, ⟨hq, fun h h' => absurd h' (hb h)⟩, fun h => absurd h hw, ?_⟩
  · unfold State.countInv
    rw [hf, hl]
    exact hc
  · unfold State.inputInv
    rw [hin]
    exact hi

theorem inv_afterRaise {s : State} {e : ErrCode} {d : BitVec 4} (hi : s.inv) (h0 : s.phase.op ≠ 0)
    (hr : s.phase.raises e d = true) : (s.afterRaise e d).inv :=
  inv_of_plain hi rfl rfl hi.sorted rfl (statusInv_afterRaise hi.status h0 hr) rfl nofun nofun

theorem inv_goto {s : State} {p : Phase} (hi : s.inv) (h0 : s.phase.op ≠ 0) (hop : p.op = s.phase.op)
    (ht : p ≠ .cTerm) (hw : p ≠ .dWalk) : (s.goto p).inv :=
  inv_of_plain hi rfl rfl hi.sorted rfl (statusInv_goto hi.status h0 hop) (placeInv_of_top rfl ht) nofun hw

theorem inv_moveTo {s : State} {p : Place} (hi : s.inv) (hpl : (s.moveTo p).placeInv)
    (hb : s.phase ≠ .cBuild) (hw : s.phase ≠ .dWalk) : (s.moveTo p).inv :=
  inv_of_plain hi rfl rfl hi.sorted rfl hi.status hpl (fun h => absurd h hb) hw

theorem inv_startTraversal {s : State} {p : Phase} (hi : s.inv) (h0 : s.phase.op ≠ 0) (hop : p.op = s.phase.op)
    (ht : p ≠ .cTerm) (hw : p ≠ .dWalk) : (s.startTraversal p).inv :=
  inv_of_plain hi rfl rfl hi.sorted rfl (statusInv_goto (s := s) hi.status h0 hop) (placeInv_of_top rfl ht) nofun hw

theorem inv_complete {s : State} (hi : s.inv) (h0 : s.phase.op ≠ 0) : s.complete.inv :=
  inv_of_plain hi rfl rfl hi.sorted rfl (statusInv_complete hi.status h0) rfl nofun nofun

theorem inv_endError {s : State} (hi : s.inv) (hp : s.phase = .eFlush) : s.endError.inv :=
  inv_of_plain hi rfl rfl hi.sorted rfl (statusInv_endError hi.status hp) rfl nofun nofun

/-! ### C_COUNT (R90) -/

theorem sum_set_succ {l : List Nat} {i : Nat} (h : i < l.length) : (l.set i (l[i] + 1)).sum = l.sum + 1 := by
  induction l generalizing i with
  | nil => simp at h
  | cons x xs ih =>
    cases i with
    | zero => simp; omega
    | succ i =>
      have := ih (i := i) (by simpa using h)
      simp only [List.set_cons_succ, List.getElem_cons_succ, List.sum_cons, this]
      omega

/-- One counter is at most the sum of all. -/
theorem freqAt_le_sum (s : State) (b : Byte) : (s.freqAt b).toNat ≤ (s.freq.toList.map BitVec.toNat).sum := by
  apply List.single_le_sum
  · simp
  · exact List.mem_map_of_mem (Vector.mem_toList_iff.mpr (Vector.getElem_mem _))

/-- A byte counted below `LEN_MAX` keeps the sum (R91). -/
theorem countInv_countByte {s t : State} (b : Byte) (h : s.countInv) (hlen : s.len ≠ Config.lenMax)
    (hf : t.freq = s.freq.set b.toNat (s.freqAt b + 1)) (hl : t.len = s.len + 1) : t.countInv := by
  obtain ⟨hsum, hmax⟩ := h
  have hne : s.len.toNat ≠ Config.lenMax.toNat := fun e => hlen (BitVec.eq_of_toNat_eq e)
  have hcount := freqAt_le_sum s b
  have hmaxNat : Config.lenMax.toNat = 4294967294 := rfl
  have hfb : (s.freqAt b + 1).toNat = (s.freqAt b).toNat + 1 := by
    rw [BitVec.toNat_add_of_lt (by simp; omega)]; rfl
  have hlb : (s.len + 1).toNat = s.len.toNat + 1 := by
    rw [BitVec.toNat_add_of_lt (by simp; omega)]; rfl
  refine ⟨?_, by rw [hl, hlb]; omega⟩
  rw [hf, hl, hlb, Vector.toList_set, List.map_set, hfb, ← hsum]
  have hb : b.toNat < (s.freq.toList.map BitVec.toNat).length := by simp; omega
  rw [← sum_set_succ hb]
  simp [State.freqAt]

theorem countStep_keeps_inv {s t : State} (hi : s.inv) (hp : s.phase = .cCount) (h : countStep s = .next t) :
    t.inv := by
  have h0 : s.phase.op ≠ 0 := by rw [hp]; decide
  rcases countStep_next h with
    rfl | ⟨_, rfl | ⟨_, rfl⟩⟩ | ⟨_, rfl | rfl | ⟨b, hn, ⟨_, rfl⟩ | ⟨hlen, rfl⟩⟩⟩
  · exact hi
  · exact inv_afterRaise (inv_afterInError hi) h0 (hp ▸ rfl)
  · exact inv_goto (inv_rewound hi) h0 (hp ▸ rfl) nofun nofun
  · exact inv_afterRaise (inv_afterInError hi) h0 (hp ▸ rfl)
  · have hpl := (placeInv_cCount (s := s.afterNoData.moveTo .rewind) hp).mpr (.inr rfl)
    exact inv_moveTo (inv_afterNoData hi) hpl (hp ▸ nofun) (hp ▸ nofun)
  · exact inv_afterRaise (inv_afterRead hi hn) h0 (hp ▸ rfl)
  · obtain ⟨hst, hpl, hc, hq, hw, hin⟩ := inv_afterRead hi hn
    exact ⟨hst, hpl, countInv_countByte b hc hlen rfl rfl, hq, hw, hin⟩

/-! ### C_BUILD (R101, R102) -/

/-- What an insertion of `k` leaves leaves of the queue: its order, and an arena entry for each new one. -/
def QueueGrows (s t : State) (k : Nat) : Prop :=
  PqSorted t.pq ∧ t.pq.length = s.pq.length + k ∧ t.ncount.val = s.ncount.val + k

theorem QueueGrows.trans {s t u : State} {j k : Nat} (h : QueueGrows s t j) (h' : QueueGrows t u k) :
    QueueGrows s u (j + k) := by
  obtain ⟨_, hl, hn⟩ := h
  obtain ⟨hs, hl', hn'⟩ := h'
  exact ⟨hs, by omega, by omega⟩

theorem insertLeaf_queueGrows {s t : State} {x : Symbol} {w : Word} (hs : PqSorted s.pq)
    (h : s.insertLeaf x w = some t) : QueueGrows s t 1 := by
  by_cases hn : s.ncount.val < 513
  · rw [insertLeaf_of_lt s x w hn] at h
    cases h
    exact ⟨hs.insert _, length_pqInsert _ _, rfl⟩
  · rw [insertLeaf_full s x w hn] at h
    cases h

/-- At most one leaf goes in for each listed byte. -/
theorem insertLeaves_queueGrows {bs : List Byte} {s t : State} (hs : PqSorted s.pq)
    (h : insertLeaves bs s = some t) : ∃ k ≤ bs.length, QueueGrows s t k := by
  induction bs generalizing s with
  | nil =>
    cases h
    exact ⟨0, Nat.le_refl 0, hs, rfl, rfl⟩
  | cons b bs ih =>
    unfold insertLeaves at h
    split at h
    · obtain ⟨k, hk, hg⟩ := ih hs h
      exact ⟨k, Nat.le_succ_of_le hk, hg⟩
    · split at h
      · cases h
      · rename_i u hu
        have hg := insertLeaf_queueGrows hs hu
        obtain ⟨k, hk, hg'⟩ := ih hg.1 h
        exact ⟨1 + k, by simp; omega, hg.trans hg'⟩

/-- Without counted bytes no leaf goes in. -/
theorem insertLeaves_of_zero {bs : List Byte} {s : State} (h : ∀ b ∈ bs, s.freqAt b = 0) :
    insertLeaves bs s = some s := by
  induction bs with
  | nil => rfl
  | cons b bs ih =>
    rw [insertLeaves, if_pos (h b (List.mem_cons_self ..))]
    exact ih fun c hc => h c (List.mem_cons_of_mem _ hc)

/-- With `LEN` 0 every counter is 0. -/
theorem freqAt_of_len_zero {s : State} (h : s.countInv) (hl : s.len = 0) (b : Byte) : s.freqAt b = 0 := by
  obtain ⟨hsum, -⟩ := h
  have hb := freqAt_le_sum s b
  rw [hsum, hl] at hb
  exact BitVec.eq_of_toNat_eq (Nat.le_zero.mp hb)

theorem length_allBytes : allBytes.length = 256 := by simp [allBytes]

/-- BUILD's first step: at most 256 leaves and the sentinel's; padding only where no byte has a leaf (R101, R104). -/
theorem buildLeaves_queueGrows {s u : State} (hc : s.countInv) (h : s.buildLeaves = some u) :
    ∃ k, 1 ≤ k ∧ k ≤ 257 ∧ QueueGrows s.buildStart u k := by
  unfold State.buildLeaves at h
  split at h
  · cases h
  · rename_i t ht
    split at h
    · cases h
    · rename_i v hv
      obtain ⟨k, hk, hg⟩ := insertLeaves_queueGrows pqSorted_nil ht
      rw [length_allBytes] at hk
      by_cases hl : t.len = 0
      · have hlen : s.buildStart.len = 0 := by
          have := congrArg State.len (insertLeaves_frame ht)
          exact this ▸ hl
        have hz := insertLeaves_of_zero (bs := allBytes) fun b _ =>
          freqAt_of_len_zero (s := s.buildStart) hc hlen b
        obtain rfl : s.buildStart = t := Option.some.inj (hz.symm.trans ht)
        rw [State.insertPadding, if_pos hl] at hv
        have hg1 := insertLeaf_queueGrows pqSorted_nil hv
        exact ⟨1 + 1, by omega, by omega, hg1.trans (insertLeaf_queueGrows hg1.1 h)⟩
      · rw [State.insertPadding, if_neg hl] at hv
        cases hv
        exact ⟨k + 1, by omega, by omega, hg.trans (insertLeaf_queueGrows hg.1 h)⟩

/-- While BUILD merges, the invariant asks of the arena and the queue only order and room. -/
theorem inv_merging {s t : State} (hi : s.inv) (hp : s.phase = .cBuild)
    (h : t = { s with node := t.node, ncount := t.ncount, pq := t.pq, seq := t.seq, place := .merge })
    (hs : PqSorted t.pq) (h1 : 1 ≤ t.pq.length) (hn : t.ncount.val + t.pq.length ≤ 514) : t.inv := by
  obtain ⟨hst, -, hc, -, -, hin⟩ := hi
  have hpt : t.phase = .cBuild := by rw [h]; exact hp
  have hpl : t.placeInv := by
    rw [State.placeInv, hpt, h]
    exact .inr rfl
  refine ⟨?_, hpl, ?_, ⟨hs, fun _ _ => ⟨h1, hn⟩⟩, fun e => absurd (hpt.symm.trans e) nofun, ?_⟩ <;> rw [h]
  · exact hst
  · exact hc
  · exact hin

theorem buildStep_keeps_inv {s t : State} (hi : s.inv) (hp : s.phase = .cBuild) (h : buildStep s = .next t) :
    t.inv := by
  obtain ⟨hst, -, hc, ⟨hs, hq⟩, -, -⟩ := id hi
  rcases buildStep_next h with ⟨_, u, hu, rfl⟩ | ⟨_, a, _, rfl⟩ | ⟨hm, a, b, rest, hn, hpq, rfl⟩
  · obtain ⟨k, h1, hk, hs', hl, hn⟩ := buildLeaves_queueGrows hc hu
    have hl' : u.pq.length = k := by simpa using hl
    have hn' : u.ncount.val = k := by simpa using hn
    have hu' : u.moveTo .merge = { s with
        node := u.node, ncount := u.ncount, pq := u.pq, seq := u.seq, place := .merge } :=
      congrArg (State.moveTo .merge) (buildLeaves_frame hu)
    exact inv_merging (t := u.moveTo .merge) hi hp hu' hs' (hl' ▸ h1) (by simp; omega)
  · have h0 : s.phase.op ≠ 0 := by rw [hp]; decide
    have hst' : (s.goto .cMagic).statusInv := statusInv_goto hst h0 (by rw [hp]; rfl)
    exact inv_of_plain hi rfl rfl pqSorted_nil rfl hst' rfl nofun nofun
  · obtain ⟨-, hroom⟩ := hq hp hm
    rw [hpq] at hs hroom
    refine inv_merging hi hp (by rw [← hm]) (hs.tail.tail.insert _) ?_ ?_
    · simp
    · simp at hroom ⊢
      omega

/-! ### The other phases of COMPRESS -/

theorem magicStep_keeps_inv {s t : State} (hi : s.inv) (hp : s.phase = .cMagic) (h : magicStep s = .next t) :
    t.inv := by
  have h0 : s.phase.op ≠ 0 := by rw [hp]; decide
  rcases magicStep_next h with rfl | rfl | rfl
  · exact hi
  · exact inv_afterRaise (inv_afterOutError hi) h0 (hp ▸ rfl)
  · exact inv_startTraversal (inv_afterWrite _ hi) h0 (hp ▸ rfl) nofun nofun

/-- The traversals of C_TREE and C_CODES change the stack and the codes at their head. -/
theorem inv_of_traversal {s t : State} (hi : s.inv) (hp : s.phase = .cTree ∨ s.phase = .cCodes)
    (h : t = { s with stack := t.stack, code := t.code, place := .top }) : t.inv := by
  have hpt : t.phase = s.phase := by rw [h]
  have htop : t.place = .top := by rw [h]
  have hne : ∀ q : Phase, q ≠ .cTree → q ≠ .cCodes → t.phase ≠ q := by
    rintro q h1 h2 rfl
    rcases hp with hp | hp
    · exact h1 (hpt.trans hp)
    · exact h2 (hpt.trans hp)
  rw [h] at hpt htop hne ⊢
  exact inv_of_plain hi rfl rfl hi.sorted rfl hi.status (placeInv_of_top rfl (hne _ nofun nofun)) nofun
    (hne _ nofun nofun)

theorem writeTreeStep_keeps_inv {s t : State} (hi : s.inv) (hp : s.phase = .cTree)
    (h : writeTreeStep s = .next t) : t.inv := by
  have h0 : s.phase.op ≠ 0 := by rw [hp]; decide
  rcases writeTreeStep_next hp h with
    ⟨_, rfl⟩ | ⟨f, rest, hst, rfl | rfl | ⟨ht, _, rfl⟩ | ⟨_, hl, rfl⟩ | ⟨_, _, rfl⟩⟩
  · exact inv_startTraversal hi h0 (hp ▸ rfl) nofun nofun
  · exact hi
  · exact inv_afterRaise (inv_afterOutError hi) h0 (hp ▸ rfl)
  · exact inv_of_traversal (inv_afterWrite [false] hi) (.inl hp) (by rw [← ht]; rfl)
  · have hpl := (placeInv_cTree (s := (s.afterWrite [true]).moveTo .symbol) hp).mpr (.inr ⟨rfl, f, rest, hst, hl⟩)
    exact inv_moveTo (inv_afterWrite _ hi) hpl (hp ▸ nofun) (hp ▸ nofun)
  · exact inv_of_traversal (inv_afterWrite _ hi) (.inl hp) rfl

theorem codesStep_keeps_inv {s t : State} (hi : s.inv) (hp : s.phase = .cCodes) (h : codesStep s = .next t) :
    t.inv := by
  have h0 : s.phase.op ≠ 0 := by rw [hp]; decide
  have ht : s.place = .top := by
    have := hi.place
    rwa [State.placeInv, hp] at this
  rcases codesStep_next h with ⟨_, rfl⟩ | ⟨f, rest, _, ⟨_, rfl⟩ | ⟨_, rfl⟩⟩
  · exact inv_goto hi h0 (hp ▸ rfl) nofun nofun
  · exact inv_of_traversal hi (.inr hp) rfl
  · exact inv_of_traversal hi (.inr hp) (by rw [← ht]; rfl)

theorem emitStep_keeps_inv {s t : State} (hi : s.inv) (hp : s.phase = .cEmit) (h : emitStep s = .next t) :
    t.inv := by
  have h0 : s.phase.op ≠ 0 := by rw [hp]; decide
  have move : ∀ (u : State) (p : Place), u.inv → u.phase = .cEmit → p = .top ∨ (∃ b rest, p = .bits (b :: rest)) →
      (u.moveTo p).inv := fun u p hu hpu hpl =>
    inv_moveTo hu ((placeInv_cEmit (s := u.moveTo p) hpu).mpr hpl) (hpu ▸ nofun) (hpu ▸ nofun)
  rcases emitStep_next h with
    rfl | ⟨b, rest, _, rfl | ⟨_, rfl⟩ | ⟨hr, rfl⟩⟩ | ⟨_, rfl | rfl | ⟨b, hn, ⟨_, rfl⟩ | ⟨hl, rfl⟩⟩⟩
  · exact hi
  · exact inv_afterRaise (inv_afterOutError hi) h0 (hp ▸ rfl)
  · exact move _ _ (inv_afterWrite _ hi) hp (.inl rfl)
  · obtain ⟨c, cs, rfl⟩ := List.exists_cons_of_ne_nil hr
    exact move _ _ (inv_afterWrite _ hi) hp (.inr ⟨c, cs, rfl⟩)
  · exact inv_afterRaise (inv_afterInError hi) h0 (hp ▸ rfl)
  · have hi' := inv_afterNoData hi
    have hst : (s.afterNoData.goto .cTerm).statusInv := statusInv_goto hi'.status h0 (hp ▸ rfl)
    exact inv_of_plain hi' rfl rfl hi'.sorted rfl hst ⟨_, rfl⟩ nofun nofun
  · exact inv_afterRaise (inv_afterRead hi hn) h0 (hp ▸ rfl)
  · obtain ⟨c, cs, e⟩ := List.exists_cons_of_length_pos (Nat.pos_of_ne_zero hl)
    exact move _ _ (inv_afterRead hi hn) hp (.inr ⟨c, cs, congrArg Place.bits e⟩)

theorem termStep_keeps_inv {s t : State} (hi : s.inv) (hp : s.phase = .cTerm) (h : termStep s = .next t) :
    t.inv := by
  have h0 : s.phase.op ≠ 0 := by rw [hp]; decide
  rcases termStep_next h with rfl | ⟨b, rest, _, rfl | ⟨_, rfl⟩ | ⟨_, rfl⟩⟩ | ⟨_, rfl⟩
  · exact hi
  · exact inv_afterRaise (inv_afterOutError hi) h0 (hp ▸ rfl)
  · exact inv_goto (inv_afterWrite _ hi) h0 (hp ▸ rfl) nofun nofun
  · have hpl := (placeInv_cTerm (s := (s.afterWrite [b]).moveTo (.bits rest)) hp).mpr ⟨rest, rfl⟩
    exact inv_moveTo (inv_afterWrite _ hi) hpl (hp ▸ nofun) (hp ▸ nofun)
  · exact inv_goto hi h0 (hp ▸ rfl) nofun nofun

/-! ### The flushes -/

/-- C_FLUSH and D_DONE; a failed flush ends the operation with its error at once (R184). -/
theorem flushStep_keeps_inv {s t : State} (hi : s.inv) (hp : s.phase = .cFlush ∨ s.phase = .dDone)
    (h : flushStep s = .next t) : t.inv := by
  have h0 : s.phase.op ≠ 0 := by rcases hp with hp | hp <;> rw [hp] <;> decide
  have hr : s.phase.raises .channelError 4 = true := by rcases hp with hp | hp <;> rw [hp] <;> rfl
  rcases (flushStep_next h).2 with rfl | rfl | rfl
  · exact hi
  · have hi' := inv_afterRaise (inv_afterFlushError hi) h0 hr
    exact inv_endError (s := s.afterFlushError.afterRaise .channelError 4) hi' rfl
  · exact inv_complete (inv_afterFlush hi) h0

theorem errorFlushStep_keeps_inv {s t : State} (hi : s.inv) (hp : s.phase = .eFlush)
    (h : errorFlushStep s = .next t) : t.inv := by
  rcases (errorFlushStep_next h).2 with rfl | rfl | rfl
  · exact hi
  · exact inv_endError (inv_afterFlushError hi) hp
  · exact inv_endError (inv_afterFlush hi) hp

/-! ### DECOMPRESS -/

theorem readMagicStep_keeps_inv {s t : State} (hi : s.inv) (hp : s.phase = .dMagic)
    (h : readMagicStep s = .next t) : t.inv := by
  have h0 : s.phase.op ≠ 0 := by rw [hp]; decide
  rcases readMagicStep_next h with rfl | rfl | rfl | ⟨hn, rfl | rfl⟩
  · exact hi
  · exact inv_afterRaise (inv_afterInError hi) h0 (hp ▸ rfl)
  · exact inv_afterRaise (inv_afterNoData hi) h0 (hp ▸ rfl)
  · have hi' := inv_afterRead hi hn
    have hst : ((s.afterRead 32).goto .dTree).statusInv := statusInv_goto hi'.status h0 (hp ▸ rfl)
    exact inv_of_plain hi' rfl rfl hi'.sorted rfl hst (.inl rfl) nofun nofun
  · exact inv_afterRaise (inv_afterRead hi hn) h0 (hp ▸ rfl)

/-- In D_TREE the arena, the stack and the root may be anything. -/
theorem inv_inTreeRead {s t : State} (hi : s.inv) (hp : s.phase = .dTree)
    (h : t = { s with node := t.node, ncount := t.ncount, stack := t.stack, root := t.root, place := t.place })
    (hpl : t.place = .top ∨ t.place = .symbol) : t.inv := by
  have hpt : t.phase = .dTree := by rw [h]; exact hp
  have hpl' := (placeInv_dTree hpt).mpr hpl
  rw [h] at hpt hpl' ⊢
  exact inv_of_plain hi rfl rfl hi.sorted rfl hi.status hpl' (fun e => absurd (hp.symm.trans e) nofun) (hp ▸ nofun)

/-- A node returned to the open nodes: the walk starts at a root that is Internal (R115, R116). -/
theorem returnNode_keeps_inv {s : State} (h : Handle) (stack : List Frame) (hi : s.inv) (hp : s.phase = .dTree)
    (hs : s.place = .symbol) : (s.returnNode h stack).inv := by
  have h0 : s.phase.op ≠ 0 := by rw [hp]; decide
  rcases returnNode_cases h stack s with ⟨node, f, rest, _, e⟩ | ⟨node, root, hk, e⟩ | ⟨node, root, _, e⟩ <;> rw [e]
  · exact inv_inTreeRead hi hp rfl (.inl rfl)
  · have hst : (s.goto .dWalk).statusInv := statusInv_goto hi.status h0 (by rw [hp]; rfl)
    obtain ⟨-, -, hc, -, -, hin⟩ := id hi
    have hleaf : decide (node[root.val].kind = .leaf) = false := decide_eq_false hk
    exact ⟨hst, .inl rfl, hc, ⟨hi.sorted, nofun⟩, fun _ => ⟨hleaf, fun _ => hleaf, nofun⟩, hin⟩
  · have hi' : State.inv { s with node := node, stack := [], root := root } :=
      inv_inTreeRead hi hp rfl (.inr hs)
    exact inv_afterRaise hi' h0 (hp ▸ rfl)

theorem readLeaf_keeps_inv {s t : State} {sym : Nat} (hi : s.inv) (hp : s.phase = .dTree)
    (h : readLeaf sym s = .next t) : t.inv := by
  have h0 : s.phase.op ≠ 0 := by rw [hp]; decide
  obtain ⟨hs, ⟨_, rfl⟩ | ⟨_, _, rfl⟩ | ⟨hn, hsym, rfl⟩⟩ := readLeaf_next h
  · exact inv_afterRaise hi h0 (hp ▸ rfl)
  · exact inv_afterRaise hi h0 (hp ▸ rfl)
  · exact returnNode_keeps_inv _ _ (inv_inTreeRead hi hp rfl (.inr hs)) hp hs

theorem readInternal_keeps_inv {s t : State} (hi : s.inv) (hp : s.phase = .dTree)
    (h : readInternal s = .next t) : t.inv := by
  have h0 : s.phase.op ≠ 0 := by rw [hp]; decide
  obtain ⟨hs, ⟨_, rfl⟩ | ⟨hn, rfl⟩⟩ := readInternal_next h
  · exact inv_afterRaise hi h0 (hp ▸ rfl)
  · exact inv_inTreeRead hi hp rfl (.inl hs)

theorem readTreeStep_keeps_inv {s t : State} (hi : s.inv) (hp : s.phase = .dTree)
    (h : readTreeStep s = .next t) : t.inv := by
  have h0 : s.phase.op ≠ 0 := by rw [hp]; decide
  rcases readTreeStep_next hp h with
    rfl | rfl | rfl | ⟨_, hn, v, hr⟩ | ⟨_, hn, ⟨_, rfl⟩ | ⟨_, rfl | hr⟩⟩
  · exact hi
  · exact inv_afterRaise (inv_afterInError hi) h0 (hp ▸ rfl)
  · exact inv_afterRaise (inv_afterNoData hi) h0 (hp ▸ rfl)
  · exact readLeaf_keeps_inv (inv_afterRead hi hn) hp hr
  · exact inv_afterRaise (inv_afterRead hi hn) h0 (hp ▸ rfl)
  · exact inv_inTreeRead (inv_afterRead hi hn) hp rfl (.inr rfl)
  · have hi' : ((s.afterRead 1).moveTo .top).inv := inv_inTreeRead (inv_afterRead hi hn) hp rfl (.inl rfl)
    exact readInternal_keeps_inv hi' hp hr

/-- In D_WALK only the cursor and the place change (R163, R164). -/
theorem inv_inWalk {s t : State} (hi : s.inv) (hp : s.phase = .dWalk)
    (h : t = { s with cur := t.cur, place := t.place })
    (hpl : (t.place = .top ∧ s.isLeaf t.cur = false) ∨
      (t.place = .byte ∧ s.isLeaf t.cur = true ∧ (s.nodeAt t.cur).sym ≠ Config.eof)) : t.inv := by
  obtain ⟨hst, -, hc, ⟨hs, hq⟩, hw, hin⟩ := hi
  obtain ⟨hroot, -⟩ := hw hp
  have hpt : t.phase = .dWalk := by rw [h]; exact hp
  have hpl' : t.placeInv := (placeInv_dWalk hpt).mpr (hpl.imp And.left And.left)
  have hw' : (t.place = .top → s.isLeaf t.cur = false) ∧
      (t.place = .byte → s.isLeaf t.cur = true ∧ (s.nodeAt t.cur).sym ≠ Config.eof) := by
    rcases hpl with ⟨e, hl⟩ | ⟨e, hl⟩
    · exact ⟨fun _ => hl, fun e' => absurd (e.symm.trans e') nofun⟩
    · exact ⟨fun e' => absurd (e.symm.trans e') nofun, fun _ => hl⟩
  rw [h] at hpl' ⊢
  exact ⟨hst, hpl', hc, ⟨hs, fun e => absurd (hp.symm.trans e) nofun⟩, fun _ => ⟨hroot, hw'⟩, hin⟩

theorem walkStep_keeps_inv {s t : State} (hi : s.inv) (hp : s.phase = .dWalk) (h : walkStep s = .next t) :
    t.inv := by
  have h0 : s.phase.op ≠ 0 := by rw [hp]; decide
  obtain ⟨-, hpl, -, -, hw, -⟩ := id hi
  obtain ⟨hroot, -⟩ := hw hp
  rcases walkStep_next h with rfl | ⟨_, rfl | rfl⟩ | ⟨hb, rfl | rfl | ⟨hn, b, rfl⟩⟩
  · exact hi
  · exact inv_afterRaise (inv_afterOutError hi) h0 (hp ▸ rfl)
  · exact inv_inWalk (inv_afterWrite _ hi) hp rfl (.inl ⟨rfl, hroot⟩)
  · exact inv_afterRaise (inv_afterInError hi) h0 (hp ▸ rfl)
  · exact inv_afterRaise (inv_afterNoData hi) h0 (hp ▸ rfl)
  · have hi' := inv_afterRead hi hn
    have htop : s.place = .top := ((placeInv_dWalk hp).mp hpl).resolve_right hb
    rcases walkTo_cases (s.afterRead 1) (s.child s.cur b) with ⟨hl, e⟩ | ⟨_, _, e⟩ | ⟨hl, hs, e⟩ <;> rw [e]
    · exact inv_inWalk hi' hp rfl (.inl ⟨htop, hl⟩)
    · have hst : ((s.afterRead 1).goto .dDone).statusInv := statusInv_goto hi'.status h0 (hp ▸ rfl)
      exact inv_of_plain hi' rfl rfl hi'.sorted rfl hst rfl nofun nofun
    · exact inv_inWalk hi' hp rfl (.inr ⟨rfl, hl, hs⟩)

/-! ### The step of the core -/

/-- Every step of the core keeps the invariant. -/
theorem coreStep_keeps_inv {s t : State} (hi : s.inv) (h : coreStep s = .next t) : t.inv := by
  cases hp : s.phase with
  | idle => rw [coreStep_idle hp] at h; cases h; exact hi
  | cCount => exact countStep_keeps_inv hi hp (coreStep_cCount hp ▸ h)
  | cBuild => exact buildStep_keeps_inv hi hp (coreStep_cBuild hp ▸ h)
  | cMagic => exact magicStep_keeps_inv hi hp (coreStep_cMagic hp ▸ h)
  | cTree => exact writeTreeStep_keeps_inv hi hp (coreStep_cTree hp ▸ h)
  | cCodes => exact codesStep_keeps_inv hi hp (coreStep_cCodes hp ▸ h)
  | cEmit => exact emitStep_keeps_inv hi hp (coreStep_cEmit hp ▸ h)
  | cTerm => exact termStep_keeps_inv hi hp (coreStep_cTerm hp ▸ h)
  | cFlush => exact flushStep_keeps_inv hi (.inl hp) (coreStep_cFlush hp ▸ h)
  | dMagic => exact readMagicStep_keeps_inv hi hp (coreStep_dMagic hp ▸ h)
  | dTree => exact readTreeStep_keeps_inv hi hp (coreStep_dTree hp ▸ h)
  | dWalk => exact walkStep_keeps_inv hi hp (coreStep_dWalk hp ▸ h)
  | dDone => exact flushStep_keeps_inv hi (.inr hp) (coreStep_dDone hp ▸ h)
  | eFlush => exact errorFlushStep_keeps_inv hi hp (coreStep_eFlush hp ▸ h)

/-! ### The host's moves -/

/-- An accepted command runs its operation with nothing raised (R72). -/
theorem statusInv_accept {s : State} {p : Phase} {op : BitVec 2} (h0 : p.op ≠ 0) (hop : p.op = op) :
    ((s.accept op).goto p).statusInv := by
  subst hop
  exact (statusInv_iff_running (s := (s.accept p.op).goto p) h0).mpr ⟨rfl, rfl, rfl, rfl, rfl, rfl⟩

theorem inv_startCompress {s : State} (hi : s.inv) : ((s.accept 0b01).startCompress).inv := by
  have hst : ((s.accept 0b01).goto .cCount).statusInv := statusInv_accept nofun rfl
  exact ⟨hst, .inl rfl, countInv_of_cleared rfl rfl, ⟨hi.sorted, nofun⟩, nofun, hi.input⟩

theorem inv_startDecompress {s : State} (hi : s.inv) : ((s.accept 0b10).startDecompress).inv :=
  inv_of_plain hi rfl rfl hi.sorted rfl (statusInv_accept nofun rfl) rfl nofun nofun

/-- A reset gives every table its reset value and leaves the channels (R200). -/
theorem inv_resetInstance {s : State} (hi : s.inv) : s.resetInstance.inv :=
  inv_of_channels invariantHoldsAtReset hi.input rfl

/-- Everything a move of the host that is not the core's can do (R209): a register access, a command, a channel or a
reset. -/
theorem hostMove_next {s t : State} {m : HostMove} (hm : m ≠ .core) (h : hostMove m s = .next t) :
    t = { s with rej := t.rej, host := t.host, hostData := t.hostData } ∨
    (s.busy = false ∧ (∃ w, m = .write 0x00 4 w ∧
      ((w = 0x00000001#32 ∧ t = (s.accept 0b01).startCompress) ∨
       (w = 0x00000002#32 ∧ t = (s.accept 0b10).startDecompress)))) ∨
    (s.busy = false ∧ ((∃ c : InChannel, t = { s with input := { c with pos := 0 } }) ∨
      ∃ answers, t = { s with output := { bits := [], closed := false, answers := answers } })) ∨
    (m = .reset ∧ t = s.resetInstance) := by
  cases m with
  | core => exact absurd rfl hm
  | write offset width w =>
    by_cases ha : accessAllowed offset width = true
    · by_cases h0 : offset = 0
      · obtain ⟨rfl, -, -⟩ := (accessAllowed_iff _ _).mp ha
        subst h0
        rw [hostMove, hostWrite_cmd] at h
        rcases cmdWrite_cases w s with ⟨hb, hw, e⟩ | ⟨hb, hw, e⟩ | ⟨-, e⟩ <;> rw [e] at h <;> cases h
        · exact .inr (.inl ⟨hb, w, rfl, .inl ⟨hw, rfl⟩⟩)
        · exact .inr (.inl ⟨hb, w, rfl, .inr ⟨hw, rfl⟩⟩)
        · exact .inl rfl
      · rw [hostMove, hostWrite_readOnly w s ha h0] at h
        cases h
        exact .inl rfl
    · rw [hostMove, hostWrite_of_not_allowed w s ha] at h
      cases h
  | read offset width =>
    obtain ⟨-, rfl⟩ := hostRead_next h
    exact .inl rfl
  | poll offset hi lo value =>
    rw [hostMove, hostPoll] at h
    split at h
    · split at h <;> cases h <;> exact .inl rfl
    · cases h
  | chanIn c =>
    by_cases hb : s.busy = true
    · rw [hostMove, hostChanIn_of_busy s c hb] at h
      cases h
    · have hb' := Bool.eq_false_iff.mpr hb
      rw [hostMove, hostChanIn_of_not_busy s c hb'] at h
      cases h
      exact .inr (.inr (.inl ⟨hb', .inl ⟨c, rfl⟩⟩))
  | chanOut answers =>
    by_cases hb : s.busy = true
    · rw [hostMove, hostChanOut_of_busy s answers hb] at h
      cases h
    · have hb' := Bool.eq_false_iff.mpr hb
      rw [hostMove, hostChanOut_of_not_busy s answers hb'] at h
      cases h
      exact .inr (.inr (.inl ⟨hb', .inr ⟨answers, rfl⟩⟩))
  | reset =>
    cases h
    exact .inr (.inr (.inr ⟨rfl, rfl⟩))

/-- A step is the core's, or one of the host's moves at the state it has been taken from. -/
theorem step_next {s t : State} (h : step s = .next t) :
    coreStep s = .next t ∨ ∃ m rest, s.host = m :: rest ∧
      hostMove m { s with host := rest } = .next t := by
  cases hh : s.host with
  | nil => exact .inl (step_of_host_nil hh ▸ h)
  | cons m rest => exact .inr ⟨m, rest, rfl, step_of_host_cons hh ▸ h⟩

theorem hostMove_keeps_inv {s t : State} {m : HostMove} (hi : s.inv) (h : hostMove m s = .next t) : t.inv := by
  by_cases hm : m = .core
  · subst hm
    exact coreStep_keeps_inv hi h
  · rcases hostMove_next hm h with e | ⟨-, w, -, ⟨-, rfl⟩ | ⟨-, rfl⟩⟩ | ⟨-, ⟨c, rfl⟩ | ⟨answers, rfl⟩⟩ | ⟨-, rfl⟩
    · exact inv_of_channels hi (by rw [e]; exact hi.input) (by rw [e])
    · exact inv_startCompress hi
    · exact inv_startDecompress hi
    · exact inv_of_channels hi (Nat.zero_le _) rfl
    · exact inv_of_channels hi hi.input rfl
    · exact inv_resetInstance hi

/-- Settles O53: the core's step phase by phase, and the host's moves. -/
theorem stepKeepsTheInvariant : Obligations.StepKeepsTheInvariant := by
  intro s t hi h
  rcases step_next h with h | ⟨m, rest, -, h⟩
  · exact coreStep_keeps_inv hi h
  · have hi' : State.inv { s with host := rest } := inv_of_channels hi hi.input rfl
    exact hostMove_keeps_inv hi' h

end Sys2Proof.Machine
end

section
/-! PROOFS. What each phase may write: the internal tables (R30 to R36) and `BUSY` (R15). -/

namespace Sys2Proof.Machine

/-- `s` with what a step of any phase may change, taken from `t`: the place in the operation, the error fields, the
counters and the channels. -/
def State.controlOf (t s : State) : State :=
  { s with
    phase := t.phase, place := t.place, errCode := t.errCode, errDetail := t.errDetail
    inBits := t.inBits, outBits := t.outBits, input := t.input, output := t.output, draws := t.draws }

/-- The phases that start with an assignment to the traversal stack (R35). -/
def Phase.traverses : Phase → Bool
  | .cTree | .cCodes | .dTree => true
  | .idle | .cCount | .cBuild | .cMagic | .cEmit | .cTerm | .cFlush | .dMagic | .dWalk | .dDone | .eFlush => false

/-- The step enters no phase that traverses. -/
def EntersNoTraversal (s t : State) : Prop := t.phase = s.phase ∨ t.phase.traverses = false

theorem EntersNoTraversal.ne {s t : State} {q : Phase} (h : EntersNoTraversal s t) (hq : q.traverses = true)
    (hs : s.phase ≠ q) : t.phase ≠ q := by
  rintro rfl
  rcases h with h | h
  · exact hs h.symm
  · exact absurd (h.symm.trans hq) nofun

/-! ### The frame of each phase -/

theorem countStep_frame {s t : State} (h : countStep s = .next t) :
    t = { t.controlOf s with freq := t.freq, len := t.len } ∧ EntersNoTraversal s t := by
  rcases countStep_next h with
    rfl | ⟨_, rfl | ⟨_, rfl⟩⟩ | ⟨_, rfl | rfl | ⟨b, _, ⟨_, rfl⟩ | ⟨_, rfl⟩⟩⟩
  · exact ⟨rfl, .inl rfl⟩
  · exact ⟨rfl, .inr rfl⟩
  · exact ⟨rfl, .inr rfl⟩
  · exact ⟨rfl, .inr rfl⟩
  · exact ⟨rfl, .inl rfl⟩
  · exact ⟨rfl, .inr rfl⟩
  · exact ⟨rfl, .inl rfl⟩

theorem buildStep_frame {s t : State} (h : buildStep s = .next t) :
    t = { t.controlOf s with node := t.node, ncount := t.ncount, root := t.root, pq := t.pq, seq := t.seq } ∧
    EntersNoTraversal s t := by
  rcases buildStep_next h with ⟨_, u, hu, rfl⟩ | ⟨_, a, _, rfl⟩ | ⟨_, a, b, rest, _, _, rfl⟩
  · have hf := buildLeaves_frame hu
    unfold BuildFrame at hf
    rw [hf]
    exact ⟨rfl, .inl rfl⟩
  · exact ⟨rfl, .inr rfl⟩
  · exact ⟨rfl, .inl rfl⟩

theorem magicStep_frame {s t : State} (h : magicStep s = .next t) :
    t = { t.controlOf s with stack := t.stack } ∧
    ((EntersNoTraversal s t ∧ t.stack = s.stack) ∨ (t.phase = .cTree ∧ t.stack = [{ handle := s.root }])) := by
  rcases magicStep_next h with rfl | rfl | rfl
  · exact ⟨rfl, .inl ⟨.inl rfl, rfl⟩⟩
  · exact ⟨rfl, .inl ⟨.inr rfl, rfl⟩⟩
  · exact ⟨rfl, .inr ⟨rfl, rfl⟩⟩

theorem writeTreeStep_frame {s t : State} (hp : s.phase = .cTree) (h : writeTreeStep s = .next t) :
    t = { t.controlOf s with stack := t.stack } ∧
    (EntersNoTraversal s t ∨ (t.phase = .cCodes ∧ t.stack = [{ handle := s.root }])) := by
  rcases writeTreeStep_next hp h with
    ⟨_, rfl⟩ | ⟨f, rest, _, rfl | rfl | ⟨_, _, rfl⟩ | ⟨_, _, rfl⟩ | ⟨_, _, rfl⟩⟩
  · exact ⟨rfl, .inr ⟨rfl, rfl⟩⟩
  · exact ⟨rfl, .inl (.inl rfl)⟩
  · exact ⟨rfl, .inl (.inr rfl)⟩
  · exact ⟨rfl, .inl (.inl rfl)⟩
  · exact ⟨rfl, .inl (.inl rfl)⟩
  · exact ⟨rfl, .inl (.inl rfl)⟩

theorem codesStep_frame {s t : State} (h : codesStep s = .next t) :
    t = { t.controlOf s with stack := t.stack, code := t.code } ∧ EntersNoTraversal s t := by
  rcases codesStep_next h with ⟨_, rfl⟩ | ⟨f, rest, _, ⟨_, rfl⟩ | ⟨_, rfl⟩⟩
  · exact ⟨rfl, .inr rfl⟩
  · exact ⟨rfl, .inl rfl⟩
  · exact ⟨rfl, .inl rfl⟩

theorem emitStep_frame {s t : State} (h : emitStep s = .next t) :
    t = t.controlOf s ∧ EntersNoTraversal s t := by
  rcases emitStep_next h with
    rfl | ⟨b, rest, _, rfl | ⟨_, rfl⟩ | ⟨_, rfl⟩⟩ | ⟨_, rfl | rfl | ⟨b, _, ⟨_, rfl⟩ | ⟨_, rfl⟩⟩⟩
  · exact ⟨rfl, .inl rfl⟩
  · exact ⟨rfl, .inr rfl⟩
  · exact ⟨rfl, .inl rfl⟩
  · exact ⟨rfl, .inl rfl⟩
  · exact ⟨rfl, .inr rfl⟩
  · exact ⟨rfl, .inr rfl⟩
  · exact ⟨rfl, .inr rfl⟩
  · exact ⟨rfl, .inl rfl⟩

theorem termStep_frame {s t : State} (h : termStep s = .next t) :
    t = t.controlOf s ∧ EntersNoTraversal s t := by
  rcases termStep_next h with rfl | ⟨b, rest, _, rfl | ⟨_, rfl⟩ | ⟨_, rfl⟩⟩ | ⟨_, rfl⟩
  · exact ⟨rfl, .inl rfl⟩
  · exact ⟨rfl, .inr rfl⟩
  · exact ⟨rfl, .inr rfl⟩
  · exact ⟨rfl, .inl rfl⟩
  · exact ⟨rfl, .inr rfl⟩

/-- The flushes alone write `BUSY`, `DONE` and `ERROR`. -/
theorem flushStep_frame {s t : State} (h : flushStep s = .next t) :
    t = { t.controlOf s with busy := t.busy, done := t.done, error := t.error } ∧ EntersNoTraversal s t := by
  rcases (flushStep_next h).2 with rfl | rfl | rfl
  · exact ⟨rfl, .inl rfl⟩
  · exact ⟨rfl, .inr rfl⟩
  · exact ⟨rfl, .inr rfl⟩

theorem errorFlushStep_frame {s t : State} (h : errorFlushStep s = .next t) :
    t = { t.controlOf s with busy := t.busy, done := t.done, error := t.error } ∧ EntersNoTraversal s t := by
  rcases (errorFlushStep_next h).2 with rfl | rfl | rfl
  · exact ⟨rfl, .inl rfl⟩
  · exact ⟨rfl, .inr rfl⟩
  · exact ⟨rfl, .inr rfl⟩

theorem readMagicStep_frame {s t : State} (h : readMagicStep s = .next t) :
    t = { t.controlOf s with ncount := t.ncount, stack := t.stack } ∧
    ((EntersNoTraversal s t ∧ t.ncount = s.ncount ∧ t.stack = s.stack) ∨
      (t.phase = .dTree ∧ t.ncount = 0 ∧ t.stack = [])) := by
  rcases readMagicStep_next h with rfl | rfl | rfl | ⟨_, rfl | rfl⟩
  · exact ⟨rfl, .inl ⟨.inl rfl, rfl, rfl⟩⟩
  · exact ⟨rfl, .inl ⟨.inr rfl, rfl, rfl⟩⟩
  · exact ⟨rfl, .inl ⟨.inr rfl, rfl, rfl⟩⟩
  · exact ⟨rfl, .inr ⟨rfl, rfl, rfl⟩⟩
  · exact ⟨rfl, .inl ⟨.inr rfl, rfl, rfl⟩⟩

/-- What a step of D_TREE may write: the arena, the stack, the root and the cursor. -/
structure TreeReadFrame (s t : State) : Prop where
  eq : t = { t.controlOf s with
    node := t.node, ncount := t.ncount, root := t.root, cur := t.cur, stack := t.stack }
  phase : EntersNoTraversal s t

/-- A change of the arena, the place or the input, and then the frame. -/
theorem TreeReadFrame.after {s u t : State} (h : TreeReadFrame u t) (hp : u.phase = s.phase)
    (hu : u = { u.controlOf s with node := u.node, ncount := u.ncount }) : TreeReadFrame s t := by
  obtain ⟨e, hph⟩ := h
  refine ⟨?_, hph.imp_left (·.trans hp)⟩
  rw [e, hu]
  rfl

theorem returnNode_frame (h : Handle) (stack : List Frame) (s : State) : TreeReadFrame s (s.returnNode h stack) := by
  rcases returnNode_cases h stack s with ⟨_, _, _, _, e⟩ | ⟨_, _, _, e⟩ | ⟨_, _, _, e⟩ <;> rw [e]
  · exact ⟨rfl, .inl rfl⟩
  · exact ⟨rfl, .inr rfl⟩
  · exact ⟨rfl, .inr rfl⟩

theorem readLeaf_frame {s t : State} {sym : Nat} (h : readLeaf sym s = .next t) : TreeReadFrame s t := by
  rcases (readLeaf_next h).2 with ⟨_, rfl⟩ | ⟨_, _, rfl⟩ | ⟨_, _, rfl⟩
  · exact ⟨rfl, .inr rfl⟩
  · exact ⟨rfl, .inr rfl⟩
  · exact (returnNode_frame _ _ _).after rfl rfl

theorem readInternal_frame {s t : State} (h : readInternal s = .next t) : TreeReadFrame s t := by
  rcases (readInternal_next h).2 with ⟨_, rfl⟩ | ⟨_, rfl⟩
  · exact ⟨rfl, .inr rfl⟩
  · exact ⟨rfl, .inl rfl⟩

theorem readTreeStep_frame {s t : State} (hp : s.phase = .dTree) (h : readTreeStep s = .next t) :
    TreeReadFrame s t := by
  rcases readTreeStep_next hp h with
    rfl | rfl | rfl | ⟨_, _, v, hr⟩ | ⟨_, _, ⟨_, rfl⟩ | ⟨_, rfl | hr⟩⟩
  · exact ⟨rfl, .inl rfl⟩
  · exact ⟨rfl, .inr rfl⟩
  · exact ⟨rfl, .inr rfl⟩
  · exact (readLeaf_frame hr).after rfl rfl
  · exact ⟨rfl, .inr rfl⟩
  · exact ⟨rfl, .inl rfl⟩
  · exact (readInternal_frame hr).after rfl rfl

theorem walkStep_frame {s t : State} (h : walkStep s = .next t) :
    t = { t.controlOf s with cur := t.cur } ∧ EntersNoTraversal s t := by
  rcases walkStep_next h with rfl | ⟨_, rfl | rfl⟩ | ⟨_, rfl | rfl | ⟨_, b, rfl⟩⟩
  · exact ⟨rfl, .inl rfl⟩
  · exact ⟨rfl, .inr rfl⟩
  · exact ⟨rfl, .inl rfl⟩
  · exact ⟨rfl, .inr rfl⟩
  · exact ⟨rfl, .inr rfl⟩
  · rcases walkTo_cases (s.afterRead 1) (s.child s.cur b) with ⟨_, e⟩ | ⟨_, _, e⟩ | ⟨_, _, e⟩ <;> rw [e]
    · exact ⟨rfl, .inl rfl⟩
    · exact ⟨rfl, .inr rfl⟩
    · exact ⟨rfl, .inl rfl⟩

/-! ### The frame of the core's step -/

/-- Each table, and the flags, by the phases that write them. -/
theorem coreStep_frame {s t : State} (h : coreStep s = .next t) :
    (s.phase ≠ .cFlush → s.phase ≠ .dDone → s.phase ≠ .eFlush → t.busy = s.busy) ∧
    (s.phase ≠ .cCount → t.freq = s.freq ∧ t.len = s.len) ∧
    (s.phase ≠ .cCodes → t.code = s.code) ∧
    (s.phase ≠ .cBuild → t.pq = s.pq ∧ t.seq = s.seq) ∧
    (s.phase ≠ .cBuild → s.phase ≠ .dTree → t.node = s.node ∧ t.root = s.root) ∧
    (s.phase ≠ .dTree → s.phase ≠ .dWalk → t.cur = s.cur) ∧
    (s.phase ≠ .cBuild → s.phase ≠ .dTree → t.phase ≠ .dTree → t.ncount = s.ncount) ∧
    (s.phase ≠ .cTree → s.phase ≠ .cCodes → s.phase ≠ .dTree → t.phase ≠ .cTree → t.phase ≠ .dTree →
      t.stack = s.stack) ∧
    t.lastOp = s.lastOp ∧ t.rej = s.rej ∧ t.hostData = s.hostData ∧ t.host = s.host := by
  cases hp : s.phase with
  | idle => rw [coreStep_idle hp] at h; cases h; simp
  | cCount => rw [coreStep_cCount hp] at h; rw [(countStep_frame h).1]; simp [State.controlOf]
  | cBuild => rw [coreStep_cBuild hp] at h; rw [(buildStep_frame h).1]; simp [State.controlOf]
  | cMagic =>
    obtain ⟨e, hph⟩ := magicStep_frame (coreStep_cMagic hp ▸ h)
    rcases hph with ⟨_, hst⟩ | ⟨hc, _⟩
    · rw [e, hst]
      simp [State.controlOf]
    · rw [e]
      simp [State.controlOf, hc]
  | cTree => rw [coreStep_cTree hp] at h; rw [(writeTreeStep_frame hp h).1]; simp [State.controlOf]
  | cCodes => rw [coreStep_cCodes hp] at h; rw [(codesStep_frame h).1]; simp [State.controlOf]
  | cEmit => rw [coreStep_cEmit hp] at h; rw [(emitStep_frame h).1]; simp [State.controlOf]
  | cTerm => rw [coreStep_cTerm hp] at h; rw [(termStep_frame h).1]; simp [State.controlOf]
  | cFlush => rw [coreStep_cFlush hp] at h; rw [(flushStep_frame h).1]; simp [State.controlOf]
  | dMagic =>
    obtain ⟨e, hph⟩ := readMagicStep_frame (coreStep_dMagic hp ▸ h)
    rcases hph with ⟨_, hn, hst⟩ | ⟨hc, _⟩
    · rw [e, hn, hst]
      simp [State.controlOf]
    · rw [e]
      simp [State.controlOf, hc]
  | dTree => rw [coreStep_dTree hp] at h; rw [(readTreeStep_frame hp h).eq]; simp [State.controlOf]
  | dWalk => rw [coreStep_dWalk hp] at h; rw [(walkStep_frame h).1]; simp [State.controlOf]
  | dDone => rw [coreStep_dDone hp] at h; rw [(flushStep_frame h).1]; simp [State.controlOf]
  | eFlush => rw [coreStep_eFlush hp] at h; rw [(errorFlushStep_frame h).1]; simp [State.controlOf]

/-- What the step that enters `q` has assigned: its stack, and in D_TREE an empty arena (R36). -/
def Phase.EnteredFrom (q : Phase) (s t : State) : Prop :=
  match q with
  | .dTree => t.ncount = 0 ∧ t.stack = []
  | .cTree | .cCodes => t.stack = [{ handle := s.root }]
  | _ => True

/-- A step that enters a phase that traverses makes its assignments. -/
theorem coreStep_enters {s t : State} {q : Phase} (h : coreStep s = .next t) (hq : q.traverses = true)
    (hs : s.phase ≠ q) (ht : t.phase = q) :
    q.EnteredFrom s t := by
  cases hp : s.phase with
  | idle => rw [coreStep_idle hp] at h; cases h; exact absurd ht hs
  | cCount => exact absurd ht ((countStep_frame (coreStep_cCount hp ▸ h)).2.ne hq hs)
  | cBuild => exact absurd ht ((buildStep_frame (coreStep_cBuild hp ▸ h)).2.ne hq hs)
  | cMagic =>
    obtain ⟨e, hph⟩ := magicStep_frame (coreStep_cMagic hp ▸ h)
    rcases hph with ⟨hn, _⟩ | ⟨hc, hst⟩
    · exact absurd ht (hn.ne hq hs)
    · obtain rfl : q = .cTree := ht.symm.trans hc
      exact hst
  | cTree =>
    obtain ⟨e, hph⟩ := writeTreeStep_frame hp (coreStep_cTree hp ▸ h)
    rcases hph with hn | ⟨hc, hst⟩
    · exact absurd ht (hn.ne hq hs)
    · obtain rfl : q = .cCodes := ht.symm.trans hc
      exact hst
  | cCodes => exact absurd ht ((codesStep_frame (coreStep_cCodes hp ▸ h)).2.ne hq hs)
  | cEmit => exact absurd ht ((emitStep_frame (coreStep_cEmit hp ▸ h)).2.ne hq hs)
  | cTerm => exact absurd ht ((termStep_frame (coreStep_cTerm hp ▸ h)).2.ne hq hs)
  | cFlush => exact absurd ht ((flushStep_frame (coreStep_cFlush hp ▸ h)).2.ne hq hs)
  | dMagic =>
    obtain ⟨e, hph⟩ := readMagicStep_frame (coreStep_dMagic hp ▸ h)
    rcases hph with ⟨hn, _⟩ | ⟨hc, hst⟩
    · exact absurd ht (hn.ne hq hs)
    · obtain rfl : q = .dTree := ht.symm.trans hc
      exact hst
  | dTree => exact absurd ht ((readTreeStep_frame hp (coreStep_dTree hp ▸ h)).phase.ne hq hs)
  | dWalk => exact absurd ht ((walkStep_frame (coreStep_dWalk hp ▸ h)).2.ne hq hs)
  | dDone => exact absurd ht ((flushStep_frame (coreStep_dDone hp ▸ h)).2.ne hq hs)
  | eFlush => exact absurd ht ((errorFlushStep_frame (coreStep_eFlush hp ▸ h)).2.ne hq hs)

/-- Settles O58: the frame of each phase, and what the entering steps assign. -/
theorem tablesAreWrittenOnlyInTheirPhases : Obligations.TablesAreWrittenOnlyInTheirPhases := by
  intro s t h
  obtain ⟨-, hcount, hcodes, hqueue, harena, hcur, hncount, hstack, hheld⟩ := coreStep_frame h
  exact ⟨hcount, hcodes, hqueue, harena, hcur, hncount, hstack,
    coreStep_enters h rfl, coreStep_enters h rfl, coreStep_enters h rfl, hheld⟩

/-! ### `BUSY` (R15) -/

/-- What an end of an operation leaves (R16, R189). -/
def State.Ended (t : State) : Prop := t.busy = false ∧ t.phase = .idle ∧ (t.done = true ∨ t.error = true)

theorem flushStep_ends {s t : State} (h : flushStep s = .next t) : t = s ∨ t.Ended := by
  rcases (flushStep_next h).2 with rfl | rfl | rfl
  · exact .inl rfl
  · exact .inr ⟨rfl, rfl, .inr rfl⟩
  · exact .inr ⟨rfl, rfl, .inl rfl⟩

theorem errorFlushStep_ends {s t : State} (h : errorFlushStep s = .next t) : t = s ∨ t.Ended := by
  rcases (errorFlushStep_next h).2 with rfl | rfl | rfl
  · exact .inl rfl
  · exact .inr ⟨rfl, rfl, .inr rfl⟩
  · exact .inr ⟨rfl, rfl, .inr rfl⟩

/-- A step of the core that changes `BUSY` ends the operation. -/
theorem coreStep_ends_of_busy_ne {s t : State} (h : coreStep s = .next t) (hne : s.busy ≠ t.busy) : t.Ended := by
  have of_flush : t = s ∨ t.Ended → t.Ended := fun he => he.resolve_left fun e => hne (e ▸ rfl)
  obtain ⟨hbusy, -⟩ := coreStep_frame h
  by_cases hc : s.phase = .cFlush
  · exact of_flush (flushStep_ends (coreStep_cFlush hc ▸ h))
  by_cases hd : s.phase = .dDone
  · exact of_flush (flushStep_ends (coreStep_dDone hd ▸ h))
  by_cases he : s.phase = .eFlush
  · exact of_flush (errorFlushStep_ends (coreStep_eFlush he ▸ h))
  exact absurd (hbusy hc hd he).symm hne

/-- Settles O56: of the core's steps the ends change `BUSY`, of the host's moves the two commands and a reset. -/
theorem onlyCommandsAndEndsChangeBusy : Obligations.OnlyCommandsAndEndsChangeBusy := by
  intro s t _ h hne
  have of_core : ∀ u, coreStep u = .next t → u.busy = s.busy →
      s.busy = true ∧ t.phase = .idle ∧ (t.done = true ∨ t.error = true) := by
    intro u hu hb
    obtain ⟨hbusy, hidle, hend⟩ := coreStep_ends_of_busy_ne hu (hb ▸ hne)
    exact ⟨by simpa [hbusy] using hne, hidle, hend⟩
  rcases step_next h with h | ⟨m, rest, hh, h⟩
  · obtain ⟨hb, hidle, hend⟩ := of_core s h rfl
    exact .inr ⟨hb, hidle, .inr hend⟩
  by_cases hm : m = .core
  · subst hm
    obtain ⟨hb, hidle, hend⟩ := of_core _ h rfl
    exact .inr ⟨hb, hidle, .inr hend⟩
  · rcases hostMove_next hm h with
      e | ⟨hb, w, rfl, ⟨rfl, rfl⟩ | ⟨rfl, rfl⟩⟩ | ⟨hb, ⟨c, rfl⟩ | ⟨answers, rfl⟩⟩ | ⟨rfl, rfl⟩
    · exact absurd (congrArg State.busy e).symm hne
    · exact .inl ⟨hb, _, rest, hh, .inl ⟨rfl, rfl, rfl⟩, rfl, rfl, rfl, rfl⟩
    · exact .inl ⟨hb, _, rest, hh, .inr ⟨rfl, rfl, rfl⟩, rfl, rfl, rfl, rfl⟩
    · exact absurd rfl hne
    · exact absurd rfl hne
    · exact .inr ⟨Bool.eq_true_of_not_eq_false hne, rfl, .inl ⟨rest, hh⟩⟩

end Sys2Proof.Machine
end

section
/-! PROOFS. Nothing carries over between operations: two runs from idle states that differ only in the internal tables
stay in step, as each phase reads only what the operation itself has written (R36). -/

namespace Sys2Proof.Machine

/-! ### States that agree outside the tables -/

/-- `s` with the internal tables and the place of `u`. -/
def State.tablesOf (u s : State) : State :=
  { s with
    freq := u.freq, len := u.len, node := u.node, ncount := u.ncount, root := u.root, pq := u.pq, seq := u.seq
    code := u.code, cur := u.cur, stack := u.stack, place := u.place }

theorem SameOutside.eq_tablesOf {s t : State} (h : SameOutside s t) : t = t.tablesOf s := h

/-- Functions that let nothing of the tables out keep the agreement outside them. -/
theorem SameOutside.map {s t : State} (h : SameOutside s t) {F G : State → State}
    (hF : ∀ u : State, SameOutside (F s) (G (u.tablesOf s))) : SameOutside (F s) (G t) := by
  rw [h.eq_tablesOf]
  exact hF t

/-- Changes of the tables alone keep the agreement outside them. -/
theorem SameOutside.of_tables {s t s' t' : State} (h : SameOutside s t) (hs : SameOutside s s')
    (ht : SameOutside t t') : SameOutside s' t' := by
  rw [hs.eq_tablesOf, ht.eq_tablesOf, h.eq_tablesOf]
  rfl

theorem SameOutside.input {s t : State} (h : SameOutside s t) : t.input = s.input :=
  (congrArg State.input h.eq_tablesOf :)
theorem SameOutside.output {s t : State} (h : SameOutside s t) : t.output = s.output :=
  (congrArg State.output h.eq_tablesOf :)
theorem SameOutside.busy {s t : State} (h : SameOutside s t) : t.busy = s.busy :=
  (congrArg State.busy h.eq_tablesOf :)
theorem SameOutside.phase {s t : State} (h : SameOutside s t) : t.phase = s.phase :=
  (congrArg State.phase h.eq_tablesOf :)
theorem SameOutside.host {s t : State} (h : SameOutside s t) : t.host = s.host :=
  (congrArg State.host h.eq_tablesOf :)

/-- A read answers both alike. -/
theorem SameOutside.inRead {s t : State} (h : SameOutside s t) (n : Nat) :
    (s.inRead n = .blocked ∧ t.inRead n = .blocked) ∨
    (s.inRead n = .ioError s.afterInError ∧ t.inRead n = .ioError t.afterInError) ∨
    (s.inRead n = .noData s.afterNoData ∧ t.inRead n = .noData t.afterNoData) ∨
    (∃ v, s.inRead n = .value v (s.afterRead n) ∧ t.inRead n = .value v (t.afterRead n)) := by
  have hin := h.input
  rcases inRead_cases s n with ⟨ha, e⟩ | ⟨ha, e⟩ | ⟨ha, hn, e⟩ | ⟨ha, hn, e⟩
  · exact .inl ⟨e, inRead_silent (hin ▸ ha)⟩
  · exact .inr (.inl ⟨e, inRead_ioError (hin ▸ ha)⟩)
  · exact .inr (.inr (.inl ⟨e, inRead_noData (hin ▸ ha) (hin ▸ hn)⟩))
  · refine .inr (.inr (.inr ⟨_, e, ?_⟩))
    have hnext : t.inNext n = s.inNext n := by simp only [State.inNext, hin]
    rw [inRead_value (hin ▸ ha) (hin ▸ hn), hnext]

theorem inRewind_of_not_rewindable {s : State} (ha : nextAnswer s.input.answers = .ok)
    (hr : s.input.rewindable = false) : s.inRewind = .ioError s.afterInError := by
  simp [State.inRewind, ha, hr]
  rfl

/-- A rewind answers both alike. -/
theorem SameOutside.inRewind {s t : State} (h : SameOutside s t) :
    (s.inRewind = .blocked ∧ t.inRewind = .blocked) ∨
    (s.inRewind = .ioError s.afterInError ∧ t.inRewind = .ioError t.afterInError) ∨
    (s.inRewind = .ok s.inAnswered.inRewound ∧ t.inRewind = .ok t.inAnswered.inRewound) := by
  have hin := h.input
  cases ha : nextAnswer s.input.answers with
  | silent => exact .inl ⟨inRewind_silent ha, inRewind_silent (hin ▸ ha)⟩
  | ioError => exact .inr (.inl ⟨inRewind_ioError ha, inRewind_ioError (hin ▸ ha)⟩)
  | ok =>
    cases hr : s.input.rewindable with
    | true => exact .inr (.inr ⟨inRewind_ok ha hr, inRewind_ok (hin ▸ ha) (hin ▸ hr)⟩)
    | false =>
      exact .inr (.inl ⟨inRewind_of_not_rewindable ha hr, inRewind_of_not_rewindable (hin ▸ ha) (hin ▸ hr)⟩)

/-- A flush answers both alike. -/
theorem SameOutside.outFlushClose {s t : State} (h : SameOutside s t) :
    (s.outFlushClose = .closed ∧ t.outFlushClose = .closed) ∨
    (s.outFlushClose = .blocked ∧ t.outFlushClose = .blocked) ∨
    (s.outFlushClose = .ioError s.afterFlushError ∧ t.outFlushClose = .ioError t.afterFlushError) ∨
    (s.outFlushClose = .ok s.afterFlush ∧ t.outFlushClose = .ok t.afterFlush) := by
  have hout := h.output
  rcases outFlushClose_cases s with ⟨hc, e⟩ | ⟨hc, ha, e⟩ | ⟨hc, ha, e⟩ | ⟨hc, ha, e⟩
  · exact .inl ⟨e, if_pos (hout ▸ hc)⟩
  · exact .inr (.inl ⟨e, outFlushClose_silent (hout ▸ hc) (hout ▸ ha)⟩)
  · exact .inr (.inr (.inl ⟨e, outFlushClose_ioError (hout ▸ hc) (hout ▸ ha)⟩))
  · exact .inr (.inr (.inr ⟨e, outFlushClose_ok (hout ▸ hc) (hout ▸ ha)⟩))

/-! ### Related outcomes -/

/-- Two outcomes that are alike, with next states that `R` relates. -/
def Related (R : State → State → Prop) : Result → Result → Prop
  | .next s, .next t => R s t
  | .fault a, .fault b => a = b
  | .refused a, .refused b => a = b
  | _, _ => False

/-- Related by agreement outside the tables, two outcomes are the same to the outside. -/
theorem Related.sameOutcome {R : State → State → Prop} {a b : Result} (h : Related R a b)
    (hR : ∀ s t, R s t → SameOutside s t) : SameOutcome a b := by
  cases a <;> cases b
  case next.next => exact hR _ _ h
  all_goals exact h

/-- A choice by conditions that are alike. -/
theorem rel_ite {α : Type} {R : α → α → Prop} {c d : Prop} [Decidable c] [Decidable d] {a b a' b' : α}
    (hcd : d ↔ c) (ha : c → R a b) (hb : ¬ c → R a' b') : R (if c then a else a') (if d then b else b') := by
  by_cases hc : c
  · rw [if_pos hc, if_pos (hcd.mpr hc)]
    exact ha hc
  · rw [if_neg hc, if_neg (fun hd => hc (hcd.mp hd))]
    exact hb hc

/-! ### Arenas that agree -/

/-- Two arenas agree below `n`: on each node's kind, on a leaf's symbol, and on the children of an Internal node, which
stand below `n`; of an open node only a child that has been filled in counts (R111, R115). -/
structure ArenaAgrees (opened : List Frame) (n : Nat) (a b : Vector Node 513) : Prop where
  kind : ∀ h : Handle, h.val < n → b[h.val].kind = a[h.val].kind
  sym : ∀ h : Handle, h.val < n → a[h.val].kind = .leaf → b[h.val].sym = a[h.val].sym
  children : ∀ h : Handle, h.val < n → a[h.val].kind = .internal → (∀ f ∈ opened, f.handle ≠ h) →
    (b[h.val].left = a[h.val].left ∧ a[h.val].left.val < n) ∧
    (b[h.val].right = a[h.val].right ∧ a[h.val].right.val < n)
  opened_lt : ∀ f ∈ opened, f.handle.val < n
  left : ∀ f ∈ opened, f.side = .right →
    b[f.handle.val].left = a[f.handle.val].left ∧ a[f.handle.val].left.val < n

theorem arenaAgrees_zero (a b : Vector Node 513) : ArenaAgrees [] 0 a b where
  kind _ hh := absurd hh (Nat.not_lt_zero _)
  sym _ hh := absurd hh (Nat.not_lt_zero _)
  children _ hh := absurd hh (Nat.not_lt_zero _)
  opened_lt _ hf := absurd hf List.not_mem_nil
  left _ hf := absurd hf List.not_mem_nil

/-- Entry `k` is written in both, and the open nodes `o` become `o'`: where the new entries agree as far as `o'` asks of
them, and no other node is closed, the arenas agree again. -/
theorem ArenaAgrees.set {o o' : List Frame} {n m : Nat} {a b : Vector Node 513} {k : Handle} {x y : Node}
    (h : ArenaAgrees o n a b) (hnm : n ≤ m) (hm : ∀ i : Handle, i.val < m → i ≠ k → i.val < n)
    (hkind : y.kind = x.kind) (hsym : x.kind = .leaf → y.sym = x.sym)
    (hchildren : x.kind = .internal → (∀ f ∈ o', f.handle ≠ k) →
      (y.left = x.left ∧ x.left.val < m) ∧ (y.right = x.right ∧ x.right.val < m))
    (hsub : ∀ i : Handle, i ≠ k → (∀ f ∈ o', f.handle ≠ i) → ∀ f ∈ o, f.handle ≠ i)
    (hlt : ∀ f ∈ o', f.handle.val < m)
    (hold : ∀ f ∈ o', f.handle ≠ k → f ∈ o)
    (hleft : ∀ f ∈ o', f.handle = k → f.side = .right → y.left = x.left ∧ x.left.val < m) :
    ArenaAgrees o' m (a.set k.val x) (b.set k.val y) := by
  have same : ∀ (v : Vector Node 513) (z : Node), (v.set k.val z)[k.val] = z := fun v z => Vector.getElem_set_self _
  have other : ∀ (v : Vector Node 513) (z : Node) (i : Handle), i ≠ k → (v.set k.val z)[i.val] = v[i.val] :=
    fun v z i hi => Vector.getElem_set_ne _ _ (fun e => hi (Fin.ext e.symm))
  refine ⟨fun i hi => ?_, fun i hi => ?_, fun i hi => ?_, hlt, fun f hf => ?_⟩
  · by_cases hik : i = k
    · subst hik
      rw [same, same]
      exact hkind
    · rw [other _ _ _ hik, other _ _ _ hik]
      exact h.kind i (hm i hi hik)
  · by_cases hik : i = k
    · subst hik
      rw [same, same]
      exact hsym
    · rw [other _ _ _ hik, other _ _ _ hik]
      exact h.sym i (hm i hi hik)
  · by_cases hik : i = k
    · subst hik
      rw [same, same]
      exact hchildren
    · rw [other _ _ _ hik, other _ _ _ hik]
      intro hin hop
      obtain ⟨⟨el, hl⟩, er, hr⟩ := h.children i (hm i hi hik) hin (hsub i hik hop)
      exact ⟨⟨el, Nat.lt_of_lt_of_le hl hnm⟩, er, Nat.lt_of_lt_of_le hr hnm⟩
  · by_cases hfk : f.handle = k
    · subst hfk
      rw [same, same]
      exact hleft f hf rfl
    · rw [other _ _ _ hfk, other _ _ _ hfk]
      intro hs
      obtain ⟨el, hl⟩ := h.left f (hold f hf hfk) hs
      exact ⟨el, Nat.lt_of_lt_of_le hl hnm⟩

theorem ArenaAgrees.opened_ne {o : List Frame} {n : Nat} {a b : Vector Node 513} (h : ArenaAgrees o n a b)
    (hn : n < 513) : ∀ f ∈ o, f.handle ≠ ⟨n, hn⟩ :=
  fun f hf e => Nat.ne_of_lt (h.opened_lt f hf) (congrArg Fin.val e)

/-- A handle below the incremented `NCOUNT` that is not the new one is an old one. -/
theorem lt_of_lt_succ_of_ne {n : Nat} {i : Handle} (hn : n < 513) (hi : i.val < n + 1) (hne : i ≠ ⟨n, hn⟩) :
    i.val < n :=
  Nat.lt_of_le_of_ne (Nat.le_of_lt_succ hi) fun e => hne (Fin.ext e)

/-- A node is allocated in both, closed. -/
theorem ArenaAgrees.alloc {o : List Frame} {n : Nat} {a b : Vector Node 513} {x y : Node}
    (h : ArenaAgrees o n a b) (hn : n < 513) (hkind : y.kind = x.kind) (hsym : x.kind = .leaf → y.sym = x.sym)
    (hchildren : x.kind = .internal →
      (y.left = x.left ∧ x.left.val < n + 1) ∧ (y.right = x.right ∧ x.right.val < n + 1)) :
    ArenaAgrees o (n + 1) (a.set n x) (b.set n y) :=
  h.set (k := ⟨n, hn⟩) (Nat.le_succ n) (fun _ => lt_of_lt_succ_of_ne hn) hkind hsym (fun hin _ => hchildren hin) (fun _ _ hop => hop)
    (fun f hf => Nat.lt_succ_of_lt (h.opened_lt f hf)) (fun _ hf _ => hf)
    (fun f hf e => absurd e (h.opened_ne hn f hf))

/-- A node is opened in both. -/
theorem ArenaAgrees.pushOpened {o : List Frame} {n : Nat} {a b : Vector Node 513} {x y : Node}
    (h : ArenaAgrees o n a b) (hn : n < 513) (hx : x.kind = .internal) (hy : y.kind = .internal) :
    ArenaAgrees ({ handle := ⟨n, hn⟩ } :: o) (n + 1) (a.set n x) (b.set n y) := by
  refine h.set (k := ⟨n, hn⟩) (Nat.le_succ n) (fun _ => lt_of_lt_succ_of_ne hn)
    (hy.trans hx.symm) (fun hl => absurd (hx.symm.trans hl) nofun)
    (fun _ hop => absurd rfl (hop _ List.mem_cons_self))
    (fun _ _ hop f hf => hop f (List.mem_cons_of_mem _ hf)) (fun f hf => ?_) (fun f hf hfk => ?_) (fun f hf hfk => ?_)
  · rcases List.mem_cons.mp hf with rfl | hf
    · exact Nat.lt_succ_self n
    · exact Nat.lt_succ_of_lt (h.opened_lt f hf)
  · rcases List.mem_cons.mp hf with rfl | hf
    · exact absurd rfl hfk
    · exact hf
  · rcases List.mem_cons.mp hf with rfl | hf
    · exact nofun
    · exact absurd hfk (h.opened_ne hn f hf)

/-- The left child of the innermost open node is filled in. -/
theorem ArenaAgrees.setLeft {f : Frame} {o : List Frame} {n : Nat} {a b : Vector Node 513} {c : Handle}
    (h : ArenaAgrees (f :: o) n a b) (hc : c.val < n) :
    ArenaAgrees ({ f with side := .right } :: o) n (a.set f.handle.val { a[f.handle.val] with left := c })
      (b.set f.handle.val { b[f.handle.val] with left := c }) := by
  have hk := h.opened_lt f List.mem_cons_self
  refine h.set (Nat.le_refl n) (fun _ hi _ => hi) (h.kind _ hk) (h.sym _ hk)
    (fun _ hop => absurd rfl (hop { f with side := .right } List.mem_cons_self)) (fun i _ hop g hg => ?_)
    (fun g hg => ?_) (fun g hg hgk => ?_) (fun _ _ _ _ => ⟨rfl, hc⟩)
  · rcases List.mem_cons.mp hg with rfl | hg
    · exact hop { g with side := .right } List.mem_cons_self
    · exact hop g (List.mem_cons_of_mem _ hg)
  · rcases List.mem_cons.mp hg with rfl | hg
    · exact hk
    · exact h.opened_lt g (List.mem_cons_of_mem _ hg)
  · rcases List.mem_cons.mp hg with rfl | hg
    · exact absurd rfl hgk
    · exact List.mem_cons_of_mem _ hg

/-- The right child of the innermost open node is filled in, and the node is closed. -/
theorem ArenaAgrees.setRight {f : Frame} {o : List Frame} {n : Nat} {a b : Vector Node 513} {c : Handle}
    (h : ArenaAgrees (f :: o) n a b) (hf : f.side = .right) (hc : c.val < n) :
    ArenaAgrees o n (a.set f.handle.val { a[f.handle.val] with right := c })
      (b.set f.handle.val { b[f.handle.val] with right := c }) := by
  have hk := h.opened_lt f List.mem_cons_self
  refine h.set (Nat.le_refl n) (fun _ hi _ => hi) (h.kind _ hk) (h.sym _ hk)
    (fun _ _ => ⟨h.left f List.mem_cons_self hf, rfl, hc⟩) (fun i hi hop g hg => ?_)
    (fun g hg => h.opened_lt g (List.mem_cons_of_mem _ hg)) (fun g hg _ => List.mem_cons_of_mem _ hg)
    (fun g hg hgk hs => ?_)
  · rcases List.mem_cons.mp hg with rfl | hg
    · exact fun e => hi e.symm
    · exact hop g hg
  · have hleft := h.left g (List.mem_cons_of_mem _ hg) hs
    simp only [hgk] at hleft
    exact hleft

/-! ### What the running operation has written -/

/-- The counters and the codes agree (R30, R33). -/
structure CountsAgree (s t : State) : Prop where
  freq : t.freq = s.freq
  len : t.len = s.len
  code : t.code = s.code

/-- The arena and the queue of BUILD agree (R31, R32). -/
structure QueueAgrees (s t : State) : Prop where
  ncount : t.ncount = s.ncount
  arena : ArenaAgrees [] s.ncount.val s.node t.node
  pq : t.pq = s.pq
  seq : t.seq = s.seq
  handles : ∀ e ∈ s.pq, e.handle.val < s.ncount.val

/-- The finished tree agrees (R31). -/
structure TreeAgrees (s t : State) : Prop where
  ncount : t.ncount = s.ncount
  arena : ArenaAgrees [] s.ncount.val s.node t.node
  root : t.root = s.root
  root_lt : s.root.val < s.ncount.val

/-- The stack of a traversal agrees, and holds handles of the tree (R35). -/
structure StackAgrees (s t : State) : Prop where
  stack : t.stack = s.stack
  handles : ∀ f ∈ s.stack, f.handle.val < s.ncount.val

/-- The cursor agrees: it stands at an Internal node, or at the leaf whose byte is due (R34). -/
structure CursorAgrees (s t : State) : Prop where
  cur : t.cur = s.cur
  cur_lt : s.cur.val < s.ncount.val
  root_internal : s.isLeaf s.root = false
  cur_internal : s.place ≠ .byte → s.isLeaf s.cur = false
  cur_leaf : s.place = .byte → s.isLeaf s.cur = true

/-- What two operations in phase `p` have written alike, of all that the phase and the ones after it read. -/
def AgreeIn : Phase → State → State → Prop
  | .idle, _, _ | .cFlush, _, _ | .dMagic, _, _ | .dDone, _, _ | .eFlush, _, _ => True
  | .cCount, s, t => t.place = s.place ∧ CountsAgree s t
  | .cBuild, s, t => t.place = s.place ∧ CountsAgree s t ∧ (s.place = .merge → QueueAgrees s t)
  | .cMagic, s, t => t.code = s.code ∧ TreeAgrees s t
  | .cTree, s, t => t.place = s.place ∧ t.code = s.code ∧ TreeAgrees s t ∧ StackAgrees s t
  | .cCodes, s, t => t.code = s.code ∧ TreeAgrees s t ∧ StackAgrees s t
  | .cEmit, s, t => t.place = s.place ∧ t.code = s.code
  | .cTerm, s, t => t.place = s.place
  | .dTree, s, t =>
    t.place = s.place ∧ t.ncount = s.ncount ∧ t.stack = s.stack ∧ ArenaAgrees s.stack s.ncount.val s.node t.node
  | .dWalk, s, t => t.place = s.place ∧ TreeAgrees s t ∧ CursorAgrees s t

/-- The relation that two runs keep: agreement outside the tables, and on what the operation has written. -/
structure Agree (s t : State) : Prop where
  same : SameOutside s t
  tables : AgreeIn s.phase s t

theorem Agree.of {s t : State} (p : Phase) (hp : s.phase = p) (hs : SameOutside s t) (ha : AgreeIn p s t) :
    Agree s t :=
  ⟨hs, hp ▸ ha⟩

/-- The agreement is on the tables alone. -/
theorem AgreeIn.tablesOf {p : Phase} {s t : State} (u v : State) (h : AgreeIn p s t) :
    AgreeIn p (s.tablesOf u) (t.tablesOf v) := by
  have counts : CountsAgree s t → CountsAgree (s.tablesOf u) (t.tablesOf v) := fun h => ⟨h.freq, h.len, h.code⟩
  have queue : QueueAgrees s t → QueueAgrees (s.tablesOf u) (t.tablesOf v) := fun h =>
    ⟨h.ncount, h.arena, h.pq, h.seq, h.handles⟩
  have tree : TreeAgrees s t → TreeAgrees (s.tablesOf u) (t.tablesOf v) := fun h =>
    ⟨h.ncount, h.arena, h.root, h.root_lt⟩
  have stack : StackAgrees s t → StackAgrees (s.tablesOf u) (t.tablesOf v) := fun h => ⟨h.stack, h.handles⟩
  have cursor : CursorAgrees s t → CursorAgrees (s.tablesOf u) (t.tablesOf v) := fun h =>
    ⟨h.cur, h.cur_lt, h.root_internal, h.cur_internal, h.cur_leaf⟩
  cases p with
  | idle | cFlush | dMagic | dDone | eFlush => trivial
  | cCount => exact h.imp_right counts
  | cBuild => exact h.imp_right (And.imp counts fun hq hm => queue (hq hm))
  | cMagic => exact h.imp_right tree
  | cTree => exact h.imp_right (And.imp_right (And.imp tree stack))
  | cCodes => exact h.imp_right (And.imp tree stack)
  | dWalk => exact h.imp_right (And.imp tree cursor)
  | cEmit | cTerm | dTree => exact h

/-- A change outside the tables and the phase, that reads no table. -/
theorem Agree.outside {s t : State} (h : Agree s t) (F : State → State)
    (hF : ∀ u v : State, F (u.tablesOf v) = u.tablesOf (F v)) (hp : (F s).phase = s.phase) :
    Agree (F s) (F t) := by
  have hs : F s = s.tablesOf (F s) := hF s s
  have ht : F t = t.tablesOf (F t) := hF t t
  refine ⟨h.same.map fun u => (hF u s).symm ▸ rfl, ?_⟩
  rw [hp, hs, ht]
  exact h.tables.tablesOf _ _

section
variable {s t : State} (h : SameOutside s t)
include h

theorem SameOutside.afterRead (n : Nat) : SameOutside (s.afterRead n) (t.afterRead n) := h.map fun _ => rfl
theorem SameOutside.afterInError : SameOutside s.afterInError t.afterInError := h.map fun _ => rfl
theorem SameOutside.afterNoData : SameOutside s.afterNoData t.afterNoData := h.map fun _ => rfl
theorem SameOutside.inAnswered : SameOutside s.inAnswered t.inAnswered := h.map fun _ => rfl
theorem SameOutside.inRewound : SameOutside s.inRewound t.inRewound := h.map fun _ => rfl
theorem SameOutside.afterWrite (bits : List Bool) : SameOutside (s.afterWrite bits) (t.afterWrite bits) :=
  h.map fun _ => rfl
theorem SameOutside.afterOutError : SameOutside s.afterOutError t.afterOutError := h.map fun _ => rfl
theorem SameOutside.afterFlush : SameOutside s.afterFlush t.afterFlush := h.map fun _ => rfl
theorem SameOutside.afterFlushError : SameOutside s.afterFlushError t.afterFlushError := h.map fun _ => rfl
theorem SameOutside.goto (p : Phase) : SameOutside (s.goto p) (t.goto p) := h.map fun _ => rfl
theorem SameOutside.complete : SameOutside s.complete t.complete := h.map fun _ => rfl
theorem SameOutside.endError : SameOutside s.endError t.endError := h.map fun _ => rfl
theorem SameOutside.accept (op : BitVec 2) : SameOutside (s.accept op) (t.accept op) := h.map fun _ => rfl

/-- E_FLUSH reads no table. -/
theorem SameOutside.afterRaise (e : ErrCode) (d : BitVec 4) : Agree (s.afterRaise e d) (t.afterRaise e d) :=
  ⟨h.map fun _ => rfl, trivial⟩

end

/-- A write answers both alike, and so does what follows it where that is alike. -/
theorem Agree.writeThen {s t : State} {n v : Nat} {k k' : State → Result} (h : Agree s t)
    (hk : Related Agree (k (s.afterWrite (bitsOf n v))) (k' (t.afterWrite (bitsOf n v)))) :
    Related Agree (s.writeThen n v k) (t.writeThen n v k') := by
  have hout := h.same.output
  rcases writeThen_cases s n v k with ⟨hc, e⟩ | ⟨hc, ha, e⟩ | ⟨hc, ha, e⟩ | ⟨hc, ha, e⟩ <;> rw [e]
  · rw [writeThen_closed n v k' (hout ▸ hc)]
    exact rfl
  · rw [writeThen_silent n v k' (hout ▸ hc) (hout ▸ ha)]
    exact h
  · rw [writeThen_ioError n v k' (hout ▸ hc) (hout ▸ ha)]
    exact h.same.afterOutError.afterRaise _ _
  · rw [writeThen_ok n v k' (hout ▸ hc) (hout ▸ ha)]
    exact hk

/-! ### The phases of COMPRESS -/

theorem countByte_agree {s t : State} (b : Byte) (hp : s.phase = .cCount) (h : Agree s t) :
    Agree (s.countByte b) (t.countByte b) := by
  obtain ⟨hs, ha⟩ := h
  rw [hp] at ha
  obtain ⟨hpl, hf, hl, hc⟩ := ha
  refine rel_ite (by rw [hl]) (fun _ => hs.afterRaise _ _) (fun _ => ?_)
  exact .of .cCount hp (hs.of_tables rfl rfl) ⟨hpl, by simp only [State.freqAt, hf], by simp only [hl], hc⟩

theorem countStep_agree {s t : State} (hp : s.phase = .cCount) (h : Agree s t) :
    Related Agree (countStep s) (countStep t) := by
  have ⟨hs, ha⟩ := h
  rw [hp] at ha
  obtain ⟨hpl, hf, hl, hc⟩ := ha
  refine rel_ite (by rw [hpl]) (fun _ => ?_) (fun _ => ?_)
  · rcases hs.inRewind with ⟨e, e'⟩ | ⟨e, e'⟩ | ⟨e, e'⟩ <;> rw [e, e']
    · exact h
    · exact hs.afterInError.afterRaise _ _
    · exact Agree.of .cBuild rfl (hs.inAnswered.inRewound.goto .cBuild) ⟨rfl, ⟨hf, hl, hc⟩, nofun⟩
  · rcases hs.inRead 8 with ⟨e, e'⟩ | ⟨e, e'⟩ | ⟨e, e'⟩ | ⟨v, e, e'⟩ <;> rw [e, e']
    · exact h
    · exact hs.afterInError.afterRaise _ _
    · exact Agree.of .cCount hp (hs.afterNoData.of_tables rfl rfl) ⟨rfl, hf, hl, hc⟩
    · have h' : Agree (s.afterRead 8) (t.afterRead 8) := .of .cCount hp (hs.afterRead 8) ⟨hpl, hf, hl, hc⟩
      exact countByte_agree _ hp h'

/-- What the steps of C_BUILD change agrees, and what they read. -/
structure BuildAgrees (s t : State) : Prop extends QueueAgrees s t where
  freq : t.freq = s.freq
  len : t.len = s.len

/-- A leaf goes into both, or into neither. -/
theorem insertLeaf_agrees {s t : State} (h : BuildAgrees s t) (x : Symbol) (w : Word) :
    Option.Rel BuildAgrees (s.insertLeaf x w) (t.insertLeaf x w) := by
  obtain ⟨⟨hn, harena, hpq, hseq, hh⟩, hf, hl⟩ := h
  by_cases hlt : s.ncount.val < 513
  · have hlt' : t.ncount.val < 513 := hn ▸ hlt
    rw [insertLeaf_of_lt s x w hlt, insertLeaf_of_lt t x w hlt']
    refine .some ⟨⟨?_, ?_, ?_, ?_, ?_⟩, hf, hl⟩
    · simp only [hn]
    · simp only [hn]
      exact harena.alloc hlt rfl (fun _ => rfl) nofun
    · simp only [hn, hpq, hseq]
    · simp only [hseq]
    · intro e he
      rcases mem_pqInsert.mp he with rfl | he
      · exact Nat.lt_succ_self _
      · exact Nat.lt_succ_of_lt (hh e he)
  · rw [insertLeaf_full s x w hlt, insertLeaf_full t x w (hn ▸ hlt)]
    exact .none

/-- What an `Option.Rel` can be. -/
theorem optionRel_cases {α : Type} {R : α → α → Prop} {a b : Option α} (h : Option.Rel R a b) :
    (a = none ∧ b = none) ∨ ∃ u v, a = some u ∧ b = some v ∧ R u v := by
  cases h with
  | none => exact .inl ⟨rfl, rfl⟩
  | some h => exact .inr ⟨_, _, rfl, rfl, h⟩

theorem insertLeaves_agrees (bs : List Byte) {s t : State} (h : BuildAgrees s t) :
    Option.Rel BuildAgrees (insertLeaves bs s) (insertLeaves bs t) := by
  induction bs generalizing s t with
  | nil => exact .some h
  | cons b bs ih =>
    have hb : t.freqAt b = s.freqAt b := by simp only [State.freqAt, h.freq]
    simp only [insertLeaves, hb]
    refine rel_ite Iff.rfl (fun _ => ih h) (fun _ => ?_)
    rcases optionRel_cases (insertLeaf_agrees h (byteSymbol b) (s.freqAt b)) with ⟨e, e'⟩ | ⟨u, v, e, e', h'⟩ <;>
      rw [e, e']
    · exact .none
    · exact ih h'

theorem insertPadding_agrees {s t : State} (h : BuildAgrees s t) :
    Option.Rel BuildAgrees s.insertPadding t.insertPadding :=
  rel_ite (by rw [h.len]) (fun _ => insertLeaf_agrees h 0 0) (fun _ => .some h)

/-- The first step of C_BUILD starts from an empty arena and an empty queue (R101). -/
theorem buildLeaves_agrees {s t : State} (h : CountsAgree s t) :
    Option.Rel BuildAgrees s.buildLeaves t.buildLeaves := by
  have hstart : BuildAgrees s.buildStart t.buildStart :=
    ⟨⟨rfl, arenaAgrees_zero _ _, rfl, rfl, nofun⟩, h.freq, h.len⟩
  unfold State.buildLeaves
  rcases optionRel_cases (insertLeaves_agrees allBytes hstart) with ⟨e, e'⟩ | ⟨u, v, e, e', h'⟩ <;> rw [e, e']
  · exact .none
  · rcases optionRel_cases (insertPadding_agrees h') with ⟨e, e'⟩ | ⟨u, v, e, e', h'⟩ <;> simp only [e, e']
    · exact .none
    · exact insertLeaf_agrees h' Config.eof 1

/-- A merge joins the same two entries in both, or finds both arenas full. -/
theorem mergeTwo_agrees {s t : State} {x y : PqEntry} {rest : List PqEntry} (h : QueueAgrees s t)
    (hpq : s.pq = x :: y :: rest) :
    Option.Rel QueueAgrees (s.mergeTwo x y rest) (t.mergeTwo x y rest) := by
  obtain ⟨hn, harena, -, hseq, hh⟩ := h
  rw [hpq] at hh
  by_cases hlt : s.ncount.val < 513
  · have hlt' : t.ncount.val < 513 := hn ▸ hlt
    have hx := Nat.lt_succ_of_lt (hh x (by simp))
    have hy := Nat.lt_succ_of_lt (hh y (by simp))
    simp only [State.mergeTwo, alloc_of_lt s _ hlt, alloc_of_lt t _ hlt', State.insert]
    refine .some ⟨?_, ?_, ?_, ?_, ?_⟩
    · simp only [hn]
    · simp only [hn]
      exact harena.alloc hlt rfl nofun (fun _ => ⟨⟨rfl, hx⟩, rfl, hy⟩)
    · simp [hn, hseq, State.nodeAt, Node.asInternal]
    · simp only [hseq]
    · intro e he
      rcases mem_pqInsert.mp he with rfl | he
      · exact Nat.lt_succ_self _
      · exact Nat.lt_succ_of_lt (hh e (by simp [he]))
  · have hf : s.ncount.val = 513 := by omega
    have hf' : t.ncount.val = 513 := hn ▸ hf
    simp only [State.mergeTwo, alloc_full s _ hf, alloc_full t _ hf']
    exact .none

theorem mergeTwo_frame {s u : State} {x y : PqEntry} {rest : List PqEntry} (h : s.mergeTwo x y rest = some u) :
    BuildFrame s u := by
  by_cases hlt : s.ncount.val < 513
  · simp only [State.mergeTwo, alloc_of_lt s _ hlt, Option.some.injEq] at h
    subst h
    rfl
  · have hf : s.ncount.val = 513 := by omega
    simp only [State.mergeTwo, alloc_full s _ hf] at h
    cases h

theorem BuildFrame.sameOutside {s u : State} (h : BuildFrame s u) : SameOutside s u := by
  unfold BuildFrame at h
  rw [h]
  rfl

/-- BUILD leaves what C_COUNT and the command have written. -/
theorem BuildFrame.counts {s t u v : State} (hu : BuildFrame s u) (hv : BuildFrame t v) (h : CountsAgree s t) :
    CountsAgree u v := by
  unfold BuildFrame at hu hv
  rw [hu, hv]
  exact ⟨h.freq, h.len, h.code⟩

/-- A step of C_BUILD that goes on merging. -/
theorem agree_merging {s t u v : State} (hs : SameOutside s t) (hp : s.phase = .cBuild) (hc : CountsAgree s t)
    (hu : BuildFrame s u) (hv : BuildFrame t v) (hq : QueueAgrees u v) :
    Agree (u.moveTo .merge) (v.moveTo .merge) := by
  have huv : SameOutside u v := hs.of_tables hu.sameOutside hv.sameOutside
  have hpu : u.phase = .cBuild := hu.sameOutside.phase.trans hp
  obtain ⟨hf, hl, hcode⟩ := hu.counts hv hc
  exact .of .cBuild hpu (huv.of_tables rfl rfl)
    ⟨rfl, ⟨hf, hl, hcode⟩, fun _ => ⟨hq.ncount, hq.arena, hq.pq, hq.seq, hq.handles⟩⟩

theorem BuildFrame.place {s u : State} (h : BuildFrame s u) : u.place = s.place := by
  unfold BuildFrame at h
  rw [h]

theorem buildStep_agree {s t : State} (hp : s.phase = .cBuild) (h : Agree s t) :
    Related Agree (buildStep s) (buildStep t) := by
  obtain ⟨hs, ha⟩ := h
  rw [hp] at ha
  obtain ⟨hpl, hc, hq⟩ := ha
  refine rel_ite (by rw [hpl]) (fun hm => ?_) (fun _ => ?_)
  · have hq := hq hm
    rw [hq.pq]
    rcases hpq : s.pq with _ | ⟨x, _ | ⟨y, rest⟩⟩
    · exact rfl
    · have hx : x.handle.val < s.ncount.val := hq.handles x (by simp [hpq])
      exact Agree.of .cMagic rfl ((hs.goto .cMagic).of_tables rfl rfl) ⟨hc.code, hq.ncount, hq.arena, rfl, hx⟩
    · rcases optionRel_cases (mergeTwo_agrees hq hpq) with ⟨e, e'⟩ | ⟨u, v, e, e', h'⟩ <;> simp only [e, e']
      · exact rfl
      · have hu := mergeTwo_frame e
        have hv := mergeTwo_frame e'
        have hmerge := agree_merging hs hp hc hu hv h'
        rwa [moveTo_self (hu.place.trans hm), moveTo_self (hv.place.trans (hpl.trans hm))] at hmerge
  · rcases optionRel_cases (buildLeaves_agrees hc) with ⟨e, e'⟩ | ⟨u, v, e, e', h'⟩ <;> simp only [e, e']
    · exact rfl
    · exact agree_merging hs hp hc (buildLeaves_frame e) (buildLeaves_frame e') h'.toQueueAgrees

/-- Nodes of the tree are of the same kind. -/
theorem TreeAgrees.isLeaf {s t : State} (h : TreeAgrees s t) {k : Handle} (hk : k.val < s.ncount.val) :
    t.isLeaf k = s.isLeaf k :=
  decide_eq_decide.mpr (by rw [State.nodeAt, h.arena.kind k hk]; rfl)

theorem TreeAgrees.sym {s t : State} (h : TreeAgrees s t) {k : Handle} (hk : k.val < s.ncount.val)
    (hl : s.isLeaf k = true) : (t.nodeAt k).sym = (s.nodeAt k).sym :=
  h.arena.sym k hk (of_decide_eq_true hl)

/-- Internal nodes of the tree have the same children, of the tree. -/
theorem TreeAgrees.children {s t : State} (h : TreeAgrees s t) {k : Handle} (hk : k.val < s.ncount.val)
    (hl : s.isLeaf k = false) :
    ((t.nodeAt k).left = (s.nodeAt k).left ∧ (s.nodeAt k).left.val < s.ncount.val) ∧
    ((t.nodeAt k).right = (s.nodeAt k).right ∧ (s.nodeAt k).right.val < s.ncount.val) := by
  have hkind : s.node[k.val].kind = .internal := by
    cases e : s.node[k.val].kind with
    | internal => rfl
    | leaf => exact absurd (hl.symm.trans (decide_eq_true e)) nofun
  exact h.arena.children k hk hkind nofun

theorem TreeAgrees.recordOf {s t : State} (h : TreeAgrees s t) {k : Handle} (hk : k.val < s.ncount.val) :
    t.recordOf k = s.recordOf k := by
  simp only [State.recordOf, h.isLeaf hk]
  refine rel_ite Iff.rfl (fun hl => ?_) (fun _ => rfl)
  rw [h.sym hk hl]

/-- The children take the node's place on both stacks. -/
theorem StackAgrees.descend {s t : State} {f : Frame} {rest : List Frame} (ht : TreeAgrees s t)
    (h : StackAgrees s t) (hst : s.stack = f :: rest) (hl : s.isLeaf f.handle = false) :
    StackAgrees (s.descend f rest) (t.descend f rest) := by
  obtain ⟨-, hh⟩ := h
  rw [hst] at hh
  obtain ⟨⟨el, hleft⟩, er, hright⟩ := ht.children (hh f List.mem_cons_self) hl
  refine ⟨by simp only [State.descend, el, er], fun g hg => ?_⟩
  rcases List.mem_cons.mp hg with rfl | hg
  · exact hleft
  · rcases List.mem_cons.mp hg with rfl | hg
    · exact hright
    · exact hh g (List.mem_cons_of_mem _ hg)

/-- The rest of both stacks. -/
theorem StackAgrees.visited {s t : State} {f : Frame} {rest : List Frame} (h : StackAgrees s t)
    (hst : s.stack = f :: rest) : StackAgrees (s.visited rest) (t.visited rest) := by
  obtain ⟨-, hh⟩ := h
  rw [hst] at hh
  exact ⟨rfl, fun g hg => hh g (List.mem_cons_of_mem _ hg)⟩

/-- A traversal starts alike at the root. -/
theorem StackAgrees.start {s t : State} (h : TreeAgrees s t) (p : Phase) :
    StackAgrees (s.startTraversal p) (t.startTraversal p) :=
  ⟨by simp [h.root], by simpa using h.root_lt⟩

theorem magicStep_agree {s t : State} (hp : s.phase = .cMagic) (h : Agree s t) :
    Related Agree (magicStep s) (magicStep t) := by
  have ⟨hs, ha⟩ := h
  rw [hp] at ha
  obtain ⟨hc, ht⟩ := ha
  refine h.writeThen ?_
  have ht' : TreeAgrees (s.afterWrite (bitsOf 32 Config.magic.toNat)) (t.afterWrite (bitsOf 32 Config.magic.toNat)) :=
    ⟨ht.ncount, ht.arena, ht.root, ht.root_lt⟩
  exact Agree.of .cTree rfl (((hs.afterWrite _).goto .cTree).of_tables rfl rfl)
    ⟨rfl, hc, ⟨ht.ncount, ht.arena, ht.root, ht.root_lt⟩, .start ht' .cTree⟩

/-- A tree record is written alike. -/
theorem exec_recordOf_agree {s t : State} {f : Frame} {rest : List Frame} (hp : s.phase = .cTree) (h : Agree s t)
    (hst : s.stack = f :: rest) : Related Agree (exec (s.recordOf f.handle) s) (exec (t.recordOf f.handle) t) := by
  have ⟨hs, ha⟩ := h
  rw [hp] at ha
  obtain ⟨hpl, hc, ht, hstack⟩ := ha
  have hpt : t.phase = .cTree := hs.phase.trans hp
  have htst : t.stack = f :: rest := hstack.stack.trans hst
  have hk : f.handle.val < s.ncount.val := hstack.handles f (by simp [hst])
  have hrec := ht.recordOf hk
  cases hl : s.isLeaf f.handle with
  | false =>
    have hr : s.recordOf f.handle = .treeInternal := by simp [State.recordOf, hl]
    rw [hrec, hr, exec_treeInternal, exec_treeInternal, execTreeInternal, execTreeInternal, if_pos hp, if_pos hpt,
      writeInternal, writeInternal, hst, htst]
    refine rel_ite (by rw [hpl, hrec]) (fun _ => h.writeThen ?_) (fun _ => rfl)
    have hd := hstack.descend ht hst hl
    exact Agree.of .cTree hp ((hs.afterWrite _).of_tables rfl rfl)
      ⟨hpl, hc, ⟨ht.ncount, ht.arena, ht.root, ht.root_lt⟩, hd.stack, hd.handles⟩
  | true =>
    have hr : s.recordOf f.handle = .treeLeaf (s.nodeAt f.handle).sym.val := by simp [State.recordOf, hl]
    rw [hrec, hr, exec_treeLeaf, exec_treeLeaf, execTreeLeaf, execTreeLeaf, if_pos hp, if_pos hpt,
      writeLeaf, writeLeaf, hst, htst]
    refine rel_ite (by rw [hrec]) (fun _ => ?_) (fun _ => rfl)
    refine rel_ite (by rw [hpl]) (fun _ => h.writeThen ?_) (fun _ => ?_)
    · exact Agree.of .cTree hp ((hs.afterWrite _).of_tables rfl rfl)
        ⟨rfl, hc, ⟨ht.ncount, ht.arena, ht.root, ht.root_lt⟩, hstack.stack, hstack.handles⟩
    · refine rel_ite (by rw [hpl]) (fun _ => h.writeThen ?_) (fun _ => rfl)
      have hv := hstack.visited hst
      exact Agree.of .cTree hp ((hs.afterWrite _).of_tables rfl rfl)
        ⟨rfl, hc, ⟨ht.ncount, ht.arena, ht.root, ht.root_lt⟩, hv.stack, hv.handles⟩

theorem writeTreeStep_agree {s t : State} (hp : s.phase = .cTree) (h : Agree s t) :
    Related Agree (writeTreeStep s) (writeTreeStep t) := by
  have ⟨hs, ha⟩ := h
  rw [hp] at ha
  obtain ⟨-, hc, ht, hstack⟩ := ha
  cases hst : s.stack with
  | nil =>
    have htst : t.stack = [] := hstack.stack.trans hst
    rw [writeTreeStep, writeTreeStep, hst, htst]
    exact Agree.of .cCodes rfl ((hs.goto .cCodes).of_tables rfl rfl)
      ⟨hc, ⟨ht.ncount, ht.arena, ht.root, ht.root_lt⟩, .start ht .cCodes⟩
  | cons f rest =>
    have htst : t.stack = f :: rest := hstack.stack.trans hst
    rw [writeTreeStep_cons hst, writeTreeStep_cons htst]
    exact exec_recordOf_agree hp h hst

theorem codesStep_agree {s t : State} (hp : s.phase = .cCodes) (h : Agree s t) :
    Related Agree (codesStep s) (codesStep t) := by
  have ⟨hs, ha⟩ := h
  rw [hp] at ha
  obtain ⟨hc, ht, hstack⟩ := ha
  cases hst : s.stack with
  | nil =>
    have htst : t.stack = [] := hstack.stack.trans hst
    rw [codesStep, codesStep, hst, htst]
    exact Agree.of .cEmit rfl (hs.goto .cEmit) ⟨rfl, hc⟩
  | cons f rest =>
    have htst : t.stack = f :: rest := hstack.stack.trans hst
    have hk : f.handle.val < s.ncount.val := hstack.handles f (by simp [hst])
    rw [codesStep, codesStep, hst, htst]
    refine rel_ite (by rw [ht.isLeaf hk]) (fun hl => ?_) (fun hl => ?_)
    · have hv := hstack.visited hst
      have hcode : t.code.set (t.nodeAt f.handle).sym.val f.path = s.code.set (s.nodeAt f.handle).sym.val f.path := by
        simp only [hc, ht.sym hk hl]
      exact Agree.of .cCodes hp (hs.of_tables rfl rfl)
        ⟨hcode, ⟨ht.ncount, ht.arena, ht.root, ht.root_lt⟩, hv.stack, hv.handles⟩
    · have hd := hstack.descend ht hst (by simpa using hl)
      exact Agree.of .cCodes hp (hs.of_tables rfl rfl)
        ⟨hc, ⟨ht.ncount, ht.arena, ht.root, ht.root_lt⟩, hd.stack, hd.handles⟩

/-- A code bit is written alike. -/
theorem writeBit_agree {s t : State} (b : Bool) (rest : List Bool) {last : State → State} (h : Agree s t)
    (hlast : Agree (last (s.afterWrite (bitsOf 1 b.toNat))) (last (t.afterWrite (bitsOf 1 b.toNat))))
    (hmore : Agree ((s.afterWrite (bitsOf 1 b.toNat)).moveTo (.bits rest))
      ((t.afterWrite (bitsOf 1 b.toNat)).moveTo (.bits rest))) :
    Related Agree (writeBit b rest last s) (writeBit b rest last t) := by
  refine h.writeThen ?_
  by_cases hr : rest = []
  · rw [if_pos hr, if_pos hr]
    exact hlast
  · rw [if_neg hr, if_neg hr]
    exact hmore

theorem emitByte_agree {s t : State} (b : Byte) (hp : s.phase = .cEmit) (h : Agree s t) :
    Agree (s.emitByte b) (t.emitByte b) := by
  obtain ⟨hs, ha⟩ := h
  rw [hp] at ha
  obtain ⟨-, hc⟩ := ha
  have hbits : t.cbits (byteSymbol b) = s.cbits (byteSymbol b) := by simp only [State.cbits, hc]
  refine rel_ite (by rw [State.clen, State.clen, hbits]) (fun _ => hs.afterRaise _ _) (fun _ => ?_)
  exact .of .cEmit hp (hs.of_tables rfl rfl) ⟨congrArg Place.bits hbits, hc⟩

theorem emitStep_agree {s t : State} (hp : s.phase = .cEmit) (h : Agree s t) :
    Related Agree (emitStep s) (emitStep t) := by
  have ⟨hs, ha⟩ := h
  rw [hp] at ha
  obtain ⟨hpl, hc⟩ := ha
  simp only [emitStep, hpl]
  split
  · exact writeBit_agree _ _ h (.of .cEmit hp ((hs.afterWrite _).of_tables rfl rfl) ⟨rfl, hc⟩)
      (.of .cEmit hp ((hs.afterWrite _).of_tables rfl rfl) ⟨rfl, hc⟩)
  · rcases hs.inRead 8 with ⟨e, e'⟩ | ⟨e, e'⟩ | ⟨e, e'⟩ | ⟨v, e, e'⟩ <;> rw [e, e']
    · exact h
    · exact hs.afterInError.afterRaise _ _
    · have hbits : t.cbits Config.eof = s.cbits Config.eof := by simp only [State.cbits, hc]
      exact Agree.of .cTerm rfl ((hs.afterNoData.goto .cTerm).of_tables rfl rfl) (congrArg Place.bits hbits)
    · exact emitByte_agree _ hp (.of .cEmit hp (hs.afterRead 8) ⟨hpl, hc⟩)

theorem termStep_agree {s t : State} (hp : s.phase = .cTerm) (h : Agree s t) :
    Related Agree (termStep s) (termStep t) := by
  have ⟨hs, ha⟩ := h
  rw [hp] at ha
  have hpl : t.place = s.place := ha
  simp only [termStep, hpl]
  split
  · exact writeBit_agree _ _ h (.of .cFlush rfl ((hs.afterWrite _).goto .cFlush) trivial)
      (.of .cTerm hp ((hs.afterWrite _).of_tables rfl rfl) rfl)
  · exact Agree.of .cFlush rfl (hs.goto .cFlush) trivial

/-! ### The flushes -/

theorem flushStep_agree {s t : State} (h : Agree s t) : Related Agree (flushStep s) (flushStep t) := by
  have hs := h.same
  unfold flushStep
  rcases hs.outFlushClose with ⟨e, e'⟩ | ⟨e, e'⟩ | ⟨e, e'⟩ | ⟨e, e'⟩ <;> rw [e, e']
  · exact rfl
  · exact h
  · exact Agree.of .idle rfl (hs.afterFlushError.afterRaise _ _).same.endError trivial
  · exact Agree.of .idle rfl hs.afterFlush.complete trivial

theorem errorFlushStep_agree {s t : State} (h : Agree s t) : Related Agree (errorFlushStep s) (errorFlushStep t) := by
  have hs := h.same
  unfold errorFlushStep
  rcases hs.outFlushClose with ⟨e, e'⟩ | ⟨e, e'⟩ | ⟨e, e'⟩ | ⟨e, e'⟩ <;> rw [e, e']
  · exact rfl
  · exact h
  · exact Agree.of .idle rfl hs.afterFlushError.endError trivial
  · exact Agree.of .idle rfl hs.afterFlush.endError trivial

/-! ### The phases of DECOMPRESS -/

theorem readMagicStep_agree {s t : State} (h : Agree s t) : Related Agree (readMagicStep s) (readMagicStep t) := by
  have hs := h.same
  unfold readMagicStep
  rcases hs.inRead 32 with ⟨e, e'⟩ | ⟨e, e'⟩ | ⟨e, e'⟩ | ⟨v, e, e'⟩ <;> rw [e, e']
  · exact h
  · exact hs.afterInError.afterRaise _ _
  · exact hs.afterNoData.afterRaise _ _
  · refine rel_ite Iff.rfl (fun _ => ?_) (fun _ => (hs.afterRead 32).afterRaise _ _)
    exact Agree.of .dTree rfl (((hs.afterRead 32).goto .dTree).of_tables rfl rfl)
      ⟨rfl, rfl, rfl, arenaAgrees_zero _ _⟩

/-- A node is returned alike to the open nodes, to the walk, or to the Leaf root's error (R115, R116). -/
theorem returnNode_agree {s t : State} {h : Handle} (stack : List Frame) (hs : SameOutside s t)
    (hp : s.phase = .dTree) (hn : t.ncount = s.ncount) (ha : ArenaAgrees stack s.ncount.val s.node t.node) (hh : h.val < s.ncount.val) :
    Agree (s.returnNode h stack) (t.returnNode h stack) := by
  induction stack generalizing h s t with
  | nil =>
    have ht : TreeAgrees { s with root := h, stack := [] } { t with root := h, stack := [] } := ⟨hn, ha, rfl, hh⟩
    have hs' : SameOutside { s with root := h, stack := [] } { t with root := h, stack := [] } := hs.of_tables rfl rfl
    refine rel_ite (by rw [ht.isLeaf hh]) (fun _ => hs'.afterRaise _ _) (fun hl => ?_)
    have hroot := Bool.eq_false_iff.mpr hl
    exact .of .dWalk rfl ((hs'.goto .dWalk).of_tables rfl rfl)
      ⟨rfl, ⟨hn, ha, rfl, hh⟩, rfl, hh, hroot, fun _ => hroot, nofun⟩
  | cons f rest ih =>
    simp only [State.returnNode]
    cases hside : f.side with
    | left =>
      exact .of .dTree hp (hs.of_tables rfl rfl) ⟨rfl, hn, rfl, ha.setLeft hh⟩
    | right =>
      have hf := ha.opened_lt f List.mem_cons_self
      exact ih (s := s.setChild f.handle .right h) (t := t.setChild f.handle .right h) (hs.of_tables rfl rfl) hp hn
        (ha.setRight hside hh) hf

theorem readLeaf_agree {s t : State} (sym : Nat) (hp : s.phase = .dTree) (h : Agree s t) :
    Related Agree (readLeaf sym s) (readLeaf sym t) := by
  have ⟨hs, ha⟩ := h
  rw [hp] at ha
  obtain ⟨hpl, hn, hst, harena⟩ := ha
  refine rel_ite (by rw [hpl]) (fun _ => ?_) (fun _ => rfl)
  refine rel_ite (by rw [hn]) (fun _ => hs.afterRaise _ _) (fun hfull => ?_)
  cases symbolOf sym with
  | none => exact hs.afterRaise _ _
  | some x =>
    have hlt : s.ncount.val < 513 := by omega
    have hlt' : t.ncount.val < 513 := hn ▸ hlt
    simp only [alloc_of_lt s _ hlt, alloc_of_lt t _ hlt', hst, hn]
    exact returnNode_agree s.stack (hs.of_tables rfl rfl) hp rfl
      (harena.alloc hlt rfl (fun _ => rfl) nofun) (Nat.lt_succ_self _)

theorem readInternal_agree {s t : State} (hp : s.phase = .dTree) (h : Agree s t) :
    Related Agree (readInternal s) (readInternal t) := by
  have ⟨hs, ha⟩ := h
  rw [hp] at ha
  obtain ⟨hpl, hn, hst, harena⟩ := ha
  refine rel_ite (by rw [hpl]) (fun _ => ?_) (fun _ => rfl)
  refine rel_ite (by rw [hn]) (fun _ => hs.afterRaise _ _) (fun hfull => ?_)
  have hlt : s.ncount.val < 513 := by omega
  have hlt' : t.ncount.val < 513 := hn ▸ hlt
  simp only [alloc_of_lt s _ hlt, alloc_of_lt t _ hlt', hst, hn]
  exact Agree.of .dTree hp (hs.of_tables rfl rfl) ⟨hpl, rfl, rfl, harena.pushOpened hlt rfl rfl⟩

/-- In D_TREE a tree record is read. -/
theorem exec_treeLeaf_of_dTree {s : State} (sym : Nat) (hp : s.phase = .dTree) :
    exec (.treeLeaf sym) s = readLeaf sym s := by
  simp [exec_treeLeaf, execTreeLeaf, hp]

theorem exec_treeInternal_of_dTree {s : State} (hp : s.phase = .dTree) : exec .treeInternal s = readInternal s := by
  simp [exec_treeInternal, execTreeInternal, hp]

theorem readTreeStep_agree {s t : State} (hp : s.phase = .dTree) (h : Agree s t) :
    Related Agree (readTreeStep s) (readTreeStep t) := by
  have ⟨hs, ha⟩ := h
  rw [hp] at ha
  obtain ⟨hpl, hn, hst, harena⟩ := ha
  have hpt : t.phase = .dTree := hs.phase.trans hp
  refine rel_ite (by rw [hpl]) (fun _ => ?_) (fun _ => ?_)
  · rcases hs.inRead 9 with ⟨e, e'⟩ | ⟨e, e'⟩ | ⟨e, e'⟩ | ⟨v, e, e'⟩ <;> rw [e, e']
    · exact h
    · exact hs.afterInError.afterRaise _ _
    · exact hs.afterNoData.afterRaise _ _
    · show Related Agree (exec (.treeLeaf v) (s.afterRead 9)) (exec (.treeLeaf v) (t.afterRead 9))
      rw [exec_treeLeaf_of_dTree (s := s.afterRead 9) v hp, exec_treeLeaf_of_dTree (s := t.afterRead 9) v hpt]
      exact readLeaf_agree v hp (.of .dTree hp (hs.afterRead 9) ⟨hpl, hn, hst, harena⟩)
  · rcases hs.inRead 1 with ⟨e, e'⟩ | ⟨e, e'⟩ | ⟨e, e'⟩ | ⟨v, e, e'⟩ <;> rw [State.inReadBit, State.inReadBit, e, e']
    · exact h
    · exact hs.afterInError.afterRaise _ _
    · exact hs.afterNoData.afterRaise _ _
    · have move : ∀ p, Agree ((s.afterRead 1).moveTo p) ((t.afterRead 1).moveTo p) := fun p =>
        .of .dTree hp ((hs.afterRead 1).of_tables rfl rfl) ⟨rfl, hn, hst, harena⟩
      refine rel_ite (by rw [show (t.afterRead 1).ncount = (s.afterRead 1).ncount from hn])
        (fun _ => (hs.afterRead 1).afterRaise _ _) (fun _ => rel_ite Iff.rfl (fun _ => move .symbol) (fun _ => ?_))
      rw [exec_treeInternal_of_dTree (s := (s.afterRead 1).moveTo .top) hp,
        exec_treeInternal_of_dTree (s := (t.afterRead 1).moveTo .top) hpt]
      exact readInternal_agree hp (move .top)

/-- The cursor moves alike to a node of the tree (R163). -/
theorem walkTo_agree {s t : State} {c : Handle} (hs : SameOutside s t) (hp : s.phase = .dWalk)
    (hpl : t.place = s.place) (hplace : s.place ≠ .byte) (ht : TreeAgrees s t) (hroot : s.isLeaf s.root = false)
    (hc : c.val < s.ncount.val) : Agree (s.walkTo c) (t.walkTo c) := by
  have ht' : TreeAgrees { s with cur := c } { t with cur := c } := ⟨ht.ncount, ht.arena, ht.root, ht.root_lt⟩
  have hs' : SameOutside { s with cur := c } { t with cur := c } := hs.of_tables rfl rfl
  refine rel_ite (by rw [ht'.isLeaf hc]) (fun hl => ?_) (fun hl => ?_)
  · refine rel_ite (by rw [ht'.sym hc hl]) (fun _ => ?_) (fun _ => ?_)
    · exact .of .dDone rfl (hs'.goto .dDone) trivial
    · exact .of .dWalk hp (hs'.of_tables rfl rfl)
        ⟨rfl, ⟨ht.ncount, ht.arena, ht.root, ht.root_lt⟩, rfl, hc, hroot, fun h => absurd rfl h, fun _ => hl⟩
  · exact .of .dWalk hp hs' ⟨hpl, ht', rfl, hc, hroot, fun _ => Bool.eq_false_iff.mpr hl, fun h => absurd h hplace⟩

theorem walkStep_agree {s t : State} (hp : s.phase = .dWalk) (h : Agree s t) :
    Related Agree (walkStep s) (walkStep t) := by
  have ⟨hs, ha⟩ := h
  rw [hp] at ha
  obtain ⟨hpl, ht, hcur, hcurlt, hroot, hint, hleaf⟩ := ha
  refine rel_ite (by rw [hpl]) (fun hb => ?_) (fun hb => ?_)
  · have hsym := ht.sym hcurlt (hleaf hb)
    rw [hcur, hsym]
    refine h.writeThen ?_
    exact Agree.of .dWalk hp ((hs.afterWrite _).of_tables rfl rfl)
      ⟨rfl, ⟨ht.ncount, ht.arena, ht.root, ht.root_lt⟩, ht.root, ht.root_lt, hroot, fun _ => hroot, nofun⟩
  · rcases hs.inRead 1 with ⟨e, e'⟩ | ⟨e, e'⟩ | ⟨e, e'⟩ | ⟨v, e, e'⟩ <;> rw [State.inReadBit, State.inReadBit, e, e']
    · exact h
    · exact hs.afterInError.afterRaise _ _
    · exact hs.afterNoData.afterRaise _ _
    · obtain ⟨⟨el, hl⟩, er, hr⟩ := ht.children hcurlt (hint hb)
      have hchild : t.child t.cur (v.testBit 0) = s.child s.cur (v.testBit 0) := by
        simp only [State.child, hcur, el, er]
      have hchildlt : (s.child s.cur (v.testBit 0)).val < s.ncount.val := by
        unfold State.child
        split
        · exact hr
        · exact hl
      show Agree ((s.afterRead 1).walkTo (s.child s.cur (v.testBit 0)))
        ((t.afterRead 1).walkTo (t.child t.cur (v.testBit 0)))
      rw [hchild]
      exact walkTo_agree (hs.afterRead 1) hp hpl hb ⟨ht.ncount, ht.arena, ht.root, ht.root_lt⟩ hroot hchildlt

/-! ### The step of the core -/

theorem coreStep_agree {s t : State} (h : Agree s t) : Related Agree (coreStep s) (coreStep t) := by
  have hpt := h.same.phase
  cases hp : s.phase with
  | idle => rw [coreStep_idle hp, coreStep_idle (hpt.trans hp)]; exact h
  | cCount => rw [coreStep_cCount hp, coreStep_cCount (hpt.trans hp)]; exact countStep_agree hp h
  | cBuild => rw [coreStep_cBuild hp, coreStep_cBuild (hpt.trans hp)]; exact buildStep_agree hp h
  | cMagic => rw [coreStep_cMagic hp, coreStep_cMagic (hpt.trans hp)]; exact magicStep_agree hp h
  | cTree => rw [coreStep_cTree hp, coreStep_cTree (hpt.trans hp)]; exact writeTreeStep_agree hp h
  | cCodes => rw [coreStep_cCodes hp, coreStep_cCodes (hpt.trans hp)]; exact codesStep_agree hp h
  | cEmit => rw [coreStep_cEmit hp, coreStep_cEmit (hpt.trans hp)]; exact emitStep_agree hp h
  | cTerm => rw [coreStep_cTerm hp, coreStep_cTerm (hpt.trans hp)]; exact termStep_agree hp h
  | cFlush => rw [coreStep_cFlush hp, coreStep_cFlush (hpt.trans hp)]; exact flushStep_agree h
  | dMagic => rw [coreStep_dMagic hp, coreStep_dMagic (hpt.trans hp)]; exact readMagicStep_agree h
  | dTree => rw [coreStep_dTree hp, coreStep_dTree (hpt.trans hp)]; exact readTreeStep_agree hp h
  | dWalk => rw [coreStep_dWalk hp, coreStep_dWalk (hpt.trans hp)]; exact walkStep_agree hp h
  | dDone => rw [coreStep_dDone hp, coreStep_dDone (hpt.trans hp)]; exact flushStep_agree h
  | eFlush => rw [coreStep_eFlush hp, coreStep_eFlush (hpt.trans hp)]; exact errorFlushStep_agree h

/-! ### The host's moves -/

/-- A command starts alike: it writes every table that its first phase reads (R36). -/
theorem cmdWrite_agree {s t : State} (w : Word) (h : Agree s t) : Related Agree (cmdWrite w s) (cmdWrite w t) := by
  have hs := h.same
  have hrej : Agree s.reject t.reject := h.outside State.reject (fun _ _ => rfl) rfl
  rcases decodeCmd_cases w with ⟨-, e⟩ | ⟨-, e⟩ | ⟨-, _, e⟩
  · rw [cmdWrite_of_ok s e, cmdWrite_of_ok t e, exec_compress, exec_compress]
    refine rel_ite (by rw [hs.busy]) (fun _ => hrej) (fun _ => ?_)
    exact Agree.of .cCount rfl (((hs.accept _).goto _).of_tables rfl rfl) ⟨rfl, rfl, rfl, rfl⟩
  · rw [cmdWrite_of_ok s e, cmdWrite_of_ok t e, exec_decompress, exec_decompress]
    refine rel_ite (by rw [hs.busy]) (fun _ => hrej) (fun _ => ?_)
    exact Agree.of .dMagic rfl ((hs.accept _).goto _) trivial
  · rw [cmdWrite_of_error s e, cmdWrite_of_error t e]
    exact hrej

theorem SameOutside.windowRead {s t : State} (h : SameOutside s t) (offset : Nat) :
    t.windowRead offset = s.windowRead offset := by
  rw [h.eq_tablesOf]
  rfl

/-- What the host does is alike, and touches no table but for a command and a reset. -/
theorem hostMove_agree {s t : State} (m : HostMove) (h : Agree s t) :
    Related Agree (hostMove m s) (hostMove m t) := by
  have hs := h.same
  cases m with
  | core => exact coreStep_agree h
  | write offset width w =>
    exact rel_ite Iff.rfl (fun _ => rel_ite Iff.rfl (fun _ => cmdWrite_agree w h) (fun _ => h)) (fun _ => rfl)
  | read offset width =>
    simp only [hostMove, hostRead, hs.windowRead]
    refine rel_ite Iff.rfl (fun _ => ?_) (fun _ => rfl)
    exact h.outside (fun u => { u with hostData := s.windowRead offset }) (fun _ _ => rfl) rfl
  | poll offset hi lo value =>
    simp only [hostMove, hostPoll, hs.windowRead, hs.host]
    refine rel_ite Iff.rfl (fun _ => rel_ite Iff.rfl (fun _ => ?_) (fun _ => ?_)) (fun _ => rfl)
    · exact h.outside (fun u => { u with hostData := s.windowRead offset, host := s.host }) (fun _ _ => rfl) rfl
    · exact h.outside (fun u => { u with
        hostData := s.windowRead offset, host := .core :: .poll offset hi lo value :: s.host }) (fun _ _ => rfl) rfl
  | chanIn c =>
    refine rel_ite (by rw [hs.busy]) (fun _ => rfl) (fun _ => ?_)
    exact h.outside (fun u => { u with input := { c with pos := 0 } }) (fun _ _ => rfl) rfl
  | chanOut answers =>
    refine rel_ite (by rw [hs.busy]) (fun _ => rfl) (fun _ => ?_)
    exact h.outside (fun u => { u with output := { bits := [], closed := false, answers := answers } })
      (fun _ _ => rfl) rfl
  | reset => exact Agree.of .idle rfl (hs.map (F := State.resetInstance) fun _ => rfl) trivial

/-- A step keeps the agreement. -/
theorem step_agree {s t : State} (h : Agree s t) : Related Agree (step s) (step t) := by
  have hhost := h.same.host
  cases hh : s.host with
  | nil =>
    rw [step_of_host_nil hh, step_of_host_nil (hhost.trans hh)]
    exact coreStep_agree h
  | cons m rest =>
    rw [step_of_host_cons hh, step_of_host_cons (hhost.trans hh)]
    exact hostMove_agree m (h.outside (State.setHost rest) (fun _ _ => rfl) rfl)

/-- Runs of any length keep the agreement. -/
theorem runSteps_agree (k : Nat) {s t : State} (h : Agree s t) : Related Agree (runSteps k s) (runSteps k t) := by
  induction k generalizing s t with
  | zero => exact h
  | succ k ih =>
    have hstep := step_agree h
    unfold runSteps
    cases hs : step s <;> cases ht : step t <;> rw [hs, ht] at hstep
    case next.next => exact ih hstep
    case fault.fault | refused.refused => exact hstep
    all_goals exact hstep.elim

/-- Settles O59: an idle phase reads no table, so the two states agree, and every run keeps the agreement. -/
theorem nothingCarriesOverBetweenOperations : Obligations.NothingCarriesOverBetweenOperations := by
  intro s t k hidle hs
  have hp : s.phase = .idle := by
    unfold State.idle at hidle
    simpa using (Bool.and_eq_true_iff.mp hidle).2
  exact (runSteps_agree k (.of .idle hp hs trivial)).sameOutcome fun _ _ h => h.same

end Sys2Proof.Machine
end

section
/-! PROOFS. The tree field read bit by bit: a field that is there is read whole, and one that ends too early raises
`MalformedStream(2)` (R115). -/

namespace Sys2Proof.Machine

/-! ### The steps of D_TREE -/

/-- The core is at the tag of a record of D_TREE, and its channel answers. -/
structure State.AtTag (s : State) : Prop where
  host : s.host = []
  phase : s.phase = .dTree
  place : s.place = .top
  answers : allOk s.input.answers = true

/-- The core is at the symbol of a leaf record of D_TREE, and its channel answers. -/
structure State.AtSymbol (s : State) : Prop where
  host : s.host = []
  phase : s.phase = .dTree
  place : s.place = .symbol
  answers : allOk s.input.answers = true

/-- The number of bits that a step of D_TREE reads: a tag or a symbol (R112, R115). -/
def State.fieldWidth (s : State) : Nat := if s.place = .symbol then 9 else 1

theorem readTreeStep_noData {s : State} (ha : nextAnswer s.input.answers = .ok)
    (hn : s.input.bits.length < s.input.pos + s.fieldWidth) :
    readTreeStep s = .next (s.afterNoData.afterRaise .malformedStream 2) := by
  unfold State.fieldWidth at hn
  split at hn
  · rename_i hp
    simp [readTreeStep, hp, inRead_noData ha hn]
    rfl
  · rename_i hp
    simp [readTreeStep, hp, State.inReadBit, inRead_noData ha hn]
    rfl

theorem readTreeStep_ioError {s : State} (ha : nextAnswer s.input.answers = .ioError) :
    readTreeStep s = .next (s.afterInError.afterRaise .channelError 1) := by
  by_cases hp : s.place = .symbol
  · simp [readTreeStep, hp, inRead_ioError ha]
    rfl
  · simp [readTreeStep, hp, State.inReadBit, inRead_ioError ha]
    rfl

/-- The state after an Internal record has been read: its node is open, with its left child due (R111). -/
def State.afterOpen (s : State) (hn : s.ncount.val < 513) : State :=
  { s.afterRead 1 with
    node := s.node.set s.ncount.val { s.node[s.ncount.val] with kind := .internal, weight := 0 }
    ncount := ⟨s.ncount.val + 1, by omega⟩
    stack := { handle := ⟨s.ncount.val, hn⟩ } :: s.stack }

/-- The state after a leaf record has been read, before its leaf is returned to the open nodes (R112). -/
def State.afterLeaf (s : State) (x : Symbol) (hn : s.ncount.val < 513) : State :=
  { s.afterRead 9 with
    node := s.node.set s.ncount.val { s.node[s.ncount.val] with kind := .leaf, sym := x, weight := 0 }
    ncount := ⟨s.ncount.val + 1, by omega⟩ }

theorem step_tag_internal {s : State} {rest : List Bool} (h : s.AtTag) (hn : s.ncount.val < 513)
    (hd : s.input.bits.drop s.input.pos = false :: rest) : step s = .next (s.afterOpen hn) := by
  have hread := inReadBit_of_drop (nextAnswer_of_allOk h.answers) hd
  rw [step_of_host_nil h.host, coreStep_dTree h.phase, readTreeStep_tag_false h.place hn hread,
    exec_treeInternal_of_dTree (s := s.afterRead 1) h.phase]
  have hfull : ¬ (s.afterRead 1).ncount.val = 513 := Nat.ne_of_lt hn
  rw [readInternal, if_pos (show (s.afterRead 1).place = .top from h.place), if_neg hfull,
    alloc_of_lt (s.afterRead 1) _ hn]
  rfl

theorem step_tag_leaf {s : State} {rest : List Bool} (h : s.AtTag) (hn : s.ncount.val < 513)
    (hd : s.input.bits.drop s.input.pos = true :: rest) : step s = .next ((s.afterRead 1).moveTo .symbol) := by
  rw [step_of_host_nil h.host, coreStep_dTree h.phase]
  exact readTreeStep_tag_true h.place hn (inReadBit_of_drop (nextAnswer_of_allOk h.answers) hd)

theorem step_symbol {s : State} {x : Symbol} {rest : List Bool} (h : s.AtSymbol) (hn : s.ncount.val < 513)
    (hd : s.input.bits.drop s.input.pos = bitsOf 9 x.val ++ rest) :
    step s = .next ((s.afterLeaf x hn).returnNode ⟨s.ncount.val, hn⟩ s.stack) := by
  have hread := inRead_of_drop (nextAnswer_of_allOk h.answers) hd (by simp [bitsOf_succ])
  rw [length_bitsOf, natOf_bitsOf_of_lt (by omega)] at hread
  rw [step_of_host_nil h.host, coreStep_dTree h.phase, readTreeStep_symbol h.place hread,
    exec_treeLeaf_of_dTree (s := s.afterRead 9) _ h.phase]
  have hfull : ¬ (s.afterRead 9).ncount.val = 513 := Nat.ne_of_lt hn
  have hsym : symbolOf x.val = some x := dif_pos x.isLt
  rw [readLeaf, if_pos (show (s.afterRead 9).place = .symbol from h.place), if_neg hfull, hsym]
  simp only [alloc_of_lt (s.afterRead 9) _ (show (s.afterRead 9).ncount.val < 513 from hn)]
  rfl

/-! ### What has been read -/

/-- `u` is `s` with `n` more bits read and `k` more nodes allocated. -/
structure ReadOn (s u : State) (n k : Nat) : Prop where
  host : u.host = s.host
  phase : u.phase = s.phase
  answers : allOk s.input.answers = true → allOk u.input.answers = true
  bits : u.input.bits = s.input.bits
  pos : u.input.pos = s.input.pos + n
  inBits : u.inBits = s.inBits + BitVec.ofNat 64 n
  ncount : u.ncount.val = s.ncount.val + k
  output : u.output = s.output

theorem ReadOn.trans {s u v : State} {n m j k : Nat} (h : ReadOn s u n j) (h' : ReadOn u v m k) :
    ReadOn s v (n + m) (j + k) where
  host := h'.host.trans h.host
  phase := h'.phase.trans h.phase
  answers := h'.answers ∘ h.answers
  bits := h'.bits.trans h.bits
  pos := by rw [h'.pos, h.pos, Nat.add_assoc]
  inBits := by rw [h'.inBits, h.inBits, BitVec.ofNat_add, BitVec.add_assoc]
  ncount := by rw [h'.ncount, h.ncount, Nat.add_assoc]
  output := h'.output.trans h.output

/-- Where the bits read are known, so are the ones that follow. -/
theorem ReadOn.drop {s u : State} {bits rest : List Bool} {k : Nat} (h : ReadOn s u bits.length k)
    (hd : s.input.bits.drop s.input.pos = bits ++ rest) : u.input.bits.drop u.input.pos = rest := by
  rw [h.bits, h.pos, ← List.drop_drop, hd, List.drop_left]

theorem readOn_afterOpen (s : State) (hn : s.ncount.val < 513) : ReadOn s (s.afterOpen hn) 1 1 :=
  ⟨rfl, rfl, allOk_tail, rfl, rfl, rfl, rfl, rfl⟩

theorem readOn_tag (s : State) : ReadOn s ((s.afterRead 1).moveTo .symbol) 1 0 :=
  ⟨rfl, rfl, allOk_tail, rfl, rfl, rfl, rfl, rfl⟩

theorem readOn_afterLeaf (s : State) (x : Symbol) (hn : s.ncount.val < 513) : ReadOn s (s.afterLeaf x hn) 9 1 :=
  ⟨rfl, rfl, allOk_tail, rfl, rfl, rfl, rfl, rfl⟩

theorem State.AtTag.afterOpen {s : State} (h : s.AtTag) (hn : s.ncount.val < 513) : (s.afterOpen hn).AtTag :=
  ⟨h.host, h.phase, h.place, allOk_tail h.answers⟩

theorem State.AtTag.symbol {s : State} (h : s.AtTag) : ((s.afterRead 1).moveTo .symbol).AtSymbol :=
  ⟨h.host, h.phase, rfl, allOk_tail h.answers⟩

/-- A leaf record takes two steps, and its leaf is returned to the open nodes. -/
theorem reads_leaf {s : State} {x : Symbol} {rest : List Bool} (h : s.AtTag) (hn : s.ncount.val < 513)
    (hd : s.input.bits.drop s.input.pos = true :: (bitsOf 9 x.val ++ rest)) :
    runSteps 2 s = .next (State.returnNode ⟨s.ncount.val, hn⟩ s.stack
      (((s.afterRead 1).moveTo .symbol).afterLeaf x hn)) := by
  have hd' := (readOn_tag s).drop (bits := [true]) hd
  rw [runSteps_succ_of_next 1 (step_tag_leaf h hn hd), runSteps_succ_of_next 0 (step_symbol h.symbol hn hd')]
  rfl

/-- The state after the left subtree of the node `f` has been read into `u`: its right child is due (R115). -/
def State.leftReturned (u : State) (f : Frame) (c : Handle) (rest : List Frame) : State :=
  { u.setChild f.handle .left c with stack := { f with side := .right } :: rest, place := .top }

theorem returnNode_left {f : Frame} (c : Handle) (rest : List Frame) (u : State) (hf : f.side = .left) :
    u.returnNode c (f :: rest) = u.leftReturned f c rest := by
  simp only [State.returnNode, hf]
  rfl

theorem returnNode_right {f : Frame} (c : Handle) (rest : List Frame) (u : State) (hf : f.side = .right) :
    u.returnNode c (f :: rest) = (u.setChild f.handle .right c).returnNode f.handle rest := by
  simp only [State.returnNode, hf]

theorem readOn_leftReturned (u : State) (f : Frame) (c : Handle) (rest : List Frame) :
    ReadOn u (u.leftReturned f c rest) 0 0 :=
  ⟨rfl, rfl, id, rfl, rfl, (BitVec.add_zero _).symm, rfl, rfl⟩

theorem readOn_setRight (u : State) (h c : Handle) : ReadOn u (u.setChild h .right c) 0 0 :=
  ⟨rfl, rfl, id, rfl, rfl, (BitVec.add_zero _).symm, rfl, rfl⟩

theorem ReadOn.atTag {s u : State} {n k : Nat} (h : ReadOn s u n k) (hs : s.AtTag) (hp : u.place = .top) : u.AtTag :=
  ⟨h.host.trans hs.host, h.phase.trans hs.phase, hp, h.answers hs.answers⟩

/-- The tree's field, wherever it stands with room in the arena, is read and its root returned to the open nodes. -/
def Tree.IsRead (tree : Tree) : Prop :=
  ∀ (s : State) (rest : List Bool), s.AtTag → s.input.bits.drop s.input.pos = tree.bits ++ rest →
    s.ncount.val + tree.size ≤ 513 →
    ∃ u c, Reaches s (u.returnNode c s.stack) ∧ ReadOn s u tree.bits.length tree.size

/-- The tag of an Internal node and then its left subtree are read, and its right child is due. -/
theorem reads_left {l : Tree} (hl : l.IsRead) {s : State} {rest : List Bool} (h : s.AtTag)
    (hd : s.input.bits.drop s.input.pos = false :: (l.bits ++ rest)) (hsize : s.ncount.val + (l.size + 1) ≤ 513) :
    ∃ v f, Reaches s v ∧ v.AtTag ∧ v.stack = f :: s.stack ∧ f.side = .right ∧
      ReadOn s v (l.bits.length + 1) (l.size + 1) := by
  have hn : s.ncount.val < 513 := by omega
  have hopen := readOn_afterOpen s hn
  have hdl := hopen.drop (bits := [false]) hd
  obtain ⟨u, c, hreach, hu⟩ := hl _ rest (h.afterOpen hn) hdl (by rw [hopen.ncount]; omega)
  rw [show (s.afterOpen hn).stack = { handle := ⟨s.ncount.val, hn⟩ } :: s.stack from rfl,
    returnNode_left c s.stack u rfl] at hreach
  have hv := (hopen.trans hu).trans (readOn_leftReturned u { handle := ⟨s.ncount.val, hn⟩ } c s.stack)
  rw [Nat.add_zero, Nat.add_zero, Nat.add_comm 1, Nat.add_comm 1] at hv
  exact ⟨_, _, .head (step_tag_internal h hn hd) hreach, hv.atTag h rfl, rfl, rfl, hv⟩

/-- `ReadNode()` on a whole tree field (R114, R115). -/
theorem tree_isRead (tree : Tree) : tree.IsRead := by
  induction tree with
  | leaf x =>
    intro s rest h hd hn
    have hread := (readOn_tag s).trans (readOn_afterLeaf ((s.afterRead 1).moveTo .symbol) x hn)
    exact ⟨_, _, ⟨2, reads_leaf h hn hd⟩, by simpa [Tree.bits, Tree.size] using hread⟩
  | node l r ihl ihr =>
    intro s rest h hd hsize
    have hroom : s.ncount.val + (l.size + r.size + 1) ≤ 513 := hsize
    have hd' : s.input.bits.drop s.input.pos = (false :: l.bits) ++ (r.bits ++ rest) := by
      simpa [Tree.bits] using hd
    obtain ⟨v, f, hsv, hvt, hstack, hf, hv⟩ := reads_left ihl h hd' (by omega)
    have hdr := hv.drop (bits := false :: l.bits) hd'
    obtain ⟨u, c, hvu, hu⟩ := ihr v rest hvt hdr (by rw [hv.ncount]; omega)
    rw [hstack, returnNode_right c s.stack u hf] at hvu
    have hread := (hv.trans hu).trans (readOn_setRight u f.handle c)
    refine ⟨_, _, hsv.trans hvu, ?_⟩
    have hbits : (Tree.node l r).bits.length = l.bits.length + 1 + r.bits.length + 0 := by
      simp [Tree.bits]
      omega
    have hnodes : (Tree.node l r).size = l.size + 1 + r.size + 0 := by
      simp [Tree.size]
      omega
    rw [hbits, hnodes]
    exact hread

/-! ### Fields that end too early -/

/-- What `MalformedStream(2)` leaves after the part `part` of a tree field: all of it is counted but the bits, 8 at most,
of a symbol that met too few (R181). -/
def TreeTruncated (s t : State) (part : List Bool) : Prop :=
  t.phase = .eFlush ∧ t.errCode = .malformedStream ∧ t.errDetail = 2 ∧ t.output = s.output ∧
  ∃ read rest : List Bool, part = read ++ rest ∧ rest.length < 9 ∧
    t.inBits = s.inBits + BitVec.ofNat 64 read.length

/-- The part after what has been read ends too early. -/
theorem TreeTruncated.after {s u t : State} {bits part : List Bool} {k : Nat} (h : ReadOn s u bits.length k)
    (ht : TreeTruncated u t part) : TreeTruncated s t (bits ++ part) := by
  obtain ⟨hp, he, hd, ho, read, rest, rfl, hlen, hin⟩ := ht
  refine ⟨hp, he, hd, ho.trans h.output, bits ++ read, rest, (List.append_assoc _ _ _).symm, hlen, ?_⟩
  rw [hin, h.inBits, List.length_append, BitVec.ofNat_add, BitVec.add_assoc]

/-- A read that meets too few bits. -/
theorem truncated_of_noData {s : State} {part : List Bool} (hh : s.host = []) (hp : s.phase = .dTree)
    (ha : allOk s.input.answers = true) (hd : s.input.bits.drop s.input.pos = part)
    (hlt : part.length < s.fieldWidth) : ∃ t, Reaches s t ∧ TreeTruncated s t part := by
  have hlen := congrArg List.length hd
  rw [List.length_drop] at hlen
  have hstep : step s = .next (s.afterNoData.afterRaise .malformedStream 2) := by
    rw [step_of_host_nil hh, coreStep_dTree hp]
    exact readTreeStep_noData (nextAnswer_of_allOk ha) (by omega)
  have hw : s.fieldWidth ≤ 9 := by
    unfold State.fieldWidth
    split <;> omega
  exact ⟨_, .of_step hstep, rfl, rfl, rfl, rfl, [], part, rfl, by omega, (BitVec.add_zero _).symm⟩

/-- A proper part of a tree's field ends too early (R115, R181). -/
theorem truncated_tree (tree : Tree) {s : State} {part : List Bool} (h : s.AtTag)
    (hd : s.input.bits.drop s.input.pos = part) (hpre : part <+: tree.bits) (hne : part ≠ tree.bits)
    (hsize : s.ncount.val + tree.size ≤ 513) : ∃ t, Reaches s t ∧ TreeTruncated s t part := by
  have hnil : ∀ {u : State}, u.AtTag → u.input.bits.drop u.input.pos = [] → ∃ t, Reaches u t ∧ TreeTruncated u t [] :=
    fun hu hdu => truncated_of_noData hu.host hu.phase hu.answers hdu (by simp [State.fieldWidth, hu.place])
  induction tree generalizing s part with
  | leaf x =>
    rcases List.prefix_cons_iff.mp hpre with rfl | ⟨field, rfl, hfield⟩
    · exact hnil h hd
    · have hlen : field.length < 9 := by
        have hle := hfield.length_le
        rw [length_bitsOf] at hle
        refine Nat.lt_of_le_of_ne hle fun e => hne ?_
        exact congrArg _ (hfield.eq_of_length (by rw [e, length_bitsOf]))
      have hsym := h.symbol
      have hdf := (readOn_tag s).drop (bits := [true]) hd
      obtain ⟨t, hreach, ht⟩ := truncated_of_noData hsym.host hsym.phase hsym.answers hdf hlen
      exact ⟨t, .head (step_tag_leaf h hsize hd) hreach, .after (bits := [true]) (readOn_tag s) ht⟩
  | node l r ihl ihr =>
    have hroom : s.ncount.val + (l.size + r.size + 1) ≤ 513 := hsize
    rcases List.prefix_cons_iff.mp hpre with rfl | ⟨more, rfl, hmore⟩
    · exact hnil h hd
    by_cases hl : l.bits <+: more
    · obtain ⟨part, rfl⟩ := hl
      obtain ⟨v, f, hsv, hvt, -, -, hv⟩ := reads_left (tree_isRead l) h hd (by omega)
      have hdr := hv.drop (bits := false :: l.bits) hd
      have hner : part ≠ r.bits := fun e => hne (by rw [e]; rfl)
      have hprer := (List.prefix_append_right_inj _).mp hmore
      obtain ⟨t, hreach, ht⟩ := ihr hvt hdr hprer hner (by rw [hv.ncount]; omega)
      exact ⟨t, hsv.trans hreach, .after (bits := false :: l.bits) hv ht⟩
    · have hn : s.ncount.val < 513 := by omega
      have hopen := readOn_afterOpen s hn
      have hdl := hopen.drop (bits := [false]) hd
      have hprel := (List.prefix_or_prefix_of_prefix hmore (List.prefix_append l.bits r.bits)).resolve_right hl
      have hnel : more ≠ l.bits := fun e => hl (e ▸ List.prefix_rfl)
      obtain ⟨t, hreach, ht⟩ := ihl (h.afterOpen hn) hdl hprel hnel (by rw [hopen.ncount]; omega)
      exact ⟨t, .head (step_tag_internal h hn hd) hreach, .after (bits := [false]) hopen ht⟩

/-! ### A tree that is one leaf, and a full arena -/

theorem afterLeaf_kind (s : State) (x : Symbol) (hn : s.ncount.val < 513) :
    (s.afterLeaf x hn).node[s.ncount.val].kind = .leaf := by
  simp [State.afterLeaf]

/-- A Leaf root is no tree (R116). -/
theorem returnNode_leaf_root {s : State} {c : Handle} (hl : s.node[c.val].kind = .leaf) :
    s.returnNode c [] = State.afterRaise .inconsistentTree 1 { s with root := c, stack := [] } :=
  if_pos (decide_eq_true hl)

theorem readTreeStep_full {s : State} (hp : s.place = .top) (hn : s.ncount.val = 513)
    (ha : nextAnswer s.input.answers = .ok) (hb : s.input.pos < s.input.bits.length) :
    readTreeStep s = .next ((s.afterRead 1).afterRaise .inconsistentTree 3) := by
  have hread := inRead_value (n := 1) ha hb
  have hfull : (s.afterRead 1).ncount.val = 513 := hn
  simp [readTreeStep, hp, State.inReadBit, hread, hfull]
  rfl

/-- Settles O44: a proper part of a field, a leaf alone, a full arena, and the failing answers of one step. -/
theorem malformedTreeFieldsRaise : Obligations.MalformedTreeFieldsRaise := by
  refine ⟨?_, ?_, ?_, ?_⟩
  · intro s tree part hh hp hpl hn _ ha _ hd hpre hne hsize
    obtain ⟨t, hreach, hphase, hcode, hdetail, hout, hcount⟩ :=
      truncated_tree tree ⟨hh, hp, hpl, ha⟩ hd hpre hne (by rw [hn]; simpa using hsize)
    exact ⟨t, hreach, hphase, hcode, hdetail, hout, hcount⟩
  · intro s x rest hh hp hpl hn hst ha hd
    have hlt : s.ncount.val < 513 := by rw [hn]; decide
    have hrun := reads_leaf ⟨hh, hp, hpl, ha⟩ hlt hd
    have hleaf := afterLeaf_kind ((s.afterRead 1).moveTo .symbol) x hlt
    rw [hst, returnNode_leaf_root hleaf] at hrun
    refine ⟨_, hrun, rfl, rfl, rfl, ?_⟩
    show s.inBits + BitVec.ofNat 64 1 + BitVec.ofNat 64 9 = s.inBits + 10
    rw [BitVec.add_assoc]
    rfl
  · intro s hh hp hpl hn ha hb
    rw [step_of_host_nil hh, coreStep_dTree hp]
    exact readTreeStep_full hpl hn ha hb
  · intro s n hh hp hplace
    have hwidth : s.fieldWidth = n := by
      rcases hplace with ⟨hpl, rfl⟩ | ⟨hpl, rfl⟩ <;> simp [State.fieldWidth, hpl]
    rw [step_of_host_nil hh, coreStep_dTree hp]
    refine ⟨fun ha hlt => ?_, readTreeStep_ioError⟩
    exact ⟨_, readTreeStep_noData ha (hwidth ▸ hlt)⟩

end Sys2Proof.Machine
end

section
/-! PROOFS. The input channel's transactions, and several transactions in a row on reliable channels. -/

namespace Sys2Proof.Machine

/-! ### The input channel (R54) -/

/-- Settles O16: the outcomes of `inRead_cases` and of a rewind, each by its condition. -/
theorem inputTransactionsDeliverTheNextBits : Obligations.InputTransactionsDeliverTheNextBits := by
  intro s hin
  refine ⟨fun n => ⟨fun ha hn => ?_, fun ha hn => ?_, inRead_ioError⟩, rfl, inRewind_ok,
    inRewind_of_not_rewindable, inRewind_ioError⟩
  · have hlen : (s.inNext n).length = n := by
      rw [State.inNext, List.length_take, List.length_drop]
      omega
    have hlt := natOf_lt (s.inNext n)
    have hback := bitsOf_natOf (s.inNext n)
    rw [hlen] at hlt hback
    exact ⟨_, inRead_value ha hn, hlt, hback⟩
  · exact ⟨_, Nat.le_add_right _ _, inExhaust_pos_le s hin, inRead_noData ha hn⟩

/-- The byte read where the next one is known. -/
theorem inRead_byte {s : State} {b : Byte} {rest : List Bool} (h : nextAnswer s.input.answers = .ok)
    (hd : s.input.bits.drop s.input.pos = bitsOf 8 b.toNat ++ rest) :
    s.inRead 8 = .value b.toNat (s.afterRead 8) := by
  have hread := inRead_of_drop h hd (List.cons_ne_nil _ _)
  rwa [length_bitsOf, natOf_bitsOf_of_lt b.isLt] at hread

/-- What follows a byte that has been read. -/
theorem drop_afterRead {s : State} {b : Byte} {rest : List Bool}
    (hd : s.input.bits.drop s.input.pos = bitsOf 8 b.toNat ++ rest) :
    (s.afterRead 8).input.bits.drop (s.afterRead 8).input.pos = rest := by
  show s.input.bits.drop (s.input.pos + 8) = rest
  rw [← List.drop_drop, hd, List.drop_left' (length_bitsOf 8 _)]

/-! ### Several transactions in a row -/

/-- After `k` transactions `InRead(8)` that returned values (R19, R54). -/
def State.afterReads (k : Nat) (s : State) : State :=
  { s with
    input := { s.input with pos := s.input.pos + 8 * k, answers := s.input.answers.drop k }
    inBits := s.inBits + BitVec.ofNat 64 (8 * k) }

/-- After an `OutWrite(1)` of each of `bits` that answered `Ok` (R20, R55). -/
def State.afterWrites (bits : List Bool) (s : State) : State :=
  { s with
    output := { s.output with
      bits := s.output.bits ++ bits, answers := s.output.answers.drop bits.length }
    outBits := s.outBits + BitVec.ofNat 64 bits.length }

section
variable (k : Nat) (bits : List Bool) (s : State)

@[simp] theorem State.afterReads_busy : (s.afterReads k).busy = s.busy := rfl
@[simp] theorem State.afterReads_errCode : (s.afterReads k).errCode = s.errCode := rfl
@[simp] theorem State.afterReads_inBits : (s.afterReads k).inBits = s.inBits + BitVec.ofNat 64 (8 * k) := rfl
@[simp] theorem State.afterReads_outBits : (s.afterReads k).outBits = s.outBits := rfl
@[simp] theorem State.afterReads_freq : (s.afterReads k).freq = s.freq := rfl
@[simp] theorem State.afterReads_len : (s.afterReads k).len = s.len := rfl
@[simp] theorem State.afterReads_code : (s.afterReads k).code = s.code := rfl
@[simp] theorem State.afterReads_input : (s.afterReads k).input =
    { s.input with pos := s.input.pos + 8 * k, answers := s.input.answers.drop k } := rfl
@[simp] theorem State.afterReads_output : (s.afterReads k).output = s.output := rfl
@[simp] theorem State.afterReads_host : (s.afterReads k).host = s.host := rfl
@[simp] theorem State.afterReads_cbits (x : Symbol) : (s.afterReads k).cbits x = s.cbits x := rfl

@[simp] theorem State.afterWrites_busy : (s.afterWrites bits).busy = s.busy := rfl
@[simp] theorem State.afterWrites_errCode : (s.afterWrites bits).errCode = s.errCode := rfl
@[simp] theorem State.afterWrites_inBits : (s.afterWrites bits).inBits = s.inBits := rfl
@[simp] theorem State.afterWrites_outBits : (s.afterWrites bits).outBits = s.outBits + BitVec.ofNat 64 bits.length := rfl
@[simp] theorem State.afterWrites_freq : (s.afterWrites bits).freq = s.freq := rfl
@[simp] theorem State.afterWrites_len : (s.afterWrites bits).len = s.len := rfl
@[simp] theorem State.afterWrites_code : (s.afterWrites bits).code = s.code := rfl
@[simp] theorem State.afterWrites_host : (s.afterWrites bits).host = s.host := rfl
@[simp] theorem State.afterWrites_cbits (x : Symbol) : (s.afterWrites bits).cbits x = s.cbits x := rfl
@[simp] theorem State.afterWrites_closed : (s.afterWrites bits).output.closed = s.output.closed := rfl

end

@[simp] theorem afterReads_zero (s : State) : s.afterReads 0 = s := by
  simp [State.afterReads]

/-- One read and then the others. -/
theorem afterReads_succ (k : Nat) (s : State) : s.afterReads (k + 1) = (s.afterRead 8).afterReads k := by
  simp only [State.afterReads, State.afterRead, List.drop_tail, Nat.mul_add_one, Nat.add_comm (8 * k),
    Nat.add_assoc, BitVec.ofNat_add, BitVec.add_assoc]

theorem afterReads_one (s : State) : s.afterReads 1 = s.afterRead 8 := by
  rw [afterReads_succ, afterReads_zero]

@[simp] theorem afterWrites_nil (s : State) : s.afterWrites [] = s := by
  simp [State.afterWrites]

theorem afterWrites_singleton (b : Bool) (s : State) : s.afterWrites [b] = s.afterWrite [b] := by
  simp [State.afterWrites, State.afterWrite]

theorem afterWrites_append (as bs : List Bool) (s : State) :
    s.afterWrites (as ++ bs) = (s.afterWrites as).afterWrites bs := by
  simp only [State.afterWrites, List.drop_drop, List.length_append, List.append_assoc, BitVec.ofNat_add,
    BitVec.add_assoc]

/-- One write and then the others. -/
theorem afterWrites_cons (b : Bool) (bits : List Bool) (s : State) :
    s.afterWrites (b :: bits) = (s.afterWrite [b]).afterWrites bits := by
  rw [← afterWrites_singleton, ← afterWrites_append, List.singleton_append]

/-! ### Reliable channels (R66) -/

theorem allOk_drop {as : List Answer} (k : Nat) (h : allOk as = true) : allOk (as.drop k) = true := by
  induction k generalizing as with
  | zero => exact h
  | succ k ih => rw [← List.drop_tail]; exact ih (allOk_tail h)

theorem reliable_iff (s : State) :
    s.reliable = true ↔ allOk s.input.answers = true ∧ allOk s.output.answers = true :=
  Bool.and_eq_true_iff

/-- Using up answers keeps the channels reliable. -/
theorem reliable_of_drop {s t : State} {j k : Nat} (h : s.reliable = true)
    (hin : t.input.answers = s.input.answers.drop j) (hout : t.output.answers = s.output.answers.drop k) :
    t.reliable = true := by
  rw [reliable_iff] at h ⊢
  rw [hin, hout]
  exact ⟨allOk_drop j h.1, allOk_drop k h.2⟩

theorem nextAnswer_input_of_reliable {s : State} (h : s.reliable = true) : nextAnswer s.input.answers = .ok :=
  nextAnswer_of_allOk ((reliable_iff s).mp h).1

theorem nextAnswer_output_of_reliable {s : State} (h : s.reliable = true) : nextAnswer s.output.answers = .ok :=
  nextAnswer_of_allOk ((reliable_iff s).mp h).2

end Sys2Proof.Machine
end

section
/-! PROOFS. A core blocked by a silent channel (R207), and the closing of the output at the end of an operation (R55). -/

namespace Sys2Proof.Machine

/-! ### The input channel is silent -/

section
variable {s : State}

theorem countStep_silent (ha : nextAnswer s.input.answers = .silent) : countStep s = .next s := by
  simp [countStep, inRewind_silent ha, inRead_silent ha]

theorem emitStep_silent (hpl : s.place = .top) (ha : nextAnswer s.input.answers = .silent) :
    emitStep s = .next s := by
  simp [emitStep, hpl, inRead_silent ha]

theorem readMagicStep_silent (ha : nextAnswer s.input.answers = .silent) : readMagicStep s = .next s := by
  simp [readMagicStep, inRead_silent ha]

theorem readTreeStep_silent (ha : nextAnswer s.input.answers = .silent) : readTreeStep s = .next s := by
  simp [readTreeStep, State.inReadBit, inRead_silent ha]

theorem walkStep_silent (hpl : s.place = .top) (ha : nextAnswer s.input.answers = .silent) :
    walkStep s = .next s := by
  simp [walkStep, hpl, State.inReadBit, inRead_silent ha]

/-- Every step that begins with a read or a rewind waits for its answer. -/
theorem coreStep_input_silent (hw : s.waitsOnInput = true) (ha : nextAnswer s.input.answers = .silent) :
    coreStep s = .next s := by
  cases hp : s.phase with
  | cCount => rw [coreStep_cCount hp, countStep_silent ha]
  | dMagic => rw [coreStep_dMagic hp, readMagicStep_silent ha]
  | dTree => rw [coreStep_dTree hp, readTreeStep_silent ha]
  | cEmit =>
    have hpl : s.place = .top := by simpa [State.waitsOnInput, hp] using hw
    rw [coreStep_cEmit hp, emitStep_silent hpl ha]
  | dWalk =>
    have hpl : s.place = .top := by simpa [State.waitsOnInput, hp] using hw
    rw [coreStep_dWalk hp, walkStep_silent hpl ha]
  | idle | cBuild | cMagic | cTree | cCodes | cTerm | cFlush | dDone | eFlush =>
    simp [State.waitsOnInput, hp] at hw

end

/-! ### The output channel is silent -/

section
variable {s : State} (hc : s.output.closed = false) (ha : nextAnswer s.output.answers = .silent)
include hc ha

/-- At a node of the traversal, at its tag or at a leaf's symbol, a record is due. -/
theorem writeTreeStep_silent (hp : s.phase = .cTree) (hst : s.stack ≠ []) (hpl : s.placeInv) :
    writeTreeStep s = .next s := by
  obtain ⟨f, rest, hst⟩ := List.exists_cons_of_ne_nil hst
  rw [writeTreeStep_cons hst]
  cases hl : s.isLeaf f.handle with
  | false =>
    have hr : s.recordOf f.handle = .treeInternal := by simp [State.recordOf, hl]
    have htop : s.place = .top := by
      rcases (placeInv_cTree hp).mp hpl with h | ⟨-, g, more, hg, hleaf⟩
      · exact h
      · rw [hst] at hg
        cases hg
        rw [hl] at hleaf
        cases hleaf
    rw [hr, exec_treeInternal, execTreeInternal, if_pos hp, writeInternal, hst]
    simp only [hr, htop, and_self, if_true]
    exact writeThen_silent 1 0 _ hc ha
  | true =>
    have hr : s.recordOf f.handle = .treeLeaf (s.nodeAt f.handle).sym.val := by simp [State.recordOf, hl]
    rw [hr, exec_treeLeaf, execTreeLeaf, if_pos hp, writeLeaf, hst]
    rcases (placeInv_cTree hp).mp hpl with h | ⟨h, -⟩
    · simp only [hr, h, if_true]
      exact writeThen_silent 1 1 _ hc ha
    · simp only [hr, h, if_true, reduceCtorEq, if_false]
      exact writeThen_silent 9 _ _ hc ha

theorem emitStep_bits_silent {b : Bool} {rest : List Bool} (hpl : s.place = .bits (b :: rest)) :
    emitStep s = .next s := by
  rw [emitStep, hpl]
  exact writeThen_silent 1 b.toNat _ hc ha

theorem termStep_bits_silent {b : Bool} {rest : List Bool} (hpl : s.place = .bits (b :: rest)) :
    termStep s = .next s := by
  rw [termStep, hpl]
  exact writeThen_silent 1 b.toNat _ hc ha

theorem walkStep_byte_silent (hpl : s.place = .byte) : walkStep s = .next s := by
  rw [walkStep, if_pos hpl]
  exact writeThen_silent 8 _ _ hc ha

theorem flushStep_silent : flushStep s = .next s := by
  simp [flushStep, outFlushClose_silent hc ha]

theorem errorFlushStep_silent : errorFlushStep s = .next s := by
  simp [errorFlushStep, outFlushClose_silent hc ha]

/-- Every step that begins with a write or a flush waits for its answer. -/
theorem coreStep_output_silent (hpl : s.placeInv) (hw : s.waitsOnOutput = true) : coreStep s = .next s := by
  cases hp : s.phase with
  | cMagic => rw [coreStep_cMagic hp]; exact writeThen_silent 32 _ _ hc ha
  | cTree =>
    have hst : s.stack ≠ [] := by simpa [State.waitsOnOutput, hp] using hw
    rw [coreStep_cTree hp, writeTreeStep_silent hc ha hp hst hpl]
  | cEmit =>
    have hne : s.place ≠ .top := by simpa [State.waitsOnOutput, hp] using hw
    obtain ⟨b, rest, hbits⟩ := ((placeInv_cEmit hp).mp hpl).resolve_left hne
    rw [coreStep_cEmit hp, emitStep_bits_silent hc ha hbits]
  | cTerm =>
    have hne : s.place ≠ .bits [] := by simpa [State.waitsOnOutput, hp] using hw
    obtain ⟨code, hcode⟩ := (placeInv_cTerm hp).mp hpl
    obtain ⟨b, rest, rfl⟩ := List.exists_cons_of_ne_nil fun e : code = [] => hne (e ▸ hcode)
    rw [coreStep_cTerm hp, termStep_bits_silent hc ha hcode]
  | dWalk =>
    have hbyte : s.place = .byte := by simpa [State.waitsOnOutput, hp] using hw
    rw [coreStep_dWalk hp, walkStep_byte_silent hc ha hbyte]
  | cFlush => rw [coreStep_cFlush hp, flushStep_silent hc ha]
  | dDone => rw [coreStep_dDone hp, flushStep_silent hc ha]
  | eFlush => rw [coreStep_eFlush hp, errorFlushStep_silent hc ha]
  | idle | cCount | cBuild | cCodes | dMagic | dTree => simp [State.waitsOnOutput, hp] at hw

end

/-- Settles O20: by the phase that waits. -/
theorem silentChannelBlocksTheCore : Obligations.SilentChannelBlocksTheCore :=
  fun _ hi => ⟨coreStep_input_silent, fun hw hc ha => coreStep_output_silent hc ha hi.place hw⟩

/-! ### The output closes with the operation (R55, R184) -/

/-- The flushes close the output as they end the operation. -/
theorem flushStep_closes {s t : State} (h : flushStep s = .next t) :
    t = s ∨ (t.output.closed = true ∧ t.busy = false) := by
  rcases (flushStep_next h).2 with rfl | rfl | rfl
  · exact .inl rfl
  · exact .inr ⟨rfl, rfl⟩
  · exact .inr ⟨rfl, rfl⟩

theorem errorFlushStep_closes {s t : State} (h : errorFlushStep s = .next t) :
    t = s ∨ (t.output.closed = true ∧ t.busy = false) := by
  rcases (errorFlushStep_next h).2 with rfl | rfl | rfl
  · exact .inl rfl
  · exact .inr ⟨rfl, rfl⟩
  · exact .inr ⟨rfl, rfl⟩

/-- No other step closes the output. -/
theorem coreStep_closed {s t : State} (h : coreStep s = .next t) (hc : s.phase ≠ .cFlush) (hd : s.phase ≠ .dDone)
    (he : s.phase ≠ .eFlush) : t.output.closed = s.output.closed := by
  cases hp : s.phase with
  | idle => rw [coreStep_idle hp] at h; cases h; rfl
  | cCount =>
    rcases countStep_next (coreStep_cCount hp ▸ h) with
      rfl | ⟨_, rfl | ⟨_, rfl⟩⟩ | ⟨_, rfl | rfl | ⟨b, _, ⟨_, rfl⟩ | ⟨_, rfl⟩⟩⟩ <;> rfl
  | cBuild =>
    rcases buildStep_next (coreStep_cBuild hp ▸ h) with ⟨_, u, hu, rfl⟩ | ⟨_, a, _, rfl⟩ | ⟨_, a, b, rest, _, _, rfl⟩
    · exact congrArg OutChannel.closed (buildLeaves_frame hu).channels.2
    · rfl
    · rfl
  | cMagic => rcases magicStep_next (coreStep_cMagic hp ▸ h) with rfl | rfl | rfl <;> rfl
  | cTree =>
    rcases writeTreeStep_next hp (coreStep_cTree hp ▸ h) with
      ⟨_, rfl⟩ | ⟨f, rest, _, rfl | rfl | ⟨_, _, rfl⟩ | ⟨_, _, rfl⟩ | ⟨_, _, rfl⟩⟩ <;> rfl
  | cCodes =>
    rcases codesStep_next (coreStep_cCodes hp ▸ h) with ⟨_, rfl⟩ | ⟨f, rest, _, ⟨_, rfl⟩ | ⟨_, rfl⟩⟩ <;> rfl
  | cEmit =>
    rcases emitStep_next (coreStep_cEmit hp ▸ h) with
      rfl | ⟨b, rest, _, rfl | ⟨_, rfl⟩ | ⟨_, rfl⟩⟩ | ⟨_, rfl | rfl | ⟨b, _, ⟨_, rfl⟩ | ⟨_, rfl⟩⟩⟩ <;> rfl
  | cTerm =>
    rcases termStep_next (coreStep_cTerm hp ▸ h) with rfl | ⟨b, rest, _, rfl | ⟨_, rfl⟩ | ⟨_, rfl⟩⟩ | ⟨_, rfl⟩ <;> rfl
  | dMagic => rcases readMagicStep_next (coreStep_dMagic hp ▸ h) with rfl | rfl | rfl | ⟨_, rfl | rfl⟩ <;> rfl
  | dTree =>
    rcases readTreeStep_next hp (coreStep_dTree hp ▸ h) with
      rfl | rfl | rfl | ⟨_, _, v, hr⟩ | ⟨_, _, ⟨_, rfl⟩ | ⟨_, rfl | hr⟩⟩
    · rfl
    · rfl
    · rfl
    · exact congrArg OutChannel.closed (readLeaf_channels hr).2
    · rfl
    · rfl
    · exact congrArg OutChannel.closed (readInternal_channels hr).2
  | dWalk =>
    rcases walkStep_next (coreStep_dWalk hp ▸ h) with rfl | ⟨_, rfl | rfl⟩ | ⟨_, rfl | rfl | ⟨_, b, rfl⟩⟩
    · rfl
    · rfl
    · rfl
    · rfl
    · rfl
    · exact congrArg OutChannel.closed (walkTo_channels _ _).2
  | cFlush => exact absurd hp hc
  | dDone => exact absurd hp hd
  | eFlush => exact absurd hp he

/-- Settles O57: a flush that is answered does both, and every other step does neither. -/
theorem operationEndsWithItsFlush : Obligations.OperationEndsWithItsFlush := by
  intro s t _ hb ho h
  have of_flush : t = s ∨ (t.output.closed = true ∧ t.busy = false) → (t.output.closed = true ↔ t.busy = false) := by
    rintro (rfl | ⟨hc, hb⟩)
    · simp [hb, ho]
    · simp [hb, hc]
  by_cases hc : s.phase = .cFlush
  · exact of_flush (flushStep_closes (coreStep_cFlush hc ▸ h))
  by_cases hd : s.phase = .dDone
  · exact of_flush (flushStep_closes (coreStep_dDone hd ▸ h))
  by_cases he : s.phase = .eFlush
  · exact of_flush (errorFlushStep_closes (coreStep_eFlush he ▸ h))
  obtain ⟨hbusy, -⟩ := coreStep_frame h
  simp [hbusy hc hd he, coreStep_closed h hc hd he, hb, ho]

end Sys2Proof.Machine
end

section
/-! PROOFS. C_COUNT as a whole: every byte is counted, and the input is rewound for the second pass (R90). -/

namespace Sys2Proof.Machine

/-! ### The counted bytes (R90, R91) -/

theorem toNat_lenMax : Config.lenMax.toNat = 4294967294 := rfl

/-- The counters after one more byte `b`. -/
def countOne (freq : Vector Word 256) (b : Byte) : Vector Word 256 := freq.set b.toNat (freq[b.toNat] + 1)

/-- After the bytes `bs` have been read and counted (R90). -/
def State.afterCount (bs : List Byte) (s : State) : State :=
  { s.afterReads bs.length with
    freq := bs.foldl countOne s.freq
    len := s.len + BitVec.ofNat 32 bs.length }

section
variable (bs : List Byte) (s : State)

@[simp] theorem State.afterCount_busy : (s.afterCount bs).busy = s.busy := rfl
@[simp] theorem State.afterCount_errCode : (s.afterCount bs).errCode = s.errCode := rfl
@[simp] theorem State.afterCount_inBits :
    (s.afterCount bs).inBits = s.inBits + BitVec.ofNat 64 (8 * bs.length) := rfl
@[simp] theorem State.afterCount_outBits : (s.afterCount bs).outBits = s.outBits := rfl
@[simp] theorem State.afterCount_len : (s.afterCount bs).len = s.len + BitVec.ofNat 32 bs.length := rfl
@[simp] theorem State.afterCount_input : (s.afterCount bs).input = (s.afterReads bs.length).input := rfl
@[simp] theorem State.afterCount_output : (s.afterCount bs).output = s.output := rfl

end

@[simp] theorem afterCount_nil (s : State) : s.afterCount [] = s := by
  simp [State.afterCount]

/-- The first byte and then the others. -/
theorem afterCount_cons (b : Byte) (bs : List Byte) (s : State) :
    s.afterCount (b :: bs) = (s.afterCount [b]).afterCount bs := by
  have hreads := afterReads_succ bs.length s
  have hlen : BitVec.ofNat 32 (bs.length + 1) = BitVec.ofNat 32 1 + BitVec.ofNat 32 bs.length := by
    rw [Nat.add_comm, BitVec.ofNat_add]
  rw [← afterReads_one] at hreads
  simp only [State.afterCount, List.length_cons, hreads, hlen, ← BitVec.add_assoc]
  rfl

/-- A byte adds one to its own counter. -/
theorem freqAt_afterCount_singleton (b c : Byte) (s : State) :
    (s.afterCount [b]).freqAt c = s.freqAt c + BitVec.ofNat 32 ([b].count c) := by
  by_cases h : b = c
  · subst h
    simp [State.freqAt, State.afterCount, countOne]
  · have hne : b.toNat ≠ c.toNat := fun e => h (BitVec.eq_of_toNat_eq e)
    simp [State.freqAt, State.afterCount, countOne, Vector.getElem_set_ne, hne, h]

/-- Each counter grows by the number of its bytes. -/
theorem freqAt_afterCount (bs : List Byte) (c : Byte) (s : State) :
    (s.afterCount bs).freqAt c = s.freqAt c + BitVec.ofNat 32 (bs.count c) := by
  induction bs generalizing s with
  | nil => simp
  | cons b bs ih =>
    have hcount : (b :: bs).count c = [b].count c + bs.count c := List.count_append (l₁ := [b])
    rw [afterCount_cons, ih, freqAt_afterCount_singleton, hcount, BitVec.ofNat_add, BitVec.add_assoc]

/-- From cleared counters, up to `LEN_MAX` bytes leave the numbers of the bytes. -/
theorem toNat_freqAt_afterCount {s : State} {bs : List Byte} (hfreq : s.freq = Vector.replicate 256 0)
    (hmax : bs.length ≤ Config.lenMax.toNat) (c : Byte) : ((s.afterCount bs).freqAt c).toNat = bs.count c := by
  have hzero : s.freqAt c = 0#32 := by simp [State.freqAt, hfreq]
  have hle : bs.count c ≤ bs.length := List.count_le_length
  have hmaxNat := toNat_lenMax
  rw [freqAt_afterCount, hzero, BitVec.zero_add, BitVec.toNat_ofNat, Nat.mod_eq_of_lt (by omega)]

/-! ### The steps of C_COUNT -/

/-- The core is at the head of C_COUNT's loop, and its channels are reliable. -/
structure State.AtCount (s : State) : Prop where
  host : s.host = []
  phase : s.phase = .cCount
  place : s.place = .top
  reliable : s.reliable = true

theorem State.AtCount.next {s : State} (h : s.AtCount) (bs : List Byte) : (s.afterCount bs).AtCount :=
  ⟨h.host, h.phase, h.place, reliable_of_drop (k := 0) h.reliable rfl rfl⟩

/-- A byte below `LEN_MAX` is counted. -/
theorem step_countByte {s : State} {b : Byte} {rest : List Bool} (h : s.AtCount)
    (hd : s.input.bits.drop s.input.pos = bitsOf 8 b.toNat ++ rest) (hl : s.len ≠ Config.lenMax) :
    step s = .next (s.afterCount [b]) := by
  have hread := inRead_byte (nextAnswer_input_of_reliable h.reliable) hd
  have hl' : ¬ (s.afterRead 8).len = Config.lenMax := hl
  have hplace : ¬ s.place = .rewind := by rw [h.place]; decide
  rw [step_of_host_nil h.host, coreStep_cCount h.phase, countStep, if_neg hplace, hread]
  simp only [State.countByte, BitVec.ofNat_toNat, BitVec.setWidth_eq, if_neg hl', State.afterCount,
    List.length_singleton, afterReads_one]
  rfl

/-- At the start of C_BUILD: the first pass has ended in `NoData`, and the input has been rewound. -/
def State.afterFirstPass (s : State) : State :=
  { s with
    phase := .cBuild, place := .top, draws := s.draws + 1
    input := { s.input with
      pos := 0, bits := s.input.replay.getD s.input.bits, replay := none, answers := s.input.answers.tail.tail } }

section
variable (s : State)

@[simp] theorem State.afterFirstPass_busy : s.afterFirstPass.busy = s.busy := rfl
@[simp] theorem State.afterFirstPass_errCode : s.afterFirstPass.errCode = s.errCode := rfl
@[simp] theorem State.afterFirstPass_inBits : s.afterFirstPass.inBits = s.inBits := rfl
@[simp] theorem State.afterFirstPass_outBits : s.afterFirstPass.outBits = s.outBits := rfl
@[simp] theorem State.afterFirstPass_len : s.afterFirstPass.len = s.len := rfl
@[simp] theorem State.afterFirstPass_freqAt (b : Byte) : s.afterFirstPass.freqAt b = s.freqAt b := rfl
@[simp] theorem State.afterFirstPass_input : s.afterFirstPass.input =
    { s.input with
      pos := 0, bits := s.input.replay.getD s.input.bits, replay := none, answers := s.input.answers.tail.tail } := rfl
@[simp] theorem State.afterFirstPass_output : s.afterFirstPass.output = s.output := rfl

end

/-- The end of the input makes the rewind due, and the rewind ends the phase. -/
theorem runSteps_afterFirstPass {s : State} (h : s.AtCount) (hn : s.input.bits.length < s.input.pos + 8)
    (hrew : s.input.rewindable = true) : runSteps 2 s = .next s.afterFirstPass := by
  let t : State := s.afterNoData.moveTo .rewind
  have hplace : ¬ s.place = .rewind := by rw [h.place]; decide
  have hend : step s = .next t := by
    rw [step_of_host_nil h.host, coreStep_cCount h.phase, countStep, if_neg hplace,
      inRead_noData (nextAnswer_input_of_reliable h.reliable) hn]
    rfl
  have hrel : t.reliable = true := reliable_of_drop (j := 1) (k := 0) h.reliable List.drop_one.symm rfl
  have hback : step t = .next s.afterFirstPass := by
    rw [step_of_host_nil (s := t) h.host, coreStep_cCount (s := t) h.phase, countStep,
      if_pos (show t.place = .rewind from rfl), inRewind_ok (s := t) (nextAnswer_input_of_reliable hrel) hrew]
    simp only [t, State.afterFirstPass, State.goto, State.inRewound, State.moveTo, State.afterNoData,
      State.inExhaust, State.inAnswered]
  rw [runSteps_succ_of_next 1 hend, runSteps_succ_of_next 0 hback, runSteps_zero]

/-- Each byte takes one step, as long as `LEN_MAX` has room for it. -/
theorem runSteps_countBytes {s : State} {bs : List Byte} {rest : List Bool} (h : s.AtCount)
    (hd : s.input.bits.drop s.input.pos = bitsOfBytes bs ++ rest)
    (hmax : s.len.toNat + bs.length ≤ Config.lenMax.toNat) :
    runSteps bs.length s = .next (s.afterCount bs) := by
  induction bs generalizing s with
  | nil => simp
  | cons b bs ih =>
    rw [bitsOfBytes, List.append_assoc] at hd
    rw [List.length_cons] at hmax
    have hl : s.len ≠ Config.lenMax := fun e => by rw [e] at hmax; omega
    have hd' : (s.afterCount [b]).input.bits.drop (s.afterCount [b]).input.pos = bitsOfBytes bs ++ rest := by
      rw [State.afterCount_input, List.length_singleton, afterReads_one]
      exact drop_afterRead hd
    have hmaxNat := toNat_lenMax
    have hlen : (s.afterCount [b]).len.toNat = s.len.toNat + 1 := by
      rw [State.afterCount_len, BitVec.toNat_add_of_lt (by simp; omega)]
      rfl
    rw [List.length_cons, runSteps_succ_of_next _ (step_countByte h hd hl), afterCount_cons b bs s]
    exact ih (h.next [b]) hd' (by omega)

/-- Settles O26: the bytes by induction, then the end of the input and the rewind. -/
theorem countPhaseCountsTheInput : Obligations.CountPhaseCountsTheInput := by
  intro s bs tail hh hp hpl hlen hfreq hr hpos hrew hbits ht hmax
  have hat : s.AtCount := ⟨hh, hp, hpl, hr⟩
  have hd : s.input.bits.drop s.input.pos = bitsOfBytes bs ++ tail := by rw [hpos, List.drop_zero, hbits]
  have hbytes := runSteps_countBytes hat hd (by rw [hlen]; simpa using hmax)
  have hn : s.input.bits.length < s.input.pos + 8 * bs.length + 8 := by
    rw [hbits, hpos, List.length_append, length_bitsOfBytes]
    omega
  have hend := runSteps_afterFirstPass (hat.next bs) hn hrew
  have hlt : bs.length < 4294967296 := by
    rw [toNat_lenMax] at hmax
    omega
  refine ⟨(s.afterCount bs).afterFirstPass, (runSteps_add _ 2 hbytes).trans hend, rfl, rfl, ?_, fun b => ?_,
    ?_, rfl, ?_, ?_, ?_, ?_, ?_, ?_⟩
  · simp [hlen, Nat.mod_eq_of_lt hlt]
  · rw [State.afterFirstPass_freqAt, toNat_freqAt_afterCount hfreq hmax]
  · rw [State.afterFirstPass_inBits, State.afterCount_inBits]
  · simp
  · exact reliable_of_drop (j := 2) (k := 0) (hat.next bs).reliable (by simp) rfl
  all_goals simp

end Sys2Proof.Machine
end

section
/-! PROOFS. C_EMIT and C_TERM: the codes of the second pass's bytes and of the sentinel, written bit by bit (R144, R145). -/

namespace Sys2Proof.Machine

/-! ### The bits of a code (R144, R145) -/

/-- The core writes a code in C_EMIT or C_TERM, to an open reliable channel. -/
structure State.AtCode (code : List Bool) (s : State) : Prop where
  host : s.host = []
  phase : s.phase = .cEmit ∨ s.phase = .cTerm
  place : s.place = .bits code
  isOpen : s.output.closed = false
  reliable : s.reliable = true

/-- The phase that follows a code: C_FLUSH after the sentinel's, else C_EMIT (R144, R145). -/
def Phase.afterCode (p : Phase) : Phase := if p = .cTerm then .cFlush else .cEmit

theorem moveTo_top_eq_goto {s : State} {p : Phase} (hp : s.phase = p) : s.moveTo .top = s.goto p := by
  subst hp; rfl

theorem writeBit_ok {s : State} {b : Bool} {rest : List Bool} {last : State → State}
    (hc : s.output.closed = false) (ha : nextAnswer s.output.answers = .ok) :
    writeBit b rest last s =
      .next (if rest = [] then last (s.afterWrite [b]) else (s.afterWrite [b]).moveTo (.bits rest)) := by
  have hb : bitsOf 1 b.toNat = [b] := by cases b <;> rfl
  rw [writeBit, writeThen_ok _ _ _ hc ha, hb]

theorem cbits_ne_nil {s : State} {x : Symbol} (h : s.clen x ≠ 0) : s.cbits x ≠ [] :=
  List.length_pos_iff.mp (Nat.pos_of_ne_zero h)

/-- One bit of a code: the last one ends the code, else the rest is due. -/
theorem step_codeBit {s : State} {b : Bool} {rest : List Bool} (h : s.AtCode (b :: rest)) :
    step s = .next (if rest = [] then (s.afterWrite [b]).goto s.phase.afterCode
      else (s.afterWrite [b]).moveTo (.bits rest)) := by
  have ha := nextAnswer_output_of_reliable h.reliable
  rw [step_of_host_nil h.host]
  rcases h.phase with hp | hp
  · have hlast : (s.afterWrite [b]).moveTo .top = (s.afterWrite [b]).goto s.phase.afterCode :=
      moveTo_top_eq_goto (by rw [hp]; exact hp)
    rw [coreStep_cEmit hp, emitStep, h.place]
    simp only [writeBit_ok h.isOpen ha, hlast]
  · rw [coreStep_cTerm hp, termStep, h.place, hp]
    simp only [writeBit_ok h.isOpen ha]
    rfl

/-- A whole code, bit by bit. -/
theorem reaches_afterWrites {s : State} {code : List Bool} (h : s.AtCode code) (hne : code ≠ []) :
    Reaches s ((s.afterWrites code).goto s.phase.afterCode) := by
  induction code generalizing s with
  | nil => exact absurd rfl hne
  | cons b rest ih =>
    have hstep := step_codeBit h
    rw [afterWrites_cons]
    by_cases hr : rest = []
    · rw [if_pos hr] at hstep
      rw [hr, afterWrites_nil]
      exact .of_step hstep
    · rw [if_neg hr] at hstep
      have hrel : ((s.afterWrite [b]).moveTo (.bits rest)).reliable = true :=
        reliable_of_drop (j := 0) (k := 1) h.reliable rfl List.drop_one.symm
      exact .head hstep (ih ⟨h.host, h.phase, rfl, h.isOpen, hrel⟩ hr)

/-! ### The bytes (R144) -/

/-- The core is at the head of C_EMIT's loop, with an open output and reliable channels. -/
structure State.AtByte (s : State) : Prop where
  host : s.host = []
  phase : s.phase = .cEmit
  place : s.place = .top
  isOpen : s.output.closed = false
  reliable : s.reliable = true

/-- A byte that has a code selects it. -/
theorem step_selectCode {s : State} {b : Byte} {rest : List Bool} (h : s.AtByte)
    (hd : s.input.bits.drop s.input.pos = bitsOf 8 b.toNat ++ rest) (hcode : s.clen (byteSymbol b) ≠ 0) :
    step s = .next ((s.afterRead 8).moveTo (.bits (s.cbits (byteSymbol b)))) := by
  have hread := inRead_byte (nextAnswer_input_of_reliable h.reliable) hd
  have hcode' : ¬ (s.afterRead 8).clen (byteSymbol b) = 0 := hcode
  rw [step_of_host_nil h.host, coreStep_cEmit h.phase, emitStep, h.place]
  simp only [hread, State.emitByte, BitVec.ofNat_toNat, BitVec.setWidth_eq, if_neg hcode']
  rfl

/-- The end of the input selects the sentinel's code and enters C_TERM. -/
theorem step_selectEof {s : State} (h : s.AtByte) (hn : s.input.bits.length < s.input.pos + 8) :
    step s = .next ((s.afterNoData.goto .cTerm).moveTo (.bits (s.cbits Config.eof))) := by
  have hread := inRead_noData (nextAnswer_input_of_reliable h.reliable) hn
  rw [step_of_host_nil h.host, coreStep_cEmit h.phase, emitStep, h.place]
  simp only [hread]
  rfl

/-- The state after a byte has been read and its code written. -/
theorem State.AtByte.next {s : State} (h : s.AtByte) (k : Nat) (code : List Bool) :
    ((s.afterReads k).afterWrites code).AtByte :=
  ⟨h.host, h.phase, h.place, h.isOpen, reliable_of_drop h.reliable rfl rfl⟩

/-- The codes of the bytes `bs`, in order (R79). -/
def State.codesOf (s : State) (bs : List Byte) : List Bool := bs.flatMap fun b => s.cbits (byteSymbol b)

/-- One byte of the second pass: it is read and its code written. -/
theorem reaches_emitByte {s : State} {b : Byte} {rest : List Bool} (h : s.AtByte)
    (hd : s.input.bits.drop s.input.pos = bitsOf 8 b.toNat ++ rest) (hcode : s.clen (byteSymbol b) ≠ 0) :
    Reaches s ((s.afterRead 8).afterWrites (s.cbits (byteSymbol b))) := by
  have hrel : (s.afterRead 8).reliable = true :=
    reliable_of_drop (j := 1) (k := 0) h.reliable List.drop_one.symm rfl
  have hat : ((s.afterRead 8).moveTo (.bits (s.cbits (byteSymbol b)))).AtCode (s.cbits (byteSymbol b)) :=
    ⟨h.host, .inl h.phase, rfl, h.isOpen, hrel⟩
  have hwrite := reaches_afterWrites hat (cbits_ne_nil hcode)
  have hgoto : (s.afterRead 8).goto s.phase.afterCode = s.afterRead 8 :=
    (moveTo_top_eq_goto (by rw [h.phase]; exact h.phase)).symm.trans (moveTo_self h.place)
  exact .head (step_selectCode h hd hcode) (congrArg (State.afterWrites (s.cbits (byteSymbol b))) hgoto ▸ hwrite)

/-- The second pass over the bytes `bs` reads them all and writes their codes. -/
theorem reaches_emitBytes {s : State} {bs : List Byte} {rest : List Bool} (h : s.AtByte)
    (hd : s.input.bits.drop s.input.pos = bitsOfBytes bs ++ rest)
    (hcode : ∀ b ∈ bs, s.clen (byteSymbol b) ≠ 0) :
    Reaches s ((s.afterReads bs.length).afterWrites (s.codesOf bs)) := by
  induction bs generalizing s with
  | nil => simpa [State.codesOf] using Reaches.refl s
  | cons b bs ih =>
    rw [bitsOfBytes, List.append_assoc] at hd
    obtain ⟨hb, hbs⟩ := List.forall_mem_cons.mp hcode
    have hfirst := reaches_emitByte h hd hb
    have hnext := h.next 1 (s.cbits (byteSymbol b))
    rw [afterReads_one] at hnext
    have hothers := ih hnext (drop_afterRead hd) hbs
    rw [List.length_cons, afterReads_succ, State.codesOf, List.flatMap_cons, afterWrites_append]
    exact hfirst.trans hothers

/-- The terminator: the end of the input, and then the sentinel's code (R145). -/
theorem reaches_cFlush {s : State} (h : s.AtByte) (hn : s.input.bits.length < s.input.pos + 8)
    (hcode : s.clen Config.eof ≠ 0) :
    Reaches s ((s.afterNoData.afterWrites (s.cbits Config.eof)).goto .cFlush) := by
  have hrel : s.afterNoData.reliable = true :=
    reliable_of_drop (j := 1) (k := 0) h.reliable List.drop_one.symm rfl
  have hat : ((s.afterNoData.goto .cTerm).moveTo (.bits (s.cbits Config.eof))).AtCode (s.cbits Config.eof) :=
    ⟨h.host, .inr rfl, rfl, h.isOpen, hrel⟩
  exact .head (step_selectEof h hn) (reaches_afterWrites hat (cbits_ne_nil hcode))

/-- Settles O37: the bytes by induction, then the terminator where fewer than 8 bits remain. -/
theorem emitAndTermWriteTheCodes : Obligations.EmitAndTermWriteTheCodes := by
  intro s bs tail hh hp hpl hc hr hd ht _ hcode heof
  have hat : s.AtByte := ⟨hh, hp, hpl, hc, hr⟩
  have hlen := congrArg List.length hd
  simp only [List.length_drop, List.length_append, length_bitsOfBytes] at hlen
  have hn : s.input.bits.length < s.input.pos + 8 * bs.length + 8 := by omega
  have hnext := hat.next bs.length (s.codesOf bs)
  have hend := reaches_cFlush hnext hn heof
  have hreach := (reaches_emitBytes hat hd hcode).trans hend
  refine ⟨_, _, hreach, rfl, rfl, rfl, List.append_assoc _ _ _, ?_, reliable_of_drop hr List.tail_drop List.drop_drop,
    ?_, ?_, ?_, ?_, ?_, ?_, ?_, ?_⟩
  all_goals simp [State.afterNoData, hc, hh, State.codesOf, BitVec.ofNat_add, BitVec.add_assoc]

end Sys2Proof.Machine
end

section
/-! PROOFS. The code of the instructions is exact in both directions (R70 to R77); the size of the tree field (R113), and the
errors of a tree record read (R112, R115). -/

namespace Sys2Proof.Machine

/-! ### Words and records (R71, R77) -/

/-- Settles O1: each word and each record is evaluated. -/
theorem wordsOfTheTablesDecode : Obligations.WordsOfTheTablesDecode := by
  unfold Obligations.WordsOfTheTablesDecode
  decide

/-- The record of a leaf decodes with whatever bits follow it. -/
theorem decodeRecord_leaf {sym : Nat} (h : sym < 512) (rest : List Bool) :
    decodeRecord (true :: (bitsOf 9 sym ++ rest)) = .ok (.treeLeaf sym, rest) := by
  have hlen : (bitsOf 9 sym).length = 9 := length_bitsOf 9 sym
  have hroom : 9 ≤ (bitsOf 9 sym ++ rest).length := by
    rw [List.length_append, hlen]
    exact Nat.le_add_right 9 _
  simp only [decodeRecord, if_pos hroom, List.take_left' hlen, List.drop_left' hlen, natOf_bitsOf_of_lt (w := 9) h]

/-- A record decodes as a whole where nothing follows it. -/
theorem decode_record {bits : List Bool} {i : Instr} (h : decodeRecord bits = .ok (i, [])) :
    decode (.record bits) = .ok i := by
  simp [decode, h]

/-- A bit sequence that decodes is one record with no bits after it. -/
theorem decodeRecord_of_decode {bits : List Bool} {i : Instr} (h : decode (.record bits) = .ok i) :
    decodeRecord bits = .ok (i, []) := by
  rw [decode] at h
  split at h
  · rename_i e
    cases h
    exact e
  · cases h
  · cases h

/-- Settles O2: by the form of the instruction. -/
theorem decodeOfEncodeIsTheInstruction : Obligations.DecodeOfEncodeIsTheInstruction := by
  intro i hi
  cases i with
  | compress => exact ⟨rfl, nofun⟩
  | decompress => exact ⟨rfl, nofun⟩
  | treeInternal =>
    refine ⟨rfl, fun bits rest e => ?_⟩
    cases e
    rfl
  | treeLeaf sym =>
    have hrecord := decodeRecord_leaf (of_decide_eq_true hi : sym < 512)
    refine ⟨decode_record ?_, fun bits rest e => ?_⟩
    · simpa using hrecord []
    · cases e
      exact hrecord rest

/-- A bit sequence that decodes with nothing left over is the record of a well-formed instruction (R76, R77). -/
theorem encode_of_decodeRecord {bits : List Bool} {i : Instr} (h : decodeRecord bits = .ok (i, [])) :
    i.wellFormed = true ∧ encode i = .record bits := by
  match bits, h with
  | false :: _, h =>
    cases h
    exact ⟨rfl, rfl⟩
  | true :: bs, h =>
    by_cases hl : 9 ≤ bs.length
    · simp only [decodeRecord, if_pos hl, Except.ok.injEq, Prod.mk.injEq, List.drop_eq_nil_iff] at h
      obtain ⟨rfl, hl'⟩ := h
      have hlen : bs.length = 9 := Nat.le_antisymm hl' hl
      have hlt := natOf_lt bs
      have hback := bitsOf_natOf bs
      rw [hlen] at hlt hback
      rw [List.take_of_length_le hl', encode, hback]
      exact ⟨decide_eq_true hlt, rfl⟩
    · simp [decodeRecord, hl] at h

/-- Settles O3: a word by what the decoder says of every word, a bit sequence by its record. -/
theorem onlyEncodingsDecode : Obligations.OnlyEncodingsDecode := by
  intro e i h
  cases e with
  | cmd w =>
    rcases decodeCmd_cases w with ⟨rfl, hw⟩ | ⟨rfl, hw⟩ | ⟨_, err, hw⟩
    · cases hw.symm.trans h
      exact ⟨rfl, rfl⟩
    · cases hw.symm.trans h
      exact ⟨rfl, rfl⟩
    · cases hw.symm.trans h
  | record bits => exact encode_of_decodeRecord (decodeRecord_of_decode h)

/-! ### The errors of a record read (R112, R115) -/

/-- Settles O12: the capacity check, and the symbol's check after it. -/
theorem treeRecordReadErrors : Obligations.TreeRecordReadErrors := by
  refine ⟨fun s sym hp hpl hn hsym => ?_, fun s sym hp hpl hn => ?_, fun s hp hpl hn => ?_⟩
  · have hnone : symbolOf sym = none := dif_neg (Nat.not_lt.mpr hsym)
    rw [exec_treeLeaf_of_dTree sym hp, readLeaf, if_pos hpl, if_neg (Nat.ne_of_lt hn), hnone]
    rfl
  · rw [exec_treeLeaf_of_dTree sym hp, readLeaf, if_pos hpl, if_pos hn]
    rfl
  · rw [exec_treeInternal_of_dTree hp, readInternal, if_pos hpl, if_pos hn]
    rfl

/-! ### The size of the tree field (R113) -/

/-- Settles O32: a leaf has 10 bits, and an Internal node adds 1 to its subtrees' bits and to their nodes. -/
theorem treeFieldLength : Obligations.TreeFieldLength := by
  intro tree
  induction tree with
  | leaf x => simp [Tree.bits, Tree.leaves, Tree.size]
  | node l r ihl ihr =>
    obtain ⟨hlb, hls⟩ := ihl
    obtain ⟨hrb, hrs⟩ := ihr
    simp only [Tree.bits, Tree.leaves, Tree.size, List.length_cons, List.length_append]
    omega

end Sys2Proof.Machine
end

section
/-! PROOFS. WRITE_TREE: C_TREE's traversal writes the pre-order records of the tree at `ROOT` (R76, R110 to R112). -/

namespace Sys2Proof.Machine

/-! ### The records of C_TREE -/

/-- The core is in C_TREE, at the place `p` of a node's record, with an open output that answers. -/
structure State.AtRecord (p : Place) (s : State) : Prop where
  host : s.host = []
  phase : s.phase = .cTree
  place : s.place = p
  isOpen : s.output.closed = false
  answers : allOk s.output.answers = true

/-- After `k` `OutWrite`s that answered `Ok`, of `bits` altogether, with `stack` still to be visited (R55, R110). -/
def State.afterRecords (bits : List Bool) (k : Nat) (stack : List Frame) (s : State) : State :=
  { s with
    output := { s.output with bits := s.output.bits ++ bits, answers := s.output.answers.drop k }
    outBits := s.outBits + BitVec.ofNat 64 bits.length
    stack := stack }

/-- Records written one after the other. -/
theorem afterRecords_append (as bs : List Bool) (j k : Nat) (stack stack' : List Frame) (s : State) :
    s.afterRecords (as ++ bs) (j + k) stack = (s.afterRecords as j stack').afterRecords bs k stack := by
  simp only [State.afterRecords, List.append_assoc, List.drop_drop, List.length_append, BitVec.ofNat_add,
    BitVec.add_assoc]

theorem afterRecords_one (bits : List Bool) (stack : List Frame) (s : State) :
    s.afterRecords bits 1 stack = { s.afterWrite bits with stack := stack } := by
  simp only [State.afterRecords, State.afterWrite, List.drop_one]

theorem State.AtRecord.next {s : State} {p : Place} (h : s.AtRecord p) (bits : List Bool) (k : Nat)
    (stack : List Frame) : (s.afterRecords bits k stack).AtRecord p :=
  ⟨h.host, h.phase, h.place, h.isOpen, allOk_drop k h.answers⟩

/-- The child of an Internal node on the side of `bit`, as a traversal visits it (R79, R110, R130). -/
def State.childFrame (s : State) (f : Frame) (bit : Bool) : Frame :=
  { handle := s.child f.handle bit, path := f.path ++ [bit] }

theorem recordOf_of_internal {s : State} {h : Handle} (hk : s.node[h.val].kind = .internal) :
    s.recordOf h = .treeInternal := by
  simp [State.recordOf, State.isLeaf, State.nodeAt, hk]

theorem recordOf_of_leaf {s : State} {h : Handle} (hk : s.node[h.val].kind = .leaf) :
    s.recordOf h = .treeLeaf s.node[h.val].sym.val := by
  simp [State.recordOf, State.isLeaf, State.nodeAt, hk]

/-- An Internal node takes one step. -/
theorem step_internalNode {s : State} {f : Frame} {rest : List Frame} (h : s.AtRecord .top)
    (hst : s.stack = f :: rest) (hk : s.node[f.handle.val].kind = .internal) :
    step s = .next (s.afterRecords [false] 1 (s.childFrame f false :: s.childFrame f true :: rest)) := by
  have hr := recordOf_of_internal hk
  rw [step_of_host_nil h.host, coreStep_cTree h.phase, writeTreeStep_cons hst, hr, exec_treeInternal,
    execTreeInternal, if_pos h.phase, writeInternal, hst]
  simp only [h.place, hr, and_self, if_true, writeThen_ok _ _ _ h.isOpen (nextAnswer_of_allOk h.answers),
    afterRecords_one]
  rfl

/-- Both steps of a leaf run its record. -/
theorem step_eq_writeLeaf {s : State} {p : Place} {f : Frame} {rest : List Frame} (h : s.AtRecord p)
    (hst : s.stack = f :: rest) (hk : s.node[f.handle.val].kind = .leaf) :
    step s = writeLeaf s.node[f.handle.val].sym.val s := by
  rw [step_of_host_nil h.host, coreStep_cTree h.phase, writeTreeStep_cons hst, recordOf_of_leaf hk, exec_treeLeaf,
    execTreeLeaf, if_pos h.phase]

theorem step_leafTag {s : State} {f : Frame} {rest : List Frame} (h : s.AtRecord .top) (hst : s.stack = f :: rest)
    (hk : s.node[f.handle.val].kind = .leaf) : step s = .next ((s.afterWrite [true]).moveTo .symbol) := by
  rw [step_eq_writeLeaf h hst hk, writeLeaf, hst]
  simp only [h.place, recordOf_of_leaf hk, if_true, writeThen_ok _ _ _ h.isOpen (nextAnswer_of_allOk h.answers)]
  rfl

theorem step_leafSymbol {s : State} {f : Frame} {rest : List Frame} (h : s.AtRecord .symbol)
    (hst : s.stack = f :: rest) (hk : s.node[f.handle.val].kind = .leaf) :
    step s = .next ((s.afterWrite (bitsOf 9 s.node[f.handle.val].sym.val)).visited rest) := by
  rw [step_eq_writeLeaf h hst hk, writeLeaf, hst]
  simp only [h.place, recordOf_of_leaf hk, reduceCtorEq, if_true, if_false,
    writeThen_ok _ _ _ h.isOpen (nextAnswer_of_allOk h.answers)]

/-- A leaf takes two steps. -/
theorem runSteps_leafNode {s : State} {f : Frame} {rest : List Frame} (h : s.AtRecord .top)
    (hst : s.stack = f :: rest) (hk : s.node[f.handle.val].kind = .leaf) :
    runSteps 2 s = .next (s.afterRecords (true :: bitsOf 9 s.node[f.handle.val].sym.val) 2 rest) := by
  have hu : ((s.afterWrite [true]).moveTo .symbol).AtRecord .symbol :=
    ⟨h.host, h.phase, rfl, h.isOpen, allOk_tail h.answers⟩
  rw [runSteps_succ_of_next 1 (step_leafTag h hst hk), runSteps_succ_of_next 0 (step_leafSymbol hu hst hk),
    runSteps_zero]
  show _ = Host.Outcome.next (s.afterRecords ([true] ++ bitsOf 9 s.node[f.handle.val].sym.val) (1 + 1) rest)
  rw [afterRecords_append [true] _ 1 1 rest s.stack, afterRecords_one, afterRecords_one]
  simp only [State.visited, State.moveTo, State.afterWrite, h.place]

/-! ### The traversal -/

/-- The traversal of a tree that the arena holds writes its records and goes on with the rest of the stack (R110). -/
theorem reaches_afterRecords (tree : Tree) {s : State} {f : Frame} {rest : List Frame} (h : s.AtRecord .top)
    (hst : s.stack = f :: rest) (held : Tree.heldAt s.node tree f.handle) :
    ∃ k, Reaches s (s.afterRecords tree.bits k rest) := by
  induction tree generalizing s f rest with
  | leaf x =>
    obtain ⟨hk, rfl⟩ := held
    exact ⟨2, 2, runSteps_leafNode h hst hk⟩
  | node l r ihl ihr =>
    obtain ⟨hk, hl, hr⟩ := held
    have hstep := Reaches.of_step (step_internalNode h hst hk)
    have hu := h.next [false] 1 (s.childFrame f false :: s.childFrame f true :: rest)
    obtain ⟨j, hleft⟩ := ihl hu rfl hl
    obtain ⟨k, hright⟩ := ihr (hu.next l.bits j (s.childFrame f true :: rest)) rfl hr
    refine ⟨1 + (j + k), ?_⟩
    have hbits : (Tree.node l r).bits = [false] ++ (l.bits ++ r.bits) := rfl
    rw [hbits, afterRecords_append, afterRecords_append]
    exact hstep.trans (hleft.trans hright)

/-- C_TREE as a whole: the traversal from the root, and the step that ends it. -/
theorem reaches_cCodes {s : State} {tree : Tree} (h : s.AtRecord .top) (hst : s.stack = [{ handle := s.root }])
    (held : Tree.heldAt s.node tree s.root) :
    ∃ k, Reaches s ((s.afterRecords tree.bits k []).startTraversal .cCodes) := by
  obtain ⟨k, hreach⟩ := reaches_afterRecords tree h hst held
  have hend := h.next tree.bits k []
  have hstep : step (s.afterRecords tree.bits k []) =
      .next ((s.afterRecords tree.bits k []).startTraversal .cCodes) := by
    rw [step_of_host_nil hend.host, coreStep_cTree hend.phase]
    rfl
  exact ⟨k, hreach.trans (.of_step hstep)⟩

/-- Settles O33: C_TREE as a whole. -/
theorem writeTreeEmitsThePreorderRecords : Obligations.WriteTreeEmitsThePreorderRecords := by
  intro s tree hh hp hpl hst held hc ha
  obtain ⟨k, hreach⟩ := reaches_cCodes ⟨hh, hp, hpl, hc, ha⟩ hst held
  exact ⟨_, hreach, rfl, rfl, rfl, rfl, hc, allOk_drop k ha, rfl, rfl, rfl, rfl, rfl, rfl, rfl, rfl, hh⟩

end Sys2Proof.Machine
end

section
/-! PROOFS. DERIVE_CODES: C_CODES's traversal binds the symbol of each leaf to its root-to-leaf path (R79, R130). -/

namespace Sys2Proof.Machine

/-! ### The codes of a tree (R79, R131) -/

theorem map_fst_codes (tree : Tree) : tree.codes.map Prod.fst = tree.leaves := by
  induction tree with
  | leaf x => rfl
  | node l r ihl ihr => simp [Tree.codes, Tree.leaves, ← ihl, ← ihr, Function.comp_def]

/-- Below an Internal root every leaf has an edge above it. -/
theorem ne_nil_of_mem_codes {tree : Tree} (h : tree.isNode = true) {c : Symbol × List Bool} (hc : c ∈ tree.codes) :
    c.2 ≠ [] := by
  cases tree with
  | leaf x => cases h
  | node l r =>
    rcases List.mem_append.mp hc with hc | hc
    · obtain ⟨d, -, rfl⟩ := List.mem_map.mp hc
      exact List.cons_ne_nil _ _
    · obtain ⟨d, -, rfl⟩ := List.mem_map.mp hc
      exact List.cons_ne_nil _ _

/-- A leaf's symbol is found in the tree's codes. -/
theorem lookup_of_mem_leaves {tree : Tree} {x : Symbol} (hx : x ∈ tree.leaves) :
    ∃ code, tree.codes.lookup x = some code ∧ (x, code) ∈ tree.codes := by
  rw [← map_fst_codes] at hx
  obtain ⟨c, hc, rfl⟩ := List.mem_map.mp hx
  obtain ⟨code, hl⟩ := Option.isSome_iff_exists.mp (List.lookup_isSome_iff.mpr ⟨c, hc, beq_self_eq_true c.1⟩)
  obtain ⟨before, after, hsplit, -⟩ := List.lookup_eq_some_iff.mp hl
  exact ⟨code, hl, by simp [hsplit]⟩

theorem code_ne_nil {tree : Tree} (h : tree.isNode = true) {x : Symbol} (hx : x ∈ tree.leaves) :
    tree.code x ≠ [] := by
  obtain ⟨code, hl, hc⟩ := lookup_of_mem_leaves hx
  have hne := ne_nil_of_mem_codes h hc
  rw [Tree.code, hl]
  exact hne

/-! ### The codes bound by a traversal -/

/-- The code table after the bindings `codes`, in their order (R130). -/
def bindCodes (codes : List (Symbol × List Bool)) (table : Vector (List Bool) 257) : Vector (List Bool) 257 :=
  codes.foldl (fun table c => table.set c.1.val c.2) table

theorem bindCodes_append (cs ds : List (Symbol × List Bool)) (table : Vector (List Bool) 257) :
    bindCodes (cs ++ ds) table = bindCodes ds (bindCodes cs table) :=
  List.foldl_append

/-- Where no symbol is bound twice, each has the code bound to it, and the other entries stay. -/
theorem getElem_bindCodes {codes : List (Symbol × List Bool)} (h : (codes.map Prod.fst).Nodup)
    (table : Vector (List Bool) 257) (x : Symbol) :
    (bindCodes codes table)[x.val] = (codes.lookup x).getD table[x.val] := by
  induction codes generalizing table with
  | nil => rfl
  | cons c cs ih =>
    obtain ⟨k, code⟩ := c
    obtain ⟨hk, hcs⟩ := List.nodup_cons.mp h
    have hstep : bindCodes ((k, code) :: cs) table = bindCodes cs (table.set k.val code) := rfl
    rw [hstep, ih hcs, List.lookup_cons]
    by_cases hx : x = k
    · subst hx
      have hnone : cs.lookup x = none :=
        List.lookup_eq_none_iff.mpr fun d hd => bne_iff_ne.mpr fun e => hk (List.mem_map.mpr ⟨d, hd, e.symm⟩)
      simp [hnone]
    · have hne : k.val ≠ x.val := fun e => hx (Fin.ext e.symm)
      simp [Vector.getElem_set_ne, hne, beq_eq_false_iff_ne.mpr hx]

/-- The tree's codes, each after the path to the tree's root. -/
def Tree.codesBelow (path : List Bool) (tree : Tree) : List (Symbol × List Bool) :=
  tree.codes.map fun c => (c.1, path ++ c.2)

theorem codesBelow_nil (tree : Tree) : tree.codesBelow [] = tree.codes := by
  simp [Tree.codesBelow]

theorem codesBelow_leaf (path : List Bool) (x : Symbol) : (Tree.leaf x).codesBelow path = [(x, path)] := by
  simp [Tree.codesBelow, Tree.codes]

theorem codesBelow_node (path : List Bool) (l r : Tree) :
    (Tree.node l r).codesBelow path = l.codesBelow (path ++ [false]) ++ r.codesBelow (path ++ [true]) := by
  simp [Tree.codesBelow, Tree.codes, Function.comp_def]

/-! ### The traversal of C_CODES -/

/-- The core is at a node of C_CODES's traversal. -/
structure State.AtCodes (s : State) : Prop where
  host : s.host = []
  phase : s.phase = .cCodes
  place : s.place = .top

/-- After the bindings `codes`, with `stack` still to be visited. -/
def State.afterCodes (codes : List (Symbol × List Bool)) (stack : List Frame) (s : State) : State :=
  { s with code := bindCodes codes s.code, stack := stack }

theorem afterCodes_append (cs ds : List (Symbol × List Bool)) (stack stack' : List Frame) (s : State) :
    s.afterCodes (cs ++ ds) stack = (s.afterCodes cs stack').afterCodes ds stack := by
  simp only [State.afterCodes, bindCodes_append]

theorem State.AtCodes.next {s : State} (h : s.AtCodes) (codes : List (Symbol × List Bool)) (stack : List Frame) :
    (s.afterCodes codes stack).AtCodes :=
  ⟨h.host, h.phase, h.place⟩

theorem step_bindLeaf {s : State} {f : Frame} {rest : List Frame} (h : s.AtCodes) (hst : s.stack = f :: rest)
    (hk : s.node[f.handle.val].kind = .leaf) :
    step s = .next (s.afterCodes [(s.node[f.handle.val].sym, f.path)] rest) := by
  have hl : s.isLeaf f.handle = true := decide_eq_true hk
  rw [step_of_host_nil h.host, coreStep_cCodes h.phase, codesStep, hst]
  simp only [if_pos hl, State.visited, State.bindCode, ← h.place]
  rfl

theorem step_descend {s : State} {f : Frame} {rest : List Frame} (h : s.AtCodes) (hst : s.stack = f :: rest)
    (hk : s.node[f.handle.val].kind = .internal) :
    step s = .next (s.afterCodes [] (s.childFrame f false :: s.childFrame f true :: rest)) := by
  have hl : ¬ s.isLeaf f.handle = true := by simp [State.isLeaf, State.nodeAt, hk]
  rw [step_of_host_nil h.host, coreStep_cCodes h.phase, codesStep, hst]
  simp only [if_neg hl]
  rfl

/-- The traversal of a tree that the arena holds binds its leaves below the frame's path (R130). -/
theorem reaches_afterCodes (tree : Tree) {s : State} {f : Frame} {rest : List Frame} (h : s.AtCodes)
    (hst : s.stack = f :: rest) (held : Tree.heldAt s.node tree f.handle) :
    Reaches s (s.afterCodes (tree.codesBelow f.path) rest) := by
  induction tree generalizing s f rest with
  | leaf x =>
    obtain ⟨hk, rfl⟩ := held
    rw [codesBelow_leaf]
    exact .of_step (step_bindLeaf h hst hk)
  | node l r ihl ihr =>
    obtain ⟨hk, hl, hr⟩ := held
    have hstep := Reaches.of_step (step_descend h hst hk)
    have hu := h.next [] (s.childFrame f false :: s.childFrame f true :: rest)
    have hleft := ihl hu rfl hl
    have hright := ihr (hu.next (l.codesBelow (f.path ++ [false])) (s.childFrame f true :: rest)) rfl hr
    have hcodes : (Tree.node l r).codesBelow f.path =
        [] ++ (l.codesBelow (f.path ++ [false]) ++ r.codesBelow (f.path ++ [true])) := codesBelow_node _ _ _
    rw [hcodes, afterCodes_append, afterCodes_append]
    exact hstep.trans (hleft.trans hright)

/-- C_CODES as a whole: the traversal from the root, and the step that ends it. -/
theorem reaches_cEmit {s : State} {tree : Tree} (h : s.AtCodes) (hst : s.stack = [{ handle := s.root }])
    (held : Tree.heldAt s.node tree s.root) : Reaches s ((s.afterCodes tree.codes []).goto .cEmit) := by
  have hreach := reaches_afterCodes tree h hst held
  rw [codesBelow_nil] at hreach
  have hstep : step (s.afterCodes tree.codes []) = .next ((s.afterCodes tree.codes []).goto .cEmit) := by
    rw [step_of_host_nil (h.next _ _).host, coreStep_cCodes (h.next _ _).phase]
    rfl
  exact hreach.trans (.of_step hstep)

/-- The codes after C_CODES: a leaf's code is the tree's, and the other entries stay. -/
theorem cbits_afterCodes {tree : Tree} (h : tree.leaves.Nodup) (s : State) (stack : List Frame) (x : Symbol) :
    (s.afterCodes tree.codes stack).cbits x = (tree.codes.lookup x).getD (s.cbits x) :=
  getElem_bindCodes (by rwa [map_fst_codes]) s.code x

end Sys2Proof.Machine
end

section
/-! PROOFS. BUILD on forests: what the queue's entries stand for are trees in the arena, and the tree BUILD makes of the
counted leaves depends on nothing else (R101 to R105). -/

namespace Sys2Proof.Machine

/-! ### Trees in the allocated part of the arena -/

/-- The arena holds the tree at a handle, with all of its nodes among the first `n` entries. -/
def Tree.heldBelow (node : Vector Node 513) (n : Nat) : Tree → Handle → Prop
  | .leaf x, h => h.val < n ∧ node[h.val].kind = .leaf ∧ node[h.val].sym = x
  | .node l r, h =>
    h.val < n ∧ node[h.val].kind = .internal ∧
      l.heldBelow node n node[h.val].left ∧ r.heldBelow node n node[h.val].right

theorem Tree.heldBelow.lt {node : Vector Node 513} {n : Nat} {tree : Tree} {h : Handle}
    (held : tree.heldBelow node n h) : h.val < n := by
  cases tree <;> exact held.1

theorem Tree.heldBelow.heldAt {node : Vector Node 513} {n : Nat} {tree : Tree} {h : Handle}
    (held : tree.heldBelow node n h) : Tree.heldAt node tree h := by
  induction tree generalizing h with
  | leaf x => exact held.2
  | node l r ihl ihr =>
    obtain ⟨-, hk, hl, hr⟩ := held
    exact ⟨hk, ihl hl, ihr hr⟩

/-- The entry that an allocation writes is not one of the tree's. -/
theorem Tree.heldBelow.alloc {node : Vector Node 513} {n : Nat} {tree : Tree} {h : Handle}
    (held : tree.heldBelow node n h) (hn : n < 513) (x : Node) : tree.heldBelow (node.set n x) (n + 1) h := by
  have hlt := held.lt
  have hsame : (node.set n x)[h.val] = node[h.val] := Vector.getElem_set_ne _ _ (Nat.ne_of_gt hlt)
  induction tree generalizing h with
  | leaf y =>
    obtain ⟨-, hk, hy⟩ := held
    exact ⟨Nat.lt_succ_of_lt hlt, by rw [hsame]; exact hk, by rw [hsame]; exact hy⟩
  | node l r ihl ihr =>
    obtain ⟨-, hk, hl, hr⟩ := held
    have keep : ∀ {k : Handle}, k.val < n → (node.set n x)[k.val] = node[k.val] :=
      fun hk => Vector.getElem_set_ne _ _ (Nat.ne_of_gt hk)
    refine ⟨Nat.lt_succ_of_lt hlt, by rw [hsame]; exact hk, ?_, ?_⟩ <;> rw [hsame]
    · exact ihl hl hl.lt (keep hl.lt)
    · exact ihr hr hr.lt (keep hr.lt)

/-! ### Forests -/

/-- What the queue stands for: its entries, each with the tree whose root it names. -/
abbrev Forest := List (PqEntry × Tree)

/-- The entry's place by the priority order (R100), as `pqInsert` finds it. -/
def insertTree (e : PqEntry × Tree) : Forest → Forest
  | [] => [e]
  | x :: xs => if e.1.before x.1 then e :: x :: xs else x :: insertTree e xs

theorem map_fst_insertTree (e : PqEntry × Tree) (F : Forest) :
    (insertTree e F).map Prod.fst = pqInsert e.1 (F.map Prod.fst) := by
  induction F with
  | nil => rfl
  | cons x xs ih =>
    simp only [insertTree, List.map_cons, pqInsert]
    split
    · rfl
    · rw [List.map_cons, ih]

theorem insertTree_perm (e : PqEntry × Tree) (F : Forest) : (insertTree e F).Perm (e :: F) := by
  induction F with
  | nil => exact .refl _
  | cons x xs ih =>
    unfold insertTree
    split
    · exact .refl _
    · exact (ih.cons x).trans (.swap e x xs)

/-- The forest after the root of `tree`, of weight `w`, has been allocated as entry `n` of the arena and inserted.
In BUILD, `SEQ` and `NCOUNT` count alike (R100, R101). -/
def plant (w : Word) (tree : Tree) (n : Nat) (F : Forest) : Forest :=
  insertTree ({ weight := w, seq := BitVec.ofNat 10 n, handle := Fin.ofNat 513 n }, tree) F

/-- One leaf after the other, from entry `n` on. -/
def plantLeaves : List (Symbol × Word) → Nat → Forest → Forest
  | [], _, F => F
  | l :: ls, n, F => plantLeaves ls (n + 1) (plant l.2 (.leaf l.1) n F)

theorem plantLeaves_append (ls ms : List (Symbol × Word)) (n : Nat) (F : Forest) :
    plantLeaves (ls ++ ms) n F = plantLeaves ms (n + ls.length) (plantLeaves ls n F) := by
  induction ls generalizing n F with
  | nil => rfl
  | cons l ls ih =>
    rw [List.cons_append, plantLeaves, plantLeaves, ih, List.length_cons, Nat.add_assoc, Nat.add_comm 1]

/-- The trees of a forest with their weights. -/
def treesOf (F : Forest) : List (Tree × Word) := F.map fun e => (e.2, e.1.weight)

theorem trees_plant (w : Word) (tree : Tree) (n : Nat) (F : Forest) :
    (treesOf (plant w tree n F)).Perm ((tree, w) :: treesOf F) :=
  (insertTree_perm _ F).map _

theorem trees_plantLeaves (ls : List (Symbol × Word)) (n : Nat) (F : Forest) :
    (treesOf (plantLeaves ls n F)).Perm (ls.map (fun l => (Tree.leaf l.1, l.2)) ++ treesOf F) := by
  induction ls generalizing n F with
  | nil => exact .refl _
  | cons l ls ih =>
    refine (ih (n + 1) _).trans (((trees_plant l.2 (.leaf l.1) n F).append_left _).trans ?_)
    exact List.perm_middle

theorem length_trees (F : Forest) : (treesOf F).length = F.length := List.length_map _

/-! ### The forest a state holds -/

/-- The queue and the arena of a state of BUILD stand for the forest `F`. -/
structure State.Holds (F : Forest) (s : State) : Prop where
  seq : s.seq = BitVec.ofNat 10 s.ncount.val
  pq : s.pq = F.map Prod.fst
  held : ∀ e ∈ F, e.2.heldBelow s.node s.ncount.val e.1.handle
  weight : ∀ e ∈ F, s.node[e.1.handle.val].weight = e.1.weight

/-- After the node `x` has been allocated and inserted (R31, R100). -/
def State.afterInsert (x : Node) (s : State) (hn : s.ncount.val < 513) : State :=
  { s with
    node := s.node.set s.ncount.val x
    ncount := ⟨s.ncount.val + 1, by omega⟩
    pq := pqInsert { weight := x.weight, seq := s.seq, handle := ⟨s.ncount.val, hn⟩ } s.pq
    seq := s.seq + 1 }

/-- A new node that is the root of `tree` plants it. -/
theorem State.Holds.afterInsert {F : Forest} {s : State} (h : s.Holds F) (hn : s.ncount.val < 513) {x : Node}
    {tree : Tree} (hx : tree.heldBelow (s.node.set s.ncount.val x) (s.ncount.val + 1) ⟨s.ncount.val, hn⟩) :
    (s.afterInsert x hn).Holds (plant x.weight tree s.ncount.val F) := by
  have hhandle : Fin.ofNat 513 s.ncount.val = ⟨s.ncount.val, hn⟩ := Fin.ext (Nat.mod_eq_of_lt hn)
  refine ⟨?_, ?_, fun e he => ?_, fun e he => ?_⟩
  · show s.seq + 1 = BitVec.ofNat 10 (s.ncount.val + 1)
    rw [h.seq, BitVec.ofNat_add]
    rfl
  · show pqInsert _ s.pq = _
    rw [plant, map_fst_insertTree, h.pq, h.seq, hhandle]
  · rcases List.mem_cons.mp ((insertTree_perm _ F).mem_iff.mp he) with rfl | he
    · simp only [hhandle]
      exact hx
    · exact (h.held e he).alloc hn x
  · rcases List.mem_cons.mp ((insertTree_perm _ F).mem_iff.mp he) with rfl | he
    · simp only [hhandle]
      exact congrArg Node.weight (Vector.getElem_set_self _)
    · have hlt := (h.held e he).lt
      have hsame : (s.afterInsert x hn).node[e.1.handle.val] = s.node[e.1.handle.val] :=
        Vector.getElem_set_ne hn _ (Nat.ne_of_gt hlt)
      rw [hsame, h.weight e he]

/-! ### The leaves (R101) -/

/-- `t` is `s` with the leaves `ls` allocated and inserted in their order. -/
structure Planted (ls : List (Symbol × Word)) (s t : State) : Prop where
  ncount : t.ncount.val = s.ncount.val + ls.length
  holds : ∀ F, s.Holds F → t.Holds (plantLeaves ls s.ncount.val F)

theorem Planted.refl (s : State) : Planted [] s s := ⟨rfl, fun _ h => h⟩

theorem Planted.trans {ls ms : List (Symbol × Word)} {s t u : State} (h : Planted ls s t) (h' : Planted ms t u) :
    Planted (ls ++ ms) s u where
  ncount := by rw [h'.ncount, h.ncount, List.length_append, Nat.add_assoc]
  holds F hF := by
    rw [plantLeaves_append, ← h.ncount]
    exact h'.holds _ (h.holds F hF)

theorem insertLeaf_planted (s : State) (x : Symbol) (w : Word) (hn : s.ncount.val < 513) :
    ∃ t, s.insertLeaf x w = some t ∧ Planted [(x, w)] s t := by
  let leaf : Node := { s.node[s.ncount.val] with kind := .leaf, sym := x, weight := w }
  have hleaf : (Tree.leaf x).heldBelow (s.node.set s.ncount.val leaf) (s.ncount.val + 1) ⟨s.ncount.val, hn⟩ := by
    have hset : (s.node.set s.ncount.val leaf)[s.ncount.val] = leaf := Vector.getElem_set_self _
    exact ⟨Nat.lt_succ_self _, congrArg Node.kind hset, congrArg Node.sym hset⟩
  exact ⟨s.afterInsert leaf hn, insertLeaf_of_lt s x w hn, rfl, fun F hF => hF.afterInsert hn hleaf⟩

/-- The leaves of the counted bytes among `bs`, with their counts. -/
def State.byteLeaves (s : State) (bs : List Byte) : List (Symbol × Word) :=
  (bs.filter fun b => decide (s.freqAt b ≠ 0)).map fun b => (byteSymbol b, s.freqAt b)

theorem byteLeaves_of_freq {s t : State} (h : t.freq = s.freq) (bs : List Byte) :
    t.byteLeaves bs = s.byteLeaves bs := by
  have hat : t.freqAt = s.freqAt := funext fun b => by simp only [State.freqAt, h]
  rw [State.byteLeaves, hat]
  rfl

theorem BuildFrame.freq {s t : State} (h : BuildFrame s t) : t.freq = s.freq := by
  rw [h]

theorem BuildFrame.len {s t : State} (h : BuildFrame s t) : t.len = s.len := by
  rw [h]

theorem insertLeaves_planted (bs : List Byte) (s : State) (hroom : s.ncount.val + (s.byteLeaves bs).length ≤ 513) :
    ∃ t, insertLeaves bs s = some t ∧ Planted (s.byteLeaves bs) s t := by
  induction bs generalizing s with
  | nil => exact ⟨s, rfl, .refl s⟩
  | cons b bs ih =>
    by_cases hb : s.freqAt b = 0
    · have hskip : s.byteLeaves (b :: bs) = s.byteLeaves bs := by simp [State.byteLeaves, hb]
      rw [insertLeaves, if_pos hb, hskip]
      exact ih s (hskip ▸ hroom)
    · have hcons : s.byteLeaves (b :: bs) = [(byteSymbol b, s.freqAt b)] ++ s.byteLeaves bs := by
        have hb' : ¬ s.freqAt b = 0#32 := hb
        simp [State.byteLeaves, hb']
      rw [hcons, List.length_append, List.length_singleton] at hroom
      obtain ⟨u, hu, hsu⟩ := insertLeaf_planted s (byteSymbol b) (s.freqAt b) (by omega)
      have hsame := byteLeaves_of_freq (insertLeaf_frame hu).freq bs
      obtain ⟨t, ht, hut⟩ := ih u (by rw [hsame, hsu.ncount, List.length_singleton]; omega)
      refine ⟨t, ?_, hcons ▸ hsu.trans (hsame ▸ hut)⟩
      rw [insertLeaves, if_neg hb, hu]
      exact ht

/-- The padding leaf, for the empty input only (R101, D10). -/
def State.paddingLeaf (s : State) : List (Symbol × Word) := if s.len = 0 then [(0, 0)] else []

/-- The leaves of BUILD's first step, with their weights (R101). -/
def State.allLeaves (s : State) : List (Symbol × Word) := s.byteLeaves allBytes ++ s.paddingLeaf ++ [(Config.eof, 1)]

theorem insertPadding_planted (s : State) (hn : s.ncount.val < 513) :
    ∃ t, s.insertPadding = some t ∧ Planted s.paddingLeaf s t := by
  by_cases hl : s.len = 0
  · rw [State.insertPadding, State.paddingLeaf, if_pos hl, if_pos hl]
    exact insertLeaf_planted s 0 0 hn
  · rw [State.insertPadding, State.paddingLeaf, if_neg hl, if_neg hl]
    exact ⟨s, rfl, .refl s⟩

/-- BUILD's first step leaves the forest of the leaves (R101). -/
theorem buildLeaves_holds (s : State) (hroom : s.allLeaves.length ≤ 513) :
    ∃ t, s.buildLeaves = some t ∧ t.ncount.val = s.allLeaves.length ∧ t.Holds (plantLeaves s.allLeaves 0 []) := by
  have hlen : s.allLeaves.length = (s.byteLeaves allBytes).length + s.paddingLeaf.length + 1 := by
    simp only [State.allLeaves, List.length_append, List.length_singleton]
  have hnone : s.buildStart.Holds [] := ⟨rfl, rfl, nofun, nofun⟩
  have hbytes : s.buildStart.ncount.val + (s.buildStart.byteLeaves allBytes).length ≤ 513 := by
    show 0 + (s.byteLeaves allBytes).length ≤ 513
    omega
  obtain ⟨u, hu, hsu⟩ := insertLeaves_planted allBytes s.buildStart hbytes
  have hun : u.ncount.val = 0 + (s.byteLeaves allBytes).length := hsu.ncount
  obtain ⟨v, hv, huv⟩ := insertPadding_planted u (by omega)
  have hpad : u.paddingLeaf = s.paddingLeaf := by
    simp only [State.paddingLeaf, (insertLeaves_frame hu).len, State.buildStart_len]
  have hvn := huv.ncount
  rw [hpad] at hvn
  obtain ⟨t, ht, hvt⟩ := insertLeaf_planted v Config.eof 1 (by omega)
  have hall : Planted s.allLeaves s.buildStart t := (hsu.trans (hpad ▸ huv)).trans hvt
  refine ⟨t, ?_, hall.ncount.trans (Nat.zero_add _), hall.holds [] hnone⟩
  simp only [State.buildLeaves, hu, hv, ht]

/-! ### The merges (R102) -/

/-- The core merges in C_BUILD. -/
structure State.AtMerge (s : State) : Prop where
  host : s.host = []
  phase : s.phase = .cBuild
  place : s.place = .merge

/-- BUILD has ended in `t`: but for the arena, the queue and the root it is `s` (R102). -/
def BuildEnded (s t : State) : Prop :=
  t = { s with
    node := t.node, ncount := t.ncount, pq := t.pq, seq := t.seq, root := t.root, phase := .cMagic, place := .top }

theorem BuildFrame.ended {s t u : State} (h : BuildFrame s t) (h' : BuildEnded t u) : BuildEnded s u := by
  unfold BuildFrame at h
  unfold BuildEnded at *
  rw [h', h]

/-- The node of a merge (R102, R103). -/
def State.mergedNode (s : State) (a b : PqEntry) (hn : s.ncount.val < 513) : Node :=
  Node.asInternal (a.weight + b.weight) a.handle b.handle s.node[s.ncount.val]

/-- The two entries that come first are joined. -/
theorem step_merge {s : State} {a b : PqEntry} {rest : List PqEntry} (h : s.AtMerge) (hpq : s.pq = a :: b :: rest)
    (hn : s.ncount.val < 513) :
    step s = .next (State.afterInsert (s.mergedNode a b hn) { s with pq := rest } hn) := by
  rw [step_of_host_nil h.host, coreStep_cBuild h.phase, buildStep, if_pos h.place, hpq]
  simp only [State.mergeTwo, alloc_of_lt s _ hn]
  simp [State.insert, State.nodeAt, State.afterInsert, State.mergedNode]

theorem buildFrame_merge (s : State) (x : Node) (rest : List PqEntry) (hn : s.ncount.val < 513) :
    BuildFrame s (State.afterInsert x { s with pq := rest } hn) := rfl

theorem step_buildDone {s : State} {a : PqEntry} (h : s.AtMerge) (hpq : s.pq = [a]) :
    step s = .next (s.buildDone a) := by
  rw [step_of_host_nil h.host, coreStep_cBuild h.phase, buildStep, if_pos h.place, hpq]

/-- The forest after a merge: the two trees that come first are the subtrees of the new one. -/
theorem State.Holds.merge {s : State} {a b : PqEntry × Tree} {F : Forest} (h : s.Holds (a :: b :: F))
    (hn : s.ncount.val < 513) :
    (State.afterInsert (s.mergedNode a.1 b.1 hn) { s with pq := F.map Prod.fst } hn).Holds
      (plant (a.1.weight + b.1.weight) (.node a.2 b.2) s.ncount.val F) := by
  have hrest : State.Holds F { s with pq := F.map Prod.fst } :=
    ⟨h.seq, rfl, fun e he => h.held e (by simp [he]), fun e he => h.weight e (by simp [he])⟩
  refine hrest.afterInsert (x := s.mergedNode a.1 b.1 hn) (tree := .node a.2 b.2) hn ?_
  have hset : (s.node.set s.ncount.val (s.mergedNode a.1 b.1 hn))[s.ncount.val] = s.mergedNode a.1 b.1 hn :=
    Vector.getElem_set_self _
  refine ⟨Nat.lt_succ_self _, congrArg Node.kind hset, ?_, ?_⟩ <;> simp only [hset]
  · exact (h.held a (by simp)).alloc hn _
  · exact (h.held b (by simp)).alloc hn _

/-- The merges of a forest of `k + 1` trees make one tree of it, the same in every state that holds the forest at the same
`NCOUNT`: the tree has all their leaves, is Internal if there is a merge, and weighs what they weigh (R102 to R105). -/
theorem exists_merged (k n : Nat) (F : Forest) (hlen : F.length = k + 1) (hroom : n + k ≤ 513) :
    ∃ tree : Tree, tree.leaves.Perm ((treesOf F).flatMap fun e => e.1.leaves) ∧
      (1 ≤ k ∨ (∀ e ∈ (treesOf F), e.1.isNode = true) → tree.isNode = true) ∧
      ∀ s : State, s.AtMerge → s.ncount.val = n → s.Holds F →
        ∃ t, Reaches s t ∧ BuildEnded s t ∧ Tree.heldAt t.node tree t.root ∧ t.ncount.val = n + k ∧
          (t.nodeAt t.root).weight = ((treesOf F).map Prod.snd).sum := by
  induction k generalizing n F with
  | zero =>
    obtain ⟨a, rfl⟩ := List.length_eq_one_iff.mp hlen
    refine ⟨a.2, by simp [treesOf], by simp [treesOf], fun s hs hn hF => ?_⟩
    refine ⟨_, .of_step (step_buildDone hs hF.pq), rfl, (hF.held a (by simp)).heldAt, hn, ?_⟩
    have hweight : s.node[a.1.handle.val].weight = a.1.weight := hF.weight a (by simp)
    exact hweight.trans (by simp [treesOf])
  | succ k ih =>
    obtain ⟨a, F, rfl⟩ := List.exists_cons_of_length_eq_add_one hlen
    obtain ⟨b, F, rfl⟩ := List.exists_cons_of_length_eq_add_one (Nat.succ_inj.mp hlen)
    let G : Forest := plant (a.1.weight + b.1.weight) (.node a.2 b.2) n F
    have hG : (treesOf G).Perm ((.node a.2 b.2, a.1.weight + b.1.weight) :: (treesOf F)) := trees_plant _ _ n F
    have hGlen : G.length = k + 1 := by
      have := hG.length_eq
      simp only [length_trees, List.length_cons] at this hlen
      omega
    obtain ⟨tree, hleaves, hnode, hreach⟩ := ih (n + 1) G hGlen (by omega)
    refine ⟨tree, ?_, fun _ => hnode ?_, fun s hs hn hF => ?_⟩
    · refine hleaves.trans ((hG.flatMap_right _).trans ?_)
      simp [treesOf, Tree.leaves]
    · rcases Nat.eq_zero_or_pos k with rfl | hk
      · have hnil : F = [] := List.length_eq_zero_iff.mp (by simpa using hlen)
        subst hnil
        refine .inr fun e he => ?_
        obtain rfl := List.mem_singleton.mp (hG.mem_iff.mp he)
        rfl
      · exact .inl hk
    · subst hn
      have hlt : s.ncount.val < 513 := by omega
      have hat : (State.afterInsert (s.mergedNode a.1 b.1 hlt) { s with pq := F.map Prod.fst } hlt).AtMerge :=
        ⟨hs.host, hs.phase, hs.place⟩
      obtain ⟨t, ht, hend, held, hcount, hweight⟩ := hreach _ hat rfl (hF.merge hlt)
      refine ⟨t, .head (step_merge hs hF.pq hlt) ht, (buildFrame_merge ..).ended hend, held, by omega, ?_⟩
      rw [hweight, (hG.map Prod.snd).sum_eq]
      simp [treesOf, add_assoc]

/-! ### BUILD as a whole -/

/-- The core is at the start of C_BUILD. -/
structure State.AtBuild (s : State) : Prop where
  host : s.host = []
  phase : s.phase = .cBuild
  place : s.place = .top

/-- BUILD makes of the leaves `ls` one tree, the same in every state that counts these leaves (R102 to R105). -/
theorem exists_built (ls : List (Symbol × Word)) (hmin : 2 ≤ ls.length) (hmax : ls.length ≤ 257) :
    ∃ tree : Tree, tree.isNode = true ∧ tree.leaves.Perm (ls.map Prod.fst) ∧
      ∀ s : State, s.AtBuild → s.allLeaves = ls →
        ∃ t, Reaches s t ∧ BuildEnded s t ∧ Tree.heldAt t.node tree t.root ∧ t.ncount.val + 1 = 2 * ls.length ∧
          (t.nodeAt t.root).weight = (ls.map Prod.snd).sum := by
  have htrees : (treesOf (plantLeaves ls 0 [])).Perm (ls.map fun l => (Tree.leaf l.1, l.2)) := by
    simpa [treesOf] using trees_plantLeaves ls 0 []
  have hlen : (plantLeaves ls 0 []).length = (ls.length - 1) + 1 := by
    rw [← length_trees, htrees.length_eq, List.length_map]
    omega
  obtain ⟨tree, hleaves, hnode, hreach⟩ := exists_merged (ls.length - 1) ls.length _ hlen (by omega)
  refine ⟨tree, hnode (.inl (by omega)), ?_, fun s hs hls => ?_⟩
  · refine hleaves.trans ((htrees.flatMap_right _).trans ?_)
    rw [List.flatMap_map, List.map_eq_flatMap]
    exact .refl _
  · obtain ⟨u, hu, hun, hF⟩ := buildLeaves_holds s (by rw [hls]; omega)
    have hframe := buildLeaves_frame hu
    have hfirst : step s = .next (u.moveTo .merge) := by
      have hplace : ¬ s.place = .merge := by rw [hs.place]; decide
      rw [step_of_host_nil hs.host, coreStep_cBuild hs.phase, buildStep, if_neg hplace, hu]
    have hat : (u.moveTo .merge).AtMerge :=
      ⟨hframe.sameOutside.host.trans hs.host, hframe.sameOutside.phase.trans hs.phase, rfl⟩
    rw [hls] at hun hF
    obtain ⟨t, ht, hend, held, hcount, hweight⟩ :=
      hreach (u.moveTo .merge) hat hun ⟨hF.seq, hF.pq, hF.held, hF.weight⟩
    refine ⟨t, .head hfirst ht, hframe.ended hend, held, by omega, ?_⟩
    rw [hweight, (htrees.map Prod.snd).sum_eq]
    simp [Function.comp_def]

end Sys2Proof.Machine
end

section
/-! PROOFS. The leaves BUILD gives to an input (R101, R104), and the one tree it makes of them (R105, R147). -/

namespace Sys2Proof.Machine

/-! ### The byte values -/

theorem byteSymbol_injective : Function.Injective byteSymbol :=
  fun _ _ h => BitVec.eq_of_toNat_eq (congrArg (fun x : Symbol => x.val) h)

theorem byteSymbol_ne_eof (b : Byte) : byteSymbol b ≠ Config.eof :=
  fun h => absurd (congrArg Fin.val h) (Nat.ne_of_lt b.isLt)

theorem mem_allBytes (b : Byte) : b ∈ allBytes :=
  List.mem_map.mpr ⟨b.toNat, List.mem_range.mpr b.isLt, by simp⟩

theorem nodup_allBytes : allBytes.Nodup := by
  refine List.Nodup.map_on (fun i hi j hj h => ?_) List.nodup_range
  have hmod := congrArg BitVec.toNat h
  rwa [BitVec.toNat_ofNat, BitVec.toNat_ofNat, Nat.mod_eq_of_lt (List.mem_range.mp hi),
    Nat.mod_eq_of_lt (List.mem_range.mp hj)] at hmod

/-! ### The symbols of the leaves (R101, R104) -/

theorem mem_leafSymbols_byte {bs : List Byte} {b : Byte} (h : b ∈ bs) : byteSymbol b ∈ leafSymbols bs := by
  have hb : b ∈ allBytes.filter fun b => decide (b ∈ bs) := List.mem_filter.mpr ⟨mem_allBytes b, decide_eq_true h⟩
  simp only [leafSymbols, List.mem_append]
  exact .inl (.inl (List.mem_map_of_mem hb))

theorem mem_leafSymbols_eof (bs : List Byte) : Config.eof ∈ leafSymbols bs :=
  List.mem_append_right _ (List.mem_singleton_self _)

theorem nodup_leafSymbols (bs : List Byte) : (leafSymbols bs).Nodup := by
  have hbytes : ((allBytes.filter fun b => decide (b ∈ bs)).map byteSymbol).Nodup :=
    (nodup_allBytes.filter _).map byteSymbol_injective
  by_cases hbs : bs = []
  · subst hbs
    decide
  · rw [leafSymbols, if_neg hbs, List.append_nil]
    refine List.nodup_append.mpr ⟨hbytes, List.nodup_singleton _, fun x hx y hy => ?_⟩
    obtain ⟨b, -, rfl⟩ := List.mem_map.mp hx
    obtain rfl := List.mem_singleton.mp hy
    exact byteSymbol_ne_eof b

theorem length_leafSymbols_le (bs : List Byte) : (leafSymbols bs).length ≤ 257 := by
  simpa using (nodup_leafSymbols bs).length_le_card

/-- The sentinel is never alone: with it goes a byte's leaf or the padding leaf (R101). -/
theorem two_le_length_leafSymbols (bs : List Byte) : 2 ≤ (leafSymbols bs).length := by
  cases bs with
  | nil => simp [leafSymbols]
  | cons b bs =>
    have hb : b ∈ allBytes.filter fun c => decide (c ∈ b :: bs) :=
      List.mem_filter.mpr ⟨mem_allBytes b, decide_eq_true (List.mem_cons_self ..)⟩
    have hpos := List.length_pos_of_mem hb
    simp only [leafSymbols, List.length_append, List.length_map, List.length_singleton]
    omega

/-- The leaves of an input with their weights. -/
def weightedLeaves (bs : List Byte) : List (Symbol × Word) :=
  ((allBytes.filter fun b => decide (b ∈ bs)).map fun b => (byteSymbol b, BitVec.ofNat 32 (bs.count b))) ++
    (if bs = [] then [(0, 0)] else []) ++ [(Config.eof, 1)]

theorem map_fst_weightedLeaves (bs : List Byte) : (weightedLeaves bs).map Prod.fst = leafSymbols bs := by
  by_cases hbs : bs = [] <;> simp [weightedLeaves, leafSymbols, hbs, Function.comp_def]

theorem length_weightedLeaves (bs : List Byte) : (weightedLeaves bs).length = (leafSymbols bs).length := by
  rw [← map_fst_weightedLeaves, List.length_map]

/-! ### The leaves of a state that holds an input's counts -/

theorem freqAt_of_counts {s : State} {bs : List Byte} (h : ∀ b : Byte, (s.freqAt b).toNat = bs.count b) (b : Byte) :
    s.freqAt b = BitVec.ofNat 32 (bs.count b) := by
  rw [← h b, BitVec.ofNat_toNat, BitVec.setWidth_eq]

theorem freqAt_ne_zero_iff {s : State} {bs : List Byte} (h : ∀ b : Byte, (s.freqAt b).toNat = bs.count b) (b : Byte) :
    s.freqAt b ≠ 0 ↔ b ∈ bs := by
  rw [← List.count_pos_iff, ← h b, Nat.pos_iff_ne_zero, not_iff_not, BitVec.toNat_eq]
  rfl

/-- With every counter 0, `LEN` is 0 (R91). -/
theorem len_of_freqAt_zero {s : State} (h : s.countInv) (hz : ∀ b, s.freqAt b = 0) : s.len = 0 := by
  obtain ⟨hsum, -⟩ := h
  have hzero : ∀ n ∈ s.freq.toList.map BitVec.toNat, n = 0 := by
    intro n hn
    obtain ⟨w, hw, rfl⟩ := List.mem_map.mp hn
    obtain ⟨i, hi, rfl⟩ := Vector.mem_iff_getElem.mp (Vector.mem_toList_iff.mp hw)
    have hb : s.freq[i] = s.freqAt (BitVec.ofNat 8 i) := by simp [State.freqAt, Nat.mod_eq_of_lt hi]
    rw [hb, hz]
    rfl
  rw [List.sum_eq_zero hzero] at hsum
  exact BitVec.eq_of_toNat_eq hsum.symm

theorem len_eq_zero_iff {s : State} {bs : List Byte} (hc : s.countInv)
    (h : ∀ b : Byte, (s.freqAt b).toNat = bs.count b) : s.len = 0 ↔ bs = [] := by
  constructor
  · intro hl
    refine List.eq_nil_iff_forall_not_mem.mpr fun b hb => ?_
    exact (freqAt_ne_zero_iff h b).mpr hb (freqAt_of_len_zero hc hl b)
  · rintro rfl
    exact len_of_freqAt_zero hc fun b => by simpa using freqAt_of_counts h b

/-- A state that holds an input's counts gives BUILD that input's leaves. -/
theorem allLeaves_of_counts {s : State} {bs : List Byte} (hc : s.countInv)
    (h : ∀ b : Byte, (s.freqAt b).toNat = bs.count b) : s.allLeaves = weightedLeaves bs := by
  have hfilter : (fun b => decide (s.freqAt b ≠ 0)) = fun b => decide (b ∈ bs) :=
    funext fun b => decide_eq_decide.mpr (freqAt_ne_zero_iff h b)
  have hfreq : s.freqAt = fun b => BitVec.ofNat 32 (bs.count b) := funext (freqAt_of_counts h)
  have hpad : s.paddingLeaf = if bs = [] then [(0, 0)] else [] := by
    simp only [State.paddingLeaf, len_eq_zero_iff hc h]
  rw [State.allLeaves, State.byteLeaves, hpad, hfilter, hfreq]
  rfl

/-- BUILD makes one tree of an input, in every state that holds its counts (R104, R105). -/
theorem exists_builtTree (bs : List Byte) :
    ∃ tree : Tree, tree.isNode = true ∧ tree.leaves.Perm (leafSymbols bs) ∧
      ∀ s : State, s.AtBuild → s.countInv → (∀ b : Byte, (s.freqAt b).toNat = bs.count b) →
        ∃ t, Reaches s t ∧ BuildEnded s t ∧ Tree.heldAt t.node tree t.root := by
  have hlen := length_weightedLeaves bs
  obtain ⟨tree, hnode, hleaves, hbuild⟩ := exists_built (weightedLeaves bs)
    (hlen ▸ two_le_length_leafSymbols bs) (hlen ▸ length_leafSymbols_le bs)
  refine ⟨tree, hnode, map_fst_weightedLeaves bs ▸ hleaves, fun s hs hc hcounts => ?_⟩
  obtain ⟨t, ht, hend, held, -, -⟩ := hbuild s hs (allLeaves_of_counts hc hcounts)
  exact ⟨t, ht, hend, held⟩

end Sys2Proof.Machine
end

section
/-! PROOFS. COMPRESS as a whole: the phases one after the other, from the command word to the flush (R141, R148). -/

namespace Sys2Proof.Machine

/-! ### What the phases of an operation add up to -/

/-- The operation has gone on from `s` to `t` without an error: it has written `bits` and read `n` bits. -/
structure Advance (bits : List Bool) (n : Nat) (s t : State) : Prop where
  host : t.host = s.host
  error : t.error = s.error
  errCode : t.errCode = s.errCode
  lastOp : t.lastOp = s.lastOp
  reliable : s.reliable = true → t.reliable = true
  closed : t.output.closed = s.output.closed
  written : t.output.bits = s.output.bits ++ bits
  outBits : t.outBits = s.outBits + BitVec.ofNat 64 bits.length
  inBits : t.inBits = s.inBits + BitVec.ofNat 64 n

theorem Advance.trans {as bs : List Bool} {m n : Nat} {s t u : State} (h : Advance as m s t) (h' : Advance bs n t u) :
    Advance (as ++ bs) (m + n) s u where
  host := h'.host.trans h.host
  error := h'.error.trans h.error
  errCode := h'.errCode.trans h.errCode
  lastOp := h'.lastOp.trans h.lastOp
  reliable := h'.reliable ∘ h.reliable
  closed := h'.closed.trans h.closed
  written := by rw [h'.written, h.written, List.append_assoc]
  outBits := by rw [h'.outBits, h.outBits, List.length_append, BitVec.ofNat_add, BitVec.add_assoc]
  inBits := by rw [h'.inBits, h.inBits, BitVec.ofNat_add, BitVec.add_assoc]

/-! ### What a pass reads, and with which tree -/

/-- The channel stands at the start of the bytes `bs`, with nothing after them (R53). -/
structure InChannel.Presents (bs : List Byte) (c : InChannel) : Prop where
  pos : c.pos = 0
  bits : c.bits = bitsOfBytes bs

theorem InChannel.Presents.drop {bs : List Byte} {c : InChannel} (h : c.Presents bs) :
    c.bits.drop c.pos = bitsOfBytes bs ++ [] := by
  rw [h.pos, h.bits, List.drop_zero, List.append_nil]

/-- After the bytes no further one remains (R59). -/
theorem InChannel.Presents.length_lt {bs : List Byte} {c : InChannel} (h : c.Presents bs) :
    c.bits.length < c.pos + 8 * bs.length + 8 := by
  rw [h.pos, h.bits, length_bitsOfBytes]
  omega

/-- The tree gives a nonempty code to each of the bytes `bs` and to the sentinel, and one code to a symbol (R106, R131). -/
structure Tree.Encodes (bs : List Byte) (tree : Tree) : Prop where
  isNode : tree.isNode = true
  nodup : tree.leaves.Nodup
  bytes : ∀ b ∈ bs, byteSymbol b ∈ tree.leaves
  eof : Config.eof ∈ tree.leaves

/-! ### The command and the first pass (R90, R140) -/

/-- The state after COMPRESS has been accepted and started, with no host move to come. -/
def State.compressStarted (s : State) : State := ({ s with host := [] }.accept 0b01).startCompress

theorem step_launchCompress {s : State} (hb : s.busy = false) :
    step (s.launch 0x00000001#32) = .next s.compressStarted := by
  have hdecode : decodeCmd 0x00000001#32 = .ok .compress := rfl
  rw [State.launch, step_host_cons, hostMove, hostWrite_cmd, cmdWrite_of_ok _ hdecode,
    exec_compress_of_not_busy (s := { s with host := [] }) hb]
  rfl

theorem countInv_afterCount {s : State} (bs : List Byte) (h : s.countInv)
    (hmax : s.len.toNat + bs.length ≤ Config.lenMax.toNat) : (s.afterCount bs).countInv := by
  induction bs generalizing s with
  | nil => rwa [afterCount_nil]
  | cons b bs ih =>
    rw [List.length_cons] at hmax
    have hne : s.len ≠ Config.lenMax := fun e => by rw [e] at hmax; omega
    have hone : (s.afterCount [b]).countInv := countInv_countByte b h hne rfl rfl
    have hlen : (s.afterCount [b]).len.toNat = s.len.toNat + 1 := by
      rw [toNat_lenMax] at hmax
      rw [State.afterCount_len, BitVec.toNat_add_of_lt (by simp; omega)]
      rfl
    rw [afterCount_cons]
    exact ih hone (by omega)

theorem advance_firstPass (s : State) (bs : List Byte) :
    Advance [] (8 * bs.length) s (s.afterCount bs).afterFirstPass where
  host := rfl
  error := rfl
  errCode := rfl
  lastOp := rfl
  reliable hr := reliable_of_drop (j := bs.length + 2) (k := 0) hr (by simp) rfl
  closed := rfl
  written := (List.append_nil _).symm
  outBits := (BitVec.add_zero _).symm
  inBits := rfl

/-- The first pass leaves its counts at the start of C_BUILD, and the second pass's bytes on the input (R90, R93). -/
theorem reaches_cBuild {s : State} {first second : List Byte} (h : s.AtCount) (hf : s.freq = Vector.replicate 256 0)
    (hl : s.len = 0) (hin : s.input.Presents first) (hrew : s.input.rewindable = true)
    (hsecond : s.input.replay.getD s.input.bits = bitsOfBytes second) (hmax : first.length ≤ Config.lenMax.toNat) :
    ∃ t, Reaches s t ∧ t.AtBuild ∧ Advance [] (8 * first.length) s t ∧ t.countInv ∧
      (∀ b : Byte, (t.freqAt b).toNat = first.count b) ∧ t.code = s.code ∧ t.input.Presents second := by
  have hmax' : s.len.toNat + first.length ≤ Config.lenMax.toNat := by rw [hl]; simpa using hmax
  have hcount : Reaches s (s.afterCount first) := ⟨_, runSteps_countBytes h hin.drop hmax'⟩
  have hend : Reaches (s.afterCount first) (s.afterCount first).afterFirstPass :=
    ⟨2, runSteps_afterFirstPass (h.next first) hin.length_lt hrew⟩
  have hat : (s.afterCount first).afterFirstPass.AtBuild := ⟨h.host, rfl, rfl⟩
  have hinv : (s.afterCount first).countInv := countInv_afterCount first (countInv_of_cleared hf hl) hmax'
  exact ⟨_, hcount.trans hend, hat, advance_firstPass s first, hinv, toNat_freqAt_afterCount hf hmax, rfl,
    ⟨rfl, hsecond⟩⟩

/-- BUILD writes and reads nothing. -/
theorem BuildEnded.advance {s t : State} (h : BuildEnded s t) : Advance [] 0 s t := by
  rw [BuildEnded] at h
  rw [h]
  exact ⟨rfl, rfl, rfl, rfl, id, rfl, (List.append_nil _).symm, (BitVec.add_zero _).symm, (BitVec.add_zero _).symm⟩

theorem BuildEnded.phase {s t : State} (h : BuildEnded s t) : t.phase = .cMagic := by
  rw [h]

theorem BuildEnded.code {s t : State} (h : BuildEnded s t) : t.code = s.code := by
  rw [h]

theorem BuildEnded.input {s t : State} (h : BuildEnded s t) : t.input = s.input := by
  rw [h]

/-! ### The artifact (R142 to R145) -/

/-- The core is in C_MAGIC with `tree` in the arena at the root, an open output and reliable channels. -/
structure State.AtMagic (tree : Tree) (s : State) : Prop where
  host : s.host = []
  phase : s.phase = .cMagic
  isOpen : s.output.closed = false
  reliable : s.reliable = true
  held : Tree.heldAt s.node tree s.root

/-- The core starts a traversal of `tree`, which the arena holds at the root, in C_TREE or C_CODES (R35). -/
structure State.AtRoot (p : Phase) (tree : Tree) (s : State) : Prop where
  host : s.host = []
  phase : s.phase = p
  place : s.place = .top
  stack : s.stack = [{ handle := s.root }]
  held : Tree.heldAt s.node tree s.root

theorem advance_header (s : State) (bits : List Bool) : Advance bits 0 s ((s.afterWrite bits).startTraversal .cTree) :=
  ⟨rfl, rfl, rfl, rfl, fun hr => reliable_of_drop (j := 0) (k := 1) hr rfl List.drop_one.symm, rfl, rfl, rfl,
    (BitVec.add_zero _).symm⟩

/-- C_MAGIC writes the header (R142). -/
theorem reaches_cTree {s : State} {tree : Tree} (h : s.AtMagic tree) :
    ∃ t, Reaches s t ∧ t.AtRoot .cTree tree ∧ Advance (bitsOf 32 Config.magic.toNat) 0 s t ∧
      t.code = s.code ∧ t.input = s.input := by
  have hstep : step s = .next ((s.afterWrite (bitsOf 32 Config.magic.toNat)).startTraversal .cTree) := by
    rw [step_of_host_nil h.host, coreStep_cMagic h.phase, magicStep,
      writeThen_ok _ _ _ h.isOpen (nextAnswer_output_of_reliable h.reliable)]
  generalize bitsOf 32 Config.magic.toNat = header at hstep ⊢
  exact ⟨_, .of_step hstep, ⟨h.host, rfl, rfl, rfl, h.held⟩, advance_header s header, rfl, rfl⟩

theorem advance_records (s : State) (bits : List Bool) (k : Nat) :
    Advance bits 0 s ((s.afterRecords bits k []).startTraversal .cCodes) :=
  ⟨rfl, rfl, rfl, rfl, fun hr => reliable_of_drop (j := 0) hr rfl rfl, rfl, rfl, rfl, (BitVec.add_zero _).symm⟩

/-- C_TREE writes the tree field (R110). -/
theorem reaches_treeField {s : State} {tree : Tree} (h : s.AtRoot .cTree tree) (hr : s.reliable = true)
    (hc : s.output.closed = false) :
    ∃ t, Reaches s t ∧ t.AtRoot .cCodes tree ∧ Advance tree.bits 0 s t ∧ t.code = s.code ∧ t.input = s.input := by
  obtain ⟨hh, hp, hpl, hst, held⟩ := h
  obtain ⟨k, hreach⟩ := reaches_cCodes ⟨hh, hp, hpl, hc, ((reliable_iff s).mp hr).2⟩ hst held
  exact ⟨_, hreach, ⟨hh, rfl, rfl, rfl, held⟩, advance_records s tree.bits k, rfl, rfl⟩

theorem advance_codes (s : State) (codes : List (Symbol × List Bool)) :
    Advance [] 0 s ((s.afterCodes codes []).goto .cEmit) :=
  ⟨rfl, rfl, rfl, rfl, id, rfl, (List.append_nil _).symm, (BitVec.add_zero _).symm, (BitVec.add_zero _).symm⟩

/-- C_CODES leaves exactly the tree's codes where there were none (R130, R133). -/
theorem reaches_codes {s : State} {tree : Tree} (h : s.AtRoot .cCodes tree) (hnodup : tree.leaves.Nodup)
    (hcode : s.code = Vector.replicate 257 []) :
    ∃ t, Reaches s t ∧ t.phase = .cEmit ∧ t.place = .top ∧ Advance [] 0 s t ∧
      (∀ x, t.cbits x = tree.code x) ∧ t.input = s.input := by
  obtain ⟨hh, hp, hpl, hst, held⟩ := h
  refine ⟨_, reaches_cEmit ⟨hh, hp, hpl⟩ hst held, rfl, rfl, advance_codes s tree.codes, fun x => ?_, rfl⟩
  have hnone : s.cbits x = [] := by simp [State.cbits, hcode]
  exact (cbits_afterCodes hnodup s [] x).trans (by rw [hnone, Tree.code])

theorem advance_bytes (s : State) (k : Nat) (bits : List Bool) :
    Advance bits (8 * k) s ((s.afterReads k).afterWrites bits) :=
  ⟨rfl, rfl, rfl, rfl, fun hr => reliable_of_drop hr rfl rfl, rfl, rfl, rfl, rfl⟩

theorem advance_term (s : State) (bits : List Bool) :
    Advance bits 0 s ((s.afterNoData.afterWrites bits).goto .cFlush) := by
  rw [State.afterNoData, inExhaust_eq]
  exact ⟨rfl, rfl, rfl, rfl, fun hr => reliable_of_drop (j := 1) hr List.drop_one.symm rfl, rfl, rfl, rfl,
    (BitVec.add_zero _).symm⟩

/-- C_EMIT and C_TERM write the codes of the bytes and of the sentinel (R144, R145). -/
theorem reaches_payload {s : State} {tree : Tree} {bs : List Byte} (h : s.AtByte) (hin : s.input.Presents bs)
    (hcbits : ∀ x, s.cbits x = tree.code x) (ht : tree.Encodes bs) :
    ∃ t, Reaches s t ∧ t.phase = .cFlush ∧
      Advance (tree.payload bs ++ tree.code Config.eof) (8 * bs.length) s t := by
  have hcode : ∀ x ∈ tree.leaves, s.clen x ≠ 0 := fun x hx e =>
    code_ne_nil ht.isNode hx (List.length_eq_zero_iff.mp (by rwa [State.clen, hcbits] at e))
  have hpayload : s.codesOf bs = tree.payload bs := by simp only [State.codesOf, hcbits, Tree.payload]
  have hbytes := reaches_emitBytes h hin.drop fun b hb => hcode _ (ht.bytes b hb)
  have hend := reaches_cFlush (h.next bs.length (s.codesOf bs)) hin.length_lt (hcode _ ht.eof)
  have hadv := (advance_bytes s bs.length (s.codesOf bs)).trans
    (advance_term ((s.afterReads bs.length).afterWrites (s.codesOf bs)) (s.cbits Config.eof))
  rw [← hpayload, ← hcbits]
  exact ⟨_, hbytes.trans hend, rfl, hadv⟩

/-- From C_MAGIC, with the codes cleared, the artifact of the second pass is written (R74, R148). -/
theorem reaches_artifact {s : State} {tree : Tree} {bs : List Byte} (h : s.AtMagic tree) (ht : tree.Encodes bs)
    (hcode : s.code = Vector.replicate 257 []) (hin : s.input.Presents bs) :
    ∃ t, Reaches s t ∧ t.phase = .cFlush ∧ Advance (artifactBits tree bs) (8 * bs.length) s t := by
  obtain ⟨u, hsu, hu, hadvU, hcodeU, hinU⟩ := reaches_cTree h
  obtain ⟨v, huv, hv, hadvV, hcodeV, hinV⟩ :=
    reaches_treeField hu (hadvU.reliable h.reliable) (hadvU.closed.trans h.isOpen)
  have hadvV := hadvU.trans hadvV
  obtain ⟨w, hvw, hpw, hplw, hadvW, hcbits, hinW⟩ := reaches_codes hv ht.nodup (hcodeV.trans (hcodeU.trans hcode))
  have hadvW := hadvV.trans hadvW
  have hsame : w.input = s.input := hinW.trans (hinV.trans hinU)
  have hat : w.AtByte :=
    ⟨hadvW.host.trans h.host, hpw, hplw, hadvW.closed.trans h.isOpen, hadvW.reliable h.reliable⟩
  obtain ⟨t, hwt, hpt, hadvT⟩ := reaches_payload hat (hsame ▸ hin) hcbits ht
  refine ⟨t, hsu.trans (huv.trans (hvw.trans hwt)), hpt, ?_⟩
  simpa [artifactBits, List.append_assoc] using hadvW.trans hadvT

/-! ### The flush and the whole operation (R146, R148, R189) -/

/-- C_FLUSH pads the output to whole bytes and completes the operation. -/
theorem step_complete {s : State} (hh : s.host = []) (hp : s.phase = .cFlush) (hr : s.reliable = true)
    (hc : s.output.closed = false) :
    ∃ pad : List Bool, pad.length < 8 ∧ (s.output.bits.length + pad.length) % 8 = 0 ∧
      step s = .next (State.complete { s with
        output := { bits := s.output.bits ++ pad, closed := true, answers := s.output.answers.tail }
        draws := s.draws + pad.length }) := by
  obtain ⟨pad, hlt, hmod, hflush⟩ := (flushPadsToWholeBytes s hc).1 (nextAnswer_output_of_reliable hr)
  refine ⟨pad, hlt, hmod, ?_⟩
  rw [step_of_host_nil hh, coreStep_cFlush hp, flushStep, hflush]

/-- Settles O49: the phases one after the other, with the tree that BUILD makes of the first pass's counts. -/
theorem compressWritesTheArtifact : Obligations.CompressWritesTheArtifact := by
  intro s first second hb hr hlaunch hrew hfirst hsecond hsub hmax
  simp only [State.launchable, Bool.and_eq_true, decide_eq_true_eq, Bool.not_eq_true'] at hlaunch
  obtain ⟨⟨hpos, hempty⟩, hopen⟩ := hlaunch
  obtain ⟨tree, hnode, hleaves, hbuild⟩ := exists_builtTree first
  have hbuilt : tree.builtFrom first := fun s hh hp hpl hc hcounts => by
    obtain ⟨t, ht, hend, held⟩ := hbuild s ⟨hh, hp, hpl⟩ hc hcounts
    exact ⟨t, ht, hend.phase, held⟩
  have henc : tree.Encodes second :=
    { isNode := hnode
      nodup := hleaves.nodup_iff.mpr (nodup_leafSymbols first)
      bytes := fun b hb => hleaves.mem_iff.mpr (mem_leafSymbols_byte (hsub b hb))
      eof := hleaves.mem_iff.mpr (mem_leafSymbols_eof first) }
  have hstart := Reaches.of_step (step_launchCompress hb)
  obtain ⟨u, hsu, hu, hadvU, hinv, hcounts, hcodeU, hinU⟩ :=
    reaches_cBuild (s := s.compressStarted) ⟨rfl, rfl, rfl, hr⟩ rfl rfl ⟨hpos, hfirst⟩ hrew hsecond hmax
  obtain ⟨v, huv, hend, held⟩ := hbuild u hu hinv hcounts
  have hadvV := hadvU.trans hend.advance
  have hmagic : v.AtMagic tree := ⟨hadvV.host, hend.phase, hadvV.closed.trans hopen, hadvV.reliable hr, held⟩
  obtain ⟨w, hvw, hpw, hadvW⟩ := reaches_artifact hmagic henc (hend.code.trans hcodeU) (hend.input ▸ hinU)
  have hadv := hadvV.trans hadvW
  obtain ⟨pad, hlt, hmod, hflush⟩ := step_complete hadv.host hpw (hadv.reliable hr) (hadv.closed.trans hopen)
  have hbits : w.output.bits = artifactBits tree second := by
    simpa [State.compressStarted, hempty] using hadv.written
  have hout : w.outBits = BitVec.ofNat 64 (artifactBits tree second).length := by
    simpa [State.compressStarted] using hadv.outBits
  have hin : w.inBits = BitVec.ofNat 64 (8 * first.length + 8 * second.length) := by
    simpa [State.compressStarted] using hadv.inBits
  have hreach := hstart.trans (hsu.trans (huv.trans (hvw.trans (.of_step hflush))))
  refine ⟨_, tree, pad, hreach, rfl, rfl, hadv.error, rfl, hadv.errCode, hadv.lastOp, hbuilt, hnode, henc.nodup,
    hleaves, ?_, rfl, hlt, ?_, hout, hin⟩
  · exact congrArg (· ++ pad) hbits
  · rw [← hmod, ← List.length_append]
    rfl

end Sys2Proof.Machine
end

section
/-! PROOFS. The steps of C_COUNT one by one: what the loop's read and the rewind lead to (R90, R91). -/

namespace Sys2Proof.Machine

/-! ### The loop: one `InRead(8)` -/

section
variable {s : State}

/-- A byte that has been read is counted, or is one too many (R90, R91). -/
theorem countStep_byte {b : Byte} (hpl : s.place = .top) (hread : s.inRead 8 = .value b.toNat (s.afterRead 8)) :
    countStep s = .next ((s.afterRead 8).countByte b) := by
  simp [countStep, hpl, hread]

theorem countByte_of_ne (b : Byte) (hl : s.len ≠ Config.lenMax) :
    s.countByte b = { s with freq := s.freq.set b.toNat (s.freqAt b + 1), len := s.len + 1 } := if_neg hl

theorem countByte_of_lenMax (b : Byte) (hl : s.len = Config.lenMax) :
    s.countByte b = s.afterRaise .inputTooLong 0 := if_pos hl

theorem countStep_noData (hpl : s.place = .top) (ha : nextAnswer s.input.answers = .ok)
    (hn : s.input.bits.length < s.input.pos + 8) : countStep s = .next (s.afterNoData.moveTo .rewind) := by
  simp [countStep, hpl, inRead_noData ha hn]
  rfl

theorem countStep_read_ioError (hpl : s.place = .top) (ha : nextAnswer s.input.answers = .ioError) :
    countStep s = .next (s.afterInError.afterRaise .channelError 1) := by
  simp [countStep, hpl, inRead_ioError ha]
  rfl

/-! ### The end of the phase: one `InRewind()` -/

theorem countStep_rewind (hpl : s.place = .rewind) (ha : nextAnswer s.input.answers = .ok)
    (hr : s.input.rewindable = true) : countStep s = .next (s.inAnswered.inRewound.goto .cBuild) := by
  rw [countStep, if_pos hpl, inRewind_ok ha hr]

/-- Every `IoError` of the rewind raises `ChannelError(2)` (R90). -/
theorem countStep_rewind_ioError (hpl : s.place = .rewind) (h : s.inRewind = .ioError s.afterInError) :
    countStep s = .next (s.afterInError.afterRaise .channelError 2) := by
  rw [countStep, if_pos hpl, h]
  rfl

end

/-- Settles O25: the loop by what its read returns, the end of the phase by what the rewind returns. -/
theorem countStepsCountAndRewind : Obligations.CountStepsCountAndRewind := by
  refine ⟨fun s hh hp hpl => ?_, fun s hh hp hpl => ?_⟩ <;> rw [step_of_host_nil hh, coreStep_cCount hp]
  · refine ⟨fun b ha ⟨_, hd⟩ => ?_, fun ha hn => ⟨_, countStep_noData hpl ha hn⟩, countStep_read_ioError hpl⟩
    rw [countStep_byte hpl (inRead_byte ha hd.symm)]
    exact ⟨fun hl => congrArg Host.Outcome.next (countByte_of_ne (s := s.afterRead 8) b hl),
      fun hl => congrArg Host.Outcome.next (countByte_of_lenMax (s := s.afterRead 8) b hl)⟩
  · exact ⟨countStep_rewind hpl, fun ha hr => countStep_rewind_ioError hpl (inRewind_of_not_rewindable ha hr),
      fun ha => countStep_rewind_ioError hpl (inRewind_ioError ha)⟩

end Sys2Proof.Machine
end

section
/-! PROOFS. BUILD's tree from the counters alone: an input that has them gives the tree (R105), and the leaves' weights add
up to `LEN + 1` (R101, R103, R106). -/

namespace Sys2Proof.Machine

/-! ### An input with given counts -/

/-- Counters of any values are the counts of some input. -/
theorem exists_bytes_of_freq (s : State) : ∃ bs : List Byte, ∀ b : Byte, (s.freqAt b).toNat = bs.count b := by
  refine ⟨allBytes.flatMap fun b => List.replicate (s.freqAt b).toNat b, fun b => ?_⟩
  simp only [List.count_flatMap, Function.comp_def, List.count_replicate, beq_iff_eq]
  rw [List.sum_map_eq_nsmul_single b _ fun c hc _ => if_neg hc,
    List.count_eq_one_of_mem nodup_allBytes (mem_allBytes b), if_pos rfl, one_smul]

/-! ### The leaves of the counters (R101) -/

/-- A state's leaves are those of an input with its counters. -/
theorem allLeaves_eq_weightedLeaves {s : State} (hc : s.countInv) : ∃ bs, s.allLeaves = weightedLeaves bs := by
  obtain ⟨bs, hbs⟩ := exists_bytes_of_freq s
  exact ⟨bs, allLeaves_of_counts hc hbs⟩

theorem nodup_symbols_allLeaves {s : State} (hc : s.countInv) : (s.allLeaves.map Prod.fst).Nodup := by
  obtain ⟨bs, h⟩ := allLeaves_eq_weightedLeaves hc
  rw [h, map_fst_weightedLeaves]
  exact nodup_leafSymbols bs

theorem length_allLeaves_bounds {s : State} (hc : s.countInv) : 2 ≤ s.allLeaves.length ∧ s.allLeaves.length ≤ 257 := by
  obtain ⟨bs, h⟩ := allLeaves_eq_weightedLeaves hc
  rw [h, length_weightedLeaves]
  exact ⟨two_le_length_leafSymbols bs, length_leafSymbols_le bs⟩

theorem map_fst_allLeaves (s : State) :
    s.allLeaves.map Prod.fst =
      (allBytes.filter (fun b => decide (s.freqAt b ≠ 0))).map byteSymbol ++
        (if s.len = 0 then [(0 : Symbol)] else []) ++ [Config.eof] := by
  by_cases hl : s.len = 0 <;>
    simp only [State.allLeaves, State.byteLeaves, State.paddingLeaf, hl, if_true, if_false, List.map_append,
      List.map_map, Function.comp_def, List.map_cons, List.map_nil]

/-! ### The weight of the leaves (R91, R103) -/

/-- Words add up as their values do, modulo 2^32. -/
theorem ofNat_sum_toNat (ws : List Word) : BitVec.ofNat 32 (ws.map BitVec.toNat).sum = ws.sum := by
  induction ws with
  | nil => rfl
  | cons w ws ih => simp [BitVec.ofNat_add, ih]

theorem map_freqAt_allBytes (s : State) : allBytes.map s.freqAt = s.freq.toList := by
  refine List.ext_getElem (by simp [length_allBytes]) fun i hi _ => ?_
  have hi : i < 256 := by simpa [length_allBytes] using hi
  simp [allBytes, State.freqAt, Nat.mod_eq_of_lt hi]

/-- A byte without a count would add no weight. -/
theorem weights_byteLeaves (s : State) (bs : List Byte) :
    ((s.byteLeaves bs).map Prod.snd).sum = (bs.map s.freqAt).sum := by
  have hne : (fun b => decide (s.freqAt b ≠ 0)) = (· != 0) ∘ s.freqAt := funext fun b => decide_not
  rw [← List.sum_filter_bne_zero (bs.map _), List.filter_map, State.byteLeaves, hne, List.map_map]
  rfl

theorem weights_allLeaves {s : State} (hc : s.countInv) : (s.allLeaves.map Prod.snd).sum = s.len + 1 := by
  obtain ⟨hsum, -⟩ := hc
  have hbytes : ((s.byteLeaves allBytes).map Prod.snd).sum = s.len := by
    rw [weights_byteLeaves, map_freqAt_allBytes, ← ofNat_sum_toNat, hsum, BitVec.ofNat_toNat, BitVec.setWidth_eq]
  have hpad : (s.paddingLeaf.map Prod.snd).sum = 0 := by
    unfold State.paddingLeaf
    split <;> rfl
  rw [State.allLeaves, List.map_append, List.map_append, List.sum_append, List.sum_append, hbytes, hpad, add_zero]
  rfl

/-! ### The tree (R104 to R106) -/

/-- Settles O30: `exists_built` on the leaves of the counters, with the node count as every tree has it. -/
theorem buildMakesFullTreeOfTheCounts : Obligations.BuildMakesFullTreeOfTheCounts := by
  intro s hh hp hpl hc
  obtain ⟨hmin, hmax⟩ := length_allLeaves_bounds hc
  obtain ⟨tree, hnode, hleaves, hbuild⟩ := exists_built s.allLeaves hmin hmax
  obtain ⟨t, ht, hend, held, hcount, hweight⟩ := hbuild s ⟨hh, hp, hpl⟩ rfl
  have hsize := (treeFieldLength tree).2
  have hlen := hleaves.length_eq
  rw [List.length_map] at hlen
  refine ⟨t, tree, ht, hend.phase, by rw [hend], held, hnode, hleaves.nodup_iff.mpr (nodup_symbols_allLeaves hc),
    map_fst_allLeaves s ▸ hleaves, by omega, hsize, hweight.trans (weights_allLeaves hc), ?_⟩
  rw [hend]
  exact ⟨rfl, rfl, rfl, rfl, rfl, rfl, rfl, rfl, rfl, hh⟩

/-- Settles O31: both states hold the counts of one input, and BUILD makes one tree of it. -/
theorem treeDependsOnlyOnTheCounts : Obligations.TreeDependsOnlyOnTheCounts := by
  intro s u hhs hhu hps hpu hpls hplu hcs hcu hfreq
  obtain ⟨bs, hs⟩ := exists_bytes_of_freq s
  have hu : ∀ b : Byte, (u.freqAt b).toNat = bs.count b := fun b => by
    rw [State.freqAt, ← hfreq]
    exact hs b
  obtain ⟨tree, -, -, hbuild⟩ := exists_builtTree bs
  obtain ⟨t, ht, hendt, heldt⟩ := hbuild s ⟨hhs, hps, hpls⟩ hcs hs
  obtain ⟨v, hv, hendv, heldv⟩ := hbuild u ⟨hhu, hpu, hplu⟩ hcu hu
  exact ⟨t, v, tree, ht, hv, hendt.phase, hendv.phase, heldt, heldv⟩

end Sys2Proof.Machine
end

section
/-! PROOFS. The steps of C_BUILD one by one: the leaves in their order, and one merge (R101, R102). -/

namespace Sys2Proof.Machine

/-! ### The leaves (R101, R108) -/

theorem buildStep_of_buildLeaves {s t : State} (hpl : s.place ≠ .merge) (ht : s.buildLeaves = some t) :
    buildStep s = .next (t.moveTo .merge) := by
  simp [buildStep, hpl, ht]

/-- A leaf planted stays in the forest. -/
theorem mem_plantLeaves_of_mem {e : PqEntry × Tree} {F : Forest} (he : e ∈ F) (ls : List (Symbol × Word)) (n : Nat) :
    e ∈ plantLeaves ls n F := by
  induction ls generalizing n F with
  | nil => exact he
  | cons l ls ih => exact ih ((insertTree_perm _ F).mem_iff.mpr (List.mem_cons_of_mem _ he)) (n + 1)

/-- The i-th leaf planted has the handle and the `seq` of its turn. -/
theorem leaf_mem_plantLeaves (ls : List (Symbol × Word)) (n : Nat) (F : Forest) (i : Nat) (h : i < ls.length) :
    (({ weight := ls[i].2, seq := BitVec.ofNat 10 (n + i), handle := Fin.ofNat 513 (n + i) } : PqEntry),
      Tree.leaf ls[i].1) ∈ plantLeaves ls n F := by
  induction ls generalizing n F i with
  | nil => simp at h
  | cons l ls ih =>
    cases i with
    | zero => exact mem_plantLeaves_of_mem ((insertTree_perm _ F).mem_iff.mpr (List.mem_cons_self ..)) ls (n + 1)
    | succ i =>
      have h' : i < ls.length := by simpa using h
      have hturn : n + (i + 1) = n + 1 + i := by omega
      rw [hturn]
      exact ih (n + 1) _ i h'

/-- Settles O28: the forest of the leaves, read leaf by leaf. -/
theorem buildInsertsLeavesInAscendingOrder : Obligations.BuildInsertsLeavesInAscendingOrder := by
  intro s leaves hh hp hpl hc hleaves
  obtain rfl : leaves = s.allLeaves := hleaves
  obtain ⟨-, hmax⟩ := length_allLeaves_bounds hc
  obtain ⟨t, ht, hcount, holds⟩ := buildLeaves_holds s (by omega)
  have hframe := buildLeaves_frame ht
  have hleaf : ∀ i, (h : i < s.allLeaves.length) → (h' : i < 513) →
      (({ weight := s.allLeaves[i].2, seq := BitVec.ofNat 10 i, handle := ⟨i, h'⟩ } : PqEntry),
        Tree.leaf s.allLeaves[i].1) ∈ plantLeaves s.allLeaves 0 [] := fun i h h' => by
    have hmem := leaf_mem_plantLeaves s.allLeaves 0 [] i h
    have hhandle : Fin.ofNat 513 (0 + i) = ⟨i, h'⟩ := Fin.ext ((Nat.mod_eq_of_lt (by omega)).trans (Nat.zero_add i))
    rwa [hhandle, Nat.zero_add] at hmem
  refine ⟨t.moveTo .merge, ?_, hframe.sameOutside.phase.trans hp, rfl, hcount, hcount ▸ holds.seq,
    fun i h h' => ?_, fun i h h' => ?_, ?_, hframe.freq, hframe.len⟩
  · rw [step_of_host_nil hh, coreStep_cBuild hp, buildStep_of_buildLeaves (by simp [hpl]) ht]
  · obtain ⟨-, hkind, hsym⟩ := holds.held _ (hleaf i h h')
    exact ⟨hkind, hsym, holds.weight _ (hleaf i h h')⟩
  · change _ ∈ t.pq
    rw [holds.pq]
    exact List.mem_map.mpr ⟨_, hleaf i h h', rfl⟩
  · change t.pq.length = _
    rw [holds.pq, List.length_map, ← length_trees, (trees_plantLeaves _ 0 []).length_eq]
    simp [treesOf]

/-! ### One merge (R102, R103) -/

/-- Settles O29: `step_merge` and `step_buildDone`, with the new node and the new entry written out. -/
theorem mergeStepJoinsTheTwoLowest : Obligations.MergeStepJoinsTheTwoLowest :=
  ⟨fun _ _ _ _ hn hh hp hpl hpq => step_merge ⟨hh, hp, hpl⟩ hpq hn,
    fun _ _ hh hp hpl hpq => step_buildDone ⟨hh, hp, hpl⟩ hpq⟩

end Sys2Proof.Machine
end

section
/-! PROOFS. The codes of a tree: their lengths, that none begins another, and the sum of Kraft's inequality (R107, R131,
R132). -/

namespace Sys2Proof.Machine

/-- The codes of an Internal root are those of its subtrees, each after the bit of its edge. -/
theorem mem_codes_node {l r : Tree} {c : Symbol × List Bool} :
    c ∈ (Tree.node l r).codes ↔
      (∃ d ∈ l.codes, c = (d.1, false :: d.2)) ∨ (∃ d ∈ r.codes, c = (d.1, true :: d.2)) := by
  simp [Tree.codes, eq_comm]

theorem leaves_length_pos (tree : Tree) : 0 < tree.leaves.length := by
  have := (treeFieldLength tree).2
  omega

/-- Each edge of a path leaves at least one leaf aside. -/
theorem length_code_lt {tree : Tree} {c : Symbol × List Bool} (hc : c ∈ tree.codes) :
    c.2.length < tree.leaves.length := by
  induction tree generalizing c with
  | leaf x =>
    obtain rfl := List.mem_singleton.mp hc
    exact Nat.zero_lt_one
  | node l r ihl ihr =>
    have hl := leaves_length_pos l
    have hr := leaves_length_pos r
    simp only [Tree.leaves, List.length_append]
    rcases mem_codes_node.mp hc with ⟨d, hd, rfl⟩ | ⟨d, hd, rfl⟩
    · have := ihl hd
      simp only [List.length_cons]
      omega
    · have := ihr hd
      simp only [List.length_cons]
      omega

/-- A path that begins another leaf's path would pass through a leaf. -/
theorem code_eq_of_prefix {tree : Tree} {c d : Symbol × List Bool} (hc : c ∈ tree.codes) (hd : d ∈ tree.codes)
    (h : c.2 <+: d.2) : c = d := by
  induction tree generalizing c d with
  | leaf x => exact (List.mem_singleton.mp hc).trans (List.mem_singleton.mp hd).symm
  | node l r ihl ihr =>
    rcases mem_codes_node.mp hc with ⟨c', hc', rfl⟩ | ⟨c', hc', rfl⟩ <;>
      rcases mem_codes_node.mp hd with ⟨d', hd', rfl⟩ | ⟨d', hd', rfl⟩ <;>
      obtain ⟨hbit, h'⟩ := List.cons_prefix_cons.mp h
    · rw [ihl hc' hd' h']
    · cases hbit
    · cases hbit
    · rw [ihr hc' hd' h']

/-- An edge above a tree halves the sum. -/
theorem kraftSum_below_edge (b : Bool) (codes : List (Symbol × List Bool)) :
    ((codes.map fun c => (c.1, b :: c.2)).map fun c => (1 / 2 : Rat) ^ c.2.length).sum =
      1 / 2 * (codes.map fun c => (1 / 2 : Rat) ^ c.2.length).sum := by
  rw [List.map_map, ← List.sum_map_mul_left]
  simp only [Function.comp_def, List.length_cons, pow_succ']

theorem kraftSum_codes (tree : Tree) : (tree.codes.map fun c => (1 / 2 : Rat) ^ c.2.length).sum = 1 := by
  induction tree with
  | leaf x => simp [Tree.codes]
  | node l r ihl ihr =>
    rw [Tree.codes, List.map_append, List.sum_append, kraftSum_below_edge, kraftSum_below_edge, ihl, ihr]
    norm_num

/-- Settles O35: the three properties, each by induction on the tree; the Internal root gives the first bit. -/
theorem codesArePrefixFreeAndComplete : Obligations.CodesArePrefixFreeAndComplete :=
  fun tree h =>
    ⟨fun _ hc => ⟨List.length_pos_iff.mpr (ne_nil_of_mem_codes h hc), length_code_lt hc⟩,
      fun _ hc _ hd => code_eq_of_prefix hc hd, kraftSum_codes tree⟩

end Sys2Proof.Machine
end

section
/-! PROOFS. Progress: under the invariant, with the output of a running operation open, the core's step answers a next state
in every phase (R104, R163, R184, R207). -/

namespace Sys2Proof.Machine

/-- The outcome is a next state, neither a fault nor a refusal. -/
def Answers (r : Result) : Prop := ∃ t, r = .next t

theorem answers_next (t : State) : Answers (.next t) := ⟨t, rfl⟩

/-! ### Steps that write or flush: the output is open -/

section
variable {s : State} (hc : s.output.closed = false)
include hc

theorem writeThen_answers (n v : Nat) (k : State → State) : Answers (s.writeThen n v fun t => .next (k t)) := by
  rcases writeThen_cases s n v fun t => .next (k t) with ⟨h, -⟩ | ⟨-, -, e⟩ | ⟨-, -, e⟩ | ⟨-, -, e⟩
  · exact absurd (hc.symm.trans h) nofun
  all_goals exact ⟨_, e⟩

theorem writeBit_answers (b : Bool) (rest : List Bool) (last : State → State) :
    Answers (writeBit b rest last s) :=
  writeThen_answers hc 1 b.toNat fun t => if rest = [] then last t else t.moveTo (.bits rest)

theorem flushStep_answers : Answers (flushStep s) := by
  rcases outFlushClose_cases s with ⟨h, -⟩ | ⟨-, -, e⟩ | ⟨-, -, e⟩ | ⟨-, -, e⟩
  · exact absurd (hc.symm.trans h) nofun
  all_goals simp only [flushStep, e, answers_next]

theorem errorFlushStep_answers : Answers (errorFlushStep s) := by
  rcases outFlushClose_cases s with ⟨h, -⟩ | ⟨-, -, e⟩ | ⟨-, -, e⟩ | ⟨-, -, e⟩
  · exact absurd (hc.symm.trans h) nofun
  all_goals simp only [errorFlushStep, e, answers_next]

theorem writeInternal_answers {f : Frame} {rest : List Frame} (hst : s.stack = f :: rest) (hpl : s.place = .top)
    (hr : s.recordOf f.handle = .treeInternal) : Answers (writeInternal s) := by
  simp only [writeInternal, hst, hpl, hr, and_self, if_true]
  exact writeThen_answers hc 1 0 _

theorem writeLeaf_answers {f : Frame} {rest : List Frame} {sym : Nat} (hst : s.stack = f :: rest)
    (hpl : s.place = .top ∨ s.place = .symbol) (hr : s.recordOf f.handle = .treeLeaf sym) :
    Answers (writeLeaf sym s) := by
  rcases hpl with hpl | hpl
  · simp only [writeLeaf, hst, hpl, hr, if_true]
    exact writeThen_answers hc 1 1 _
  · simp only [writeLeaf, hst, hpl, hr, reduceCtorEq, if_true, if_false]
    exact writeThen_answers hc 9 sym _

/-- The record is the due one: a symbol is due at a leaf only (R110 to R112). -/
theorem writeTreeStep_answers (hp : s.phase = .cTree) (hpl : s.placeInv) : Answers (writeTreeStep s) := by
  rw [placeInv_cTree hp] at hpl
  cases hst : s.stack with
  | nil => simp only [writeTreeStep, hst, answers_next]
  | cons f rest =>
    rw [writeTreeStep_cons hst]
    cases hl : s.isLeaf f.handle with
    | false =>
      have hr : s.recordOf f.handle = .treeInternal := by simp [State.recordOf, hl]
      have htop : s.place = .top := by
        refine hpl.resolve_right fun ⟨_, g, more, hg, hleaf⟩ => ?_
        obtain ⟨rfl, rfl⟩ := List.cons.inj (hst.symm.trans hg)
        exact absurd (hl.symm.trans hleaf) nofun
      rw [hr, exec_treeInternal, execTreeInternal, if_pos hp]
      exact writeInternal_answers hc hst htop hr
    | true =>
      have hr : s.recordOf f.handle = .treeLeaf (s.nodeAt f.handle).sym.val := by simp [State.recordOf, hl]
      rw [hr, exec_treeLeaf, execTreeLeaf, if_pos hp]
      exact writeLeaf_answers hc hst (hpl.imp_right And.left) hr

theorem emitStep_answers : Answers (emitStep s) := by
  unfold emitStep
  split
  · exact writeBit_answers hc _ _ _
  · split <;> exact answers_next _

theorem termStep_answers : Answers (termStep s) := by
  unfold termStep
  split
  · exact writeBit_answers hc _ _ _
  · exact answers_next _

theorem walkStep_answers : Answers (walkStep s) := by
  unfold walkStep
  split
  · exact writeThen_answers hc 8 _ fun t => { t.moveTo .top with cur := t.root }
  · split <;> exact answers_next _

end

/-! ### Steps that read, and C_CODES -/

theorem countStep_answers (s : State) : Answers (countStep s) := by
  unfold countStep
  split <;> split <;> exact answers_next _

theorem codesStep_answers (s : State) : Answers (codesStep s) := by
  unfold codesStep
  split
  · exact answers_next _
  · split <;> exact answers_next _

theorem readMagicStep_answers (s : State) : Answers (readMagicStep s) := by
  unfold readMagicStep
  split
  case h_4 => split <;> exact answers_next _
  all_goals exact answers_next _

/-- The capacity check of the record leaves no full arena to the allocation (R115). -/
theorem readInternal_answers {s : State} (hpl : s.place = .top) : Answers (readInternal s) := by
  rw [readInternal, if_pos hpl]
  split
  · exact answers_next _
  · rename_i hfull
    rw [alloc_of_lt s _ (by have := s.ncount.isLt; omega)]
    exact answers_next _

theorem readLeaf_answers {s : State} (sym : Nat) (hpl : s.place = .symbol) : Answers (readLeaf sym s) := by
  rw [readLeaf, if_pos hpl]
  split
  · exact answers_next _
  · rename_i hfull
    split
    · exact answers_next _
    · rw [alloc_of_lt s _ (by have := s.ncount.isLt; omega)]
      exact answers_next _

theorem readTreeStep_answers {s : State} (hp : s.phase = .dTree) : Answers (readTreeStep s) := by
  unfold readTreeStep
  split
  · rename_i hpl
    rcases inRead_cases s 9 with ⟨-, e⟩ | ⟨-, e⟩ | ⟨-, -, e⟩ | ⟨-, -, e⟩ <;> rw [e]
    case inr.inr.inr =>
      change Answers (exec (.treeLeaf _) (s.afterRead 9))
      rw [exec_treeLeaf_of_dTree (s := s.afterRead 9) _ hp]
      exact readLeaf_answers _ hpl
    all_goals exact answers_next _
  · rw [State.inReadBit]
    rcases inRead_cases s 1 with ⟨-, e⟩ | ⟨-, e⟩ | ⟨-, -, e⟩ | ⟨-, -, e⟩ <;> rw [e]
    case inr.inr.inr =>
      dsimp only
      split
      · exact answers_next _
      · split
        · exact answers_next _
        · rw [exec_treeInternal_of_dTree (s := (s.afterRead 1).moveTo .top) hp]
          exact readInternal_answers rfl
    all_goals exact answers_next _

/-! ### C_BUILD: the arena has room and the queue an entry (R101, R104) -/

theorem buildStep_answers {s : State} (hi : s.inv) (hp : s.phase = .cBuild) : Answers (buildStep s) := by
  obtain ⟨-, -, hcount, ⟨-, hqueue⟩, -, -⟩ := hi
  by_cases hpl : s.place = .merge
  · obtain ⟨hentry, hroom⟩ := hqueue hp hpl
    rw [buildStep, if_pos hpl]
    match hpq : s.pq with
    | [] => simp [hpq] at hentry
    | [a] => exact answers_next _
    | a :: b :: rest =>
      have hn : s.ncount.val < 513 := by
        simp only [hpq, List.length_cons] at hroom
        omega
      simp only [State.mergeTwo, alloc_of_lt s _ hn, answers_next]
  · obtain ⟨-, hmax⟩ := length_allLeaves_bounds hcount
    obtain ⟨t, ht, -, -⟩ := buildLeaves_holds s (by omega)
    exact ⟨_, buildStep_of_buildLeaves hpl ht⟩

/-! ### The step of the core -/

/-- Settles O54: phase by phase; in every phase but IDLE the operation runs, so its output is open. -/
theorem coreStepAlwaysAnswers : Obligations.CoreStepAlwaysAnswers := by
  intro s hi hopen
  change Answers (coreStep s)
  by_cases hidle : s.phase = .idle
  · exact ⟨s, coreStep_idle hidle⟩
  obtain ⟨hbusy, -⟩ := hi.status
  have hc : s.output.closed = false := hopen (hbusy.mpr hidle)
  cases hp : s.phase with
  | idle => exact absurd hp hidle
  | cCount => rw [coreStep_cCount hp]; exact countStep_answers s
  | cBuild => rw [coreStep_cBuild hp]; exact buildStep_answers hi hp
  | cMagic => rw [coreStep_cMagic hp]; exact writeThen_answers hc 32 _ _
  | cTree => rw [coreStep_cTree hp]; exact writeTreeStep_answers hc hp hi.place
  | cCodes => rw [coreStep_cCodes hp]; exact codesStep_answers s
  | cEmit => rw [coreStep_cEmit hp]; exact emitStep_answers hc
  | cTerm => rw [coreStep_cTerm hp]; exact termStep_answers hc
  | cFlush => rw [coreStep_cFlush hp]; exact flushStep_answers hc
  | dMagic => rw [coreStep_dMagic hp]; exact readMagicStep_answers s
  | dTree => rw [coreStep_dTree hp]; exact readTreeStep_answers hp
  | dWalk => rw [coreStep_dWalk hp]; exact walkStep_answers hc
  | dDone => rw [coreStep_dDone hp]; exact flushStep_answers hc
  | eFlush => rw [coreStep_eFlush hp]; exact errorFlushStep_answers hc

end Sys2Proof.Machine
end

section
/-! PROOFS. The two tree records, read and written, one at a time: their next states, and what they leave unchanged (R110 to
R112, R115, R116). -/

namespace Sys2Proof.Machine

/-! ### TREE_INTERNAL and TREE_LEAF read with room in the arena (R111, R112) -/

theorem readInternal_of_lt {s : State} (hn : s.ncount.val < 513) (hpl : s.place = .top) :
    readInternal s = .next { s with
      node := s.node.set s.ncount.val { s.node[s.ncount.val] with kind := .internal, weight := 0 }
      ncount := ⟨s.ncount.val + 1, by omega⟩
      stack := { handle := ⟨s.ncount.val, hn⟩ } :: s.stack } := by
  rw [readInternal, if_pos hpl, if_neg (Nat.ne_of_lt hn), alloc_of_lt s _ hn]
  rfl

/-- Settles O9: the capacity check passes, and the allocation writes the entry `NCOUNT`. -/
theorem treeInternalReadOpensNode : Obligations.TreeInternalReadOpensNode := by
  intro s hn hp hpl
  rw [exec_treeInternal_of_dTree hp, readInternal_of_lt hn hpl]

/-- The leaf is in the entry `NCOUNT` and has not been returned to the open nodes yet (R112). -/
def State.leafAllocated (x : Symbol) (s : State) (hn : s.ncount.val < 513) : State :=
  { s with
    node := s.node.set s.ncount.val { s.node[s.ncount.val] with kind := .leaf, sym := x, weight := 0 }
    ncount := ⟨s.ncount.val + 1, by omega⟩ }

theorem readLeaf_of_lt {s : State} (x : Symbol) (hn : s.ncount.val < 513) (hpl : s.place = .symbol) :
    readLeaf x.val s = .next (State.returnNode ⟨s.ncount.val, hn⟩ s.stack (s.leafAllocated x hn)) := by
  have hsym : symbolOf x.val = some x := dif_pos x.isLt
  rw [readLeaf, if_pos hpl, if_neg (Nat.ne_of_lt hn), hsym]
  simp only [alloc_of_lt s _ hn]
  rfl

/-- Settles O10: the leaf is returned to a node whose left child is due. -/
theorem treeLeafReadAsLeftChild : Obligations.TreeLeafReadAsLeftChild := by
  intro s x p path rest hn hp hpl hst arena harena
  subst harena
  rw [exec_treeLeaf_of_dTree _ hp, readLeaf_of_lt x hn hpl, hst, returnNode_left _ _ _ rfl]
  rfl

/-! ### What a returned node changes in the arena (R115) -/

/-- The arena `b` is `a` but for the children of the open nodes. -/
structure OnlyChildrenSet (opened : List Frame) (a b : Vector Node 513) : Prop where
  kept : ∀ k : Handle, (∀ f ∈ opened, f.handle ≠ k) → b[k.val] = a[k.val]
  children : ∀ k : Handle, b[k.val] = { a[k.val] with left := b[k.val].left, right := b[k.val].right }

theorem OnlyChildrenSet.refl (opened : List Frame) (a : Vector Node 513) : OnlyChildrenSet opened a a :=
  ⟨fun _ _ => rfl, fun _ => rfl⟩

theorem OnlyChildrenSet.trans {o : List Frame} {a b c : Vector Node 513} (h : OnlyChildrenSet o a b)
    (h' : OnlyChildrenSet o b c) : OnlyChildrenSet o a c where
  kept k hk := (h'.kept k hk).trans (h.kept k hk)
  children k := by rw [h'.children k, h.children k]

theorem OnlyChildrenSet.mono {o o' : List Frame} {a b : Vector Node 513} (h : OnlyChildrenSet o a b)
    (hsub : ∀ f ∈ o, f ∈ o') : OnlyChildrenSet o' a b :=
  ⟨fun k hk => h.kept k fun f hf => hk f (hsub f hf), h.children⟩

theorem setChild_node_ne (s : State) {h k : Handle} (side : Side) (c : Handle) (hk : k ≠ h) :
    (s.setChild h side c).node[k.val] = s.node[k.val] := by
  cases side <;> exact nodeAt_setNode_ne s _ hk

/-- One child of an open node is filled in. -/
theorem onlyChildrenSet_setChild {o : List Frame} {f : Frame} (hf : f ∈ o) (side : Side) (c : Handle) (s : State) :
    OnlyChildrenSet o s.node (s.setChild f.handle side c).node where
  kept k hk := setChild_node_ne s side c (hk f hf).symm
  children k := by
    by_cases hk : k = f.handle
    · subst hk
      cases side <;> simp [State.setChild, State.nodeAt]
    · rw [setChild_node_ne s side c hk]

theorem treeRead_node (root : Handle) (s : State) : (s.treeRead root).node = s.node := by
  simp only [State.treeRead]
  split <;> rfl

theorem onlyChildrenSet_returnNode (c : Handle) (stack : List Frame) (s : State) :
    OnlyChildrenSet stack s.node (s.returnNode c stack).node := by
  induction stack generalizing c s with
  | nil =>
    rw [State.returnNode, treeRead_node]
    exact .refl _ _
  | cons f rest ih =>
    have hset := onlyChildrenSet_setChild (o := f :: rest) (f := f) List.mem_cons_self
    cases hside : f.side with
    | left =>
      rw [returnNode_left c rest s hside]
      exact hset .left c s
    | right =>
      rw [returnNode_right c rest s hside]
      exact (hset .right c s).trans ((ih f.handle _).mono fun _ => List.mem_cons_of_mem f)

theorem returnNode_ncount (c : Handle) (stack : List Frame) (s : State) : (s.returnNode c stack).ncount = s.ncount := by
  rcases returnNode_cases c stack s with ⟨_, _, _, _, e⟩ | ⟨_, _, _, e⟩ | ⟨_, _, _, e⟩ <;> rw [e]
  rfl

/-- The arena `b` is `a` but for entry `n` and the children of the open nodes. -/
structure EntryAdded (opened : List Frame) (n : Nat) (a b : Vector Node 513) : Prop where
  kept : ∀ k : Handle, k.val ≠ n → (∀ f ∈ opened, f.handle ≠ k) → b[k.val] = a[k.val]
  children : ∀ k : Handle, k.val ≠ n →
    b[k.val] = { a[k.val] with left := b[k.val].left, right := b[k.val].right }

theorem OnlyChildrenSet.entryAdded {o : List Frame} {n : Nat} {a b : Vector Node 513} {x : Node} (hn : n < 513)
    (h : OnlyChildrenSet o (a.set n x) b) : EntryAdded o n a b := by
  have other : ∀ k : Handle, k.val ≠ n → (a.set n x)[k.val] = a[k.val] :=
    fun k hk => Vector.getElem_set_ne _ _ hk.symm
  exact ⟨fun k hk hop => (h.kept k hop).trans (other k hk), fun k hk => other k hk ▸ h.children k⟩

/-- Settles O11: the new entry is no open node's, so no child of it is filled in; the parse goes on as `returnNode_cases`
says. -/
theorem treeLeafReadReturnsToOpenNodes : Obligations.TreeLeafReadReturnsToOpenNodes := by
  intro s x hn hp hpl hopened
  let c : Handle := ⟨s.ncount.val, hn⟩
  have harena := onlyChildrenSet_returnNode c s.stack (s.leafAllocated x hn)
  have hleaf := harena.kept c fun f hf e => Nat.ne_of_lt (hopened f hf) (congrArg Fin.val e)
  rw [show (s.leafAllocated x hn).node[c.val] = _ from Vector.getElem_set_self _] at hleaf
  have hadded := harena.entryAdded hn
  refine ⟨(s.leafAllocated x hn).returnNode c s.stack, ?_, ?_, congrArg Node.kind hleaf, congrArg Node.sym hleaf,
    congrArg Node.weight hleaf, hadded.kept, hadded.children, ?_⟩
  · rw [exec_treeLeaf_of_dTree _ hp, readLeaf_of_lt x hn hpl]
  · rw [returnNode_ncount]
    rfl
  · rcases returnNode_cases c s.stack (s.leafAllocated x hn) with
      ⟨node, f, rest, hf, e⟩ | ⟨node, root, hk, e⟩ | ⟨node, root, hk, e⟩ <;> rw [e]
    · exact .inl ⟨hp, rfl, rfl, f, rest, rfl, hf⟩
    · exact .inr (.inl ⟨rfl, rfl, rfl, rfl, rfl, decide_eq_false hk⟩)
    · exact .inr (.inr ⟨rfl, rfl, rfl, decide_eq_true hk⟩)

/-! ### TREE_INTERNAL and TREE_LEAF written (R111, R112) -/

theorem exec_treeInternal_of_cTree {s : State} {f : Frame} {rest : List Frame} (hp : s.phase = .cTree)
    (hpl : s.place = .top) (hst : s.stack = f :: rest) (hk : (s.nodeAt f.handle).kind = .internal) :
    exec .treeInternal s = s.writeThen 1 0 fun t => .next (t.descend f rest) := by
  rw [exec_treeInternal, execTreeInternal, if_pos hp, writeInternal, hst]
  exact if_pos ⟨hpl, recordOf_of_internal hk⟩

theorem outReady_iff (s : State) :
    s.outReady = true ↔ s.output.closed = false ∧ nextAnswer s.output.answers = .ok := by
  simp [State.outReady]

/-- Settles O13: by the answer of the tag's write. -/
theorem treeInternalWriteEmitsTag : Obligations.TreeInternalWriteEmitsTag := by
  intro s f rest hp hpl hst hk
  rw [exec_treeInternal_of_cTree hp hpl hst hk]
  refine ⟨fun hready => ?_, writeThen_ioError 1 0 _⟩
  obtain ⟨hc, ha⟩ := (outReady_iff s).mp hready
  exact writeThen_ok 1 0 _ hc ha

section
variable {s : State} {f : Frame} {rest : List Frame} {x : Symbol} (hp : s.phase = .cTree) (hst : s.stack = f :: rest)
  (hk : (s.nodeAt f.handle).kind = .leaf) (hx : (s.nodeAt f.handle).sym = x)
include hp hst hk hx

theorem exec_treeLeaf_of_cTree_top (hpl : s.place = .top) :
    exec (.treeLeaf x.val) s = s.writeThen 1 1 fun t => .next (t.moveTo .symbol) := by
  have hr : s.recordOf f.handle = .treeLeaf x.val := hx ▸ recordOf_of_leaf hk
  rw [exec_treeLeaf, execTreeLeaf, if_pos hp, writeLeaf, hst]
  exact (if_pos hr).trans (if_pos hpl)

theorem exec_treeLeaf_of_cTree_symbol (hpl : s.place = .symbol) :
    exec (.treeLeaf x.val) s = s.writeThen 9 x.val fun t => .next (t.visited rest) := by
  have hr : s.recordOf f.handle = .treeLeaf x.val := hx ▸ recordOf_of_leaf hk
  have hne : ¬ s.place = .top := by rw [hpl]; exact nofun
  rw [exec_treeLeaf, execTreeLeaf, if_pos hp, writeLeaf, hst]
  exact (if_pos hr).trans ((if_neg hne).trans (if_pos hpl))

end

/-- Settles O14: by the place and the answer of its write. -/
theorem treeLeafWriteEmitsTagAndSymbol : Obligations.TreeLeafWriteEmitsTagAndSymbol := by
  intro s f rest x hp hst hk hx
  refine ⟨fun hready hpl => ?_, fun hready hpl => ?_, fun hc ha hpl => ?_⟩
  · obtain ⟨hc, ha⟩ := (outReady_iff s).mp hready
    rw [exec_treeLeaf_of_cTree_top hp hst hk hx hpl]
    exact writeThen_ok 1 1 _ hc ha
  · obtain ⟨hc, ha⟩ := (outReady_iff s).mp hready
    rw [exec_treeLeaf_of_cTree_symbol hp hst hk hx hpl]
    exact writeThen_ok 9 x.val _ hc ha
  · rcases hpl with hpl | hpl
    · rw [exec_treeLeaf_of_cTree_top hp hst hk hx hpl, writeThen_ioError 1 1 _ hc ha]
    · rw [exec_treeLeaf_of_cTree_symbol hp hst hk hx hpl, writeThen_ioError 9 x.val _ hc ha]

/-! ### The frame of the records -/

/-- What a written record may change: the place in the operation, the error fields, the stack, and `OUT`, which only grows. -/
structure WriteRecordFrame (s t : State) : Prop where
  eq : t = { s with
    phase := t.phase, place := t.place, errCode := t.errCode, errDetail := t.errDetail, stack := t.stack
    output := t.output, outBits := t.outBits }
  closed : t.output.closed = s.output.closed
  grows : s.output.bits <+: t.output.bits

/-- A record that answers a next state in C_TREE is the one that is due there. -/
theorem writeTreeStep_of_exec {s t : State} {i : Instr} (hi : i = .treeInternal ∨ ∃ sym, i = .treeLeaf sym)
    (hp : s.phase = .cTree) (h : exec i s = .next t) : writeTreeStep s = .next t := by
  have hdue : ∃ f rest, s.stack = f :: rest ∧ s.recordOf f.handle = i := by
    rcases hi with rfl | ⟨sym, rfl⟩
    · rw [exec_treeInternal, execTreeInternal, if_pos hp, writeInternal] at h
      split at h <;> [cases h; skip]
      rename_i f rest hst
      split at h <;> [skip; cases h]
      rename_i hr
      exact ⟨f, rest, hst, hr.2⟩
    · rw [exec_treeLeaf, execTreeLeaf, if_pos hp, writeLeaf] at h
      split at h <;> [cases h; skip]
      rename_i f rest hst
      split at h <;> [skip; cases h]
      rename_i hr
      exact ⟨f, rest, hst, hr⟩
  obtain ⟨f, rest, hst, hr⟩ := hdue
  rw [writeTreeStep_cons hst, hr, h]

theorem exec_frame_of_cTree {s t : State} {i : Instr} (hi : i = .treeInternal ∨ ∃ sym, i = .treeLeaf sym)
    (hp : s.phase = .cTree) (h : exec i s = .next t) : WriteRecordFrame s t := by
  rcases writeTreeStep_next hp (writeTreeStep_of_exec hi hp h) with
    ⟨_, rfl⟩ | ⟨f, rest, _, rfl | rfl | ⟨_, _, rfl⟩ | ⟨_, _, rfl⟩ | ⟨_, _, rfl⟩⟩
  · exact ⟨rfl, rfl, List.prefix_rfl⟩
  · exact ⟨rfl, rfl, List.prefix_rfl⟩
  · exact ⟨rfl, rfl, List.prefix_rfl⟩
  all_goals exact ⟨rfl, rfl, List.prefix_append _ _⟩

/-- What a read record may change: the place in the operation, the error fields, the tree's tables and the stack; in the
arena the entry `NCOUNT` and the children of the open nodes. -/
structure ReadRecordFrame (s t : State) : Prop where
  eq : t = { s with
    phase := t.phase, place := t.place, errCode := t.errCode, errDetail := t.errDetail, stack := t.stack
    node := t.node, ncount := t.ncount, root := t.root, cur := t.cur }
  ncount : s.ncount.val ≤ t.ncount.val
  arena : EntryAdded s.stack s.ncount.val s.node t.node

theorem readRecordFrame_afterRaise (e : ErrCode) (d : BitVec 4) (s : State) : ReadRecordFrame s (s.afterRaise e d) :=
  ⟨rfl, Nat.le_refl _, fun _ _ _ => rfl, fun _ _ => rfl⟩

theorem readRecordFrame_returnNode (x : Symbol) {s : State} (hn : s.ncount.val < 513) (c : Handle) :
    ReadRecordFrame s ((s.leafAllocated x hn).returnNode c s.stack) where
  eq := by
    rcases returnNode_cases c s.stack (s.leafAllocated x hn) with
      ⟨_, _, _, _, e⟩ | ⟨_, _, _, e⟩ | ⟨_, _, _, e⟩ <;> rw [e] <;> rfl
  ncount := by
    rw [returnNode_ncount]
    exact Nat.le_succ _
  arena := (onlyChildrenSet_returnNode c s.stack (s.leafAllocated x hn)).entryAdded hn

theorem exec_frame_of_dTree {s t : State} {i : Instr} (hi : i = .treeInternal ∨ ∃ sym, i = .treeLeaf sym)
    (hp : s.phase = .dTree) (h : exec i s = .next t) : ReadRecordFrame s t := by
  rcases hi with rfl | ⟨sym, rfl⟩
  · rw [exec_treeInternal_of_dTree hp] at h
    rcases (readInternal_next h).2 with ⟨_, rfl⟩ | ⟨hn, rfl⟩
    · exact readRecordFrame_afterRaise _ _ s
    · exact ⟨rfl, Nat.le_succ _, (OnlyChildrenSet.refl s.stack _).entryAdded hn⟩
  · rw [exec_treeLeaf_of_dTree sym hp] at h
    rcases (readLeaf_next h).2 with ⟨_, rfl⟩ | ⟨_, _, rfl⟩ | ⟨hn, hs, rfl⟩
    · exact readRecordFrame_afterRaise _ _ s
    · exact readRecordFrame_afterRaise _ _ s
    · exact readRecordFrame_returnNode ⟨sym, hs⟩ hn _

/-- A record answers a next state in C_TREE and in D_TREE only. -/
theorem phase_of_exec_record {s t : State} {i : Instr} (hi : i = .treeInternal ∨ ∃ sym, i = .treeLeaf sym)
    (h : exec i s = .next t) : s.phase = .cTree ∨ s.phase = .dTree := by
  by_contra hne
  obtain ⟨hc, hd⟩ := not_or.mp hne
  rcases hi with rfl | ⟨sym, rfl⟩
  · rw [exec_treeInternal, execTreeInternal, if_neg hc, if_neg hd] at h
    cases h
  · rw [exec_treeLeaf, execTreeLeaf, if_neg hc, if_neg hd] at h
    cases h

/-- Settles O15: the frame of the phase the record runs in. -/
theorem treeRecordFrame : Obligations.TreeRecordFrame := by
  intro s t i hi h
  rcases phase_of_exec_record hi h with hp | hp
  · obtain ⟨e, hclosed, hgrows⟩ := exec_frame_of_cTree hi hp h
    have hd : s.phase ≠ .dTree := by rw [hp]; exact nofun
    refine ⟨?_, ?_, ?_, ?_, ?_, ?_, ?_, ?_, ?_, ?_, ?_, ?_, ?_, ?_, ?_, hclosed, hgrows,
      fun _ => ⟨?_, ?_, ?_, ?_⟩, fun h => absurd h hd⟩ <;> rw [e]
  · obtain ⟨e, hn, harena⟩ := exec_frame_of_dTree hi hp h
    have hc : s.phase ≠ .cTree := by rw [hp]; exact nofun
    have hout : t.output = s.output := by rw [e]
    refine ⟨?_, ?_, ?_, ?_, ?_, ?_, ?_, ?_, ?_, ?_, ?_, ?_, ?_, ?_, ?_, by rw [hout], by rw [hout],
      fun h => absurd h hc, fun _ => ⟨hout, ?_, hn, harena.kept, harena.children⟩⟩ <;> rw [e]

end Sys2Proof.Machine
end

section
/-! PROOFS. READ_TREE inverts WRITE_TREE: the field of a tree, wherever it stands, rebuilds that tree in the entries that its
records allocate (R114, R115). -/

namespace Sys2Proof.Machine

/-! ### Trees in a range of the arena -/

/-- The arena holds the tree at a handle, with all of its nodes among the entries `lo` to `hi - 1`. -/
def Tree.heldIn (node : Vector Node 513) (lo hi : Nat) : Tree → Handle → Prop
  | .leaf x, h => (lo ≤ h.val ∧ h.val < hi) ∧ node[h.val].kind = .leaf ∧ node[h.val].sym = x
  | .node l r, h =>
    (lo ≤ h.val ∧ h.val < hi) ∧ node[h.val].kind = .internal ∧
      l.heldIn node lo hi node[h.val].left ∧ r.heldIn node lo hi node[h.val].right

theorem Tree.heldIn.heldAt {node : Vector Node 513} {lo hi : Nat} {tree : Tree} {h : Handle}
    (held : tree.heldIn node lo hi h) : Tree.heldAt node tree h := by
  induction tree generalizing h with
  | leaf x => exact held.2
  | node l r ihl ihr =>
    obtain ⟨-, hk, hl, hr⟩ := held
    exact ⟨hk, ihl hl, ihr hr⟩

/-- An arena with the same entries in the range holds the same tree, in any wider range. -/
theorem Tree.heldIn.mono {node node' : Vector Node 513} {lo hi lo' hi' : Nat} {tree : Tree} {h : Handle}
    (held : tree.heldIn node lo hi h) (hlo : lo' ≤ lo) (hhi : hi ≤ hi')
    (keep : ∀ k : Handle, lo ≤ k.val → k.val < hi → node'[k.val] = node[k.val]) : tree.heldIn node' lo' hi' h := by
  induction tree generalizing h with
  | leaf x =>
    obtain ⟨⟨hge, hlt⟩, hk, hx⟩ := held
    refine ⟨⟨hlo.trans hge, hlt.trans_le hhi⟩, ?_⟩
    rw [keep h hge hlt]
    exact ⟨hk, hx⟩
  | node l r ihl ihr =>
    obtain ⟨⟨hge, hlt⟩, hk, hl, hr⟩ := held
    refine ⟨⟨hlo.trans hge, hlt.trans_le hhi⟩, ?_⟩
    rw [keep h hge hlt]
    exact ⟨hk, ihl hl, ihr hr⟩

/-! ### What reading a subtree leaves (R114, R115) -/

/-- `u` differs from `s` in the arena, `NCOUNT`, the stack, the place, the input and `IN_BITS` at most. -/
def ParseFrame (s u : State) : Prop :=
  u = { s with
    node := u.node, ncount := u.ncount, stack := u.stack, place := u.place, input := u.input, inBits := u.inBits }

theorem ParseFrame.trans {s u v : State} (h : ParseFrame s u) (h' : ParseFrame u v) : ParseFrame s v := by
  unfold ParseFrame at *
  rw [h', h]

/-- `u` is `s` after the field of `tree` has been read: the tree stands at `c` in the entries allocated since, and the older
entries are as they were. -/
structure Rebuilt (tree : Tree) (s u : State) (c : Handle) : Prop where
  read : ReadOn s u tree.bits.length tree.size
  frame : ParseFrame s u
  older : ∀ k : Handle, k.val < s.ncount.val → u.node[k.val] = s.node[k.val]
  held : tree.heldIn u.node s.ncount.val u.ncount.val c

/-- `v` is `s` after an Internal record and the field of its left subtree `l` have been read: the open node is at `root`. -/
structure LeftRebuilt (l : Tree) (s v : State) (root : Handle) : Prop where
  read : ReadOn s v (l.bits.length + 1) (l.size + 1)
  frame : ParseFrame s v
  older : ∀ k : Handle, k.val < s.ncount.val → v.node[k.val] = s.node[k.val]
  kind : v.node[root.val].kind = .internal
  held : l.heldIn v.node (s.ncount.val + 1) v.ncount.val v.node[root.val].left

/-- The field of the tree, wherever it stands with room in the arena, rebuilds it and returns it to the open nodes. -/
def Tree.IsRebuilt (tree : Tree) : Prop :=
  ∀ (s : State) (rest : List Bool), s.AtTag → s.input.bits.drop s.input.pos = tree.bits ++ rest →
    s.ncount.val + tree.size ≤ 513 → ∃ u c, Reaches s (u.returnNode c s.stack) ∧ Rebuilt tree s u c

theorem rebuilt_leaf (x : Symbol) (s : State) (hn : s.ncount.val < 513) :
    Rebuilt (.leaf x) s (((s.afterRead 1).moveTo .symbol).afterLeaf x hn) ⟨s.ncount.val, hn⟩ where
  read := by
    simpa [Tree.bits, Tree.size] using (readOn_tag s).trans (readOn_afterLeaf ((s.afterRead 1).moveTo .symbol) x hn)
  frame := rfl
  older k hk := Vector.getElem_set_ne hn k.isLt (Nat.ne_of_gt hk)
  held := by
    have hleaf : (((s.afterRead 1).moveTo .symbol).afterLeaf x hn).node[s.ncount.val] =
        { s.node[s.ncount.val] with kind := .leaf, sym := x, weight := 0 } := Vector.getElem_set_self _
    exact ⟨⟨Nat.le_refl _, Nat.lt_succ_self _⟩, congrArg Node.kind hleaf, congrArg Node.sym hleaf⟩

/-- The left subtree returned to the node that an Internal record has opened. -/
theorem leftRebuilt_leftReturned {l : Tree} {s u : State} {c : Handle} (hn : s.ncount.val < 513)
    (hu : Rebuilt l (s.afterOpen hn) u c) (f : Frame) (hf : f.handle = ⟨s.ncount.val, hn⟩) :
    LeftRebuilt l s (u.leftReturned f c s.stack) f.handle := by
  have hroot : (u.leftReturned f c s.stack).node[f.handle.val] = { u.node[f.handle.val] with left := c } :=
    nodeAt_setNode_same u f.handle _
  have hother : ∀ k : Handle, k ≠ f.handle → (u.leftReturned f c s.stack).node[k.val] = u.node[k.val] :=
    fun k => setChild_node_ne u .left c
  have hfval : f.handle.val = s.ncount.val := congrArg Fin.val hf
  have hne : ∀ k : Handle, k.val ≠ s.ncount.val → k ≠ f.handle := fun k hk e => hk (by rw [e, hfval])
  have hopened : u.node[f.handle.val] = (s.afterOpen hn).node[f.handle.val] :=
    hu.older f.handle (by rw [hfval]; exact Nat.lt_succ_self _)
  have hopen : ParseFrame s (s.afterOpen hn) := rfl
  refine ⟨?_, (hopen.trans hu.frame).trans rfl, fun k hk => ?_, ?_, ?_⟩
  · have hread := ((readOn_afterOpen s hn).trans hu.read).trans (readOn_leftReturned u f c s.stack)
    simpa [Nat.add_comm] using hread
  · rw [hother k (hne k (Nat.ne_of_lt hk)), hu.older k (Nat.lt_succ_of_lt hk)]
    exact Vector.getElem_set_ne hn k.isLt (Nat.ne_of_gt hk)
  · rw [hroot, hopened]
    simp [State.afterOpen, hfval]
  · rw [hroot]
    exact hu.held.mono (Nat.le_refl _) (Nat.le_refl _) fun k hk _ => hother k (hne k (Nat.ne_of_gt hk))

/-- The right subtree returned to the node closes it. -/
theorem LeftRebuilt.setRight {l r : Tree} {s v u : State} {root c : Handle} (hv : LeftRebuilt l s v root)
    (hroot : root.val = s.ncount.val) (hu : Rebuilt r v u c) :
    Rebuilt (.node l r) s (u.setChild root .right c) root := by
  have hvn := hv.read.ncount
  have hun := hu.read.ncount
  have hnode : (u.setChild root .right c).node[root.val] = { v.node[root.val] with right := c } := by
    rw [← hu.older root (by omega)]
    exact nodeAt_setNode_same u root _
  have hother : ∀ k : Handle, k.val ≠ s.ncount.val → (u.setChild root .right c).node[k.val] = u.node[k.val] :=
    fun k hk => setChild_node_ne u .right c fun e => hk (by rw [e, hroot])
  refine ⟨?_, (hv.frame.trans hu.frame).trans rfl, fun k hk => ?_, ?_⟩
  · have hread := (hv.read.trans hu.read).trans (readOn_setRight u root c)
    have hbits : (Tree.node l r).bits.length = l.bits.length + 1 + r.bits.length + 0 := by
      simp only [Tree.bits, List.length_cons, List.length_append]
      omega
    have hsize : (Tree.node l r).size = l.size + 1 + r.size + 0 := by
      simp only [Tree.size]
      omega
    rw [hbits, hsize]
    exact hread
  · rw [hother k (Nat.ne_of_lt hk), hu.older k (by omega), hv.older k hk]
  · have hkept : ∀ k : Handle, s.ncount.val + 1 ≤ k.val → k.val < v.ncount.val →
        (u.setChild root .right c).node[k.val] = v.node[k.val] := by
      intro k hge hlt
      rw [hother k (by omega), hu.older k hlt]
    have hcount : (u.setChild root .right c).ncount.val = u.ncount.val := rfl
    rw [Tree.heldIn, hnode, hcount]
    refine ⟨⟨Nat.le_of_eq hroot.symm, by omega⟩, hv.kind, ?_, ?_⟩
    · exact hv.held.mono (Nat.le_succ _) (by omega) hkept
    · exact hu.held.mono (by omega) (Nat.le_refl _) fun k hge _ => hother k (by omega)

theorem tree_isRebuilt (tree : Tree) : tree.IsRebuilt := by
  induction tree with
  | leaf x =>
    intro s rest h hd hn
    exact ⟨_, _, ⟨2, reads_leaf h hn hd⟩, rebuilt_leaf x s hn⟩
  | node l r ihl ihr =>
    intro s rest h hd hsize
    have hroom : s.ncount.val + (l.size + r.size + 1) ≤ 513 := hsize
    have hn : s.ncount.val < 513 := by omega
    let f : Frame := { handle := ⟨s.ncount.val, hn⟩ }
    have hd' : s.input.bits.drop s.input.pos = (false :: l.bits) ++ (r.bits ++ rest) := by
      simpa [Tree.bits] using hd
    have hopen := readOn_afterOpen s hn
    obtain ⟨u, c, hreach, hu⟩ :=
      ihl (s.afterOpen hn) (r.bits ++ rest) (h.afterOpen hn) (hopen.drop (bits := [false]) hd')
        (by rw [hopen.ncount]; omega)
    have hv := leftRebuilt_leftReturned hn hu f rfl
    have hsv : Reaches s (u.leftReturned f c s.stack) := .head (step_tag_internal h hn hd') hreach
    obtain ⟨w, d, hreach', hw⟩ :=
      ihr (u.leftReturned f c s.stack) rest (hv.read.atTag h rfl) (hv.read.drop (bits := false :: l.bits) hd')
        (by rw [hv.read.ncount]; omega)
    exact ⟨_, _, hsv.trans hreach', hv.setRight rfl hw⟩

/-! ### The tree field as a whole -/

/-- An Internal root ends the parse, and the walk starts at it (R116, R163). -/
theorem returnNode_internal_root {s : State} {c : Handle} (hk : s.node[c.val].kind = .internal) :
    s.returnNode c [] =
      { s with phase := .dWalk, place := .top, root := c, cur := c, stack := [] } := by
  refine if_neg ?_
  simp [State.isLeaf, State.nodeAt, hk]

theorem Tree.heldAt.kind_of_isNode {node : Vector Node 513} {tree : Tree} {h : Handle}
    (held : Tree.heldAt node tree h) (hnode : tree.isNode = true) : node[h.val].kind = .internal := by
  cases tree with
  | leaf x => exact absurd hnode nofun
  | node l r => exact held.1

/-- Settles O43: the field rebuilds the tree, and its Internal root is returned to no open node. -/
theorem readTreeInvertsWriteTree : Obligations.ReadTreeInvertsWriteTree := by
  intro s tree rest hh hp hpl hn hst ha hd _ hnode hsize
  obtain ⟨u, c, hreach, hread, hframe, -, hin⟩ :=
    tree_isRebuilt tree s rest ⟨hh, hp, hpl, ha⟩ hd (by rw [hn]; simpa using hsize)
  have held := hin.heldAt
  rw [hst, returnNode_internal_root (held.kind_of_isNode hnode)] at hreach
  have hcount : u.ncount.val = tree.size := by rw [hread.ncount, hn]; exact Nat.zero_add _
  refine ⟨_, hreach, rfl, rfl, rfl, held, hcount, hread.pos, hread.bits, hread.answers ha, hread.inBits, hread.output,
    ?_, ?_, ?_, ?_, ?_, ?_, hread.host.trans hh⟩ <;> rw [hframe]

end Sys2Proof.Machine
end

section
/-! PROOFS. The walk of D_WALK one step at a time, and its end where the tree has no leaf of the sentinel (R117, R163, R164,
R167). -/

namespace Sys2Proof.Machine

/-! ### The steps of D_WALK -/

/-- The core is at the place `p` of D_WALK's loop, on open and reliable channels. -/
structure State.AtWalk (p : Place) (s : State) : Prop where
  host : s.host = []
  phase : s.phase = .dWalk
  place : s.place = p
  reliable : s.reliable = true
  isOpen : s.output.closed = false

theorem step_walkBit {s : State} {b : Bool} {rest : List Bool} (h : s.AtWalk .top)
    (hd : s.input.bits.drop s.input.pos = b :: rest) :
    step s = .next ((s.afterRead 1).walkTo (s.child s.cur b)) := by
  have hread := inReadBit_of_drop (nextAnswer_input_of_reliable h.reliable) hd
  have hbit : b.toNat.testBit 0 = b := by cases b <;> rfl
  have hbyte : ¬ s.place = .byte := by rw [h.place]; exact nofun
  rw [step_of_host_nil h.host, coreStep_dWalk h.phase, walkStep, if_neg hbyte, hread]
  dsimp only
  rw [hbit]
  rfl

/-- The walk meets the end of the input (R163). -/
theorem step_walkEnd {s : State} (h : s.AtWalk .top) (hd : s.input.bits.drop s.input.pos = []) :
    step s = .next (s.afterNoData.afterRaise .malformedStream 3) := by
  have hend : s.input.bits.length < s.input.pos + 1 := Nat.lt_succ_of_le (List.drop_eq_nil_iff.mp hd)
  have hbyte : ¬ s.place = .byte := by rw [h.place]; exact nofun
  rw [step_of_host_nil h.host, coreStep_dWalk h.phase, walkStep, if_neg hbyte, State.inReadBit,
    inRead_noData (nextAnswer_input_of_reliable h.reliable) hend]
  rfl

theorem step_walkByte {s : State} (h : s.AtWalk .byte) :
    step s = .next { s.afterWrite (bitsOf 8 (s.nodeAt s.cur).sym.val) with cur := s.root, place := .top } := by
  rw [step_of_host_nil h.host, coreStep_dWalk h.phase, walkStep, if_pos h.place,
    writeThen_ok _ _ _ h.isOpen (nextAnswer_output_of_reliable h.reliable)]
  rfl

/-! ### The subtree at the cursor -/

/-- The child that a bit selects holds a subtree (R79, R163). -/
theorem exists_held_child {s : State} {tree : Tree} {h : Handle} (held : Tree.heldAt s.node tree h)
    (hnode : tree.isNode = true) (b : Bool) :
    ∃ sub, Tree.heldAt s.node sub (s.child h b) ∧ ∀ x ∈ sub.leaves, x ∈ tree.leaves := by
  cases tree with
  | leaf x => exact absurd hnode nofun
  | node l r =>
    obtain ⟨-, hl, hr⟩ := held
    cases b with
    | false => exact ⟨l, hl, fun x hx => List.mem_append_left _ hx⟩
    | true => exact ⟨r, hr, fun x hx => List.mem_append_right _ hx⟩

theorem isNode_of_heldAt {s : State} {tree : Tree} {h : Handle} (held : Tree.heldAt s.node tree h)
    (hk : s.isLeaf h = false) : tree.isNode = true := by
  cases tree with
  | leaf x => exact absurd held.1 (of_decide_eq_false hk)
  | node l r => rfl

theorem sym_mem_leaves_of_heldAt {s : State} {tree : Tree} {h : Handle} (held : Tree.heldAt s.node tree h)
    (hk : s.isLeaf h = true) : (s.nodeAt h).sym ∈ tree.leaves := by
  cases tree with
  | leaf x => exact List.mem_singleton.mpr held.2
  | node l r => exact absurd (held.1.symm.trans (of_decide_eq_true hk)) nofun

/-! ### The walk without a sentinel (R117, R167) -/

/-- The walk is at the head of its loop in a tree at `ROOT`, below an Internal node, with no leaf of the sentinel ahead. -/
structure State.WalksOn (tree : Tree) (s : State) : Prop where
  atBit : s.AtWalk .top
  root : Tree.heldAt s.node tree s.root
  cursor : ∃ sub, Tree.heldAt s.node sub s.cur ∧ sub.isNode = true ∧ Config.eof ∉ sub.leaves

/-- A bit moves the cursor on below, or to a byte's leaf, whose byte is written before the walk restarts at the root. -/
theorem walksOn_bit {tree : Tree} (hnode : tree.isNode = true) (heof : Config.eof ∉ tree.leaves) {s : State} {b : Bool}
    {rest : List Bool} (h : s.WalksOn tree) (hd : s.input.bits.drop s.input.pos = b :: rest) :
    ∃ t, Reaches s t ∧ t.WalksOn tree ∧ t.input.bits.drop t.input.pos = rest ∧
      t.inBits = s.inBits + BitVec.ofNat 64 1 := by
  obtain ⟨hat, hroot, above, hcur, habove, hnone⟩ := h
  obtain ⟨sub, hsub, hleaves⟩ := exists_held_child hcur habove b
  have hstep := step_walkBit hat hd
  have hrest : s.input.bits.drop (s.input.pos + 1) = rest := by rw [← List.drop_drop, hd]; rfl
  have hrel : (s.afterRead 1).reliable = true :=
    reliable_of_drop (j := 1) (k := 0) hat.reliable List.drop_one.symm rfl
  rcases walkTo_cases (s.afterRead 1) (s.child s.cur b) with ⟨hk, e⟩ | ⟨hk, hx, _⟩ | ⟨hk, _, e⟩
  · rw [e] at hstep
    have hcursor : sub.isNode = true ∧ Config.eof ∉ sub.leaves :=
      ⟨isNode_of_heldAt hsub hk, fun hx => hnone (hleaves _ hx)⟩
    exact ⟨_, .of_step hstep,
      ⟨⟨hat.host, hat.phase, hat.place, hrel, hat.isOpen⟩, hroot, sub, hsub, hcursor⟩, hrest, rfl⟩
  · have hmem := sym_mem_leaves_of_heldAt hsub hk
    exact absurd (hleaves _ (hx ▸ hmem)) hnone
  · rw [e] at hstep
    let u : State := { s.afterRead 1 with cur := s.child s.cur b, place := .byte }
    have hbyte : step u = _ := step_walkByte ⟨hat.host, hat.phase, rfl, hrel, hat.isOpen⟩
    have hrel' := reliable_of_drop (t := u.afterWrite (bitsOf 8 (u.nodeAt u.cur).sym.val)) (j := 0) (k := 1)
      hrel rfl List.drop_one.symm
    exact ⟨_, .head hstep (.of_step hbyte),
      ⟨⟨hat.host, hat.phase, rfl, hrel', hat.isOpen⟩, hroot, tree, hroot, hnode, heof⟩, hrest, rfl⟩

theorem walksOn_to_end {tree : Tree} (hnode : tree.isNode = true) (heof : Config.eof ∉ tree.leaves) (rest : List Bool)
    {s : State} (h : s.WalksOn tree) (hd : s.input.bits.drop s.input.pos = rest) :
    ∃ t, Reaches s t ∧ t.phase = .eFlush ∧ t.errCode = .malformedStream ∧ t.errDetail = 3 ∧
      t.inBits = s.inBits + BitVec.ofNat 64 rest.length := by
  induction rest generalizing s with
  | nil => exact ⟨_, .of_step (step_walkEnd h.atBit hd), rfl, rfl, rfl, (BitVec.add_zero _).symm⟩
  | cons b rest ih =>
    obtain ⟨u, hsu, hu, hdu, hbits⟩ := walksOn_bit hnode heof h hd
    obtain ⟨t, hut, hphase, hcode, hdetail, hcount⟩ := ih hu hdu
    refine ⟨t, hsu.trans hut, hphase, hcode, hdetail, ?_⟩
    rw [hcount, hbits, BitVec.add_assoc, ← BitVec.ofNat_add, Nat.add_comm, List.length_cons]

/-- Settles O48: the walk goes on from bit to bit, and then the input ends. -/
theorem treeWithoutSentinelEndsInMalformedStream : Obligations.TreeWithoutSentinelEndsInMalformedStream := by
  intro s tree hh hp hpl hcur held hnode heof hrel hc _
  have hwalks : s.WalksOn tree := ⟨⟨hh, hp, hpl, hrel, hc⟩, held, tree, hcur ▸ held, hnode, heof⟩
  rw [← List.length_drop]
  exact walksOn_to_end hnode heof _ hwalks rfl

end Sys2Proof.Machine
end

section
/-! PROOFS. C_CODES as a whole: which entries of CODE the traversal binds, and which it leaves (R130, R133). -/

namespace Sys2Proof.Machine

theorem lookup_codes_of_not_mem_leaves {tree : Tree} {x : Symbol} (hx : x ∉ tree.leaves) :
    tree.codes.lookup x = none := by
  rw [← map_fst_codes] at hx
  exact List.lookup_eq_none_iff.mpr fun c hc => bne_iff_ne.mpr fun e => hx (List.mem_map.mpr ⟨c, hc, e.symm⟩)

theorem cbits_afterCodes_of_mem {tree : Tree} (hnodup : tree.leaves.Nodup) (s : State) (stack : List Frame)
    {x : Symbol} (hx : x ∈ tree.leaves) : (s.afterCodes tree.codes stack).cbits x = tree.code x := by
  obtain ⟨code, hl, -⟩ := lookup_of_mem_leaves hx
  rw [cbits_afterCodes hnodup, Tree.code, hl, Option.getD_some, Option.getD_some]

theorem cbits_afterCodes_of_not_mem {tree : Tree} (hnodup : tree.leaves.Nodup) (s : State) (stack : List Frame)
    {x : Symbol} (hx : x ∉ tree.leaves) : (s.afterCodes tree.codes stack).cbits x = s.cbits x := by
  rw [cbits_afterCodes hnodup, lookup_codes_of_not_mem_leaves hx, Option.getD_none]

/-- Settles O34: the traversal from the root, by induction on the tree (`reaches_afterCodes`), binds each leaf once. -/
theorem deriveCodesBindsThePaths : Obligations.DeriveCodesBindsThePaths := by
  intro s tree hh hp hpl hst held hnodup
  have hreach : Reaches s ((s.afterCodes tree.codes []).goto .cEmit) := reaches_cEmit ⟨hh, hp, hpl⟩ hst held
  have hbound := fun x (hx : x ∈ tree.leaves) => cbits_afterCodes_of_mem hnodup s [] hx
  have hkept := fun x (hx : x ∉ tree.leaves) => cbits_afterCodes_of_not_mem hnodup s [] hx
  exact ⟨_, hreach, rfl, rfl, rfl, hbound, hkept, rfl, rfl, rfl, rfl, rfl, rfl, rfl, rfl, hh⟩

end Sys2Proof.Machine
end

section
/-! PROOFS. C_MAGIC, the steps of C_EMIT and C_TERM one by one, and the flush that ends an operation
(R142 to R146, R165). -/

namespace Sys2Proof.Machine

/-! ### The header (R142) -/

/-- Settles O36: by the answer of the header's write. -/
theorem magicStepWritesTheHeader : Obligations.MagicStepWritesTheHeader := by
  intro s hh hp hc
  rw [step_of_host_nil hh, coreStep_cMagic hp, magicStep]
  exact ⟨fun ha => writeThen_ok 32 Config.magic.toNat _ hc ha, writeThen_ioError 32 Config.magic.toNat _ hc⟩

/-! ### The head of C_EMIT's loop: one `InRead(8)` (R144) -/

section
variable {s : State}

theorem emitStep_byte {b : Byte} (hpl : s.place = .top) (hread : s.inRead 8 = .value b.toNat (s.afterRead 8)) :
    emitStep s = .next ((s.afterRead 8).emitByte b) := by
  simp [emitStep, hpl, hread]

theorem emitByte_of_clen_zero {b : Byte} (hcode : s.clen (byteSymbol b) = 0) :
    s.emitByte b = s.afterRaise .inconsistentInput 0 := if_pos hcode

theorem emitByte_of_clen_ne_zero {b : Byte} (hcode : s.clen (byteSymbol b) ≠ 0) :
    s.emitByte b = s.moveTo (.bits (s.cbits (byteSymbol b))) := if_neg hcode

theorem emitStep_noData (hpl : s.place = .top) (ha : nextAnswer s.input.answers = .ok)
    (hn : s.input.bits.length < s.input.pos + 8) :
    emitStep s = .next ((s.afterNoData.goto .cTerm).moveTo (.bits (s.cbits Config.eof))) := by
  simp [emitStep, hpl, inRead_noData ha hn]
  rfl

theorem emitStep_read_ioError (hpl : s.place = .top) (ha : nextAnswer s.input.answers = .ioError) :
    emitStep s = .next (s.afterInError.afterRaise .channelError 1) := by
  simp [emitStep, hpl, inRead_ioError ha]
  rfl

/-! ### One bit of a code (R144, R145) -/

/-- In both phases the step writes the bit and then, after the last one, goes to the phase that follows the code. -/
theorem coreStep_eq_writeBit {b : Bool} {rest : List Bool} (hp : s.phase = .cEmit ∨ s.phase = .cTerm)
    (hpl : s.place = .bits (b :: rest)) :
    ∃ last, coreStep s = writeBit b rest last s ∧
      last (s.afterWrite [b]) = (s.afterWrite [b]).goto s.phase.afterCode := by
  rcases hp with hp | hp
  · refine ⟨State.moveTo .top, by rw [coreStep_cEmit hp, emitStep, hpl], moveTo_top_eq_goto ?_⟩
    rw [hp]
    exact hp
  · refine ⟨State.goto .cFlush, by rw [coreStep_cTerm hp, termStep, hpl], ?_⟩
    rw [hp]
    rfl

theorem writeBit_ioError {b : Bool} {rest : List Bool} {last : State → State} (hc : s.output.closed = false)
    (ha : nextAnswer s.output.answers = .ioError) :
    writeBit b rest last s = .next (s.afterOutError.afterRaise .channelError 3) :=
  writeThen_ioError _ _ _ hc ha

end

/-- Settles O38: the loop by what its read returns, a code bit by the answer of its write and by what is left of the
code. -/
theorem emitAndTermStepsWriteCodeBits : Obligations.EmitAndTermStepsWriteCodeBits := by
  refine ⟨fun s hh hp hpl => ?_, fun s b rest hh hp hpl hc => ?_⟩ <;> rw [step_of_host_nil hh]
  · rw [coreStep_cEmit hp]
    refine ⟨fun b ha ⟨_, hd⟩ => ?_, fun ha hn => ⟨_, emitStep_noData hpl ha hn⟩, emitStep_read_ioError hpl⟩
    rw [emitStep_byte hpl (inRead_byte ha hd.symm)]
    exact ⟨fun hcode => congrArg Host.Outcome.next (emitByte_of_clen_zero (s := s.afterRead 8) hcode),
      fun hcode => congrArg Host.Outcome.next (emitByte_of_clen_ne_zero (s := s.afterRead 8) hcode)⟩
  · obtain ⟨last, hstep, hlast⟩ := coreStep_eq_writeBit hp hpl
    rw [hstep]
    refine ⟨fun ha hne => ?_, fun ha hnil => ?_, writeBit_ioError hc⟩ <;> rw [writeBit_ok hc ha]
    · rw [if_neg hne]
      rfl
    · rw [if_pos hnil, hlast]
      rfl

/-! ### The flush (R146, R165) -/

theorem coreStep_flush {s : State} (hp : s.phase = .cFlush ∨ s.phase = .dDone) : coreStep s = flushStep s :=
  hp.elim coreStep_cFlush coreStep_dDone

/-- Settles O39: by the answer of the flush, which `flushPadsToWholeBytes` describes. -/
theorem flushEndsTheOperation : Obligations.FlushEndsTheOperation := by
  intro s hh hp hc
  obtain ⟨hok, hfail⟩ := flushPadsToWholeBytes s hc
  rw [step_of_host_nil hh, coreStep_flush hp, flushStep]
  refine ⟨fun ha => ?_, fun ha => ?_⟩
  · obtain ⟨pad, hlt, hmod, hflush⟩ := hok ha
    exact ⟨pad, hlt, hmod, by rw [hflush]; rfl⟩
  · rw [hfail ha]
    rfl

end Sys2Proof.Machine
end

section
/-! PROOFS. What a core step does to the phase and to the error recorded: the transitions of R141 and R166, and the errors of
R149 and R170. -/

namespace Sys2Proof.Machine

/-! ### The spec's lists, phase by phase -/

/-- The phases that follow a phase when nothing is raised (R141, R166, R184, R189). -/
def Phase.successors : Phase → List Phase
  | .idle => []
  | .cCount => [.cBuild]
  | .cBuild => [.cMagic]
  | .cMagic => [.cTree]
  | .cTree => [.cCodes]
  | .cCodes => [.cEmit]
  | .cEmit => [.cTerm]
  | .cTerm => [.cFlush]
  | .dMagic => [.dTree]
  | .dTree => [.dWalk]
  | .dWalk => [.dDone]
  | .cFlush | .dDone | .eFlush => [.idle]

/-- The errors a phase raises before the flush, each with its detail (R149, R170). -/
def Phase.errors : Phase → List (ErrCode × BitVec 4)
  | .cCount => [(.channelError, 1), (.inputTooLong, 0), (.channelError, 2)]
  | .cMagic | .cTree | .cTerm => [(.channelError, 3)]
  | .cEmit => [(.channelError, 3), (.channelError, 1), (.inconsistentInput, 0)]
  | .dMagic => [(.channelError, 1), (.malformedStream, 1), (.invalidFormat, 0)]
  | .dTree =>
    [(.channelError, 1), (.malformedStream, 2), (.inconsistentTree, 1), (.inconsistentTree, 2), (.inconsistentTree, 3)]
  | .dWalk => [(.channelError, 1), (.malformedStream, 3), (.channelError, 3)]
  | .idle | .cBuild | .cCodes | .cFlush | .dDone | .eFlush => []

/-- The flush's own error is none of these: it has no second flush (R184). -/
theorem flushError_not_mem_errors (p : Phase) : (.channelError, 4) ∉ p.errors := by
  cases p <;> decide

/-! ### The four effects of a step of phase `p` -/

/-- What a step from `s`, in phase `p`, to `t` does to the phase and to the error recorded. -/
inductive Effect (p : Phase) (s t : State) : Prop where
  /-- The phase goes on. -/
  | stays (phase : t.phase = p) (errCode : t.errCode = s.errCode)
  /-- The phase has ended. -/
  | follows (phase : t.phase ∈ p.successors) (errCode : t.errCode = s.errCode)
  /-- An error is recorded and the error sequence starts (R184). -/
  | raises (e : ErrCode) (d : BitVec 4) (listed : (e, d) ∈ p.errors) (errCode : t.errCode = e)
      (errDetail : t.errDetail = d) (phase : t.phase = .eFlush) (busy : t.busy = s.busy) (error : t.error = s.error)
  /-- The flush has failed, and the operation ends at once (R146, R165, R184). -/
  | flushFails (last : p = .cFlush ∨ p = .dDone) (errCode : t.errCode = .channelError) (errDetail : t.errDetail = 4)
      (phase : t.phase = .idle) (busy : t.busy = false) (error : t.error = true)

/-- A raise of an error the phase lists, after a change of the channels and the counters at most. -/
theorem effect_afterRaise {p : Phase} {s u : State} {e : ErrCode} {d : BitVec 4} (listed : (e, d) ∈ p.errors)
    (busy : u.busy = s.busy) (error : u.error = s.error) : Effect p s (u.afterRaise e d) :=
  .raises e d listed rfl rfl rfl busy error

/-- What a step does from `u` it does from `s`, where the two agree on the error recorded and the flags. -/
theorem Effect.after {p : Phase} {s u t : State} (h : Effect p u t) (errCode : u.errCode = s.errCode)
    (busy : u.busy = s.busy) (error : u.error = s.error) : Effect p s t := by
  cases h with
  | stays hp he => exact .stays hp (he.trans errCode)
  | follows hp he => exact .follows hp (he.trans errCode)
  | raises e d hl he hd hp hb hf => exact .raises e d hl he hd hp (hb.trans busy) (hf.trans error)
  | flushFails hl he hd hp hb hf => exact .flushFails hl he hd hp hb hf

/-! ### The effect of each phase's step -/

section
variable {s t : State}

theorem countStep_effect (hp : s.phase = .cCount) (h : countStep s = .next t) : Effect .cCount s t := by
  rcases countStep_next h with
    rfl | ⟨_, rfl | ⟨_, rfl⟩⟩ | ⟨_, rfl | rfl | ⟨b, _, ⟨_, rfl⟩ | ⟨_, rfl⟩⟩⟩
  · exact .stays hp rfl
  · exact effect_afterRaise (by decide) rfl rfl
  · exact .follows List.mem_cons_self rfl
  · exact effect_afterRaise (by decide) rfl rfl
  · exact .stays hp rfl
  · exact effect_afterRaise (by decide) rfl rfl
  · exact .stays hp rfl

theorem buildStep_effect (hp : s.phase = .cBuild) (h : buildStep s = .next t) : Effect .cBuild s t := by
  rcases buildStep_next h with ⟨_, u, hu, rfl⟩ | ⟨_, a, _, rfl⟩ | ⟨_, a, b, rest, _, _, rfl⟩
  · have hf := buildLeaves_frame hu
    unfold BuildFrame at hf
    rw [hf]
    exact .stays hp rfl
  · exact .follows List.mem_cons_self rfl
  · exact .stays hp rfl

theorem magicStep_effect (hp : s.phase = .cMagic) (h : magicStep s = .next t) : Effect .cMagic s t := by
  rcases magicStep_next h with rfl | rfl | rfl
  · exact .stays hp rfl
  · exact effect_afterRaise (by decide) rfl rfl
  · exact .follows List.mem_cons_self rfl

theorem writeTreeStep_effect (hp : s.phase = .cTree) (h : writeTreeStep s = .next t) : Effect .cTree s t := by
  rcases writeTreeStep_next hp h with
    ⟨_, rfl⟩ | ⟨f, rest, _, rfl | rfl | ⟨_, _, rfl⟩ | ⟨_, _, rfl⟩ | ⟨_, _, rfl⟩⟩
  · exact .follows List.mem_cons_self rfl
  · exact .stays hp rfl
  · exact effect_afterRaise (by decide) rfl rfl
  · exact .stays hp rfl
  · exact .stays hp rfl
  · exact .stays hp rfl

theorem codesStep_effect (hp : s.phase = .cCodes) (h : codesStep s = .next t) : Effect .cCodes s t := by
  rcases codesStep_next h with ⟨_, rfl⟩ | ⟨f, rest, _, ⟨_, rfl⟩ | ⟨_, rfl⟩⟩
  · exact .follows List.mem_cons_self rfl
  · exact .stays hp rfl
  · exact .stays hp rfl

theorem emitStep_effect (hp : s.phase = .cEmit) (h : emitStep s = .next t) : Effect .cEmit s t := by
  rcases emitStep_next h with
    rfl | ⟨b, rest, _, rfl | ⟨_, rfl⟩ | ⟨_, rfl⟩⟩ | ⟨_, rfl | rfl | ⟨b, _, ⟨_, rfl⟩ | ⟨_, rfl⟩⟩⟩
  · exact .stays hp rfl
  · exact effect_afterRaise (by decide) rfl rfl
  · exact .stays hp rfl
  · exact .stays hp rfl
  · exact effect_afterRaise (by decide) rfl rfl
  · exact .follows List.mem_cons_self rfl
  · exact effect_afterRaise (by decide) rfl rfl
  · exact .stays hp rfl

theorem termStep_effect (hp : s.phase = .cTerm) (h : termStep s = .next t) : Effect .cTerm s t := by
  rcases termStep_next h with rfl | ⟨b, rest, _, rfl | ⟨_, rfl⟩ | ⟨_, rfl⟩⟩ | ⟨_, rfl⟩
  · exact .stays hp rfl
  · exact effect_afterRaise (by decide) rfl rfl
  · exact .follows List.mem_cons_self rfl
  · exact .stays hp rfl
  · exact .follows List.mem_cons_self rfl

theorem flushStep_effect (hp : s.phase = .cFlush ∨ s.phase = .dDone) (h : flushStep s = .next t) :
    Effect s.phase s t := by
  rcases (flushStep_next h).2 with rfl | rfl | rfl
  · exact .stays rfl rfl
  · exact .flushFails hp rfl rfl rfl rfl rfl
  · have hend : .idle ∈ s.phase.successors := by rcases hp with hp | hp <;> rw [hp] <;> decide
    exact .follows hend rfl

theorem errorFlushStep_effect (hp : s.phase = .eFlush) (h : errorFlushStep s = .next t) : Effect .eFlush s t := by
  rcases (errorFlushStep_next h).2 with rfl | rfl | rfl
  · exact .stays hp rfl
  · exact .follows List.mem_cons_self rfl
  · exact .follows List.mem_cons_self rfl

theorem readMagicStep_effect (hp : s.phase = .dMagic) (h : readMagicStep s = .next t) : Effect .dMagic s t := by
  rcases readMagicStep_next h with rfl | rfl | rfl | ⟨_, rfl | rfl⟩
  · exact .stays hp rfl
  · exact effect_afterRaise (by decide) rfl rfl
  · exact effect_afterRaise (by decide) rfl rfl
  · exact .follows List.mem_cons_self rfl
  · exact effect_afterRaise (by decide) rfl rfl

/-- A returned node goes on with the parse, starts the walk or raises the Leaf root's error (R115, R116). -/
theorem returnNode_effect (hp : s.phase = .dTree) (h : Handle) (stack : List Frame) :
    Effect .dTree s (s.returnNode h stack) := by
  rcases returnNode_cases h stack s with ⟨_, _, _, _, e⟩ | ⟨_, _, _, e⟩ | ⟨_, _, _, e⟩ <;> rw [e]
  · exact .stays hp rfl
  · exact .follows List.mem_cons_self rfl
  · exact effect_afterRaise (by decide) rfl rfl

theorem readLeaf_effect {sym : Nat} (hp : s.phase = .dTree) (h : readLeaf sym s = .next t) : Effect .dTree s t := by
  rcases (readLeaf_next h).2 with ⟨_, rfl⟩ | ⟨_, _, rfl⟩ | ⟨_, _, rfl⟩
  · exact effect_afterRaise (by decide) rfl rfl
  · exact effect_afterRaise (by decide) rfl rfl
  · exact (returnNode_effect (by exact hp) _ _).after rfl rfl rfl

theorem readInternal_effect (hp : s.phase = .dTree) (h : readInternal s = .next t) : Effect .dTree s t := by
  rcases (readInternal_next h).2 with ⟨_, rfl⟩ | ⟨_, rfl⟩
  · exact effect_afterRaise (by decide) rfl rfl
  · exact .stays hp rfl

theorem readTreeStep_effect (hp : s.phase = .dTree) (h : readTreeStep s = .next t) : Effect .dTree s t := by
  rcases readTreeStep_next hp h with
    rfl | rfl | rfl | ⟨_, _, v, hr⟩ | ⟨_, _, ⟨_, rfl⟩ | ⟨_, rfl | hr⟩⟩
  · exact .stays hp rfl
  · exact effect_afterRaise (by decide) rfl rfl
  · exact effect_afterRaise (by decide) rfl rfl
  · exact (readLeaf_effect (s := s.afterRead 9) hp hr).after rfl rfl rfl
  · exact effect_afterRaise (by decide) rfl rfl
  · exact .stays hp rfl
  · exact (readInternal_effect (s := (s.afterRead 1).moveTo .top) hp hr).after rfl rfl rfl

theorem walkStep_effect (hp : s.phase = .dWalk) (h : walkStep s = .next t) : Effect .dWalk s t := by
  rcases walkStep_next h with rfl | ⟨_, rfl | rfl⟩ | ⟨_, rfl | rfl | ⟨_, b, rfl⟩⟩
  · exact .stays hp rfl
  · exact effect_afterRaise (by decide) rfl rfl
  · exact .stays hp rfl
  · exact effect_afterRaise (by decide) rfl rfl
  · exact effect_afterRaise (by decide) rfl rfl
  · rcases walkTo_cases (s.afterRead 1) (s.child s.cur b) with ⟨_, e⟩ | ⟨_, _, e⟩ | ⟨_, _, e⟩ <;> rw [e]
    · exact .stays hp rfl
    · exact .follows List.mem_cons_self rfl
    · exact .stays hp rfl

/-- Every step of the core has one of the four effects, by its phase. -/
theorem coreStep_effect (h : coreStep s = .next t) : Effect s.phase s t := by
  cases hp : s.phase with
  | idle => rw [coreStep_idle hp] at h; cases h; exact .stays hp rfl
  | cCount => exact countStep_effect hp (coreStep_cCount hp ▸ h)
  | cBuild => exact buildStep_effect hp (coreStep_cBuild hp ▸ h)
  | cMagic => exact magicStep_effect hp (coreStep_cMagic hp ▸ h)
  | cTree => exact writeTreeStep_effect hp (coreStep_cTree hp ▸ h)
  | cCodes => exact codesStep_effect hp (coreStep_cCodes hp ▸ h)
  | cEmit => exact emitStep_effect hp (coreStep_cEmit hp ▸ h)
  | cTerm => exact termStep_effect hp (coreStep_cTerm hp ▸ h)
  | cFlush => exact hp ▸ flushStep_effect (.inl hp) (coreStep_cFlush hp ▸ h)
  | dMagic => exact readMagicStep_effect hp (coreStep_dMagic hp ▸ h)
  | dTree => exact readTreeStep_effect hp (coreStep_dTree hp ▸ h)
  | dWalk => exact walkStep_effect hp (coreStep_dWalk hp ▸ h)
  | dDone => exact hp ▸ flushStep_effect (.inr hp) (coreStep_dDone hp ▸ h)
  | eFlush => exact errorFlushStep_effect hp (coreStep_eFlush hp ▸ h)

end

/-! ### The two statements -/

/-- Settles O55: a step that changes the phase ends it, raises an error in it, or is a flush that has failed. -/
theorem phasesFollowInTheSpecsOrder : Obligations.PhasesFollowInTheSpecsOrder := by
  intro s t h hne
  cases coreStep_effect h with
  | stays hp => exact absurd hp.symm hne
  | follows hp =>
    revert hp
    generalize s.phase = p, t.phase = q
    revert q
    cases p <;> decide
  | raises e d hl _ _ hp =>
    rw [hp]
    have hsome := List.ne_nil_of_mem hl
    revert hsome
    generalize s.phase = p
    cases p <;> decide
  | flushFails hl _ _ hp =>
    rw [hp]
    rcases hl with hl | hl <;> rw [hl] <;> decide

/-- A move of the host raises nothing: it keeps the error recorded, or clears it as a command and a reset do. -/
theorem hostMove_errCode {s t : State} {m : HostMove} (hm : m ≠ .core) (h : hostMove m s = .next t) :
    t.errCode = s.errCode ∨ t.errCode = .none := by
  rcases hostMove_next hm h with
    e | ⟨_, w, _, ⟨_, rfl⟩ | ⟨_, rfl⟩⟩ | ⟨_, ⟨c, rfl⟩ | ⟨answers, rfl⟩⟩ | ⟨_, rfl⟩
  · exact .inl (by rw [e])
  · exact .inr rfl
  · exact .inr rfl
  · exact .inl rfl
  · exact .inl rfl
  · exact .inr rfl

/-- Settles O41: of the four effects, two record an error: the raise of a listed one, and the flush that has failed. -/
theorem eachPhaseRaisesOnlyItsErrors : Obligations.EachPhaseRaisesOnlyItsErrors := by
  refine ⟨fun s t hnone h hraised => ?_, fun s t m rest hm h => ?_⟩
  · cases coreStep_effect h with
    | stays _ he => exact absurd (he.trans hnone) hraised
    | follows _ he => exact absurd (he.trans hnone) hraised
    | raises e d hl he hd hp hb hf =>
      have hflush : ¬ (e = .channelError ∧ d = 4) := fun ⟨he, hd⟩ =>
        flushError_not_mem_errors s.phase (he ▸ hd ▸ hl)
      rw [he, hd, if_neg hflush]
      refine ⟨?_, hp, hb, hf⟩
      revert hl
      generalize s.phase = p, (e, d) = x
      revert x
      cases p <;> decide
    | flushFails hl he hd hp hb hf =>
      rw [he, hd, if_pos ⟨rfl, rfl⟩]
      refine ⟨?_, hp, hf, hb⟩
      rcases hl with hl | hl <;> rw [hl] <;> decide
  · rw [step_host_cons] at h
    exact hostMove_errCode (s := { s with host := rest }) hm h

end Sys2Proof.Machine
end

section
/-! PROOFS. The steps of D_MAGIC and D_WALK one by one: what the read of the magic, the read of a bit and the write of a
decoded byte lead to (R161, R163, R164). -/

namespace Sys2Proof.Machine

section
variable {s : State}

/-! ### D_MAGIC (R161) -/

/-- The 32-bit word read where the next one is known. -/
theorem inRead_word {r : Word} {rest : List Bool} (ha : nextAnswer s.input.answers = .ok)
    (hd : s.input.bits.drop s.input.pos = bitsOf 32 r.toNat ++ rest) :
    s.inRead 32 = .value r.toNat (s.afterRead 32) := by
  have hread := inRead_of_drop ha hd (List.cons_ne_nil _ _)
  rwa [length_bitsOf, natOf_bitsOf_of_lt r.isLt] at hread

theorem readMagicStep_word {r : Word} (hread : s.inRead 32 = .value r.toNat (s.afterRead 32)) :
    readMagicStep s = if r = Config.magic then .next (s.afterRead 32).startTreeRead
      else .next ((s.afterRead 32).afterRaise .invalidFormat 0) := by
  simp only [readMagicStep, hread, BitVec.toNat_inj]
  rfl

theorem readMagicStep_noData (ha : nextAnswer s.input.answers = .ok)
    (hn : s.input.bits.length < s.input.pos + 32) :
    readMagicStep s = .next (s.afterNoData.afterRaise .malformedStream 1) := by
  rw [readMagicStep, inRead_noData ha hn]
  rfl

theorem readMagicStep_ioError (ha : nextAnswer s.input.answers = .ioError) :
    readMagicStep s = .next (s.afterInError.afterRaise .channelError 1) := by
  rw [readMagicStep, inRead_ioError ha]
  rfl

/-! ### D_WALK: one bit (R163) -/

theorem walkStep_bit {b : Bool} {rest : List Bool} (hpl : s.place = .top) (ha : nextAnswer s.input.answers = .ok)
    (hd : s.input.bits.drop s.input.pos = b :: rest) :
    walkStep s = .next ((s.afterRead 1).walkTo (s.child s.cur b)) := by
  have hbit : b.toNat.testBit 0 = b := by cases b <;> rfl
  simp only [walkStep, hpl, reduceCtorEq, if_false, inReadBit_of_drop ha hd, hbit]
  rfl

theorem walkStep_noData (hpl : s.place = .top) (ha : nextAnswer s.input.answers = .ok)
    (hn : s.input.pos = s.input.bits.length) :
    walkStep s = .next (s.afterNoData.afterRaise .malformedStream 3) := by
  simp only [walkStep, hpl, reduceCtorEq, if_false, State.inReadBit, inRead_noData (n := 1) ha (by omega)]
  rfl

theorem walkStep_read_ioError (hpl : s.place = .top) (ha : nextAnswer s.input.answers = .ioError) :
    walkStep s = .next (s.afterInError.afterRaise .channelError 1) := by
  simp only [walkStep, hpl, reduceCtorEq, if_false, State.inReadBit, inRead_ioError ha]
  rfl

theorem walkTo_of_internal {c : Handle} (hk : (s.nodeAt c).kind = .internal) : s.walkTo c = { s with cur := c } := by
  have hleaf : ¬ (s.nodeAt c).kind = .leaf := by rw [hk]; exact nofun
  exact if_neg (mt of_decide_eq_true hleaf)

theorem walkTo_of_leaf {c : Handle} (hk : (s.nodeAt c).kind = .leaf) :
    s.walkTo c = if (s.nodeAt c).sym = Config.eof then { s with cur := c, phase := .dDone, place := .top }
      else { s with cur := c, place := .byte } :=
  if_pos (decide_eq_true hk)

end

/-! ### The three statements -/

/-- Settles O42: by what the read of 32 bits returns. -/
theorem magicIsCheckedBeforeTheTree : Obligations.MagicIsCheckedBeforeTheTree := by
  intro s hh hp _
  rw [step_of_host_nil hh, coreStep_dMagic hp]
  refine ⟨fun r ha ⟨_, hd⟩ => ?_, fun ha hn => ⟨_, readMagicStep_noData ha hn⟩, readMagicStep_ioError⟩
  rw [readMagicStep_word (inRead_word ha hd.symm)]
  exact ⟨fun hr => if_pos hr, fun hr => if_neg hr⟩

/-- Settles O45: by what the read of one bit returns, and where it moves the cursor. -/
theorem walkStepMovesTheCursor : Obligations.WalkStepMovesTheCursor := by
  intro s hh hp hpl _
  rw [step_of_host_nil hh, coreStep_dWalk hp]
  refine ⟨fun b c ha ⟨_, hd⟩ hc => ?_, fun ha hn => ⟨_, walkStep_noData hpl ha hn⟩, walkStep_read_ioError hpl⟩
  obtain rfl : c = s.child s.cur b := hc
  rw [walkStep_bit hpl ha hd.symm]
  refine ⟨fun hk => ?_, fun hk hx => ?_, fun hk hx => ?_⟩
  · rw [walkTo_of_internal (s := s.afterRead 1) hk]
  · rw [walkTo_of_leaf (s := s.afterRead 1) hk]
    exact congrArg _ (if_pos hx)
  · rw [walkTo_of_leaf (s := s.afterRead 1) hk]
    exact congrArg _ (if_neg hx)

/-- Settles O46: by the answer of the write. -/
theorem walkWritesTheDecodedByte : Obligations.WalkWritesTheDecodedByte := by
  intro s hh hp hpl hc
  rw [step_of_host_nil hh, coreStep_dWalk hp, walkStep, if_pos hpl]
  exact ⟨writeThen_ok 8 _ _ hc, writeThen_ioError 8 _ _ hc⟩

end Sys2Proof.Machine
end

section
/-! PROOFS. The walk of D_WALK as a whole: the paths of leaves decode to their bytes, and the sentinel's path ends the walk
(R163, R164, R167, R168). -/

namespace Sys2Proof.Machine

/-! ### The walk so far -/

/-- After `n` reads of one bit and the writes of the bytes `xs` that they decode to, with the cursor where it was
(R163, R164). -/
def State.afterWalk (n : Nat) (xs : List Symbol) (s : State) : State :=
  { s with
    input := { s.input with pos := s.input.pos + n, answers := s.input.answers.drop n }
    inBits := s.inBits + BitVec.ofNat 64 n
    output := { s.output with
      bits := s.output.bits ++ xs.flatMap fun x => bitsOf 8 x.val
      answers := s.output.answers.drop xs.length }
    outBits := s.outBits + BitVec.ofNat 64 (8 * xs.length) }

theorem afterWalk_zero (s : State) : s.afterWalk 0 [] = s := by
  simp [State.afterWalk]

theorem afterWalk_append (m n : Nat) (xs ys : List Symbol) (s : State) :
    s.afterWalk (m + n) (xs ++ ys) = (s.afterWalk m xs).afterWalk n ys := by
  simp only [State.afterWalk, List.drop_drop, List.length_append, List.flatMap_append, List.append_assoc,
    Nat.add_assoc, Nat.mul_add, BitVec.ofNat_add, BitVec.add_assoc]

/-- One bit read. -/
theorem afterWalk_bit (s : State) : s.afterWalk 1 [] = s.afterRead 1 := by
  simp [State.afterWalk, State.afterRead]

/-- One byte written. -/
theorem afterWalk_byte (x : Symbol) (s : State) : s.afterWalk 0 [x] = s.afterWrite (bitsOf 8 x.val) := by
  simp [State.afterWalk, State.afterWrite]

/-- After the bits of a path from the cursor: it has moved along them (R79, R163). -/
def State.afterMoves (path : List Bool) (s : State) : State :=
  { s.afterWalk path.length [] with cur := path.foldl s.child s.cur }

theorem afterMoves_nil (s : State) : s.afterMoves [] = s := by
  rw [State.afterMoves, List.length_nil, afterWalk_zero]
  rfl

/-- The first bit and then the others. -/
theorem afterMoves_cons (b : Bool) (path : List Bool) (s : State) :
    s.afterMoves (b :: path) = ({ s.afterRead 1 with cur := s.child s.cur b } : State).afterMoves path := by
  have hbits : s.afterWalk (path.length + 1) [] = (s.afterRead 1).afterWalk path.length [] := by
    rw [← afterWalk_bit, ← afterWalk_append, Nat.add_comm, List.append_nil]
  rw [State.afterMoves, List.length_cons, hbits]
  rfl

theorem afterMoves_concat (path : List Bool) (b : Bool) (s : State) :
    s.afterMoves (path ++ [b]) =
      { (s.afterMoves path).afterRead 1 with cur := (s.afterMoves path).child (s.afterMoves path).cur b } := by
  have hbits : s.afterWalk (path.length + 1) [] = (s.afterWalk path.length []).afterRead 1 := by
    rw [← afterWalk_bit, ← afterWalk_append, List.append_nil]
  rw [State.afterMoves, List.length_append, List.length_singleton, hbits, List.foldl_concat]
  rfl

theorem State.AtWalk.afterWalk {p : Place} {s : State} (h : s.AtWalk p) (n : Nat) (xs : List Symbol) :
    (s.afterWalk n xs).AtWalk p :=
  ⟨h.host, h.phase, h.place, reliable_of_drop h.reliable rfl rfl, h.isOpen⟩

theorem State.AtWalk.afterMoves {p : Place} {s : State} (h : s.AtWalk p) (path : List Bool) :
    (s.afterMoves path).AtWalk p := by
  have hat := h.afterWalk path.length []
  exact ⟨hat.host, hat.phase, hat.place, hat.reliable, hat.isOpen⟩

theorem drop_afterWalk {s : State} {bits rest : List Bool} (xs : List Symbol)
    (hd : s.input.bits.drop s.input.pos = bits ++ rest) :
    (s.afterWalk bits.length xs).input.bits.drop (s.afterWalk bits.length xs).input.pos = rest := by
  show s.input.bits.drop (s.input.pos + bits.length) = rest
  rw [← List.drop_drop, hd, List.drop_left]

/-! ### Codes below a handle (R79) -/

/-- The path's first bit leads to a subtree that has the rest of the path. -/
theorem exists_held_child_of_code {s : State} {tree : Tree} {h : Handle} {x : Symbol} {b : Bool} {path : List Bool}
    (held : Tree.heldAt s.node tree h) (hc : (x, b :: path) ∈ tree.codes) :
    (s.nodeAt h).kind = .internal ∧ ∃ sub, Tree.heldAt s.node sub (s.child h b) ∧ (x, path) ∈ sub.codes := by
  cases tree with
  | leaf y => simp [Tree.codes] at hc
  | node l r =>
    obtain ⟨hk, hl, hr⟩ := held
    refine ⟨hk, ?_⟩
    rcases mem_codes_node.mp hc with ⟨d, hd, e⟩ | ⟨d, hd, e⟩ <;> cases e
    · exact ⟨l, hl, hd⟩
    · exact ⟨r, hr, hd⟩

/-- Where the path ends, there is its leaf. -/
theorem leaf_of_held_of_code_nil {s : State} {tree : Tree} {h : Handle} {x : Symbol}
    (held : Tree.heldAt s.node tree h) (hc : (x, []) ∈ tree.codes) :
    (s.nodeAt h).kind = .leaf ∧ (s.nodeAt h).sym = x := by
  cases tree with
  | leaf y =>
    obtain rfl : x = y := by simpa [Tree.codes] using hc
    exact held
  | node l r => simp [mem_codes_node] at hc

/-! ### One path (R163) -/

/-- Before the last bit of a path the walk stays at Internal nodes and reads on. -/
theorem reaches_afterMoves {s : State} {tree : Tree} {x : Symbol} {path more rest : List Bool} {b : Bool}
    (h : s.AtWalk .top) (held : Tree.heldAt s.node tree s.cur) (hc : (x, path ++ b :: more) ∈ tree.codes)
    (hd : s.input.bits.drop s.input.pos = path ++ rest) :
    Reaches s (s.afterMoves path) ∧
      ∃ sub, Tree.heldAt s.node sub (s.afterMoves path).cur ∧ (x, b :: more) ∈ sub.codes := by
  induction path generalizing s tree with
  | nil =>
    rw [afterMoves_nil]
    exact ⟨.refl s, tree, held, hc⟩
  | cons a path ih =>
    obtain ⟨-, sub, hsub, hc'⟩ := exists_held_child_of_code held hc
    have hk : (s.nodeAt (s.child s.cur a)).kind = .internal := by
      cases path <;> exact (exists_held_child_of_code hsub hc').1
    have hstep := step_walkBit h hd
    rw [walkTo_of_internal (s := s.afterRead 1) hk] at hstep
    have hrest : s.input.bits.drop (s.input.pos + 1) = path ++ rest := by rw [← List.drop_drop, hd]; rfl
    have hrel : (s.afterRead 1).reliable = true :=
      reliable_of_drop (j := 1) (k := 0) h.reliable List.drop_one.symm rfl
    let u : State := { s.afterRead 1 with cur := s.child s.cur a }
    obtain ⟨hreach, hcursor⟩ := ih (s := u) ⟨h.host, h.phase, h.place, hrel, h.isOpen⟩ hsub hc' hrest
    rw [afterMoves_cons]
    exact ⟨.head hstep hreach, hcursor⟩

/-- The last bit of a path leads to its leaf: the sentinel's ends the walk, a byte's makes its write due. -/
theorem reaches_leaf {s : State} {tree : Tree} {x : Symbol} {path rest : List Bool} (h : s.AtWalk .top)
    (held : Tree.heldAt s.node tree s.cur) (hc : (x, path) ∈ tree.codes) (hne : path ≠ [])
    (hd : s.input.bits.drop s.input.pos = path ++ rest) :
    (s.nodeAt (s.afterMoves path).cur).sym = x ∧
      Reaches s (if x = Config.eof then { s.afterMoves path with phase := .dDone, place := .top }
        else { s.afterMoves path with place := .byte }) := by
  obtain ⟨path, b, rfl⟩ : ∃ init b, path = init ++ [b] := ⟨_, _, (List.dropLast_append_getLast hne).symm⟩
  rw [List.append_assoc] at hd
  obtain ⟨hreach, sub, hsub, hc'⟩ := reaches_afterMoves h held hc hd
  obtain ⟨-, leaf, hleaf, hc''⟩ := exists_held_child_of_code (s := s.afterMoves path) hsub hc'
  obtain ⟨hk, rfl⟩ := leaf_of_held_of_code_nil hleaf hc''
  have hstep := step_walkBit (h.afterMoves path) (drop_afterWalk [] hd)
  rw [walkTo_of_leaf (s := (s.afterMoves path).afterRead 1) hk] at hstep
  rw [afterMoves_concat]
  exact ⟨rfl, hreach.trans (.of_step hstep)⟩

/-! ### The walk from the root -/

/-- The walk is at the root of `tree`, with the bits `ahead` left to read. -/
structure State.AtWalkRoot (tree : Tree) (ahead : List Bool) (s : State) : Prop where
  atBit : s.AtWalk .top
  cursor : s.cur = s.root
  held : Tree.heldAt s.node tree s.root
  ahead : s.input.bits.drop s.input.pos = ahead

theorem State.AtWalkRoot.afterWalk {s : State} {tree : Tree} {bits rest : List Bool}
    (h : s.AtWalkRoot tree (bits ++ rest)) (xs : List Symbol) : (s.afterWalk bits.length xs).AtWalkRoot tree rest :=
  ⟨h.atBit.afterWalk _ _, h.cursor, h.held, drop_afterWalk xs h.ahead⟩

/-- Where a walk at the root is put back to the root, nothing changes. -/
theorem backAtRoot_eq {s : State} (hcur : s.cur = s.root) (hpl : s.place = .top) :
    ({ s with cur := s.root, place := .top } : State) = s := by
  cases s
  cases hcur
  cases hpl
  rfl

/-- The path of a byte's leaf decodes to the byte, and the walk is at the root again (R164). -/
theorem reaches_decoded {s : State} {tree : Tree} {c : Symbol × List Bool} {rest : List Bool}
    (h : s.AtWalkRoot tree (c.2 ++ rest)) (hnode : tree.isNode = true) (hc : c ∈ tree.codes)
    (hx : c.1 ≠ Config.eof) : Reaches s (s.afterWalk c.2.length [c.1]) := by
  obtain ⟨hat, hcur, held, hd⟩ := h
  obtain ⟨hsym, hreach⟩ := reaches_leaf hat (hcur ▸ held) hc (ne_nil_of_mem_codes hnode hc) hd
  rw [if_neg hx] at hreach
  have hat' := hat.afterMoves c.2
  have hwrite := step_walkByte (s := { s.afterMoves c.2 with place := .byte })
    ⟨hat'.host, hat'.phase, rfl, hat'.reliable, hat'.isOpen⟩
  have hback := backAtRoot_eq (s := s.afterWalk c.2.length [c.1]) hcur hat.place
  refine hreach.trans (.of_step (hwrite.trans (congrArg _ (Eq.trans ?_ hback))))
  rw [← Nat.add_zero c.2.length, ← List.nil_append [c.1], afterWalk_append, afterWalk_byte, ← hsym]
  rfl

/-- The paths of any bytes' leaves decode to those bytes (R168). -/
theorem reaches_allDecoded {tree : Tree} (hnode : tree.isNode = true) {codes : List (Symbol × List Bool)}
    (hcodes : ∀ c ∈ codes, c ∈ tree.codes ∧ c.1 ≠ Config.eof) {s : State} {rest : List Bool}
    (h : s.AtWalkRoot tree (codes.flatMap (fun c => c.2) ++ rest)) :
    Reaches s (s.afterWalk (codes.flatMap fun c => c.2).length (codes.map Prod.fst)) := by
  induction codes generalizing s with
  | nil =>
    rw [List.flatMap_nil, List.length_nil, List.map_nil, afterWalk_zero]
    exact .refl s
  | cons c codes ih =>
    obtain ⟨⟨hc, hx⟩, hcodes⟩ := List.forall_mem_cons.mp hcodes
    rw [List.flatMap_cons, List.append_assoc] at h
    have hfirst := reaches_decoded h hnode hc hx
    have hothers := ih hcodes (h.afterWalk [c.1])
    rw [← afterWalk_append, ← List.length_append] at hothers
    exact hfirst.trans hothers

/-- The state in which the walk has ended at the handle `c` (R163). -/
def State.walkEnded (c : Handle) (s : State) : State := { s with cur := c, phase := .dDone, place := .top }

/-- After the bytes' paths, the sentinel's path ends the walk (R167). -/
theorem reaches_walkEnded {tree : Tree} (hnode : tree.isNode = true) {codes : List (Symbol × List Bool)}
    (hcodes : ∀ c ∈ codes, c ∈ tree.codes ∧ c.1 ≠ Config.eof) {last : List Bool}
    (hlast : (Config.eof, last) ∈ tree.codes) {s : State} {rest : List Bool}
    (h : s.AtWalkRoot tree (codes.flatMap (fun c => c.2) ++ last ++ rest)) :
    ∃ c, Reaches s
      ((s.afterWalk (codes.flatMap (fun c => c.2) ++ last).length (codes.map Prod.fst)).walkEnded c) := by
  rw [List.append_assoc] at h
  have hbytes := reaches_allDecoded hnode hcodes h
  obtain ⟨hat, hcur, held, hd⟩ := h.afterWalk (codes.map Prod.fst)
  obtain ⟨-, hend⟩ := reaches_leaf hat (hcur ▸ held) hlast (ne_nil_of_mem_codes hnode hlast) hd
  rw [if_pos rfl, State.afterMoves, ← afterWalk_append, List.append_nil, ← List.length_append] at hend
  exact ⟨_, hbytes.trans hend⟩

/-- Settles O47: the bytes' paths by induction, each back to the root, and then the sentinel's. -/
theorem walkDecodesConcatenatedCodes : Obligations.WalkDecodesConcatenatedCodes := by
  intro s tree codes last rest hh hp hpl hcur held hnode hr hc _ hcodes hlast hd
  have hroot : s.AtWalkRoot tree (codes.flatMap (fun c => c.2) ++ last ++ rest) :=
    ⟨⟨hh, hp, hpl, hr, hc⟩, hcur, held, hd⟩
  obtain ⟨c, hreach⟩ := reaches_walkEnded hnode hcodes hlast hroot
  refine ⟨_, _, hreach, rfl, rfl, rfl, ?_, rfl, rfl, ?_, hc, reliable_of_drop hr rfl rfl, rfl, rfl, hh⟩
  · exact congrArg (s.output.bits ++ ·) (List.flatMap_map _ _ _)
  · exact congrArg (fun n => s.outBits + BitVec.ofNat 64 (8 * n)) (List.length_map _)

end Sys2Proof.Machine
end

section
/-! PROOFS. DECOMPRESS as a whole, from the command word to the flush, and the round trip (R160, R166, R169). -/

namespace Sys2Proof.Machine

/-! ### The command and the header (R160, R161) -/

theorem launchable_iff (s : State) :
    s.launchable = true ↔ s.input.pos = 0 ∧ s.output.bits = [] ∧ s.output.closed = false := by
  simp [State.launchable, and_assoc]

/-- The state after DECOMPRESS has been accepted and started, with no host move to come. -/
def State.decompressStarted (s : State) : State := ({ s with host := [] }.accept 0b10).startDecompress

theorem step_launchDecompress {s : State} (hb : s.busy = false) :
    step (s.launch 0x00000002#32) = .next s.decompressStarted := by
  have hdecode : decodeCmd 0x00000002#32 = .ok .decompress := rfl
  rw [State.launch, step_host_cons, hostMove, hostWrite_cmd, cmdWrite_of_ok _ hdecode,
    exec_decompress_of_not_busy (s := { s with host := [] }) hb]
  rfl

/-- The core is in D_MAGIC, with an open output, reliable channels and the bits `ahead` left to read. -/
structure State.AtHeader (ahead : List Bool) (s : State) : Prop where
  host : s.host = []
  phase : s.phase = .dMagic
  isOpen : s.output.closed = false
  reliable : s.reliable = true
  ahead : s.input.bits.drop s.input.pos = ahead

theorem atHeader_decompressStarted {s : State} (hr : s.reliable = true) (hlaunch : s.launchable = true) :
    s.decompressStarted.AtHeader s.input.bits := by
  obtain ⟨hpos, -, hopen⟩ := (launchable_iff s).mp hlaunch
  refine ⟨rfl, rfl, hopen, hr, ?_⟩
  show s.input.bits.drop s.input.pos = s.input.bits
  rw [hpos, List.drop_zero]

/-! ### The tree (R114) -/

/-- The core is at the start of D_TREE, with an open output, reliable channels and the bits `ahead` left to read. -/
structure State.AtTreeField (ahead : List Bool) (s : State) : Prop where
  atTag : s.AtTag
  ncount : s.ncount = 0
  stack : s.stack = []
  isOpen : s.output.closed = false
  reliable : s.reliable = true
  ahead : s.input.bits.drop s.input.pos = ahead

/-- The magic leads to the tree field (R161). -/
theorem reaches_dTree {s : State} {rest : List Bool} (h : s.AtHeader (bitsOf 32 Config.magic.toNat ++ rest)) :
    ∃ t, Reaches s t ∧ t.AtTreeField rest ∧ Advance [] 32 s t := by
  have hread := inRead_word (nextAnswer_input_of_reliable h.reliable) h.ahead
  have hstep : step s = .next (s.afterRead 32).startTreeRead := by
    rw [step_of_host_nil h.host, coreStep_dMagic h.phase, readMagicStep_word hread, if_pos rfl]
  have hrel : (s.afterRead 32).reliable = true :=
    reliable_of_drop (j := 1) (k := 0) h.reliable List.drop_one.symm rfl
  have hdrop : s.input.bits.drop (s.input.pos + 32) = rest := by
    rw [← List.drop_drop, h.ahead, List.drop_left' (length_bitsOf 32 _)]
  exact ⟨_, .of_step hstep,
    ⟨⟨h.host, rfl, rfl, ((reliable_iff _).mp hrel).1⟩, rfl, rfl, h.isOpen, hrel, hdrop⟩,
    ⟨rfl, rfl, rfl, rfl, fun _ => hrel, rfl, (List.append_nil _).symm, (BitVec.add_zero _).symm, rfl⟩⟩

/-- The tree field leads to the walk at the root of its tree (R114, R116). -/
theorem reaches_dWalk {s : State} {tree : Tree} {rest : List Bool} (h : s.AtTreeField (tree.bits ++ rest))
    (hnode : tree.isNode = true) (hsize : tree.size ≤ 513) :
    ∃ t, Reaches s t ∧ t.AtWalkRoot tree rest ∧ Advance [] tree.bits.length s t := by
  obtain ⟨u, c, hreach, hread, hframe, -, hin⟩ :=
    tree_isRebuilt tree s rest h.atTag h.ahead (by rw [h.ncount]; simpa using hsize)
  rw [h.stack, returnNode_internal_root (hin.heldAt.kind_of_isNode hnode)] at hreach
  have hrel : u.reliable = true :=
    (reliable_iff u).mpr ⟨hread.answers h.atTag.answers, hread.output ▸ ((reliable_iff s).mp h.reliable).2⟩
  have hwritten : u.output.bits = s.output.bits ++ [] := by rw [hread.output, List.append_nil]
  have hstatus : u.error = s.error ∧ u.errCode = s.errCode ∧ u.lastOp = s.lastOp ∧ u.outBits = s.outBits := by
    rw [hframe]
    exact ⟨rfl, rfl, rfl, rfl⟩
  obtain ⟨herror, hcode, hop, hcount⟩ := hstatus
  exact ⟨_, hreach,
    ⟨⟨hread.host.trans h.atTag.host, rfl, rfl, hrel, hread.output ▸ h.isOpen⟩, rfl, hin.heldAt, hread.drop h.ahead⟩,
    ⟨hread.host, herror, hcode, hop, fun _ => hrel, congrArg OutChannel.closed hread.output, hwritten,
      hcount.trans (BitVec.add_zero _).symm, hread.inBits⟩⟩

/-! ### The payload (R79, R163) -/

theorem mem_codes_code {tree : Tree} {x : Symbol} (hx : x ∈ tree.leaves) : (x, tree.code x) ∈ tree.codes := by
  obtain ⟨code, hl, hc⟩ := lookup_of_mem_leaves hx
  rwa [Tree.code, hl]

/-- The bytes as symbols, each with its code. -/
def Tree.codesOf (tree : Tree) (bs : List Byte) : List (Symbol × List Bool) :=
  bs.map fun b => (byteSymbol b, tree.code (byteSymbol b))

theorem flatMap_codesOf (tree : Tree) (bs : List Byte) :
    (tree.codesOf bs).flatMap (fun c => c.2) = tree.payload bs :=
  List.flatMap_map _ _ _

theorem mem_codes_of_mem_codesOf {tree : Tree} {bs : List Byte} (ht : ∀ b ∈ bs, byteSymbol b ∈ tree.leaves) :
    ∀ c ∈ tree.codesOf bs, c ∈ tree.codes ∧ c.1 ≠ Config.eof := by
  intro c hc
  obtain ⟨b, hb, rfl⟩ := List.mem_map.mp hc
  exact ⟨mem_codes_code (ht b hb), byteSymbol_ne_eof b⟩

/-- What the walk writes for the codes of the bytes are the bytes. -/
theorem flatMap_bitsOf_codesOf (tree : Tree) (bs : List Byte) :
    ((tree.codesOf bs).map Prod.fst).flatMap (fun x => bitsOf 8 x.val) = bitsOfBytes bs := by
  induction bs with
  | nil => rfl
  | cons b bs ih => exact congrArg (bitsOf 8 b.toNat ++ ·) ih

/-! ### The whole operation (R165, R166, R189) -/

/-- D_DONE closes an output of whole bytes without a pad and completes the operation. -/
theorem step_done {s : State} (hh : s.host = []) (hp : s.phase = .dDone) (hr : s.reliable = true)
    (hc : s.output.closed = false) (hbytes : s.output.bits.length % 8 = 0) :
    ∃ t, step s = .next t ∧ t.busy = false ∧ t.done = true ∧ t.error = s.error ∧
      t.output.bits = s.output.bits ∧ t.output.closed = true := by
  obtain ⟨pad, hlt, hmod, hflush⟩ :=
    (flushEndsTheOperation s hh (.inr hp) hc).1 (nextAnswer_output_of_reliable hr)
  obtain rfl : pad = [] := List.length_eq_zero_iff.mp (by omega)
  exact ⟨_, hflush, rfl, rfl, rfl, List.append_nil _, rfl⟩

/-- DECOMPRESS of an artifact, with any bits after it, ends with `DONE` and the artifact's bytes. -/
theorem decompress_artifact {s : State} {tree : Tree} {bs : List Byte} {pad : List Bool} (hb : s.busy = false)
    (hr : s.reliable = true) (hlaunch : s.launchable = true) (hin : s.input.bits = artifactBits tree bs ++ pad)
    (ht : tree.Encodes bs) (hsize : tree.size ≤ 513) :
    ∃ t, Reaches (s.launch 0x00000002#32) t ∧ t.busy = false ∧ t.done = true ∧ t.error = false ∧
      t.output.bits = bitsOfBytes bs ∧ t.output.closed = true := by
  obtain ⟨-, hempty, -⟩ := (launchable_iff s).mp hlaunch
  have hheader := atHeader_decompressStarted hr hlaunch
  rw [hin, artifactBits, List.append_assoc, List.append_assoc, List.append_assoc] at hheader
  obtain ⟨u, hsu, hu, hadvU⟩ := reaches_dTree hheader
  obtain ⟨v, huv, hv, hadvV⟩ := reaches_dWalk hu ht.isNode hsize
  have hadv := hadvU.trans hadvV
  rw [← flatMap_codesOf, ← List.append_assoc] at hv
  obtain ⟨c, hvw⟩ := reaches_walkEnded ht.isNode (mem_codes_of_mem_codesOf ht.bytes) (mem_codes_code ht.eof) hv
  have hstart : v.output.bits = [] := hadv.written.trans (congrArg (· ++ []) hempty)
  set w := (v.afterWalk ((tree.codesOf bs).flatMap (fun c => c.2) ++ tree.code Config.eof).length
    ((tree.codesOf bs).map Prod.fst)).walkEnded c
  have hwritten : w.output.bits = bitsOfBytes bs := by
    rw [← flatMap_bitsOf_codesOf tree bs, ← List.nil_append (List.flatMap _ _), ← hstart]
    rfl
  have hbytes : w.output.bits.length % 8 = 0 := by rw [hwritten, length_bitsOfBytes, Nat.mul_mod_right]
  obtain ⟨t, hwt, hbusy, hdone, herror, hbits, hclosed⟩ :=
    step_done (s := w) hv.atBit.host rfl (reliable_of_drop hv.atBit.reliable rfl rfl) hv.atBit.isOpen hbytes
  refine ⟨t, .head (step_launchDecompress hb) (hsu.trans (huv.trans (hvw.trans (.of_step hwt)))), hbusy, hdone,
    herror.trans hadv.error, hbits.trans hwritten, hclosed⟩

/-- Settles O50: what COMPRESS wrote is the artifact of a tree with 257 leaves at most, so 513 nodes at most. -/
theorem decompressOfCompressIsTheInput : Obligations.DecompressOfCompressIsTheInput := by
  intro s bs hb hr hlaunch hrew hin hreplay hmax
  have hsecond : s.input.replay.getD s.input.bits = bitsOfBytes bs := by rw [hreplay]; exact hin
  obtain ⟨t, tree, pad, hreach, hbusy, hdone, -, -, -, -, -, hnode, hnodup, hleaves, hbits, -⟩ :=
    compressWritesTheArtifact s bs bs hb hr hlaunch hrew hin hsecond (fun _ h => h) hmax
  have henc : tree.Encodes bs :=
    { isNode := hnode
      nodup := hnodup
      bytes := fun b hb => hleaves.mem_iff.mpr (mem_leafSymbols_byte hb)
      eof := hleaves.mem_iff.mpr (mem_leafSymbols_eof bs) }
  have hsize : tree.size ≤ 513 := by
    have hcount := length_leafSymbols_le bs
    have hnodes := (treeFieldLength tree).2
    rw [← hleaves.length_eq] at hcount
    omega
  exact ⟨t, hreach, hbusy, hdone, fun u hbu hru hlaunchU hinU =>
    decompress_artifact hbu hru hlaunchU (hinU.trans hbits) henc hsize⟩

end Sys2Proof.Machine
end

section
/-! PROOFS. DECOMPRESS of an artifact that is cut short: where its end is met, and how the operation ends (R171, R184). -/

namespace Sys2Proof.Machine

/-! ### The end of an operation that has raised an error (R184) -/

/-- No step but a flush writes `DONE`. -/
theorem coreStep_done {s t : State} (h : coreStep s = .next t) (hc : s.phase ≠ .cFlush) (hd : s.phase ≠ .dDone)
    (he : s.phase ≠ .eFlush) : t.done = s.done := by
  cases hp : s.phase with
  | idle => rw [coreStep_idle hp] at h; cases h; rfl
  | cCount => rw [coreStep_cCount hp] at h; rw [(countStep_frame h).1]; rfl
  | cBuild => rw [coreStep_cBuild hp] at h; rw [(buildStep_frame h).1]; rfl
  | cMagic => rw [coreStep_cMagic hp] at h; rw [(magicStep_frame h).1]; rfl
  | cTree => rw [coreStep_cTree hp] at h; rw [(writeTreeStep_frame hp h).1]; rfl
  | cCodes => rw [coreStep_cCodes hp] at h; rw [(codesStep_frame h).1]; rfl
  | cEmit => rw [coreStep_cEmit hp] at h; rw [(emitStep_frame h).1]; rfl
  | cTerm => rw [coreStep_cTerm hp] at h; rw [(termStep_frame h).1]; rfl
  | dMagic => rw [coreStep_dMagic hp] at h; rw [(readMagicStep_frame h).1]; rfl
  | dTree => rw [coreStep_dTree hp] at h; rw [(readTreeStep_frame hp h).eq]; rfl
  | dWalk => rw [coreStep_dWalk hp] at h; rw [(walkStep_frame h).1]; rfl
  | cFlush => exact absurd hp hc
  | dDone => exact absurd hp hd
  | eFlush => exact absurd hp he

/-- A core step leaves `DONE` and the output's `closed` as they are, or the operation has ended. -/
theorem coreStep_keeps_done_or_ends {s t : State} (h : coreStep s = .next t) :
    t.phase = .idle ∨ (t.done = s.done ∧ t.output.closed = s.output.closed) := by
  by_cases hc : s.phase = .cFlush
  · rcases (flushStep_next (coreStep_cFlush hc ▸ h)).2 with rfl | rfl | rfl
    exacts [.inr ⟨rfl, rfl⟩, .inl rfl, .inl rfl]
  by_cases hd : s.phase = .dDone
  · rcases (flushStep_next (coreStep_dDone hd ▸ h)).2 with rfl | rfl | rfl
    exacts [.inr ⟨rfl, rfl⟩, .inl rfl, .inl rfl]
  by_cases he : s.phase = .eFlush
  · rcases (errorFlushStep_next (coreStep_eFlush he ▸ h)).2 with rfl | rfl | rfl
    exacts [.inr ⟨rfl, rfl⟩, .inl rfl, .inl rfl]
  exact .inr ⟨coreStep_done h hc hd he, coreStep_closed h hc hd he⟩

/-- A running operation on an open output and reliable channels, with no host move to come, or its end. -/
structure State.Underway (s : State) : Prop where
  host : s.host = []
  reliable : s.reliable = true
  running : s.phase = .idle ∨ (s.done = false ∧ s.output.closed = false)

theorem reliable_of_transaction {s t : State} (h : Transaction s t) (hr : s.reliable = true) : t.reliable = true := by
  cases h with
  | none hi ho => exact reliable_of_drop (j := 0) (k := 0) hr (by rw [hi]; rfl) (by rw [ho]; rfl)
  | input ha ho => exact reliable_of_drop (j := 1) (k := 0) hr (by rw [ha, List.drop_one]) (by rw [ho]; rfl)
  | output hi ha _ => exact reliable_of_drop (j := 0) (k := 1) hr (by rw [hi]; rfl) (by rw [ha, List.drop_one])

theorem State.Underway.step {s t : State} (h : s.Underway) (hstep : step s = .next t) : t.Underway := by
  rw [step_of_host_nil h.host] at hstep
  obtain ⟨-, -, -, -, -, -, -, -, -, -, -, hhost⟩ := coreStep_frame hstep
  refine ⟨hhost.trans h.host, reliable_of_transaction (coreStep_transaction hstep) h.reliable, ?_⟩
  rcases h.running with hp | ⟨hdone, hopen⟩
  · rw [coreStep_idle hp] at hstep
    cases hstep
    exact .inl hp
  · exact (coreStep_keeps_done_or_ends hstep).imp_right fun ⟨hd, hc⟩ => ⟨hd.trans hdone, hc.trans hopen⟩

/-- The run from `s` raises `MalformedStream(d)`. -/
def RaisesMalformed (d : BitVec 4) (s : State) : Prop :=
  ∃ t, Reaches s t ∧ t.phase = .eFlush ∧ t.errCode = .malformedStream ∧ t.errDetail = d

theorem RaisesMalformed.after {d : BitVec 4} {s t : State} (h : Reaches s t) (ht : RaisesMalformed d t) :
    RaisesMalformed d s := by
  obtain ⟨u, htu, hu⟩ := ht
  exact ⟨u, h.trans htu, hu⟩

/-- The error sequence's flush ends the operation with the error recorded (R184). -/
theorem RaisesMalformed.ends {d : BitVec 4} {s : State} (h : RaisesMalformed d s) (hs : s.Underway) :
    ∃ t, Reaches s t ∧ t.busy = false ∧ t.done = false ∧ t.error = true ∧ t.phase = .idle ∧
      t.errCode = .malformedStream ∧ t.errDetail = d := by
  obtain ⟨t, hreach, hp, hcode, hdetail⟩ := h
  obtain ⟨hh, hr, hrun⟩ := Reaches.induction (fun _ _ => State.Underway.step) hs hreach
  obtain ⟨hdone, hopen⟩ := hrun.resolve_left (by rw [hp]; exact nofun)
  have hflush : step t = .next t.afterFlush.endError := by
    rw [step_of_host_nil hh, coreStep_eFlush hp, errorFlushStep,
      outFlushClose_ok hopen (nextAnswer_output_of_reliable hr)]
    rfl
  exact ⟨_, hreach.trans (.of_step hflush), rfl, hdone, rfl, rfl, hcode, hdetail⟩

/-! ### Where a cut artifact ends -/

/-- A proper beginning of two parts ends within the first, or goes on to a proper beginning of the second. -/
theorem proper_prefix_append_cases {p a b : List Bool} (h : p <+: a ++ b) (hne : p ≠ a ++ b) :
    (p.length < a.length ∧ p <+: a ∧ p ≠ a) ∨ ∃ q, p = a ++ q ∧ q <+: b ∧ q ≠ b := by
  rcases Nat.lt_or_ge p.length a.length with hlt | hge
  · have hp : p <+: a := List.prefix_of_prefix_length_le h (List.prefix_append a b) (Nat.le_of_lt hlt)
    exact .inl ⟨hlt, hp, fun e => Nat.ne_of_lt hlt (congrArg _ e)⟩
  · obtain ⟨q, rfl⟩ := List.prefix_of_prefix_length_le (List.prefix_append a b) h hge
    exact .inr ⟨q, rfl, (List.prefix_append_right_inj a).mp h, fun e => hne (congrArg _ e)⟩

/-- Within the magic (R161). -/
theorem raisesMalformed_header {s : State} {part : List Bool} (h : s.AtHeader part) (hlt : part.length < 32) :
    RaisesMalformed 1 s := by
  have hlen := congrArg List.length h.ahead
  rw [List.length_drop] at hlen
  have hstep : step s = .next (s.afterNoData.afterRaise .malformedStream 1) := by
    rw [step_of_host_nil h.host, coreStep_dMagic h.phase,
      readMagicStep_noData (nextAnswer_input_of_reliable h.reliable) (by omega)]
  exact ⟨_, .of_step hstep, rfl, rfl, rfl⟩

/-- Within the tree field (R115). -/
theorem raisesMalformed_tree {s : State} {tree : Tree} {part : List Bool} (h : s.AtTreeField part)
    (hpre : part <+: tree.bits) (hne : part ≠ tree.bits) (hsize : tree.size ≤ 513) : RaisesMalformed 2 s := by
  obtain ⟨t, hreach, hp, hcode, hdetail, -⟩ :=
    truncated_tree tree h.atTag h.ahead hpre hne (by rw [h.ncount]; simpa using hsize)
  exact ⟨t, hreach, hp, hcode, hdetail⟩

/-- Within a code: the walk stands at an Internal node (R163). -/
theorem raisesMalformed_code {s : State} {tree : Tree} {c : Symbol × List Bool} {part : List Bool}
    (h : s.AtWalkRoot tree part) (hc : c ∈ tree.codes) (hpre : part <+: c.2) (hne : part ≠ c.2) :
    RaisesMalformed 3 s := by
  obtain ⟨x, code⟩ := c
  obtain ⟨more, rfl⟩ := hpre
  obtain ⟨b, more, rfl⟩ := List.exists_cons_of_ne_nil fun e : more = [] => hne (by rw [e, List.append_nil])
  have hd : s.input.bits.drop s.input.pos = part ++ [] := h.ahead.trans (List.append_nil part).symm
  obtain ⟨hreach, -⟩ := reaches_afterMoves h.atBit (h.cursor ▸ h.held) hc hd
  exact ⟨_, hreach.trans (.of_step (step_walkEnd (h.atBit.afterMoves part) (drop_afterWalk [] hd))), rfl, rfl, rfl⟩

/-- Within the codes of bytes and of the sentinel: the bytes whose codes are there decode, and the next code is cut. -/
theorem raisesMalformed_codes {tree : Tree} (hnode : tree.isNode = true) {codes : List (Symbol × List Bool)}
    (hcodes : ∀ c ∈ codes, c ∈ tree.codes ∧ c.1 ≠ Config.eof) {last : List Bool}
    (hlast : (Config.eof, last) ∈ tree.codes) {s : State} {part : List Bool} (h : s.AtWalkRoot tree part)
    (hpre : part <+: codes.flatMap (fun c => c.2) ++ last) (hne : part ≠ codes.flatMap (fun c => c.2) ++ last) :
    RaisesMalformed 3 s := by
  induction codes generalizing s part with
  | nil => exact raisesMalformed_code h hlast hpre hne
  | cons c codes ih =>
    obtain ⟨⟨hc, hx⟩, hcodes⟩ := List.forall_mem_cons.mp hcodes
    rw [List.flatMap_cons, List.append_assoc] at hpre hne
    rcases proper_prefix_append_cases hpre hne with ⟨-, hcut, hcne⟩ | ⟨rest, rfl, hrest, hrne⟩
    · exact raisesMalformed_code h hc hcut hcne
    · exact .after (reaches_decoded h hnode hc hx) (ih hcodes (h.afterWalk [c.1]) hrest hrne)

/-- Settles O51: by the field in which the artifact is cut. -/
theorem truncatedArtifactIsMalformed : Obligations.TruncatedArtifactIsMalformed := by
  intro s tree bs part hb hr hlaunch hin hnode _ hsize hbytes heof hpre hne
  obtain ⟨-, -, hopen⟩ := (launchable_iff s).mp hlaunch
  have hunderway : s.decompressStarted.Underway := ⟨rfl, hr, .inr ⟨rfl, hopen⟩⟩
  have hheader : s.decompressStarted.AtHeader part := hin ▸ atHeader_decompressStarted hr hlaunch
  suffices hraises : RaisesMalformed
      (if part.length < 32 then 1 else if part.length < 32 + tree.bits.length then 2 else 3) s.decompressStarted by
    obtain ⟨t, hreach, hend⟩ := hraises.ends hunderway
    exact ⟨t, .head (step_launchDecompress hb) hreach, hend⟩
  have hmagic : (bitsOf 32 Config.magic.toNat).length = 32 := length_bitsOf 32 _
  rw [artifactBits, List.append_assoc, List.append_assoc] at hpre hne
  rcases proper_prefix_append_cases hpre hne with ⟨hlt, -⟩ | ⟨field, rfl, hfield, hfne⟩
  · rw [hmagic] at hlt
    rw [if_pos hlt]
    exact raisesMalformed_header hheader hlt
  obtain ⟨u, hsu, hu, -⟩ := reaches_dTree hheader
  refine .after hsu ?_
  rw [List.length_append, hmagic, if_neg (by omega)]
  rcases proper_prefix_append_cases hfield hfne with ⟨hlt, hcut, hcne⟩ | ⟨rest, rfl, hrest, hrne⟩
  · rw [if_pos (by omega)]
    exact raisesMalformed_tree hu hcut hcne hsize
  · obtain ⟨v, huv, hv, -⟩ := reaches_dWalk hu hnode hsize
    rw [List.length_append, if_neg (by omega)]
    rw [← flatMap_codesOf] at hrest hrne
    exact .after huv
      (raisesMalformed_codes hnode (mem_codes_of_mem_codesOf hbytes) (mem_codes_code heof) hv hrest hrne)

end Sys2Proof.Machine
end

section
/-! PROOFS. The flush of the error sequence (R184, R185, R187). -/

namespace Sys2Proof.Machine

/-- Settles O40: by the answer of the flush, which `flushPadsToWholeBytes` describes; an I/O error pads nothing. -/
theorem errorFlushKeepsTheFirstError : Obligations.ErrorFlushKeepsTheFirstError := by
  intro s hh hp hc hsilent
  obtain ⟨hok, hfail⟩ := flushPadsToWholeBytes s hc
  rw [step_of_host_nil hh, coreStep_eFlush hp, errorFlushStep]
  cases ha : nextAnswer s.output.answers with
  | silent => exact absurd ha hsilent
  | ioError =>
    refine ⟨[], by decide, nofun, fun _ => rfl, ?_⟩
    rw [hfail ha, List.append_nil]
    rfl
  | ok =>
    obtain ⟨pad, hlt, hmod, hflush⟩ := hok ha
    refine ⟨pad, hlt, fun _ => hmod, nofun, ?_⟩
    rw [hflush]
    rfl

end Sys2Proof.Machine
end
